-- ==== Sys2Proof/Word.lean ====
section
/-! DEFINITION. The word types: bytes, linear and physical addresses, paging-structure entries.
Bit 0 is the least-significant bit of every value (`00_scope.md` R8). -/

namespace Sys2Proof

/-- A byte is 8 bits (R9). -/
abbrev Byte := BitVec 8

/-- A linear address: 64 bits in IA-32e mode; elsewhere the low 32 bits count (R31, R111). -/
abbrev LAddr := BitVec 64

/-- A physical address: at most 52 bits (R31). -/
abbrev PAddr := BitVec 52

/-- The value of a paging-structure entry; a 4-byte entry is zero-extended (R70). -/
abbrev Entry := BitVec 64

/-- The current privilege level, a value 0..3 (R26). -/
abbrev Cpl := Fin 4

end Sys2Proof
end

