-- ==== Sys2Proof/Syntax.lean ====
section
/-! DEFINITION. The operations of the machine (`30_encoding.md` R110, R117): one constructor for each
row of the opcode table, and the form in which a program holds an operation. -/

namespace Sys2Proof

/-- The kinds of memory access (R13). -/
inductive AccessKind where
  | read
  | write
  | fetch
deriving DecidableEq, Repr, Inhabited

/-- The control registers a MOV from CRn names in this spec: 0, 3 and 4 (the row's field `n`). -/
inductive CrNum where
  | cr0
  | cr3
  | cr4
deriving DecidableEq, Repr, Inhabited

/-- What follows the ModR/M byte of a memory operand: its SIB and displacement bytes, and whether they
are those of 16-bit addressing, which the address-size prefix selects in 32-bit code (R112). -/
structure Tail where
  addr16 : Bool
  bytes : List Byte
deriving DecidableEq, Repr, Inhabited

/-- The operations. An operand value (`la`, `v`) is carried by the operation itself (R111, D1); the
ModR/M fields `md` (mod) and `rm` (r/m) of the encoded rows are carried too, although no meaning
reads them, because the registers they name are not state of this machine (R28). Prefixes are not
carried: they change no operation (R112, R113). -/
inductive Instr where
  /-- `READ la, n` (R151). -/
  | read (la : LAddr) (n : Nat)
  /-- `WRITE la, n, v` (R152). -/
  | write (la : LAddr) (n : Nat) (v : Nat)
  /-- `FETCH la, n` (R153). -/
  | fetch (la : LAddr) (n : Nat)
  /-- `INVLPG la` (R231). `tail` is what follows ModR/M (R112, R113). -/
  | invlpg (md : BitVec 2) (rm : BitVec 3) (tail : Tail) (la : LAddr)
  /-- `MOV_TO_CR3 v` (R232). -/
  | movToCr3 (md : BitVec 2) (rm : BitVec 3) (v : BitVec 64)
  /-- `MOV_TO_CR4 v` (R233). -/
  | movToCr4 (md : BitVec 2) (rm : BitVec 3) (v : BitVec 64)
  /-- `MOV_TO_CR0 v` (R340). -/
  | movToCr0 (md : BitVec 2) (rm : BitVec 3) (v : BitVec 64)
  /-- `MOV r, CRn` (R113). -/
  | movFromCrn (md : BitVec 2) (cr : CrNum) (rm : BitVec 3)
  /-- `HLT` (R376). -/
  | hlt
  /-- `CPUID` (R158). -/
  | cpuid
deriving DecidableEq, Repr, Inhabited

/-- How a program holds one operation: an access as itself, since its rows have no bit pattern
(R117); every other operation as the bytes of the instruction stream from its first byte on,
with the operand value that the source register or the effective address gives (R111, D1). -/
inductive OpText where
  | read (la : LAddr) (n : Nat)
  | write (la : LAddr) (n : Nat) (v : Nat)
  | fetch (la : LAddr) (n : Nat)
  | code (bytes : List Byte) (operand : BitVec 64)
deriving DecidableEq, Repr, Inhabited

/-- One operation as software issues it: at a CPL (R26, R110). -/
structure Issue where
  cpl : Cpl
  text : OpText
deriving DecidableEq, Repr, Inhabited

end Sys2Proof
end

