-- ==== Sys2Proof/Config.lean ====
section
/-! DEFINITION. The implementation parameters (`00_scope.md` R6), the moves of the agents and the
nondeterministic choices as plain data, and the free values: opaque constants that stand for every
move and every choice which State does not fix in advance (R12, R43). -/

namespace Sys2Proof

/-- An interval of physical addresses. -/
structure Region where
  base : Nat
  size : Nat
deriving DecidableEq, Repr, Inhabited

/-- Whether a physical byte address lies in an interval. -/
def Region.contains (r : Region) (a : Nat) : Bool := decide (r.base ≤ a) && decide (a < r.base + r.size)

/-- The parameters of an implementation and its platform (R6, D8, D24). They are held in State and no
step changes them, so a claim about every state is a claim about all of their values. -/
structure Config where
  /-- `MAXPHYADDR`, the physical-address width. -/
  maxPhyAddr : Nat
  /-- `PSE36`, CPUID.01H.EDX bit 17. -/
  pse36 : Bool
  /-- `Intel64`: IA-32e mode is available. -/
  intel64 : Bool
  /-- `NLP`, the number of logical processors. -/
  nlp : Nat
  /-- `InvlpgSelective`: INVLPG behaves as in R392. -/
  invlpgSelective : Bool
  /-- `MemRange`, the populated physical addresses. -/
  memRange : List Region
  /-- `ReadSideEffect`, the addresses whose reading has side effects. -/
  readSideEffect : List Region
deriving DecidableEq, Repr, Inhabited

/-- The byte address is populated (R96). -/
def Config.populated (cfg : Config) (a : Nat) : Bool := cfg.memRange.any (·.contains a)

/-- Reading the byte address has side effects (R94). -/
def Config.sideEffectAt (cfg : Config) (a : Nat) : Bool := cfg.readSideEffect.any (·.contains a)

/-- The bounds of R6 and D26: `32 <= MAXPHYADDR <= 52`, at least one logical processor, and no
populated address that MAXPHYADDR bits cannot name (R31). -/
def Config.wf (cfg : Config) : Bool :=
  decide (32 ≤ cfg.maxPhyAddr) && decide (cfg.maxPhyAddr ≤ 52) && decide (0 < cfg.nlp) &&
  cfg.memRange.all fun r => decide (r.base + r.size ≤ 2 ^ cfg.maxPhyAddr)

/-- The parameter values that `95_test_vectors.md` Part B uses. DESIGN CHOICE (log 5), unsafe: a claim
about runs from reset alone is a claim about these values. -/
def Config.initial : Config :=
  { maxPhyAddr := 36, pse36 := true, intel64 := true, nlp := 2, invlpgSelective := false,
    memRange := [⟨0, 2 ^ 36⟩], readSideEffect := [] }

/-- Entries removed beyond the required ones (R234, R240): bit k of a mask removes the k-th entry of
the set, so every subset is some mask. -/
structure Removal where
  tlb : Nat
  pml4c : Nat
  pdpc : Nat
  pdec : Nat
deriving DecidableEq, Repr, Inhabited

/-- Where a walk starts (R150 path B): at the root, or at the k-th entry of a paging-structure cache
among those that apply to the address. -/
inductive WalkStart where
  | root
  | pml4c (k : Nat)
  | pdpc (k : Nat)
  | pdec (k : Nat)
deriving DecidableEq, Repr, Inhabited

/-- What the processor is free to choose at one step (R12). DESIGN CHOICE (log 4), safe: each value of
a choice is one permitted behaviour, and every permitted behaviour is a value. -/
structure Choice where
  /-- Other agents act before this step of the access (R137, D10). -/
  pause : Bool
  /-- Translate by the k-th TLB entry among those that apply (R150 path A), or walk. -/
  hit : Option Nat
  /-- Where the walk starts (R150 path B). -/
  start : WalkStart
  /-- The step commits, or is dry (R143). -/
  commit : Bool
  /-- Keep the result of the step as a cached entry (R173, R196 to R198). -/
  keep : Bool
  /-- Keep an ordinary translation made from a large page (R286). -/
  keepPiece : Bool
  /-- What an invalidation removes besides the required entries (R234). -/
  extra : Removal
  /-- Bits of a control register that the spec does not describe. -/
  bits : BitVec 64
deriving DecidableEq, Repr, Inhabited

/-- One move of one agent (R7 item 1). -/
inductive Event where
  /-- Processor p goes on with its software: the access in progress, or its next operation. -/
  | software (p : Nat)
  /-- A speculative access or prefetch of p (R156). -/
  | speculate (p : Nat) (la : LAddr) (kind : AccessKind) (cpl : Cpl) (n : Nat)
  /-- A walk of p's translation hardware that stops after at most `steps` steps and reads no data:
  the fills of R196 to R198 and of R173 (R199). -/
  | fill (p : Nat) (la : LAddr) (steps : Nat)
  /-- Spontaneous invalidation of entries of p (R241). -/
  | drop (p : Nat) (which : Removal)
  /-- The environment resumes p (R376). -/
  | resume (p : Nat)
deriving DecidableEq, Repr, Inhabited

/-- The n-th free choice: any value at all (log 4). -/
opaque Config.choice : Nat → Choice

/-- The n-th free move: any agent, any move (log 3). -/
opaque Config.event : Nat → Event

end Sys2Proof
end

