-- ==== Sys2Proof/WellFormed.lean ====
section
/-! DEFINITION. Which operations are well formed: the constraints the spec puts on operands. -/

namespace Sys2Proof

/-- Why an operation is ill formed. -/
inductive IllFormed where
  /-- An access of no bytes: `1 <= n` (D29). -/
  | emptyAccess
  /-- An access that leaves its 4-KByte page: `la[11:0] + n <= 4096` (R93). -/
  | crossesPage
  /-- A value that is not a value of n bytes (R152). -/
  | valueTooWide
  /-- INVLPG with mod = 11: other instructions, not INVLPG (R113). -/
  | registerForm
  /-- INVLPG whose SIB and displacement bytes are not those of its addressing form (R112). -/
  | wrongTail
  /-- An instruction of more than 15 bytes (R112). -/
  | tooLong
deriving DecidableEq, Repr, Inhabited

/-- How many displacement bytes a form of 16-bit addressing has (R112: 1 or 2), by the family's rule.
PRESUMED (log 36). -/
def dispLength16 (md : BitVec 2) (rm : BitVec 3) : Nat :=
  if md = 1 then 1
  else if md = 2 then 2
  else if rm = 6 then 2
  else 0

/-- How many displacement bytes a form of 32- or 64-bit addressing has (R112: 1 or 4), by the family's
rule. PRESUMED (log 36): the decoder would split an instruction stream wrongly if they were others; no
meaning depends on it. -/
def dispLength (md : BitVec 2) (rm : BitVec 3) (sib : Byte) : Nat :=
  if md = 1 then 1
  else if md = 2 then 4
  else if rm = 5 then 4
  else if rm = 4 && sib.extractLsb' 0 3 == 5#3 then 4
  else 0

/-- Whether `tail` is exactly the SIB and displacement bytes of the form (R112); 16-bit addressing has
no SIB byte. PRESUMED (log 36). -/
def tailFits (md : BitVec 2) (rm : BitVec 3) (tail : Tail) : Bool :=
  if tail.addr16 then tail.bytes.length == dispLength16 md rm
  else if rm = 4 then
    match tail.bytes with
    | [] => false
    | sib :: disp => disp.length == dispLength md rm sib
  else tail.bytes.length == dispLength md rm 0

/-- The fault of an access's extent, if it has one (R93, D29). -/
def accessIllFormed (la : LAddr) (n : Nat) : Option IllFormed :=
  if n = 0 then some .emptyAccess
  else if 4096 < (la.extractLsb' 0 12).toNat + n then some .crossesPage
  else none

/-- What is wrong with an operation, if anything. -/
def illFormed : Instr → Option IllFormed
  | .read la n => accessIllFormed la n
  | .write la n v =>
    match accessIllFormed la n with
    | some w => some w
    | none => if v < 2 ^ (8 * n) then none else some .valueTooWide
  | .fetch la n => accessIllFormed la n
  | .invlpg md rm tail _ =>
    if md = 3 then some .registerForm
    else if tailFits md rm tail then none else some .wrongTail
  | .movToCr3 _ _ _ => none
  | .movToCr4 _ _ _ => none
  | .movToCr0 _ _ _ => none
  | .movFromCrn _ _ _ => none
  | .hlt => none
  | .cpuid => none

/-- An operation is well formed when nothing is wrong with it. -/
def wellFormed (i : Instr) : Bool := (illFormed i).isNone

end Sys2Proof
end

