-- ==== Sys2Proof/Decode.lean ====
section
/-! DEFINITION. The decoder, total on any bytes, and the encoder, both written from the opcode table
(`30_encoding.md` R113, R117). The bit patterns are general knowledge in the spec itself (G1). -/

namespace Sys2Proof

/-- Why the bytes of a slot are no operation of this machine (R115). -/
inductive DecodeError where
  /-- The bytes end before the instruction does. -/
  | truncated
  /-- The opcode bytes are those of no row of the table. -/
  | unknownOpcode
  /-- `0F 01` with a reg field other than 7. -/
  | notInvlpg
  /-- `0F 20` or `0F 22` with a control register that this spec does not describe. -/
  | undescribedControlRegister (n : BitVec 3)
  /-- A MOV to or from a control register whose number a REX prefix extends: one that this spec does not
  describe (R112, R113). PRESUMED (log 36). -/
  | extendedControlRegister
  /-- The bytes or the operands spell an ill-formed operation. -/
  | illFormed (why : IllFormed)
deriving DecidableEq, Repr, Inhabited

/-- What decoding a stream of bytes gives: an operation and the bytes after it, or an error. -/
inductive Decoded where
  | ok (i : Instr) (rest : List Byte)
  | bad (e : DecodeError)
deriving DecidableEq, Repr, Inhabited

/-- The mod field of a ModR/M byte: bits 7:6 (R112). -/
def modField (b : Byte) : BitVec 2 := b.extractLsb' 6 2

/-- The reg field of a ModR/M byte: bits 5:3 (R112). -/
def regField (b : Byte) : BitVec 3 := b.extractLsb' 3 3

/-- The r/m field of a ModR/M byte: bits 2:0 (R112). -/
def rmField (b : Byte) : BitVec 3 := b.extractLsb' 0 3

/-- A ModR/M byte from its fields `mm rrr bbb` (R112). -/
def modRm (md : BitVec 2) (reg rm : BitVec 3) : Byte := md ++ reg ++ rm

/-- The longest instruction, in bytes (R112). -/
def maxInstrBytes : Nat := 15

/-- How many bytes follow the ModR/M byte of a memory form, given the byte after it (R112). -/
def tailLength (addr16 : Bool) (md : BitVec 2) (rm : BitVec 3) (after : List Byte) : Nat :=
  if addr16 then dispLength16 md rm
  else if rm = 4 then 1 + dispLength md rm (after.headD 0)
  else dispLength md rm 0

/-- INVLPG after its ModR/M byte: `0F 01 /7` with mod not 11 (R113). -/
def decodeInvlpg (addr16 : Bool) (modrm : Byte) (after : List Byte) (operand : BitVec 64) : Decoded :=
  if regField modrm ≠ 7 then .bad .notInvlpg
  else if modField modrm = 3 then .bad (.illFormed .registerForm)
  else
    let k := tailLength addr16 (modField modrm) (rmField modrm) after
    if after.length < k then .bad .truncated
    else .ok (.invlpg (modField modrm) (rmField modrm) ⟨addr16, after.take k⟩ operand) (after.drop k)

/-- MOV to CRn after its ModR/M byte: `0F 22 /r` (R113). -/
def decodeMovTo (modrm : Byte) (rest : List Byte) (operand : BitVec 64) : Decoded :=
  if regField modrm = 0 then .ok (.movToCr0 (modField modrm) (rmField modrm) operand) rest
  else if regField modrm = 3 then .ok (.movToCr3 (modField modrm) (rmField modrm) operand) rest
  else if regField modrm = 4 then .ok (.movToCr4 (modField modrm) (rmField modrm) operand) rest
  else .bad (.undescribedControlRegister (regField modrm))

/-- MOV from CRn after its ModR/M byte: `0F 20 /r` (R113). -/
def decodeMovFrom (modrm : Byte) (rest : List Byte) : Decoded :=
  if regField modrm = 0 then .ok (.movFromCrn (modField modrm) .cr0 (rmField modrm)) rest
  else if regField modrm = 3 then .ok (.movFromCrn (modField modrm) .cr3 (rmField modrm)) rest
  else if regField modrm = 4 then .ok (.movFromCrn (modField modrm) .cr4 (rmField modrm)) rest
  else .bad (.undescribedControlRegister (regField modrm))

/-- One instruction of the two-byte opcode map: the byte after `0F` and what follows it (R113). -/
def decodeTwoByte (addr16 : Bool) (opcode : Byte) (rest : List Byte) (operand : BitVec 64) : Decoded :=
  if opcode = 0xA2 then .ok .cpuid rest
  else
    match rest with
    | [] => if opcode = 0x01 ∨ opcode = 0x20 ∨ opcode = 0x22 then .bad .truncated else .bad .unknownOpcode
    | modrm :: after =>
      if opcode = 0x01 then decodeInvlpg addr16 modrm after operand
      else if opcode = 0x20 then decodeMovFrom modrm after
      else if opcode = 0x22 then decodeMovTo modrm after operand
      else .bad .unknownOpcode

/-- An instruction from its opcode on (R113). -/
def decodeOpcode (addr16 : Bool) (bytes : List Byte) (operand : BitVec 64) : Decoded :=
  match bytes with
  | [] => .bad .truncated
  | b :: rest =>
    if b = 0xF4 then .ok .hlt rest
    else if b = 0x0F then
      match rest with
      | [] => .bad .truncated
      | opcode :: rest' => decodeTwoByte addr16 opcode rest' operand
    else .bad .unknownOpcode

/-- The address-size prefix. PRESUMED (log 36). -/
def addressSizePrefix : Byte := 0x67

/-- The legacy prefixes (R112), by the family's list: segment overrides, operand size, address size,
LOCK, REPNE, REP. PRESUMED (log 36). -/
def isLegacyPrefix (b : Byte) : Bool :=
  [0x26#8, 0x2E, 0x36, 0x3E, 0x64, 0x65, 0x66, addressSizePrefix, 0xF0, 0xF2, 0xF3].contains b

/-- A REX prefix is one byte `0100WRXB` (R112). -/
def isRex (b : Byte) : Bool := b.extractLsb' 4 4 == 4#4

/-- The bytes after an optional REX prefix, which exists in 64-bit mode only (R112). -/
def skipRex (long : Bool) (bytes : List Byte) : List Byte :=
  match bytes with
  | [] => []
  | b :: rest => if long && isRex b then rest else b :: rest

/-- A REX prefix in 64-bit mode whose R bit extends the reg field of ModR/M (R112). -/
def extendsReg (long : Bool) (bytes : List Byte) : Bool :=
  match bytes with
  | [] => false
  | b :: _ => long && isRex b && b.getLsbD 2

/-- The reg field of ModR/M names a control register (R113). -/
def namesControlRegister : Instr → Bool
  | .read _ _ => false
  | .write _ _ _ => false
  | .fetch _ _ => false
  | .invlpg _ _ _ _ => false
  | .movToCr3 _ _ _ => true
  | .movToCr4 _ _ _ => true
  | .movToCr0 _ _ _ => true
  | .movFromCrn _ _ _ => true
  | .hlt => false
  | .cpuid => false

/-- An instruction whose reg field is extended or not: an extended control register is none of 0, 3 and 4,
by the family's rule. PRESUMED (log 36). -/
def extended (ext : Bool) : Decoded → Decoded
  | .ok i rest => if ext && namesControlRegister i then .bad .extendedControlRegister else .ok i rest
  | .bad e => .bad e

/-- An instruction of at most 15 bytes (R112), out of a stream of `n` bytes. -/
def limited (n : Nat) : Decoded → Decoded
  | .ok i rest => if maxInstrBytes < n - rest.length then .bad (.illFormed .tooLong) else .ok i rest
  | .bad e => .bad e

/-- Whether legacy prefixes select 16-bit addressing: the address-size prefix outside 64-bit mode.
PRESUMED (log 36). -/
def selects16 (long : Bool) (legacy : List Byte) : Bool := !long && legacy.contains addressSizePrefix

/-- The first instruction of a stream of bytes, in ascending address order: legacy prefixes, a REX
prefix, the opcode and what follows it (R112). `long` is 64-bit mode: IA32_EFER.LMA = 1 (log 45). -/
def decodeBytes (long : Bool) (bytes : List Byte) (operand : BitVec 64) : Decoded :=
  limited bytes.length
    (extended (extendsReg long (bytes.dropWhile isLegacyPrefix))
      (decodeOpcode (selects16 long (bytes.takeWhile isLegacyPrefix))
        (skipRex long (bytes.dropWhile isLegacyPrefix)) operand))

/-- An operation if it is well formed, and its defect otherwise. -/
def checked (i : Instr) (rest : List Byte) : Decoded :=
  match illFormed i with
  | some why => .bad (.illFormed why)
  | none => .ok i rest

/-- The operation a program slot holds, in 64-bit mode or outside it (R112, log 45). -/
def decode (long : Bool) : OpText → Decoded
  | .read la n => checked (.read la n) []
  | .write la n v => checked (.write la n v) []
  | .fetch la n => checked (.fetch la n) []
  | .code bytes operand => decodeBytes long bytes operand

/-- The reg field that names a control register (R113). -/
def crField : CrNum → BitVec 3
  | .cr0 => 0
  | .cr3 => 3
  | .cr4 => 4

/-- The bytes of an instruction from its opcode on, from the rows of the table; an access has none. -/
def opcodeBytes : Instr → List Byte
  | .read _ _ => []
  | .write _ _ _ => []
  | .fetch _ _ => []
  | .invlpg md rm tail _ => 0x0F :: 0x01 :: modRm md 7 rm :: tail.bytes
  | .movToCr3 md rm _ => [0x0F, 0x22, modRm md 3 rm]
  | .movToCr4 md rm _ => [0x0F, 0x22, modRm md 4 rm]
  | .movToCr0 md rm _ => [0x0F, 0x22, modRm md 0 rm]
  | .movFromCrn md cr rm => [0x0F, 0x20, modRm md (crField cr) rm]
  | .hlt => [0xF4]
  | .cpuid => [0x0F, 0xA2]

/-- INVLPG with 16-bit addressing: its encoding needs the address-size prefix, and 64-bit mode has no
such form (R112, log 36). -/
def usesAddr16 : Instr → Bool
  | .read _ _ => false
  | .write _ _ _ => false
  | .fetch _ _ => false
  | .invlpg _ _ tail _ => tail.addr16
  | .movToCr3 _ _ _ => false
  | .movToCr4 _ _ _ => false
  | .movToCr0 _ _ _ => false
  | .movFromCrn _ _ _ => false
  | .hlt => false
  | .cpuid => false

/-- The whole instruction, with no prefix that it does not need. -/
def instrBytes (i : Instr) : List Byte :=
  if usesAddr16 i then addressSizePrefix :: opcodeBytes i else opcodeBytes i

/-- Legacy prefixes, then in 64-bit mode at most one REX prefix (R112). -/
def prefixesOk (long : Bool) (ps : List Byte) : Bool :=
  match ps.dropWhile isLegacyPrefix with
  | [] => true
  | [b] => long && isRex b
  | _ :: _ :: _ => false

/-- The slot that holds an operation, from the same rows of the table. -/
def encode : Instr → OpText
  | .read la n => .read la n
  | .write la n v => .write la n v
  | .fetch la n => .fetch la n
  | .invlpg md rm tail la => .code (instrBytes (.invlpg md rm tail la)) la
  | .movToCr3 md rm v => .code (instrBytes (.movToCr3 md rm v)) v
  | .movToCr4 md rm v => .code (instrBytes (.movToCr4 md rm v)) v
  | .movToCr0 md rm v => .code (instrBytes (.movToCr0 md rm v)) v
  | .movFromCrn md cr rm => .code (instrBytes (.movFromCrn md cr rm)) 0
  | .hlt => .code (instrBytes .hlt) 0
  | .cpuid => .code (instrBytes .cpuid) 0

/-- The bytes of the instruction stream whose first `nbits` bits are `w`, the rest zero, bit 0 the
least-significant bit of the first byte. -/
def wordBytes (nbits w : Nat) : List Byte :=
  (List.range maxInstrBytes).map fun k => BitVec.ofNat 8 ((w % 2 ^ nbits) >>> (8 * k))

/-- The operation the decoder reads from the `nbits` bits of `w` outside 64-bit mode, its operand zero.
The rows of the table have no prefixes, and without prefixes both modes decode alike. -/
def decodeTableWord (nbits w : Nat) : Option Instr :=
  match decode false (.code (wordBytes nbits w) 0) with
  | .ok i _ => some i
  | .bad _ => none

end Sys2Proof
end

