-- ==== Sys2Proof/Machine/State.lean ====
section
/-! DEFINITION. The state of the machine as plain data (`10_state.md`), the reasons a step can stop,
and the state after reset (R60, R440). -/

namespace Sys2Proof.Machine

/-- The paging modes (R14, R131). `Off` is no value here: it is the absence of a mode, `none` of
`Option PMode`; cached entries are tagged with a mode in which paging is on (R39). -/
inductive PMode where
  | legacy32
  | pae
  | ia32e
deriving DecidableEq, Repr, Inhabited

/-- The kinds of TLB entry (R34). -/
inductive TlbKind where
  /-- `Ord4K`: ordinary translation of a 4-KByte page. -/
  | ord4k
  /-- `Large`: large-page translation. -/
  | large
  /-- `OrdFromLarge`: ordinary translation of a 4-KByte piece of a large page (R286). -/
  | ordFromLarge
deriving DecidableEq, Repr, Inhabited

/-- A TLB entry (R34). The key is a page number or a large-page number, zero-extended to 36 bits. -/
structure TlbEntry where
  mode : PMode
  kind : TlbKind
  key : BitVec 36
  frame : PAddr
  rw : Bool
  us : Bool
  dirty : Bool
  xd : Bool
  global : Bool
deriving DecidableEq, Repr, Inhabited

/-- A PML4-cache entry (R35). -/
structure Pml4Entry where
  key : BitVec 9
  addr : PAddr
  rw : Bool
  us : Bool
  xd : Bool
deriving DecidableEq, Repr, Inhabited

/-- A PDP-cache entry (R36). -/
structure PdpEntry where
  key : BitVec 18
  addr : PAddr
  rw : Bool
  us : Bool
  xd : Bool
deriving DecidableEq, Repr, Inhabited

/-- A PDE-cache entry (R37). The key is zero-extended to 27 bits. -/
structure PdeEntry where
  mode : PMode
  key : BitVec 27
  addr : PAddr
  rw : Bool
  us : Bool
  xd : Bool
deriving DecidableEq, Repr, Inhabited

/-- The four PDPTR registers (R38). -/
structure Pdptrs where
  q0 : BitVec 64
  q1 : BitVec 64
  q2 : BitVec 64
  q3 : BitVec 64
deriving DecidableEq, Repr, Inhabited

/-- The structure a partial translation has still to index (R135): page table `l1` up to PML4 table. -/
inductive Level where
  | l1
  | l2
  | l3
  | l4
deriving DecidableEq, Repr, Inhabited

/-- A partial translation (R135). -/
structure Partial where
  next : Level
  addr : PAddr
  rw : Bool
  us : Bool
  xd : Bool
deriving DecidableEq, Repr, Inhabited

/-- How far an access has come (R150): not begun, walking with a partial translation and whether a
step of the walk was dry (R143), or translated with the data still to be moved. -/
inductive Phase where
  | begin
  | walk (t : Partial) (dry : Bool)
  | translated (pa : PAddr)
deriving DecidableEq, Repr, Inhabited

/-- A translated access (R130). `demand` tells the accesses of operations from the speculative ones.
`mustCommit` is set when a walk with a dry step turned out to be allowed: such a walk may not
complete the access (R143), which is then translated afresh without dry steps. -/
structure Access where
  kind : AccessKind
  la : LAddr
  n : Nat
  v : Nat
  cpl : Cpl
  demand : Bool
  phase : Phase
  mustCommit : Bool
deriving DecidableEq, Repr, Inhabited

/-- A logical processor (R20): control registers, caches and the software it still has to run. -/
structure Proc where
  /-- CR0.PG (R21). -/
  pg : Bool
  /-- CR0.WP (R21). -/
  wp : Bool
  /-- CR3 (R22). -/
  cr3 : BitVec 64
  /-- CR4.PSE (R23). -/
  pse : Bool
  /-- CR4.PAE (R23). -/
  pae : Bool
  /-- CR4.PGE (R23). -/
  pge : Bool
  /-- IA32_EFER.LMA (R24). -/
  lma : Bool
  /-- IA32_EFER.NXE (R24). -/
  nxe : Bool
  /-- The CPL of the latest operation (R26). -/
  cpl : Cpl
  /-- The TLBs, one set (R33). -/
  tlb : List TlbEntry
  /-- The PML4 cache (R35). -/
  pml4c : List Pml4Entry
  /-- The PDP cache (R36). -/
  pdpc : List PdpEntry
  /-- The PDE cache (R37). -/
  pdec : List PdeEntry
  /-- The PDPTR registers (R38). -/
  pdptr : Pdptrs
  /-- They have been loaded since reset (R38, D14). -/
  pdptrValid : Bool
  /-- The processor has executed HLT and was not resumed (R40). -/
  halted : Bool
  /-- The operations software issues next (R43). -/
  program : List Issue
  /-- The access in progress, with the partial translation it carries (D10). -/
  busy : Option Access
deriving DecidableEq, Repr, Inhabited

/-- What is delivered to the environment: exceptions (R400, R401) and results (R151, R153, R158). -/
inductive Report where
  /-- The value a READ or a FETCH returned. -/
  | value (p : Nat) (kind : AccessKind) (la : LAddr) (n : Nat) (v : Nat)
  /-- `PageFault(la, kind, cpl)` (R401). -/
  | pageFault (p : Nat) (la : LAddr) (kind : AccessKind) (cpl : Cpl)
  /-- `Fault(PDPTRLoad)` (R405). -/
  | pdptrLoad (p : Nat)
  /-- `Fault(GeneralProtection)` (R406). -/
  | generalProtection (p : Nat)
  /-- What CPUID returned (R158). -/
  | cpuid (p : Nat) (maxPhyAddr : Nat) (pse36 : Bool)
  /-- What MOV from CRn read (R113). -/
  | controlRegister (p : Nat) (cr : CrNum) (v : BitVec 64)
  /-- A read of n bytes at pa reached an address with read side effects (R151, R462). -/
  | sideEffect (p : Nat) (pa : Nat) (n : Nat)
deriving DecidableEq, Repr, Inhabited

/-- Physical memory (R32): the bytes that differ from what an unlisted address reads as, addresses
strictly rising. -/
abbrev Memory := List Host.Cell

/-- The state of the machine: the logical processors and the one memory they share (R20), the
parameters (R6), the events delivered to the environment (R401), and the model's own fields:
`current`, the processor that takes the step; `schedule` and `choices`, the moves and choices fixed
in advance; `clock`, the counter of the free ones. -/
structure State where
  config : Config
  mem : Memory
  procs : List Proc
  current : Nat
  trace : List Report
  schedule : List Event
  choices : List Choice
  clock : Nat
deriving DecidableEq, Repr, Inhabited

/-- Why a step has no successor state (the spec's `stuck`, 93 Part 1). Both are safe: a claim about a
next state says nothing of them. -/
inductive Fault where
  /-- Raised by any access to a physical address outside the populated range, by software, a walk or
  a PDPTR load (R96, U29). Safe. -/
  | outsideMemRange
  /-- Raised by a MOV to CR4 that would clear PAE while IA32_EFER.LMA = 1 (R25, U27). Safe. -/
  | paeClearedInIA32e
deriving DecidableEq, Repr, Inhabited

/-- Why the model gives a step no meaning (the spec's `refuse`). All are safe. -/
inductive Refusal where
  /-- An instruction without a meaning yet. -/
  | notModelled (mnemonic : String)
  /-- Raised by the step when a slot holds no operation (R115). Safe. -/
  | undecodable (why : DecodeError)
  /-- Raised by a meaning when `current` names no logical processor: no state of a system (R20). Safe. -/
  | noSuchProcessor
  /-- Raised by READ, WRITE and FETCH of no bytes or across a page: no operation (R93, D6). Safe. -/
  | notOneAccess (why : IllFormed)
  /-- Raised by an access or INVLPG with a non-canonical address in IA-32e mode (R133, U26). Safe. -/
  | nonCanonical
  /-- Raised by a walk or a PDPTR load that reads a present entry with a bit of R82 set (U6, U7). Safe. -/
  | reservedBit
  /-- Raised by a PAE translation before the PDPTR registers were loaded (R321, U28). Safe. -/
  | pdptrNotLoaded
deriving DecidableEq, Repr, Inhabited

/-- What a step answers. -/
abbrev Result := Host.Outcome State Fault Refusal

/-- A logical processor after reset (R60): paging off, every named bit 0, caches empty, PDPTR
registers not loaded (their value is a DESIGN CHOICE, log 8, which no rule reads while
`pdptrValid` is false). -/
def Proc.reset : Proc :=
  { pg := false, wp := false, cr3 := 0, pse := false, pae := false, pge := false,
    lma := false, nxe := false, cpl := 0, tlb := [], pml4c := [], pdpc := [], pdec := [],
    pdptr := ⟨0, 0, 0, 0⟩, pdptrValid := false, halted := false, program := [], busy := none }

/-- The machine after reset with given parameters and a given memory image (R60, R440). -/
def State.resetWith (cfg : Config) (image : Memory) : State :=
  { config := cfg, mem := image, procs := List.replicate cfg.nlp Proc.reset, current := 0,
    trace := [], schedule := [], choices := [], clock := 0 }

/-- The machine right after reset, with the parameters of log 5 and nothing listed in memory. -/
def State.reset : State := State.resetWith Config.initial []

end Sys2Proof.Machine
end

