-- ==== Sys2Proof/Machine/Operands.lean ====
section
/-! DEFINITION. The parts of a linear address: the table indices, the page numbers, the keys of the
cached entries and the offsets (`20_memory.md` R71, `40_address_translation.md` R133, R134,
`41_tlb.md` R171, `42_paging_structure_caches.md` R208). -/

namespace Sys2Proof.Machine

/-- `Canonical(la)`: each of bits 63:48 equals bit 47 (R133). -/
def canonical (la : LAddr) : Bool :=
  la.extractLsb' 47 17 == 0 || la.extractLsb' 47 17 == BitVec.allOnes 17

/-- The linear address an operand names outside IA-32e mode: its low 32 bits (R31, R111). -/
def low32 (la : LAddr) : LAddr := (la.extractLsb' 0 32).setWidth 64

/-- The linear address an operand names: all 64 bits in IA-32e mode, the low 32 bits otherwise
(R111). DEDUCED (log 13). -/
def operandAddress (mode : Option PMode) (la : LAddr) : LAddr :=
  match mode with
  | some .ia32e => la
  | some .pae => low32 la
  | some .legacy32 => low32 la
  | none => low32 la

/-- The value a MOV to or from a control register moves: 64 bits in 64-bit mode and 32 bits outside it,
whatever prefix (R113). 64-bit mode is IA-32e mode. DEDUCED (log 45). -/
def crOperand (p : Proc) (v : BitVec 64) : BitVec 64 :=
  if p.lma then v else (v.extractLsb' 0 32).setWidth 64

/-- `la[11:0]`: the offset within a 4-KByte page (R134). -/
def pageOffset (la : LAddr) : BitVec 12 := la.extractLsb' 0 12

/-- The page number `la[W:12]`: bits 47:12 in IA-32e mode, 31:12 otherwise (R171, R208). -/
def pageNumber : PMode → LAddr → BitVec 36
  | .ia32e, la => la.extractLsb' 12 36
  | .pae, la => (la.extractLsb' 12 20).setWidth 36
  | .legacy32, la => (la.extractLsb' 12 20).setWidth 36

/-- The large-page number `la[W:LPbit]`: bits 47:21, 31:21 or 31:22 (R171). -/
def largePageNumber : PMode → LAddr → BitVec 36
  | .ia32e, la => (la.extractLsb' 21 27).setWidth 36
  | .pae, la => (la.extractLsb' 21 11).setWidth 36
  | .legacy32, la => (la.extractLsb' 22 10).setWidth 36

/-- How many bits of a page number lie within a large page: `LPbit - 12` (R171, R231). -/
def pieceBits : PMode → Nat
  | .ia32e => 9
  | .pae => 9
  | .legacy32 => 10

/-- The key of the PML4 cache, `la[47:39]` (R191). -/
def pml4Key (la : LAddr) : BitVec 9 := la.extractLsb' 39 9

/-- The key of the PDP cache, `la[47:30]` (R192). -/
def pdpKey (la : LAddr) : BitVec 18 := la.extractLsb' 30 18

/-- `PDEKey(la)`: bits 47:21, 31:21 or 31:22 (R193). -/
def pdeKey : PMode → LAddr → BitVec 27
  | .ia32e, la => la.extractLsb' 21 27
  | .pae, la => (la.extractLsb' 21 11).setWidth 27
  | .legacy32, la => (la.extractLsb' 22 10).setWidth 27

/-- The size of a paging-structure entry in bytes (R70). -/
def entrySize : PMode → Nat
  | .ia32e => 8
  | .pae => 8
  | .legacy32 => 4

/-- The index of the entry in the structure at a level (R71). -/
def entryIndex : PMode → Level → LAddr → PAddr
  | .legacy32, .l1, la => (la.extractLsb' 12 10).setWidth 52
  | .legacy32, .l2, la => (la.extractLsb' 22 10).setWidth 52
  | _, .l1, la => (la.extractLsb' 12 9).setWidth 52
  | _, .l2, la => (la.extractLsb' 21 9).setWidth 52
  | _, .l3, la => (la.extractLsb' 30 9).setWidth 52
  | _, .l4, la => (la.extractLsb' 39 9).setWidth 52

/-- The index of the PDPTR register, `la[31:30]` (R321). -/
def pdptrIndex (la : LAddr) : BitVec 2 := la.extractLsb' 30 2

/-- The PDPTR register of an index (R38). -/
def selectPdptr (q : Pdptrs) (i : BitVec 2) : BitVec 64 :=
  if i = 0 then q.q0 else if i = 1 then q.q1 else if i = 2 then q.q2 else q.q3

/-- The address of an entry: `B + S*i` (R71). -/
def entryAddress (m : PMode) (t : Partial) (la : LAddr) : PAddr :=
  t.addr + entryIndex m t.next la * BitVec.ofNat 52 (entrySize m)

/-- The offset of an access within a large page: `la[20:0]`, in 32-bit paging `la[21:0]` (R140). -/
def largeOffset : PMode → LAddr → PAddr
  | .ia32e, la => (la.extractLsb' 0 21).setWidth 52
  | .pae, la => (la.extractLsb' 0 21).setWidth 52
  | .legacy32, la => (la.extractLsb' 0 22).setWidth 52

/-- The position of a 4-KByte piece within a large page, `la[LPbit-1:12] << 12` (R286, R356). -/
def pieceOffset : PMode → LAddr → PAddr
  | .ia32e, la => (la.extractLsb' 12 9).setWidth 52 <<< 12
  | .pae, la => (la.extractLsb' 12 9).setWidth 52 <<< 12
  | .legacy32, la => (la.extractLsb' 12 10).setWidth 52 <<< 12

/-- The physical address of an access from a frame of a kind: `F + offset` (R140). -/
def frameAddress (m : PMode) (kind : TlbKind) (frame : PAddr) (la : LAddr) : PAddr :=
  match kind with
  | .ord4k => frame + (pageOffset la).setWidth 52
  | .ordFromLarge => frame + (pageOffset la).setWidth 52
  | .large => frame + largeOffset m la

/-- The physical address with paging off: the low bits of the linear address (R155). -/
def unpagedAddress (la : LAddr) : PAddr := (low32 la).setWidth 52

/-- `Covers(e, la)`, with the widths of the entry's own mode tag (R171). -/
def TlbEntry.covers (e : TlbEntry) (la : LAddr) : Bool :=
  match e.kind with
  | .ord4k => e.key == pageNumber e.mode la
  | .ordFromLarge => e.key == pageNumber e.mode la
  | .large => e.key == largePageNumber e.mode la

/-- The entry is a piece of the large page that la lies in (R231, R288). -/
def TlbEntry.pieceOfLargePage (e : TlbEntry) (la : LAddr) : Bool :=
  e.kind == .ordFromLarge && e.key >>> pieceBits e.mode == largePageNumber e.mode la

end Sys2Proof.Machine
end

