-- ==== Sys2Proof/Machine/Flags.lean ====
section
/-! DEFINITION. The bits of the paging-structure entries and what they decide: the control bits, the
address fields, the refused bits, the must-be-zero bits of a PDPTR (`20_memory.md` R73 to R85), and
the access check (`40_address_translation.md` R141). This machine has no condition flags (R30). -/

namespace Sys2Proof.Machine

/-- The mask of bits `hi:lo` of an entry. -/
def bitRange (hi lo : Nat) : Entry := BitVec.ofNat 64 (2 ^ (hi + 1) - 2 ^ lo)

/-- Bit 5, accessed (R78). -/
def accessedMask : Entry := 0x20

/-- Bits 5 and 6, accessed and dirty, set together by a write (R142). -/
def accessedDirtyMask : Entry := 0x60

/-- Bit 0, present (R75). -/
def presentBit (e : Entry) : Bool := e.getLsbD 0

/-- Bit 1, read/write (R76). -/
def rwBit (e : Entry) : Bool := e.getLsbD 1

/-- Bit 2, user/supervisor (R77). -/
def usBit (e : Entry) : Bool := e.getLsbD 2

/-- Bit 6, dirty (R79). -/
def dirtyBit (e : Entry) : Bool := e.getLsbD 6

/-- Bit 7, PS (R80). -/
def psBit (e : Entry) : Bool := e.getLsbD 7

/-- Bit 8, G (R80; `90_conflicts.md` C3: not bit 6, as the source prints). -/
def globalBit (e : Entry) : Bool := e.getLsbD 8

/-- `XD(e)`: bit 63 when IA32_EFER.NXE = 1, false when NXE = 0 and in 32-bit paging (R81). -/
def xdBit (m : PMode) (nxe : Bool) (e : Entry) : Bool :=
  match m with
  | .ia32e => nxe && e.getLsbD 63
  | .pae => nxe && e.getLsbD 63
  | .legacy32 => false

/-- `NextAddr(e)`: bits 51:12, in PAE mode 35:12, in 32-bit paging 31:12 (R74, R83, R85). -/
def nextAddr (m : PMode) (e : Entry) : PAddr :=
  match m with
  | .ia32e => (e.extractLsb' 12 40).setWidth 52 <<< 12
  | .pae => (e.extractLsb' 12 24).setWidth 52 <<< 12
  | .legacy32 => (e.extractLsb' 12 20).setWidth 52 <<< 12

/-- `LargeFrame(e)`: bits 51:21, in PAE mode 35:21, in 32-bit paging by R352 (R74, R85, R352). -/
def largeFrame (cfg : Config) (m : PMode) (e : Entry) : PAddr :=
  match m with
  | .ia32e => (e.extractLsb' 21 31).setWidth 52 <<< 21
  | .pae => (e.extractLsb' 21 15).setWidth 52 <<< 21
  | .legacy32 =>
    if cfg.pse36 then
      ((e.extractLsb' 13 4).setWidth 52 <<< 32) ||| ((e.extractLsb' 22 10).setWidth 52 <<< 22)
    else (e.extractLsb' 22 10).setWidth 52 <<< 22

/-- `LargeEnabled(p)` (R280). -/
def largeEnabled (p : Proc) : Bool := p.pse || p.pae

/-- The entry maps a large page: a PDE with PS = 1 while large pages are enabled (R281, R351). -/
def mapsLarge (p : Proc) (level : Level) (e : Entry) : Bool :=
  level == .l2 && psBit e && largeEnabled p

/-- Bit 63 of an 8-byte entry is reserved when NXE = 0 (R81, R82). -/
def nxeReserved (nxe : Bool) : Entry := if nxe then 0 else bitRange 63 63

/-- Bit 7 of a PTE, and bits 20:12 of a 2-MByte PDE, are not described (R82). -/
def leafReserved (level : Level) (large : Bool) : Entry :=
  (if level = .l1 then bitRange 7 7 else 0) ||| (if large then bitRange 20 12 else 0)

/-- The bits that refuse a present entry (R82, D17). In a 4-MByte PDE with PSE-36, bits 16:13 are
address bits 35:32, of which those at or above MAXPHYADDR are refused (R352). -/
def refusedBits (cfg : Config) (nxe : Bool) (m : PMode) (level : Level) (large : Bool) : Entry :=
  match m with
  | .ia32e =>
    bitRange 62 52 ||| bitRange 51 cfg.maxPhyAddr ||| nxeReserved nxe ||| leafReserved level large
  | .pae =>
    bitRange 62 36 ||| bitRange 35 cfg.maxPhyAddr ||| nxeReserved nxe ||| leafReserved level large
  | .legacy32 =>
    (if level = .l1 then bitRange 7 7 else 0) |||
    (if large then
      bitRange 21 17 ||| bitRange 12 12 |||
        (if cfg.pse36 then bitRange 16 (cfg.maxPhyAddr - 19) else bitRange 16 13)
    else 0)

/-- The bits that must be 0 in a PDPTR: 63, 8:6, 5, 2, 1 (R84, R332). -/
def pdptrMustBeZero : Entry := bitRange 63 63 ||| bitRange 8 6 ||| bitRange 5 5 ||| bitRange 2 1

/-- The bits of a present PDPTR that are not described: 62:36 and address bits at or above
MAXPHYADDR (R332, R82, U7). -/
def pdptrRefused (cfg : Config) : Entry := bitRange 62 36 ||| bitRange 35 cfg.maxPhyAddr

/-- The four cases in which the access check denies an access (R141). -/
def denied (wp : Bool) (kind : AccessKind) (cpl : Cpl) (rw us xd : Bool) : Bool :=
  (cpl == 3 && !us) ||
  (kind == .write && !rw && cpl == 3) ||
  (kind == .write && !rw && wp) ||
  (kind == .fetch && xd)

/-- `Allowed(p, kind, cpl, rw, us, xd)`: none of the four cases holds (R141). -/
def allowed (wp : Bool) (kind : AccessKind) (cpl : Cpl) (rw us xd : Bool) : Bool :=
  !denied wp kind cpl rw us xd

end Sys2Proof.Machine
end

