-- ==== Sys2Proof/Machine/Ops.lean ====
section
/-! DEFINITION. The named operations over memory and over the processors' registers: reading and writing
physical memory (`00_scope.md` R11), drawing a free choice, invalidating cached entries
(`43_invalidation.md` R234), loading the PDPTR registers (`46_other_paging_modes.md` R330), and taking
the exceptions (`60_exceptions.md` R401, R405, R406). -/

namespace Sys2Proof.Machine

/-! ### Memory -/

/-- What a byte that memory does not list reads as. DESIGN CHOICE (log 6), unsafe: the spec leaves the
memory image to the run. -/
def unlistedByte : Byte := 0

/-- Read one byte. -/
def Memory.read : Memory → Nat → Byte
  | [], _ => unlistedByte
  | (k, b) :: rest, a => if k = a then b else Memory.read rest a

/-- Write one byte, keeping the canonical form: rising addresses, no entry equal to `unlistedByte`. -/
def Memory.write : Memory → Nat → Byte → Memory
  | [], a, b => if b = unlistedByte then [] else [(a, b)]
  | (k, x) :: rest, a, b =>
    if a < k then (if b = unlistedByte then (k, x) :: rest else (a, b) :: (k, x) :: rest)
    else if a = k then (if b = unlistedByte then rest else (a, b) :: rest)
    else (k, x) :: Memory.write rest a b

/-- The canonical form: addresses strictly rising, no entry equal to what is unlisted. -/
abbrev Memory.wf (m : Memory) : Prop :=
  m.Pairwise (fun x y => x.1 < y.1) ∧ ∀ c ∈ m, c.2 ≠ unlistedByte

/-- `PhysRead(pa, n)`: the little-endian value of n bytes (R11, R91). -/
def Memory.readLE (m : Memory) (a : Nat) : Nat → Nat
  | 0 => 0
  | n + 1 => (m.read a).toNat + 256 * Memory.readLE m (a + 1) n

/-- `PhysWrite(pa, n, v)`: store the low 8n bits of v, little-endian (R11, R91). -/
def Memory.writeLE (m : Memory) (a : Nat) : Nat → Nat → Memory
  | 0, _ => m
  | n + 1, v => Memory.writeLE (m.write a (BitVec.ofNat 8 v)) (a + 1) n (v / 256)

/-- All n bytes at a are populated (R96). -/
def reaches (cfg : Config) (a n : Nat) : Bool :=
  (List.range n).all fun i => cfg.populated (a + i)

/-- Some of the n bytes at a has read side effects (R94). -/
def touchesSideEffect (cfg : Config) (a n : Nat) : Bool :=
  (List.range n).any fun i => cfg.sideEffectAt (a + i)

/-! ### Processors, reports, free choices -/

/-- The logical processor that takes the step: the `p` of R11. -/
def State.proc? (s : State) : Option Proc := s.procs[s.current]?

/-- Change the processor that takes the step. -/
def State.setProc (s : State) (p : Proc) : State := { s with procs := s.procs.set s.current p }

/-- Deliver an event to the environment (R401 step (3)). -/
def State.report (s : State) (r : Report) : State := { s with trace := r :: s.trace }

/-- Change memory. -/
def State.setMem (s : State) (m : Memory) : State := { s with mem := m }

/-- The next choice: one fixed in advance if there is one, else a free one (log 4). -/
def State.choice (s : State) : Choice :=
  match s.choices with
  | [] => Config.choice s.clock
  | c :: _ => c

/-- The state after the next choice is drawn. -/
def State.drawn (s : State) : State :=
  match s.choices with
  | [] => { s with clock := s.clock + 1 }
  | _ :: rest => { s with choices := rest }

/-- The next move: one fixed in advance if there is one, else a free one (log 3). -/
def State.event (s : State) : Event :=
  match s.schedule with
  | [] => Config.event s.clock
  | e :: _ => e

/-- The state after the next move is taken from the schedule. -/
def State.scheduled (s : State) : State :=
  match s.schedule with
  | [] => { s with clock := s.clock + 1 }
  | _ :: rest => { s with schedule := rest }

/-- Run an operation on the current processor. -/
def State.withProc (s : State) (k : Proc → Result) : Result :=
  match s.proc? with
  | none => .refused .noSuchProcessor
  | some p => k p

/-- `Mode(p)`; `none` is `Off` (R131). -/
def Proc.mode (p : Proc) : Option PMode :=
  if p.pg then
    if p.lma then some .ia32e
    else if p.pae then some .pae
    else some .legacy32
  else none

/-! ### Invalidation -/

/-- The entries an invalidation must remove: `Req`, by its characteristic functions (R234). -/
structure Req where
  tlb : TlbEntry → Bool
  pml4c : Pml4Entry → Bool
  pdpc : PdpEntry → Bool
  pdec : PdeEntry → Bool

/-- Remove the required entries and those whose bit is 1 in the mask: `Rem` with `Req <= Rem`, and
every such `Rem` for some mask (R234). -/
def removeWhere {α : Type} (req : α → Bool) : Nat → List α → List α
  | _, [] => []
  | mask, e :: rest =>
    if req e || mask % 2 == 1 then removeWhere req (mask / 2) rest
    else e :: removeWhere req (mask / 2) rest

/-- Remove `Rem` from the processor's four sets; the PDPTR registers are never in it (R234, R38). -/
def Proc.invalidate (p : Proc) (req : Req) (extra : Removal) : Proc :=
  { p with
    tlb := removeWhere req.tlb extra.tlb p.tlb
    pml4c := removeWhere req.pml4c extra.pml4c p.pml4c
    pdpc := removeWhere req.pdpc extra.pdpc p.pdpc
    pdec := removeWhere req.pdec extra.pdec p.pdec }

/-- Nothing is required (R235). -/
def Req.nothing : Req :=
  { tlb := fun _ => false, pml4c := fun _ => false, pdpc := fun _ => false, pdec := fun _ => false }

/-- Everything is required (R233). -/
def Req.everything : Req :=
  { tlb := fun _ => true, pml4c := fun _ => true, pdpc := fun _ => true, pdec := fun _ => true }

/-- Every TLB entry that is not global and all of the paging-structure caches (R232). -/
def Req.nonGlobal : Req :=
  { tlb := fun e => !e.global, pml4c := fun _ => true, pdpc := fun _ => true, pdec := fun _ => true }

/-- What a page fault on la removes, each PDE-cache key with the width of its own tag (R237). -/
def Req.pageFault (la : LAddr) : Req :=
  { tlb := fun e => e.covers la
    pml4c := fun c => c.key == pml4Key la
    pdpc := fun c => c.key == pdpKey la
    pdec := fun c => c.key == pdeKey c.mode la }

/-- What INVLPG la removes from the TLB: the entries that cover la, and the pieces of the large page
it lies in, global or not (R231, R288, R301). -/
def invlpgTlb (la : LAddr) (e : TlbEntry) : Bool := e.covers la || e.pieceOfLargePage la

/-- What INVLPG la removes (R231). -/
def Req.invlpg (la : LAddr) : Req :=
  { tlb := invlpgTlb la, pml4c := fun _ => true, pdpc := fun _ => true, pdec := fun _ => true }

/-- What the selective INVLPG la removes; the row is chosen by the paging mode (R392). With paging off
no row applies and no paging-structure-cache entry is required. DEDUCED (log 33). -/
def Req.invlpgSelective (mode : Option PMode) (la : LAddr) : Req :=
  match mode with
  | some .ia32e =>
    { tlb := invlpgTlb la
      pml4c := fun c => c.key == pml4Key la
      pdpc := fun c => c.key == pdpKey la
      pdec := fun c => c.mode == .ia32e && c.key == pdeKey .ia32e la }
  | some .pae =>
    { tlb := invlpgTlb la, pml4c := fun _ => false, pdpc := fun _ => false
      pdec := fun c => c.mode == .pae && c.key == pdeKey .pae la }
  | some .legacy32 =>
    { tlb := invlpgTlb la, pml4c := fun _ => false, pdpc := fun _ => false
      pdec := fun c => c.mode == .legacy32 && c.key == pdeKey .legacy32 la }
  | none =>
    { tlb := invlpgTlb la, pml4c := fun _ => false, pdpc := fun _ => false, pdec := fun _ => false }

/-- The current processor becomes p less the required entries and the ones the next choice adds. One
atomic step (R234). -/
def State.invalidated (s : State) (p : Proc) (req : Req) : State :=
  s.drawn.setProc (p.invalidate req s.choice.extra)

/-! ### Exceptions -/

/-- Take `PageFault(la, kind, cpl)` (R401): the operation is not executed, the entries of R237 are
removed, the event is delivered, and the processor goes on with its next operation. No register is
saved and no control is transferred (R412, D21); return is the re-issue of the operation (R414). -/
def takePageFault (a : Access) (s : State) : Result :=
  s.withProc fun p =>
    .next ((s.invalidated p (Req.pageFault a.la)).report (.pageFault s.current a.la a.kind a.cpl))

/-- Take `Fault(GeneralProtection)`: no state change but the event (R406). -/
def takeGeneralProtection (s : State) : Result :=
  .next (s.report (.generalProtection s.current))

/-- Take `Fault(PDPTRLoad)`: no state change but the event (R405). -/
def takePdptrLoadFault (s : State) : Result :=
  .next (s.report (.pdptrLoad s.current))

/-- Run a privileged operation: at CPL 0, else general protection, before anything else (R406, R411). -/
def State.privileged (s : State) (k : Proc → Result) : Result :=
  s.withProc fun p => if p.cpl = 0 then k p else takeGeneralProtection s

/-! ### The PDPTR registers -/

/-- What reading the four PDPTRs from memory gives (R330, R332). -/
inductive PdptrLoad where
  | loaded (q : Pdptrs)
  | mustBeZero
  | reserved
  | outside
deriving DecidableEq, Repr

/-- The page-directory-pointer-table base in a CR3 value, `c[31:5] << 5` (R22, R330). -/
def pdptBase (c : BitVec 64) : PAddr := (c.extractLsb' 5 27).setWidth 52 <<< 5

/-- A PDPTR with a must-be-zero bit set, whatever its present bit is (R332). -/
def pdptrFaults (q : BitVec 64) : Bool := q &&& pdptrMustBeZero != 0

/-- A present PDPTR with an undescribed bit set (R332, R82, U7). DEDUCED (log 15). -/
def pdptrRefuses (cfg : Config) (q : BitVec 64) : Bool :=
  presentBit q && q &&& pdptrRefused cfg != 0

/-- Entry i of the page-directory-pointer table in memory. -/
def pdptrInMemory (m : Memory) (c : BitVec 64) (i : Nat) : BitVec 64 :=
  BitVec.ofNat 64 (m.readLE ((pdptBase c).toNat + 8 * i) 8)

/-- `LoadPDPTRs` up to the register write: the four reads are one step (R330, R332). -/
def readPdptrs (cfg : Config) (m : Memory) (c : BitVec 64) : PdptrLoad :=
  if reaches cfg (pdptBase c).toNat 32 then
    let q : Pdptrs :=
      ⟨pdptrInMemory m c 0, pdptrInMemory m c 1, pdptrInMemory m c 2, pdptrInMemory m c 3⟩
    if pdptrFaults q.q0 || pdptrFaults q.q1 || pdptrFaults q.q2 || pdptrFaults q.q3 then .mustBeZero
    else if pdptrRefuses cfg q.q0 || pdptrRefuses cfg q.q1 || pdptrRefuses cfg q.q2 ||
        pdptrRefuses cfg q.q3 then .reserved
    else .loaded q
  else .outside

/-- Go on with the processor whose PDPTR registers were loaded from c if `needed`, and as it is
otherwise; a bad PDPTR faults with nothing changed (R330 to R332, R405). -/
def State.loadPdptrs (s : State) (p : Proc) (needed : Bool) (c : BitVec 64) (k : Proc → Result) : Result :=
  if needed then
    match readPdptrs s.config s.mem c with
    | .loaded q => k { p with pdptr := q, pdptrValid := true }
    | .mustBeZero => takePdptrLoadFault s
    | .reserved => .refused .reservedBit
    | .outside => .fault .outsideMemRange
  else k p

end Sys2Proof.Machine
end

