-- ==== Sys2Proof/Machine/Walk.lean ====
section
/-! DEFINITION. Address translation (`40_address_translation.md`): one walk step, the fills of the TLB and
of the paging-structure caches, and the procedure `Translate` by which every access is made. -/

namespace Sys2Proof.Machine

/-! ### One walk step, as a function of the entry read -/

/-- A leaf (R136): the entry's address and what a translation made from it holds. -/
structure Leaf where
  large : Bool
  entry : PAddr
  frame : PAddr
  rw : Bool
  us : Bool
  xd : Bool
  dirty : Bool
  g : Bool
deriving DecidableEq, Repr, Inhabited

/-- What an entry is to the walk that reads it (R136). -/
inductive Seen where
  | notPresent
  | refused
  | next (t : Partial)
  | leaf (l : Leaf)
deriving DecidableEq, Repr, Inhabited

/-- `Below` (R136). -/
def Level.below : Level → Level
  | .l4 => .l3
  | .l3 => .l2
  | .l2 => .l1
  | .l1 => .l1

/-- The partial translation extended by a non-leaf entry (R136, R138). -/
def extendPartial (p : Proc) (m : PMode) (t : Partial) (e : Entry) : Partial :=
  { next := t.next.below, addr := nextAddr m e,
    rw := t.rw && rwBit e, us := t.us && usBit e, xd := t.xd || xdBit m p.nxe e }

/-- The leaf an entry gives (R136, R138); dirty and G are the leaf's own. -/
def leafOf (cfg : Config) (p : Proc) (m : PMode) (t : Partial) (a : PAddr) (e : Entry) : Leaf :=
  let large := mapsLarge p t.next e
  { large := large, entry := a, frame := if large then largeFrame cfg m e else nextAddr m e,
    rw := t.rw && rwBit e, us := t.us && usBit e, xd := t.xd || xdBit m p.nxe e,
    dirty := dirtyBit e, g := globalBit e }

/-- The entry ends the walk: a PTE, or a PDE that maps a large page (R136, R281). -/
def endsWalk (p : Proc) (level : Level) (e : Entry) : Bool := level == .l1 || mapsLarge p level e

/-- The part of `Step` that depends on the entry alone (R136): present first, then the refused bits. -/
def viewEntry (cfg : Config) (p : Proc) (m : PMode) (t : Partial) (a : PAddr) (e : Entry) : Seen :=
  if !presentBit e then .notPresent
  else if e &&& refusedBits cfg p.nxe m t.next (mapsLarge p t.next e) != 0 then .refused
  else if endsWalk p t.next e then .leaf (leafOf cfg p m t a e)
  else .next (extendPartial p m t e)

/-- The value of the entry at a, one atomic read of the whole entry (R92). -/
def readEntry (mem : Memory) (m : PMode) (a : PAddr) : Entry :=
  BitVec.ofNat 64 (mem.readLE a.toNat (entrySize m))

/-- `PhysSetBits` on the entry at a (R92). -/
def setEntryBits (mem : Memory) (m : PMode) (a : PAddr) (mask : Entry) : Memory :=
  mem.writeLE a.toNat (entrySize m) (readEntry mem m a ||| mask).toNat

/-! ### The root -/

/-- `RootAddr(p)` in IA-32e mode and in 32-bit paging (R22). -/
def rootAddress (m : PMode) (cr3 : BitVec 64) : PAddr :=
  match m with
  | .ia32e => (cr3.extractLsb' 12 40).setWidth 52 <<< 12
  | .pae => pdptBase cr3
  | .legacy32 => (cr3.extractLsb' 12 20).setWidth 52 <<< 12

/-- A partial translation that has used no entry yet. -/
def freshPartial (next : Level) (addr : PAddr) : Partial :=
  { next := next, addr := addr, rw := true, us := true, xd := false }

/-- `Root(p, la)` (R135); in PAE mode the register lookup of R321, `none` when the PDPTR is not present. -/
def rootPartial (p : Proc) (m : PMode) (la : LAddr) : Option Partial :=
  match m with
  | .ia32e => some (freshPartial .l4 (rootAddress .ia32e p.cr3))
  | .pae =>
    let q := selectPdptr p.pdptr (pdptrIndex la)
    if presentBit q then some (freshPartial .l2 (nextAddr .pae q)) else none
  | .legacy32 => some (freshPartial .l2 (rootAddress .legacy32 p.cr3))

/-! ### Cached entries: which apply, and how they are made -/

/-- The TLB entries an access may use: current mode, covering la (R150 path A, R39). -/
def tlbFor (p : Proc) (m : PMode) (la : LAddr) : List TlbEntry :=
  p.tlb.filter fun e => e.mode == m && e.covers la

/-- The PDE-cache entries a walk may start from (R193). -/
def pdecFor (p : Proc) (m : PMode) (la : LAddr) : List PdeEntry :=
  p.pdec.filter fun c => c.mode == m && c.key == pdeKey m la

/-- The PDP-cache entries a walk may start from: IA-32e mode only (R192, R323, R355). -/
def pdpcFor (p : Proc) (m : PMode) (la : LAddr) : List PdpEntry :=
  p.pdpc.filter fun c => m == .ia32e && c.key == pdpKey la

/-- The PML4-cache entries a walk may start from: IA-32e mode only (R191, R323, R355). -/
def pml4cFor (p : Proc) (m : PMode) (la : LAddr) : List Pml4Entry :=
  p.pml4c.filter fun c => m == .ia32e && c.key == pml4Key la

/-- The partial translation a PML4-cache entry is (R191). -/
def Pml4Entry.partial' (c : Pml4Entry) : Partial := ⟨.l3, c.addr, c.rw, c.us, c.xd⟩

/-- The partial translation a PDP-cache entry is (R192). -/
def PdpEntry.partial' (c : PdpEntry) : Partial := ⟨.l2, c.addr, c.rw, c.us, c.xd⟩

/-- The partial translation a PDE-cache entry is (R193). -/
def PdeEntry.partial' (c : PdeEntry) : Partial := ⟨.l1, c.addr, c.rw, c.us, c.xd⟩

/-- Where the walk starts by the choice; a choice that names no entry is the root (R150 path B). -/
def startPartial (p : Proc) (m : PMode) (la : LAddr) (start : WalkStart) : Option Partial :=
  match start with
  | .root => rootPartial p m la
  | .pml4c k =>
    match (pml4cFor p m la)[k]? with
    | some c => some c.partial'
    | none => rootPartial p m la
  | .pdpc k =>
    match (pdpcFor p m la)[k]? with
    | some c => some c.partial'
    | none => rootPartial p m la
  | .pdec k =>
    match (pdecFor p m la)[k]? with
    | some c => some c.partial'
    | none => rootPartial p m la

/-- The TLB entry the choice picks, if any (R150 path A, R174). -/
def chosenHit (p : Proc) (m : PMode) (la : LAddr) (hit : Option Nat) : Option TlbEntry :=
  match hit with
  | none => none
  | some k => (tlbFor p m la)[k]?

/-- Add an element to a set without repeats (R33). -/
def addToSet {α : Type} [DecidableEq α] (x : α) (l : List α) : List α := if x ∈ l then l else x :: l

/-- Keep the result of a non-leaf step as an entry of the matching cache (R196 to R198). -/
def Proc.keepPartial (p : Proc) (m : PMode) (la : LAddr) (t : Partial) : Proc :=
  match t.next with
  | .l3 => { p with pml4c := addToSet ⟨pml4Key la, t.addr, t.rw, t.us, t.xd⟩ p.pml4c }
  | .l2 => { p with pdpc := addToSet ⟨pdpKey la, t.addr, t.rw, t.us, t.xd⟩ p.pdpc }
  | .l1 => { p with pdec := addToSet ⟨m, pdeKey m la, t.addr, t.rw, t.us, t.xd⟩ p.pdec }
  | .l4 => p

/-- The TLB entry made from a leaf (R173, R284, R300). -/
def tlbEntryOf (p : Proc) (m : PMode) (la : LAddr) (l : Leaf) : TlbEntry :=
  { mode := m, kind := if l.large then .large else .ord4k,
    key := if l.large then largePageNumber m la else pageNumber m la,
    frame := l.frame, rw := l.rw, us := l.us, dirty := l.dirty, xd := l.xd,
    global := p.pge && l.g }

/-- The ordinary translation made from a large-page leaf (R286). -/
def pieceEntryOf (p : Proc) (m : PMode) (la : LAddr) (l : Leaf) : TlbEntry :=
  { mode := m, kind := .ordFromLarge, key := pageNumber m la,
    frame := l.frame + pieceOffset m la, rw := l.rw, us := l.us, dirty := l.dirty, xd := l.xd,
    global := p.pge && l.g }

/-- Keep a leaf as TLB entries, as the choice says (R173, R286). -/
def Proc.keepLeaf (p : Proc) (m : PMode) (la : LAddr) (l : Leaf) (keep keepPiece : Bool) : Proc :=
  let p1 := if keep then { p with tlb := addToSet (tlbEntryOf p m la l) p.tlb } else p
  if keepPiece && l.large then { p1 with tlb := addToSet (pieceEntryOf p m la l) p1.tlb } else p1

/-! ### Moving the data -/

/-- `PhysRead` of an access at its place in the total order (R151, R153, R156): a demand access
returns the value, a speculative one discards it; side effects happen in both (R462). That a demand FETCH
of an address with read side effects has them is the model's choice: R151 states it for READ, R156 for
speculative reads and fetches, and R153 is silent. DESIGN CHOICE (log 19). -/
def readData (a : Access) (pa : PAddr) (s : State) : State :=
  let s1 :=
    if touchesSideEffect s.config pa.toNat a.n then s.report (.sideEffect s.current pa.toNat a.n) else s
  if a.demand then s1.report (.value s.current a.kind a.la a.n (s.mem.readLE pa.toNat a.n)) else s1

/-- The data part of an access: `PhysRead` or `PhysWrite` at the translated address (R151 to R153); a FETCH
has the side effects of its read as a READ has (DESIGN CHOICE, log 19); outside the populated range there
is no step (R96). -/
def moveData (a : Access) (pa : PAddr) (s : State) : Result :=
  if reaches s.config pa.toNat a.n then
    match a.kind with
    | .read => .next (readData a pa s)
    | .fetch => .next (readData a pa s)
    | .write => .next (s.setMem (s.mem.writeLE pa.toNat a.n a.v))
  else .fault .outsideMemRange

/-! ### Translate -/

/-- What one step of an access comes to: the access goes on, or the operation is over. -/
inductive Progress where
  | more (a : Access) (s : State)
  | done (r : Result)

/-- Translation fails: a demand access page-faults, any other is aborted (R150, R403). -/
def failAccess (a : Access) (s : State) : Result :=
  if a.demand then takePageFault a s else .next s

/-- Begin to translate: path (A) by a TLB entry or path (B) from a starting point (R150). A write is
not completed by an entry whose dirty indication is 0 (R177). -/
def beginStep (a : Access) (c : Choice) (p : Proc) (m : PMode) (s : State) : Progress :=
  let walk : Progress :=
    match startPartial p m a.la c.start with
    | none => .done (failAccess a s)
    | some t => .more { a with phase := .walk t false } s
  match chosenHit p m a.la c.hit with
  | none => walk
  | some e =>
    if !allowed p.wp a.kind a.cpl e.rw e.us e.xd then .done (failAccess a s)
    else if a.kind == .write && !e.dirty then walk
    else .more { a with phase := .translated (frameAddress m e.kind e.frame a.la) } s

/-- A dry step reads only (R143). A walk with a dry step that turns out to be allowed does not
complete: a demand access is translated afresh with committing steps only, a speculative one is
aborted (R143). -/
def dryStep (a : Access) (p : Proc) (seen : Seen) (s : State) : Progress :=
  match seen with
  | .notPresent => .done (failAccess a s)
  | .refused => .done (.refused .reservedBit)
  | .next t => .more { a with phase := .walk t true } s
  | .leaf l =>
    if !allowed p.wp a.kind a.cpl l.rw l.us l.xd then .done (failAccess a s)
    else if a.demand then .more { a with phase := .begin, mustCommit := true } s
    else .done (.next s)

/-- A committing step sets the accessed bit, and for an allowed write at its leaf the dirty bit with it,
in one step with the read (R136, R139, R142); it may keep what it found (R173, R196 to R198). -/
def commitStep (a : Access) (c : Choice) (p : Proc) (m : PMode) (pa : PAddr) (seen : Seen) (s : State) :
    Progress :=
  match seen with
  | .notPresent => .done (failAccess a s)
  | .refused => .done (.refused .reservedBit)
  | .next t =>
    let s1 := s.setMem (setEntryBits s.mem m pa accessedMask)
    let s2 := if c.keep then s1.setProc (p.keepPartial m a.la t) else s1
    .more { a with phase := .walk t false } s2
  | .leaf l =>
    let ok := allowed p.wp a.kind a.cpl l.rw l.us l.xd
    let writes := a.kind == .write && ok
    let mask := if writes then accessedDirtyMask else accessedMask
    let l' := { l with dirty := l.dirty || writes }
    let s1 := s.setMem (setEntryBits s.mem m pa mask)
    let s2 := s1.setProc (p.keepLeaf m a.la l' c.keep c.keepPiece)
    if ok then
      .more { a with
        phase := .translated (frameAddress m (if l.large then .large else .ord4k) l.frame a.la) } s2
    else .done (failAccess a s2)

/-- One step of the walk (R136): read the entry and act on it, committing or dry. -/
def walkStep (a : Access) (c : Choice) (p : Proc) (m : PMode) (t : Partial) (dry : Bool) (s : State) :
    Progress :=
  let pa := entryAddress m t a.la
  if reaches s.config pa.toNat (entrySize m) then
    let seen := viewEntry s.config p m t pa (readEntry s.mem m pa)
    if dry || !(c.commit || a.mustCommit) then dryStep a p seen s
    else commitStep a c p m pa seen s
  else .done (.fault .outsideMemRange)

/-- One step of an access, with the choice made for it. -/
def accessStep (a : Access) (c : Choice) (p : Proc) (m : PMode) (s : State) : Progress :=
  match a.phase with
  | .begin =>
    if m == .pae && !p.pdptrValid then .done (.refused .pdptrNotLoaded)
    else beginStep a c p m s
  | .walk t dry => walkStep a c p m t dry s
  | .translated pa => .done (moveData a pa s)

/-- The access waits while other agents act (R137, D10); a speculative access just ends. -/
def waitAccess (a : Access) (s : State) : Result :=
  if a.demand then s.withProc fun p => .next (s.setProc { p with busy := some a }) else .next s

/-- Go on with an access for at most `fuel` steps: before each step the choice may let other agents
act first. With paging off there is nothing to translate (R155). -/
def runAccess : Nat → Access → State → Result
  | 0, a, s => waitAccess a s
  | fuel + 1, a, s =>
    s.withProc fun p =>
      match p.mode with
      | none => moveData a (unpagedAddress a.la) s
      | some m =>
        if a.demand && s.choice.pause then waitAccess a s.drawn
        else
          match accessStep a s.choice p m s.drawn with
          | .done r => r
          | .more a' s' => runAccess fuel a' s'

/-- More steps than an access can take: two beginnings, two walks of four entries, the data. -/
def accessFuel : Nat := 12

/-- Why an address is no address of an access or of INVLPG: not canonical in IA-32e mode (R133). -/
def refusesAddress (mode : Option PMode) (la : LAddr) : Bool := mode == some .ia32e && !canonical la

/-- A demand access as an operation makes it (R150 to R153). -/
def demandAccess (kind : AccessKind) (la : LAddr) (n v : Nat) (s : State) : Result :=
  s.withProc fun p =>
    match accessIllFormed la n with
    | some why => .refused (.notOneAccess why)
    | none =>
      if refusesAddress p.mode la then .refused .nonCanonical
      else
        runAccess accessFuel
          { kind := kind, la := operandAddress p.mode la, n := n, v := v, cpl := p.cpl, demand := true,
            phase := .begin, mustCommit := false } s

/-- Go on with the access in progress of the current processor (R137). -/
def continueAccess (a : Access) (s : State) : Result :=
  s.withProc fun p => runAccess accessFuel a (s.setProc { p with busy := none })

end Sys2Proof.Machine
end

