-- ==== Sys2Proof/Machine/Agents.lean ====
section
/-! DEFINITION. The moves of the agents (`00_scope.md` R7 item 1): what software of a processor does
next, the autonomous steps of the translation hardware, and the environment. -/

namespace Sys2Proof.Machine

/-- What processor p's software does next. -/
inductive SoftwareMove where
  /-- There is no such processor, it is halted (R376), or it has nothing to issue. -/
  | idle
  /-- It goes on with its access in progress (R137). -/
  | goOn (a : Access) (s : State)
  /-- It issues an operation: the processor is selected, its CPL is the operation's (R26), and the
  operation has left the program. -/
  | issue (i : Instr) (s : State)
  /-- The slot holds no operation. -/
  | reject (why : DecodeError)

/-- The state in which a processor's first operation executes (R20, R26). -/
def State.issued (s : State) (p : Nat) (pr : Proc) (op : Issue) (rest : List Issue) : State :=
  { s with current := p, procs := s.procs.set p { pr with program := rest, cpl := op.cpl } }

/-- Fetch processor p's next operation: one at a time, in the order of its program (R20). -/
def fetchSoftware (p : Nat) (s : State) : SoftwareMove :=
  match s.procs[p]? with
  | none => .idle
  | some pr =>
    if pr.halted then .idle
    else
      match pr.busy with
      | some a => .goOn a { s with current := p }
      | none =>
        match pr.program with
        | [] => .idle
        | op :: rest =>
          match decode pr.lma op.text with
          | .bad why => .reject why
          | .ok i _ => .issue i (s.issued p pr op rest)

/-- A speculative access of processor p (R156): kinds read and fetch, paging on, an address of the
mode, within a page. A move that is none of these is not taken. -/
def speculativeAccess (p : Nat) (la : LAddr) (kind : AccessKind) (cpl : Cpl) (n : Nat) (fuel : Nat)
    (s : State) : Result :=
  match s.procs[p]? with
  | none => .next s
  | some pr =>
    if pr.mode == none || kind == .write || refusesAddress pr.mode la || accessIllFormed la n != none then
      .next s
    else
      runAccess fuel
        { kind := kind, la := operandAddress pr.mode la, n := n, v := 0, cpl := cpl, demand := false,
          phase := .begin, mustCommit := false } { s with current := p }

/-- A fill of processor p's caches (R196 to R198, R173): a walk for la that stops after at most
`steps` of its steps and reads no data (R199). It reads with no privilege check in its way, since an
entry is cached whatever the rights (R172). A fill whose leaf gives a frame outside the populated range
completes and may keep the TLB entry, since it makes no access there: R96 and D8 say that a translation to
such an address has no step, U29 that an access has none. DESIGN CHOICE (log 18). -/
def fillWalk : Nat → Access → State → Result
  | 0, _, s => .next s
  | steps + 1, a, s =>
    s.withProc fun p =>
      match p.mode with
      | none => .next s
      | some m =>
        match accessStep a s.choice p m s.drawn with
        | .done r => r
        | .more a' s' =>
          match a'.phase with
          | .translated _ => .next s'
          | .begin => fillWalk steps a' s'
          | .walk _ _ => fillWalk steps a' s'

/-- The fill move of processor p. -/
def fillCaches (p : Nat) (la : LAddr) (steps : Nat) (s : State) : Result :=
  match s.procs[p]? with
  | none => .next s
  | some pr =>
    if pr.mode == none || refusesAddress pr.mode la then .next s
    else
      fillWalk steps
        { kind := .read, la := operandAddress pr.mode la, n := 1, v := 0, cpl := 0, demand := false,
          phase := .begin, mustCommit := true } { s with current := p }

/-- Spontaneous invalidation (R241): any subset of the four sets; never the PDPTR registers. -/
def dropEntries (p : Nat) (which : Removal) (s : State) : Result :=
  match s.procs[p]? with
  | none => .next s
  | some pr => .next { s with procs := s.procs.set p (pr.invalidate Req.nothing which) }

/-- The environment resumes processor p, with no other effect (R376). -/
def resumeProc (p : Nat) (s : State) : Result :=
  match s.procs[p]? with
  | none => .next s
  | some pr => .next { s with procs := s.procs.set p { pr with halted := false } }

/-- Processor 0 with an operation at CPL 0 before its program, ready to issue it. -/
def loadSlot (bytes : List Byte) (pr : Proc) : Proc :=
  { pr with halted := false, busy := none, program := ⟨0, .code bytes 0⟩ :: pr.program }

/-- Place the bytes as processor 0's next operation and its software as the next move (log 2). -/
def placeOperation (bytes : List Byte) (s : State) : State :=
  { s with procs := s.procs.modify 0 (loadSlot bytes), schedule := .software 0 :: s.schedule }

end Sys2Proof.Machine
end

