-- ==== Sys2Proof/Machine/Access.lean ====
section
/-! DEFINITION. The meanings of READ, WRITE and FETCH (`40_address_translation.md` R151 to R153). -/

namespace Sys2Proof.Machine

/-- `READ la, n` (R151). -/
def execRead (la : LAddr) (n : Nat) (s : State) : Result := demandAccess .read la n 0 s

/-- `WRITE la, n, v` (R152). -/
def execWrite (la : LAddr) (n v : Nat) (s : State) : Result := demandAccess .write la n v s

/-- `FETCH la, n` (R153). -/
def execFetch (la : LAddr) (n : Nat) (s : State) : Result := demandAccess .fetch la n 0 s

end Sys2Proof.Machine
end

