-- ==== Sys2Proof/Machine/Invalidation.lean ====
section
/-! DEFINITION. The meanings of the invalidating instructions: INVLPG, MOV to CR3, MOV to CR4
(`43_invalidation.md` R231 to R233). -/

namespace Sys2Proof.Machine

/-- `Req` of INVLPG la on p, by the parameter `InvlpgSelective` (R231, R392). -/
def invlpgReq (cfg : Config) (p : Proc) (la : LAddr) : Req :=
  if cfg.invlpgSelective then Req.invlpgSelective p.mode (operandAddress p.mode la)
  else Req.invlpg (operandAddress p.mode la)

/-- `INVLPG la` (R231): the operand is neither translated nor accessed (D39). -/
def execInvlpg (la : LAddr) (s : State) : Result :=
  s.privileged fun p =>
    if refusesAddress p.mode la then .refused .nonCanonical
    else .next (s.invalidated p (invlpgReq s.config p la))

/-- `MOV_TO_CR3 v` (R232), whatever the old value and whatever CR0.PG. The value has the operand size of
R113. -/
def execMovToCr3 (v : BitVec 64) (s : State) : Result :=
  s.privileged fun p =>
    s.loadPdptrs p (!p.lma && p.pae) (crOperand p v) fun p' =>
      .next (s.invalidated { p' with cr3 := crOperand p v } Req.nonGlobal)

/-- Bit 4 of a CR4 value, PSE (R23). -/
def cr4Pse (v : BitVec 64) : Bool := v.getLsbD 4

/-- Bit 5 of a CR4 value, PAE (R23). -/
def cr4Pae (v : BitVec 64) : Bool := v.getLsbD 5

/-- Bit 7 of a CR4 value, PGE (R23). -/
def cr4Pge (v : BitVec 64) : Bool := v.getLsbD 7

/-- A MOV to CR4 that modifies at least one of PSE, PAE and PGE (R330, R233). -/
def cr4Changed (p : Proc) (v : BitVec 64) : Bool :=
  p.pse != cr4Pse v || p.pae != cr4Pae v || p.pge != cr4Pge v

/-- The new CR4 fields (R233). -/
def Proc.withCr4 (p : Proc) (v : BitVec 64) : Proc :=
  { p with pse := cr4Pse v, pae := cr4Pae v, pge := cr4Pge v }

/-- `MOV_TO_CR4 v` (R233). With LMA = 1 and PAE cleared there is no successor state (R25). The bits it
reads lie in the low 32, which are moved at either operand size (R113). -/
def execMovToCr4 (v : BitVec 64) (s : State) : Result :=
  s.privileged fun p =>
    if p.lma && !cr4Pae v then .fault .paeClearedInIA32e
    else
      s.loadPdptrs p (cr4Pae v && !p.lma && p.pg && cr4Changed p v) p.cr3 fun p' =>
        .next (s.invalidated (p'.withCr4 v)
          (if p.pge != cr4Pge v then Req.everything else Req.nothing))

end Sys2Proof.Machine
end

