-- ==== Sys2Proof/Machine/System.lean ====
section
/-! DEFINITION. The meanings of MOV to CR0 (`46_other_paging_modes.md` R340), MOV from CRn
(`30_encoding.md` R113), HLT (`47_multiprocessor.md` R376) and CPUID (`40_address_translation.md`
R158). -/

namespace Sys2Proof.Machine

/-- Bit 31 of a CR0 value, PG (R21). -/
def cr0Pg (v : BitVec 64) : Bool := v.getLsbD 31

/-- Bit 16 of a CR0 value, WP (R21). -/
def cr0Wp (v : BitVec 64) : Bool := v.getLsbD 16

/-- `MOV_TO_CR0 v` (R340): the PDPTR load on either direction of a change of PG; no required
invalidation (R235). The bits it reads lie in the low 32, which are moved at either operand size
(R113). -/
def execMovToCr0 (v : BitVec 64) (s : State) : Result :=
  s.privileged fun p =>
    s.loadPdptrs p (cr0Pg v != p.pg && !p.lma && p.pae) p.cr3 fun p' =>
      .next (s.invalidated { p' with pg := cr0Pg v, wp := cr0Wp v } Req.nothing)

/-- A Boolean at a bit position. -/
def bitAt (b : Bool) (k : Nat) : BitVec 64 := if b then BitVec.twoPow 64 k else 0

/-- The value of a control register as MOV from CRn reads it: the bits the spec describes as State
holds them, the others free (log 29). CR3 is held whole (R232). -/
def controlValue (p : Proc) (cr : CrNum) (free : BitVec 64) : BitVec 64 :=
  match cr with
  | .cr0 => (free &&& ~~~(bitAt true 31 ||| bitAt true 16)) ||| bitAt p.pg 31 ||| bitAt p.wp 16
  | .cr3 => p.cr3
  | .cr4 =>
    (free &&& ~~~(bitAt true 4 ||| bitAt true 5 ||| bitAt true 7)) |||
      bitAt p.pse 4 ||| bitAt p.pae 5 ||| bitAt p.pge 7

/-- `MOV r, CRn` (R113): changes no state of the spec; the value read, as wide as the operand size, is
reported (log 29). -/
def execMovFromCrn (cr : CrNum) (s : State) : Result :=
  s.withProc fun p =>
    .next (s.drawn.report (.controlRegister s.current cr (crOperand p (controlValue p cr s.choice.bits))))

/-- `HLT` (R376). -/
def execHlt (s : State) : Result :=
  s.privileged fun p => .next (s.setProc { p with halted := true })

/-- `CPUID` (R158): needs no privilege (R406), changes no state. -/
def execCpuid (s : State) : Result :=
  s.withProc fun _ => .next (s.report (.cpuid s.current s.config.maxPhyAddr s.config.pse36))

end Sys2Proof.Machine
end

