-- ==== Sys2Proof/Machine/Dispatch.lean ====
section
/-! DEFINITION. The dispatch from operations to their meanings. -/

namespace Sys2Proof.Machine

def exec (i : Instr) (s : State) : Host.Outcome State Fault Refusal :=
  match i with
  | .read la n => Sys2Proof.Machine.execRead la n s
  | .write la n v => Sys2Proof.Machine.execWrite la n v s
  | .fetch la n => Sys2Proof.Machine.execFetch la n s
  | .invlpg _ _ _ la => Sys2Proof.Machine.execInvlpg la s
  | .movToCr3 _ _ v => Sys2Proof.Machine.execMovToCr3 v s
  | .movToCr4 _ _ v => Sys2Proof.Machine.execMovToCr4 v s
  | .movToCr0 _ _ v => Sys2Proof.Machine.execMovToCr0 v s
  | .movFromCrn _ cr _ => Sys2Proof.Machine.execMovFromCrn cr s
  | .hlt => Sys2Proof.Machine.execHlt s
  | .cpuid => Sys2Proof.Machine.execCpuid s

end Sys2Proof.Machine
end

