-- ==== Sys2Proof/Machine/Step.lean ====
section
/-! DEFINITION. One step of the machine: the next move is taken from the schedule and made. -/

namespace Sys2Proof.Machine

/-- The move of one agent. -/
def move (e : Event) (s : State) : Host.Outcome State Fault Refusal :=
  match e with
  | .software p =>
    match fetchSoftware p s with
    | .idle => .next s
    | .goOn a s' => continueAccess a s'
    | .issue i s' => exec i s'
    | .reject why => .refused (.undecodable why)
  | .speculate p la kind cpl n => speculativeAccess p la kind cpl n accessFuel s
  | .fill p la steps => fillCaches p la steps s
  | .drop p which => dropEntries p which s
  | .resume p => resumeProc p s

/-- One step: the next move, one of State's schedule or a free one (R43, log 3). -/
def step (s : State) : Host.Outcome State Fault Refusal := move s.event s.scheduled

/-- The instruction whose first `nbits` bits are `w`, placed as processor 0's next operation. -/
def State.withFetchWord (s : State) (nbits w : Nat) : State := placeOperation (wordBytes nbits w) s

end Sys2Proof.Machine
end

