-- ==== Sys2Proof/Laws/State.lean ====
section
/-! SUPPORT. One lemma per field and update of State and of Proc, so that no later proof unfolds a record
update. -/

namespace Sys2Proof.Machine

/-! ### setProc, report, setMem -/

section
variable (s : State) (p : Proc) (r : Report) (m : Memory)

@[simp] theorem State.setProc_config : (s.setProc p).config = s.config := rfl
@[simp] theorem State.setProc_mem : (s.setProc p).mem = s.mem := rfl
@[simp] theorem State.setProc_procs : (s.setProc p).procs = s.procs.set s.current p := rfl
@[simp] theorem State.setProc_current : (s.setProc p).current = s.current := rfl
@[simp] theorem State.setProc_trace : (s.setProc p).trace = s.trace := rfl
@[simp] theorem State.setProc_schedule : (s.setProc p).schedule = s.schedule := rfl
@[simp] theorem State.setProc_choices : (s.setProc p).choices = s.choices := rfl
@[simp] theorem State.setProc_clock : (s.setProc p).clock = s.clock := rfl

@[simp] theorem State.report_config : (s.report r).config = s.config := rfl
@[simp] theorem State.report_mem : (s.report r).mem = s.mem := rfl
@[simp] theorem State.report_procs : (s.report r).procs = s.procs := rfl
@[simp] theorem State.report_current : (s.report r).current = s.current := rfl
@[simp] theorem State.report_trace : (s.report r).trace = r :: s.trace := rfl
@[simp] theorem State.report_schedule : (s.report r).schedule = s.schedule := rfl
@[simp] theorem State.report_choices : (s.report r).choices = s.choices := rfl
@[simp] theorem State.report_clock : (s.report r).clock = s.clock := rfl
@[simp] theorem State.report_proc? : (s.report r).proc? = s.proc? := rfl

@[simp] theorem State.setMem_config : (s.setMem m).config = s.config := rfl
@[simp] theorem State.setMem_mem : (s.setMem m).mem = m := rfl
@[simp] theorem State.setMem_procs : (s.setMem m).procs = s.procs := rfl
@[simp] theorem State.setMem_current : (s.setMem m).current = s.current := rfl
@[simp] theorem State.setMem_trace : (s.setMem m).trace = s.trace := rfl
@[simp] theorem State.setMem_schedule : (s.setMem m).schedule = s.schedule := rfl
@[simp] theorem State.setMem_choices : (s.setMem m).choices = s.choices := rfl
@[simp] theorem State.setMem_clock : (s.setMem m).clock = s.clock := rfl
@[simp] theorem State.setMem_proc? : (s.setMem m).proc? = s.proc? := rfl

/-! ### The draw of a choice and the taking of a move -/

@[simp] theorem State.drawn_config : s.drawn.config = s.config := by unfold State.drawn; split <;> rfl
@[simp] theorem State.drawn_mem : s.drawn.mem = s.mem := by unfold State.drawn; split <;> rfl
@[simp] theorem State.drawn_procs : s.drawn.procs = s.procs := by unfold State.drawn; split <;> rfl
@[simp] theorem State.drawn_current : s.drawn.current = s.current := by unfold State.drawn; split <;> rfl
@[simp] theorem State.drawn_trace : s.drawn.trace = s.trace := by unfold State.drawn; split <;> rfl
@[simp] theorem State.drawn_schedule : s.drawn.schedule = s.schedule := by
  unfold State.drawn; split <;> rfl
@[simp] theorem State.drawn_proc? : s.drawn.proc? = s.proc? := by simp [State.proc?]
theorem State.drawn_choices : s.drawn.choices = s.choices.tail := by
  unfold State.drawn; split <;> simp_all

@[simp] theorem State.scheduled_config : s.scheduled.config = s.config := by
  unfold State.scheduled; split <;> rfl
@[simp] theorem State.scheduled_mem : s.scheduled.mem = s.mem := by
  unfold State.scheduled; split <;> rfl
@[simp] theorem State.scheduled_procs : s.scheduled.procs = s.procs := by
  unfold State.scheduled; split <;> rfl
@[simp] theorem State.scheduled_current : s.scheduled.current = s.current := by
  unfold State.scheduled; split <;> rfl
@[simp] theorem State.scheduled_trace : s.scheduled.trace = s.trace := by
  unfold State.scheduled; split <;> rfl
@[simp] theorem State.scheduled_choices : s.scheduled.choices = s.choices := by
  unfold State.scheduled; split <;> rfl
@[simp] theorem State.scheduled_proc? : s.scheduled.proc? = s.proc? := by simp [State.proc?]

/-- A choice that State fixes in advance is the one drawn. -/
theorem State.choice_of_cons (c : Choice) (cs : List Choice) (h : s.choices = c :: cs) : s.choice = c := by
  simp [State.choice, h]

/-- A move that State fixes in advance is the one taken. -/
theorem State.event_of_cons (e : Event) (es : List Event) (h : s.schedule = e :: es) : s.event = e := by
  simp [State.event, h]

/-- Drawing a choice that is fixed in advance takes it off the list. -/
theorem State.drawn_of_cons (c : Choice) (cs : List Choice) (h : s.choices = c :: cs) :
    s.drawn = { s with choices := cs } := by
  simp [State.drawn, h]

/-- Taking a move that is fixed in advance takes it off the list. -/
theorem State.scheduled_of_cons (e : Event) (es : List Event) (h : s.schedule = e :: es) :
    s.scheduled = { s with schedule := es } := by
  simp [State.scheduled, h]

/-- The current processor after it was changed. -/
theorem State.setProc_proc? (h : s.proc? = some q) : (s.setProc p).proc? = some p := by
  have hl : s.current < s.procs.length := by
    rcases Nat.lt_or_ge s.current s.procs.length with h' | h'
    · exact h'
    · simp [State.proc?, List.getElem?_eq_none h'] at h
  simp [State.proc?, hl]

/-- The other processors are not changed. -/
theorem State.setProc_other (k : Nat) (h : k ≠ s.current) : (s.setProc p).procs[k]? = s.procs[k]? := by
  simp [List.getElem?_set_ne (Ne.symm h)]

@[simp] theorem State.setProc_setProc (q : Proc) : (s.setProc p).setProc q = s.setProc q := by
  simp [State.setProc]

end

/-! ### withProc -/

/-- If an operation on the current processor answers anything but a refusal for want of one, the
processor exists. -/
theorem State.withProc_eq (s : State) (k : Proc → Result) (p : Proc) (h : s.proc? = some p) :
    s.withProc k = k p := by
  simp [State.withProc, h]

/-- The inversion of `withProc`: a next state comes from the current processor. -/
theorem State.withProc_next (s : State) (k : Proc → Result) (t : State) (h : s.withProc k = .next t) :
    ∃ p, s.proc? = some p ∧ k p = .next t := by
  unfold State.withProc at h
  split at h
  · cases h
  · exact ⟨_, by assumption, h⟩

/-! ### invalidate and the cache fills, field by field -/

section
variable (p : Proc) (req : Req) (extra : Removal)

@[simp] theorem Proc.invalidate_pg : (p.invalidate req extra).pg = p.pg := rfl
@[simp] theorem Proc.invalidate_wp : (p.invalidate req extra).wp = p.wp := rfl
@[simp] theorem Proc.invalidate_cr3 : (p.invalidate req extra).cr3 = p.cr3 := rfl
@[simp] theorem Proc.invalidate_pse : (p.invalidate req extra).pse = p.pse := rfl
@[simp] theorem Proc.invalidate_pae : (p.invalidate req extra).pae = p.pae := rfl
@[simp] theorem Proc.invalidate_pge : (p.invalidate req extra).pge = p.pge := rfl
@[simp] theorem Proc.invalidate_lma : (p.invalidate req extra).lma = p.lma := rfl
@[simp] theorem Proc.invalidate_nxe : (p.invalidate req extra).nxe = p.nxe := rfl
@[simp] theorem Proc.invalidate_cpl : (p.invalidate req extra).cpl = p.cpl := rfl
@[simp] theorem Proc.invalidate_tlb :
    (p.invalidate req extra).tlb = removeWhere req.tlb extra.tlb p.tlb := rfl
@[simp] theorem Proc.invalidate_pml4c :
    (p.invalidate req extra).pml4c = removeWhere req.pml4c extra.pml4c p.pml4c := rfl
@[simp] theorem Proc.invalidate_pdpc :
    (p.invalidate req extra).pdpc = removeWhere req.pdpc extra.pdpc p.pdpc := rfl
@[simp] theorem Proc.invalidate_pdec :
    (p.invalidate req extra).pdec = removeWhere req.pdec extra.pdec p.pdec := rfl
@[simp] theorem Proc.invalidate_pdptr : (p.invalidate req extra).pdptr = p.pdptr := rfl
@[simp] theorem Proc.invalidate_pdptrValid : (p.invalidate req extra).pdptrValid = p.pdptrValid := rfl
@[simp] theorem Proc.invalidate_halted : (p.invalidate req extra).halted = p.halted := rfl
@[simp] theorem Proc.invalidate_program : (p.invalidate req extra).program = p.program := rfl
@[simp] theorem Proc.invalidate_busy : (p.invalidate req extra).busy = p.busy := rfl
@[simp] theorem Proc.invalidate_mode : (p.invalidate req extra).mode = p.mode := rfl

end

end Sys2Proof.Machine
end

