-- ==== Sys2Proof/Laws/Memory.lean ====
section
/-! SUPPORT. The laws of memory: a read after a write, the canonical form, little-endian values, and what
setting bits of an entry does to each byte. -/

namespace Sys2Proof.Machine

/-! ### One byte -/

theorem Memory.read_nil (a : Nat) : Memory.read [] a = unlistedByte := rfl

/-- An address below all listed ones is unlisted. -/
theorem Memory.read_of_lt (m : Memory) (a : Nat) (h : ∀ c ∈ m, a < c.1) : m.read a = unlistedByte := by
  induction m with
  | nil => rfl
  | cons c rest ih =>
    have h1 : a < c.1 := h c (by simp)
    have h2 := ih fun d hd => h d (by simp [hd])
    simp [Memory.read, h2, Nat.ne_of_gt h1]

/-- A write leaves every other byte alone, in any memory. -/
theorem Memory.read_write_other (m : Memory) (a b : Nat) (x : Byte) (h : b ≠ a) :
    (m.write a x).read b = m.read b := by
  induction m with
  | nil =>
    by_cases hx : x = unlistedByte
    · simp [Memory.write, hx]
    · simp [Memory.write, hx, Memory.read, Ne.symm h]
  | cons c rest ih =>
    obtain ⟨k, y⟩ := c
    by_cases h1 : a < k
    · by_cases hx : x = unlistedByte
      · simp [Memory.write, h1, hx]
      · simp [Memory.write, h1, hx, Memory.read, Ne.symm h]
    · by_cases h2 : a = k
      · subst h2
        by_cases hx : x = unlistedByte
        · simp [Memory.write, hx, Memory.read, Ne.symm h]
        · simp [Memory.write, hx, Memory.read, Ne.symm h]
      · simp only [Memory.write, h1, h2, if_false, Memory.read]
        rw [ih]

/-- A canonical memory reads back what was written. -/
theorem Memory.read_write_same (m : Memory) (a : Nat) (x : Byte) (hm : m.wf) :
    (m.write a x).read a = x := by
  induction m with
  | nil =>
    by_cases hx : x = unlistedByte
    · simp [Memory.write, hx, Memory.read]
    · simp [Memory.write, hx, Memory.read]
  | cons c rest ih =>
    obtain ⟨k, y⟩ := c
    have hrest : Memory.wf rest := ⟨(List.pairwise_cons.mp hm.1).2, fun d hd => hm.2 d (by simp [hd])⟩
    have hlt : ∀ d ∈ rest, k < d.1 := fun d hd => (List.pairwise_cons.mp hm.1).1 d hd
    by_cases h1 : a < k
    · by_cases hx : x = unlistedByte
      · simp only [Memory.write, h1, hx, if_true]
        apply Memory.read_of_lt
        intro d hd
        rcases List.mem_cons.mp hd with rfl | hd
        · exact h1
        · exact Nat.lt_trans h1 (hlt d hd)
      · simp [Memory.write, h1, hx, Memory.read]
    · by_cases h2 : a = k
      · subst h2
        by_cases hx : x = unlistedByte
        · simp only [Memory.write, hx, if_true, Nat.lt_irrefl, if_false]
          exact Memory.read_of_lt _ _ hlt
        · simp [Memory.write, hx, Memory.read]
      · simp only [Memory.write, h1, h2, if_false, Memory.read, Ne.symm h2]
        exact ih hrest

/-- The address of an entry after a write was there before or is the one written. -/
theorem Memory.mem_write (m : Memory) (a : Nat) (x : Byte) (c : Host.Cell) (h : c ∈ m.write a x) :
    c ∈ m ∨ (c = (a, x) ∧ x ≠ unlistedByte) := by
  induction m with
  | nil =>
    by_cases hx : x = unlistedByte
    · simp [Memory.write, hx] at h
    · simp [Memory.write, hx] at h
      exact .inr ⟨h, hx⟩
  | cons d rest ih =>
    obtain ⟨k, y⟩ := d
    unfold Memory.write at h
    split at h
    · split at h
      · exact .inl h
      · rcases List.mem_cons.mp h with h | h
        · exact .inr ⟨h, by assumption⟩
        · exact .inl h
    · split at h
      · split at h
        · exact .inl (List.mem_cons_of_mem _ h)
        · rcases List.mem_cons.mp h with h | h
          · exact .inr ⟨h, by assumption⟩
          · exact .inl (List.mem_cons_of_mem _ h)
      · rcases List.mem_cons.mp h with h | h
        · exact .inl (by simp [h])
        · rcases ih h with h | h
          · exact .inl (List.mem_cons_of_mem _ h)
          · exact .inr h

/-- A write keeps the canonical form. -/
theorem Memory.write_wf (m : Memory) (a : Nat) (x : Byte) (hm : m.wf) : (m.write a x).wf := by
  refine ⟨?_, fun c hc => ?_⟩
  · induction m with
    | nil => unfold Memory.write; split <;> simp
    | cons d rest ih =>
      obtain ⟨k, y⟩ := d
      have hp := List.pairwise_cons.mp hm.1
      have hrest : Memory.wf rest := ⟨hp.2, fun d hd => hm.2 d (by simp [hd])⟩
      unfold Memory.write
      split
      · rename_i hlt
        split
        · exact hm.1
        · refine List.pairwise_cons.mpr ⟨fun c hc => ?_, hm.1⟩
          rcases List.mem_cons.mp hc with rfl | hc
          · exact hlt
          · exact Nat.lt_trans hlt (hp.1 c hc)
      · split
        · rename_i heq
          split
          · exact hp.2
          · exact List.pairwise_cons.mpr ⟨fun c hc => by simpa [heq] using hp.1 c hc, hp.2⟩
        · rename_i hnlt hne
          refine List.pairwise_cons.mpr ⟨fun c hc => ?_, ih hrest⟩
          rcases Memory.mem_write rest a x c hc with hc | ⟨rfl, -⟩
          · exact hp.1 c hc
          · show k < a
            omega
  · rcases Memory.mem_write m a x c hc with hc | ⟨rfl, hx⟩
    · exact hm.2 c hc
    · exact hx

/-! ### Values of several bytes -/

/-- A store of n bytes leaves every byte outside them alone. -/
theorem Memory.read_writeLE_other (n : Nat) (m : Memory) (a v b : Nat) (h : b < a ∨ a + n ≤ b) :
    (m.writeLE a n v).read b = m.read b := by
  induction n generalizing m a v with
  | zero => rfl
  | succ n ih =>
    simp only [Memory.writeLE]
    rw [ih _ _ _ (by omega), Memory.read_write_other _ _ _ _ (by omega)]

/-- A store of n bytes keeps the canonical form. -/
theorem Memory.writeLE_wf (n : Nat) (m : Memory) (a v : Nat) (hm : m.wf) : (m.writeLE a n v).wf := by
  induction n generalizing m a v with
  | zero => exact hm
  | succ n ih => exact ih _ _ _ (Memory.write_wf _ _ _ hm)

/-- Byte k of a store of n bytes is byte k of the value (R91). -/
theorem Memory.read_writeLE_at (n : Nat) (m : Memory) (a v k : Nat) (hm : m.wf) (hk : k < n) :
    (m.writeLE a n v).read (a + k) = BitVec.ofNat 8 (v / 256 ^ k) := by
  induction n generalizing m a v k with
  | zero => omega
  | succ n ih =>
    simp only [Memory.writeLE]
    cases k with
    | zero =>
      rw [Memory.read_writeLE_other _ _ _ _ _ (by omega), Nat.add_zero, Memory.read_write_same _ _ _ hm]
      simp
    | succ k =>
      have := ih (m.write a (BitVec.ofNat 8 v)) (a + 1) (v / 256) k (Memory.write_wf _ _ _ hm) (by omega)
      rw [show a + (k + 1) = a + 1 + k by omega, this, Nat.div_div_eq_div_mul, Nat.pow_succ,
        Nat.mul_comm 256]

/-- Two memories that agree on n bytes give the same value there. -/
theorem Memory.readLE_congr (n : Nat) (m m' : Memory) (a : Nat)
    (h : ∀ k < n, m'.read (a + k) = m.read (a + k)) : m'.readLE a n = m.readLE a n := by
  induction n generalizing a with
  | zero => rfl
  | succ n ih =>
    simp only [Memory.readLE]
    rw [ih (a + 1) fun k hk => by
      have := h (k + 1) (by omega)
      rwa [show a + (k + 1) = a + 1 + k by omega] at this]
    have := h 0 (by omega)
    simp only [Nat.add_zero] at this
    rw [this]

/-- The value of n bytes is below 256 to the n. -/
theorem Memory.readLE_lt (n : Nat) (m : Memory) (a : Nat) : m.readLE a n < 256 ^ n := by
  induction n generalizing a with
  | zero => simp [Memory.readLE]
  | succ n ih =>
    have h1 := ih (a + 1)
    have h2 := (m.read a).isLt
    simp only [Memory.readLE, Nat.pow_succ]
    omega

/-- A value that was stored reads back (R91, R95). -/
theorem Memory.readLE_writeLE_same (n : Nat) (m : Memory) (a v : Nat) (hm : m.wf) :
    (m.writeLE a n v).readLE a n = v % 256 ^ n := by
  induction n generalizing m a v with
  | zero => simp [Memory.readLE, Nat.mod_one]
  | succ n ih =>
    simp only [Memory.writeLE, Memory.readLE]
    rw [ih _ _ _ (Memory.write_wf _ _ _ hm), Memory.read_writeLE_other _ _ _ _ _ (by omega),
      Memory.read_write_same _ _ _ hm]
    have h8 : (BitVec.ofNat 8 v).toNat = v % 256 := BitVec.toNat_ofNat ..
    have h := Nat.mod_mul (x := v) (a := 256) (b := 256 ^ n)
    rw [h8, Nat.pow_succ, Nat.mul_comm (256 ^ n), h]

/-- A store outside n bytes does not change their value. -/
theorem Memory.readLE_writeLE_other (n k : Nat) (m : Memory) (a b v : Nat)
    (h : a + n ≤ b ∨ b + k ≤ a) : (m.writeLE b k v).readLE a n = m.readLE a n :=
  Memory.readLE_congr n m _ a fun i hi => Memory.read_writeLE_other _ _ _ _ _ (by omega)

/-- Byte k of the value of n bytes is the byte k places on. -/
theorem Memory.byte_of_readLE (n : Nat) (m : Memory) (a k : Nat) (hk : k < n) :
    BitVec.ofNat 8 (m.readLE a n / 256 ^ k) = m.read (a + k) := by
  induction n generalizing a k with
  | zero => omega
  | succ n ih =>
    simp only [Memory.readLE]
    cases k with
    | zero =>
      apply BitVec.eq_of_toNat_eq
      have := (m.read a).isLt
      simp only [Nat.pow_zero, Nat.div_one, BitVec.toNat_ofNat, Nat.add_zero]
      omega
    | succ k =>
      have h2 := (m.read a).isLt
      rw [Nat.pow_succ, Nat.mul_comm (256 ^ k), ← Nat.div_div_eq_div_mul,
        show ((m.read a).toNat + 256 * m.readLE (a + 1) n) / 256 = m.readLE (a + 1) n by omega,
        ih (a + 1) k (by omega), show a + 1 + k = a + (k + 1) by omega]

/-! ### Setting bits of an entry -/

theorem entrySize_pos (m : PMode) : 0 < entrySize m := by cases m <;> decide

theorem entrySize_le (m : PMode) : entrySize m ≤ 8 := by cases m <;> decide

/-- The mask of the accessed bit, or of accessed and dirty, lies in the lowest byte of the entry. -/
theorem setEntryBits_read (mem : Memory) (m : PMode) (a : PAddr) (mask : Entry) (hm : mem.wf)
    (hmask : mask.toNat < 256) (b : Nat) :
    (setEntryBits mem m a mask).read b =
      if b = a.toNat then mem.read b ||| BitVec.ofNat 8 mask.toNat else mem.read b := by
  have hS := entrySize_pos m
  have hS8 := entrySize_le m
  unfold setEntryBits
  by_cases hb : b < a.toNat ∨ a.toNat + entrySize m ≤ b
  · rw [Memory.read_writeLE_other _ _ _ _ _ hb]
    split
    · omega
    · rfl
  · obtain ⟨k, rfl, hk⟩ : ∃ k, b = a.toNat + k ∧ k < entrySize m := ⟨b - a.toNat, by omega, by omega⟩
    rw [Memory.read_writeLE_at _ _ _ _ _ hm hk]
    have hlt := Memory.readLE_lt (entrySize m) mem a.toNat
    have hpow : 256 ^ entrySize m ≤ 2 ^ 64 := by cases m <;> decide
    have hval : (readEntry mem m a).toNat = mem.readLE a.toNat (entrySize m) := by
      simp only [readEntry, BitVec.toNat_ofNat]
      exact Nat.mod_eq_of_lt (by omega)
    have hbyte := Memory.byte_of_readLE (entrySize m) mem a.toNat k hk
    rw [BitVec.toNat_or, hval]
    have h256 : (256 : Nat) ^ k = 2 ^ (8 * k) := by rw [Nat.pow_mul]
    have key : BitVec.ofNat 8 ((mem.readLE a.toNat (entrySize m) ||| mask.toNat) / 256 ^ k) =
        mem.read (a.toNat + k) ||| BitVec.ofNat 8 (mask.toNat / 256 ^ k) := by
      rw [← hbyte]
      apply BitVec.eq_of_getLsbD_eq
      intro i hi
      simp only [BitVec.getLsbD_ofNat, BitVec.getLsbD_or, hi, decide_true, Bool.true_and, h256,
        Nat.testBit_div_two_pow, Nat.testBit_or]
    rw [key]
    by_cases h0 : k = 0
    · subst h0
      simp
    · have : mask.toNat / 256 ^ k = 0 := by
        apply Nat.div_eq_of_lt
        have : 256 ^ 1 ≤ 256 ^ k := Nat.pow_le_pow_right (by omega) (by omega)
        omega
      rw [this]
      simp [h0]

/-- Setting bits of an entry keeps the canonical form. -/
theorem setEntryBits_wf (mem : Memory) (m : PMode) (a : PAddr) (mask : Entry) (hm : mem.wf) :
    (setEntryBits mem m a mask).wf := Memory.writeLE_wf _ _ _ _ hm

end Sys2Proof.Machine
end

