-- ==== Sys2Proof/Safety.lean ====
section
/-! DEFINITION. What counts as a good state and a good change, in the terms the claims use: the
invariant of the machine, the translation that the paging structures in memory give, cached entries
that apply to an address or agree with memory, the entries that walks use and the bits they set there. -/

namespace Sys2Proof.Machine

/-! ### The invariant -/

/-- Alignment of a frame: its offset bits are zero (R34). -/
def frameAligned (mode : PMode) (kind : TlbKind) (frame : PAddr) : Bool :=
  match kind, mode with
  | .large, .legacy32 => frame.extractLsb' 0 22 == 0
  | .large, .pae => frame.extractLsb' 0 21 == 0
  | .large, .ia32e => frame.extractLsb' 0 21 == 0
  | .ord4k, _ => frame.extractLsb' 0 12 == 0
  | .ordFromLarge, _ => frame.extractLsb' 0 12 == 0

/-- An entry's tag can be in force on the processor: IA-32e iff LMA = 1, which never changes (R24, R39). -/
def tagPossible (p : Proc) (mode : PMode) : Bool := (mode == .ia32e) == p.lma

/-- Execute-disable is recorded only with NXE = 1 and not in 32-bit paging (R34, R37). -/
def xdPossible (p : Proc) (mode : PMode) (xd : Bool) : Bool := !xd || (p.nxe && mode != .legacy32)

/-- The width of a key: a page number has 36 bits in IA-32e mode and 20 otherwise, a large-page number
27, 11 or 10 (R34). -/
def keyWidth (mode : PMode) (kind : TlbKind) : Nat :=
  match kind, mode with
  | .large, .ia32e => 27
  | .large, .pae => 11
  | .large, .legacy32 => 10
  | .ord4k, .ia32e => 36
  | .ordFromLarge, .ia32e => 36
  | .ord4k, .pae => 20
  | .ordFromLarge, .pae => 20
  | .ord4k, .legacy32 => 20
  | .ordFromLarge, .legacy32 => 20

/-- The width of the address in a paging-structure entry or a frame: MAXPHYADDR bits, in PAE mode at most
36, in 32-bit paging 32, but at most 36 within a 4-MByte page with PSE-36 (R31, R82, R85, R352). -/
def addressWidth (cfg : Config) (mode : PMode) (fromLarge : Bool) : Nat :=
  match mode with
  | .ia32e => cfg.maxPhyAddr
  | .pae => min 36 cfg.maxPhyAddr
  | .legacy32 => if fromLarge && cfg.pse36 then min 36 cfg.maxPhyAddr else 32

/-- The frame of a piece of a large page lies at the piece's place in the page: `frame[LPbit-1:12]` is the
low 9 bits of the key, in 32-bit paging the low 10 (R34, R286, R356). -/
def TlbEntry.pieceInPlace (e : TlbEntry) : Bool :=
  e.kind != .ordFromLarge ||
    e.frame.toNat / 2 ^ 12 % 2 ^ pieceBits e.mode == e.key.toNat % 2 ^ pieceBits e.mode

/-- What holds of every TLB entry of p: possible tag, a key and an aligned frame of the tag's widths,
possible xd, global only with CR4.PGE = 1, a piece at its place in the large page (R34, R41, R286, R303). -/
def TlbEntry.ok (cfg : Config) (p : Proc) (e : TlbEntry) : Bool :=
  tagPossible p e.mode && decide (e.key.toNat < 2 ^ keyWidth e.mode e.kind) &&
    frameAligned e.mode e.kind e.frame &&
    decide (e.frame.toNat < 2 ^ addressWidth cfg e.mode (e.kind != .ord4k)) &&
    xdPossible p e.mode e.xd && (!e.global || p.pge) && e.pieceInPlace

/-- What holds of every PML4-cache entry: IA-32e only, an aligned address of MAXPHYADDR bits, possible
xd (R35, R41, R323). -/
def Pml4Entry.ok (cfg : Config) (p : Proc) (c : Pml4Entry) : Bool :=
  p.lma && c.addr.extractLsb' 0 12 == 0 && decide (c.addr.toNat < 2 ^ addressWidth cfg .ia32e false) &&
    xdPossible p .ia32e c.xd

/-- What holds of every PDP-cache entry: IA-32e only, an aligned address of MAXPHYADDR bits, possible xd
(R36, R41, R323). -/
def PdpEntry.ok (cfg : Config) (p : Proc) (c : PdpEntry) : Bool :=
  p.lma && c.addr.extractLsb' 0 12 == 0 && decide (c.addr.toNat < 2 ^ addressWidth cfg .ia32e false) &&
    xdPossible p .ia32e c.xd

/-- What holds of every PDE-cache entry: possible tag, a key and an aligned address of the tag's widths,
possible xd (R37, R41). -/
def PdeEntry.ok (cfg : Config) (p : Proc) (c : PdeEntry) : Bool :=
  tagPossible p c.mode && decide (c.key.toNat < 2 ^ keyWidth c.mode .large) &&
    c.addr.extractLsb' 0 12 == 0 && decide (c.addr.toNat < 2 ^ addressWidth cfg c.mode false) &&
    xdPossible p c.mode c.xd

/-- What holds of the partial translation an access carries: aligned address, a level of the mode,
possible xd (R135, R320, R350). -/
def Partial.ok (p : Proc) (m : PMode) (t : Partial) : Bool :=
  t.addr.extractLsb' 0 12 == 0 && (m == .ia32e || t.next == .l2 || t.next == .l1) &&
    xdPossible p m t.xd

/-- What holds of an access in progress: it is a demand access, and with paging on its partial
translation is one of the mode (D10). -/
def Access.ok (p : Proc) (a : Access) : Bool :=
  a.demand &&
    match a.phase, p.mode with
    | .walk t _, some m => t.ok p m
    | .walk _ _, none => true
    | .begin, _ => true
    | .translated _, _ => true

/-- The must-be-zero bits of the four PDPTR registers are 0 (R84, R332). -/
def Pdptrs.legal (q : Pdptrs) : Bool :=
  !pdptrFaults q.q0 && !pdptrFaults q.q1 && !pdptrFaults q.q2 && !pdptrFaults q.q3

/-- The mode bits are a legal mode: never CR4.PAE = 0 with LMA = 1 (R25), LMA = 1 only with `Intel64`
(R24). -/
def Proc.modeLegal (cfg : Config) (p : Proc) : Bool := (p.pae || !p.lma) && (!p.lma || cfg.intel64)

/-- In PAE mode the PDPTR registers have been loaded (R331), and loaded ones are legal (R332). -/
def Proc.pdptrsLegal (p : Proc) : Bool :=
  (p.mode != some .pae || p.pdptrValid) && (!p.pdptrValid || p.pdptr.legal)

/-- The four sets of p hold entries that p can have made, none of them twice (R33, R41). -/
def Proc.cachesOk (cfg : Config) (p : Proc) : Bool :=
  p.tlb.all (·.ok cfg p) && p.pml4c.all (·.ok cfg p) && p.pdpc.all (·.ok cfg p) &&
    p.pdec.all (·.ok cfg p) &&
    decide p.tlb.Nodup && decide p.pml4c.Nodup && decide p.pdpc.Nodup && decide p.pdec.Nodup

/-- A processor with an access in progress is not halted, and the access is one it can have (R376, D10). -/
def Proc.busyOk (p : Proc) : Bool :=
  match p.busy with
  | none => true
  | some a => !p.halted && a.ok p

/-- What holds of every logical processor in every reachable state. -/
def Proc.ok (cfg : Config) (p : Proc) : Bool :=
  p.modeLegal cfg && p.pdptrsLegal && p.cachesOk cfg && p.busyOk

/-- The invariant of the machine: legal parameters, canonical memory, `NLP` processors (R20), one of
which takes the step, and each of them good. -/
def Inv (s : State) : Prop :=
  s.config.wf = true ∧ s.mem.wf ∧ s.procs.length = s.config.nlp ∧ s.current < s.config.nlp ∧
    ∀ p ∈ s.procs, p.ok s.config = true

/-- The processor has nothing cached: the default `InitCaches = empty` (R441, D12). -/
def Proc.nothingCached (p : Proc) : Prop := p.tlb = [] ∧ p.pml4c = [] ∧ p.pdpc = [] ∧ p.pdec = []

/-- A state in which a run may start (R441), its parameters, memory image and programs free: the bits
PAE and LMA as R25 has them, LMA = 1 only with `Intel64`, cached entries none or as R41 allows, the
PDPTR registers loaded in PAE mode and legal where loaded, no access in progress. -/
structure StartState (s : State) : Prop where
  parameters : s.config.wf = true
  memory : s.mem.wf
  processors : s.procs.length = s.config.nlp
  current : s.current < s.config.nlp
  pae : ∀ p ∈ s.procs, p.pae = true ∨ p.lma = false
  intel64 : ∀ p ∈ s.procs, p.lma = true → s.config.intel64 = true
  caches : ∀ p ∈ s.procs, p.nothingCached ∨ p.cachesOk s.config = true
  pdptrs : ∀ p ∈ s.procs, p.pdptrsLegal = true
  idle : ∀ p ∈ s.procs, p.busy = none

/-! ### The bits that hardware sets while translating -/

/-- The accessed bit in an entry's first byte (R78). -/
def accessedByte : Byte := 0x20

/-- The dirty bit in an entry's first byte (R79). -/
def dirtyByte : Byte := 0x40

/-! ### The entry formats, bit by bit -/

/-- Bit k of an entry of a structure refuses it where the entry is present and the bit is 1: the bits of R82
but those it ignores; `large` says that the entry maps a large page (R82, R83, R85, R352). -/
def RefusedBit (cfg : Config) (nxe : Bool) (m : PMode) (level : Level) (large : Bool) (k : Nat) : Prop :=
  match m with
  | .ia32e =>
    (52 ≤ k ∧ k ≤ 62) ∨ (cfg.maxPhyAddr ≤ k ∧ k ≤ 51) ∨ (k = 63 ∧ nxe = false) ∨
      (k = 7 ∧ level = .l1) ∨ (12 ≤ k ∧ k ≤ 20 ∧ large = true)
  | .pae =>
    (36 ≤ k ∧ k ≤ 62) ∨ (cfg.maxPhyAddr ≤ k ∧ k ≤ 35) ∨ (k = 63 ∧ nxe = false) ∨
      (k = 7 ∧ level = .l1) ∨ (12 ≤ k ∧ k ≤ 20 ∧ large = true)
  | .legacy32 =>
    (k = 7 ∧ level = .l1) ∨ (large = true ∧ (k = 12 ∨ (17 ≤ k ∧ k ≤ 21) ∨
      (13 ≤ k ∧ k ≤ 16 ∧ (cfg.pse36 = true → cfg.maxPhyAddr ≤ k + 19))))

/-- The address of the next structure or of the 4-KByte frame in an entry, as a number: bits 51:12, 35:12 in
PAE mode, 31:12 in 32-bit paging (R74, R83, R85). -/
def addressField (m : PMode) (e : Entry) : Nat :=
  match m with
  | .ia32e => e.toNat / 2 ^ 12 % 2 ^ 40 * 2 ^ 12
  | .pae => e.toNat / 2 ^ 12 % 2 ^ 24 * 2 ^ 12
  | .legacy32 => e.toNat / 2 ^ 12 % 2 ^ 20 * 2 ^ 12

/-- The address of the large frame in a PDE, as a number: bits 51:21, 35:21 in PAE mode; in 32-bit paging
bits 31:22, with bits 16:13 as address bits 35:32 if PSE-36 is reported (R74, R85, R352). -/
def largeField (cfg : Config) (m : PMode) (e : Entry) : Nat :=
  match m with
  | .ia32e => e.toNat / 2 ^ 21 % 2 ^ 31 * 2 ^ 21
  | .pae => e.toNat / 2 ^ 21 % 2 ^ 15 * 2 ^ 21
  | .legacy32 =>
    (if cfg.pse36 then e.toNat / 2 ^ 13 % 2 ^ 4 * 2 ^ 32 else 0) + e.toNat / 2 ^ 22 % 2 ^ 10 * 2 ^ 22

/-! ### What the paging structures in memory say -/

/-- How the walk of the structures as they are in memory ends (R137). -/
inductive WalkEnd where
  | leaf (l : Leaf)
  | notPresent
  | refused
  | outside
deriving DecidableEq, Repr

/-- The walk from a partial translation through memory as it is, changing nothing (R137). -/
def memoryWalkFrom (cfg : Config) (mem : Memory) (p : Proc) (m : PMode) (la : LAddr) :
    Nat → Partial → WalkEnd
  | 0, _ => .notPresent
  | n + 1, t =>
    let pa := entryAddress m t la
    if reaches cfg pa.toNat (entrySize m) then
      match viewEntry cfg p m t pa (readEntry mem m pa) with
      | .notPresent => .notPresent
      | .refused => .refused
      | .leaf l => .leaf l
      | .next t' => memoryWalkFrom cfg mem p m la n t'
    else .outside

/-- The full walk from the root (R137): at most four entries. -/
def memoryWalk (cfg : Config) (mem : Memory) (p : Proc) (m : PMode) (la : LAddr) : WalkEnd :=
  match rootPartial p m la with
  | none => .notPresent
  | some t => memoryWalkFrom cfg mem p m la 4 t

/-- The physical address a leaf gives (R140). -/
def leafAddress (m : PMode) (l : Leaf) (la : LAddr) : PAddr :=
  frameAddress m (if l.large then .large else .ord4k) l.frame la

/-! ### The entries that the walks for an address use, and what is made from them -/

/-- The entry for la that t leads to is populated, and to a walk through `mem` it is `seen` (R136). -/
def WalkSees (cfg : Config) (mem : Memory) (p : Proc) (m : PMode) (la : LAddr) (t : Partial)
    (seen : Seen) : Prop :=
  reaches cfg (entryAddress m t la).toNat (entrySize m) = true ∧
    viewEntry cfg p m t (entryAddress m t la) (readEntry mem m (entryAddress m t la)) = seen

/-- The partial translations that walks for la through `mem` come to: they start at the root or at a
cached entry of p that applies (R150 path B), and an entry extends them (R136) whose address is `used`. -/
inductive OnWalk (cfg : Config) (mem : Memory) (p : Proc) (m : PMode) (la : LAddr) (used : PAddr → Prop) :
    Partial → Prop
  | start (st : WalkStart) (t : Partial) (h : startPartial p m la st = some t) :
      OnWalk cfg mem p m la used t
  | next (t t' : Partial) (h : OnWalk cfg mem p m la used t)
      (hs : WalkSees cfg mem p m la t (.next t')) (hu : used (entryAddress m t la)) :
      OnWalk cfg mem p m la used t'

/-- Any entry at all. -/
def anyEntry (_ : PAddr) : Prop := True

/-- The accessed bit of the entry at an address is 1 in memory (R78). -/
def Accessed (mem : Memory) (a : PAddr) : Prop := (mem.read a.toNat).getLsbD 5 = true

/-- A walk for la through `mem` uses the entry at `a`: some partial translation it comes to leads there,
and the entry is present and not refused (R136, R139). -/
def UsedEntry (cfg : Config) (mem : Memory) (p : Proc) (m : PMode) (la : LAddr) (a : PAddr) : Prop :=
  ∃ t, OnWalk cfg mem p m la anyEntry t ∧ a = entryAddress m t la ∧
    ((∃ t', WalkSees cfg mem p m la t (.next t')) ∨ ∃ l, WalkSees cfg mem p m la t (.leaf l))

/-- From `mem` to `mem'` only accessed bits were set, each in the first byte of an entry that a walk for
la uses (R78, R139, R401). -/
def AccessedBitsSet (cfg : Config) (p : Proc) (m : PMode) (la : LAddr) (mem mem' : Memory) : Prop :=
  ∀ b, mem'.read b = mem.read b ∨
    (mem'.read b = mem.read b ||| accessedByte ∧ ∃ a, UsedEntry cfg mem p m la a ∧ b = a.toNat)

/-- The same for a write at a CPL: at a leaf that allows it, the dirty bit may be set with the accessed
bit (R142). -/
def WriteBitsSet (cfg : Config) (p : Proc) (m : PMode) (la : LAddr) (cpl : Cpl) (mem mem' : Memory) :
    Prop :=
  ∀ b, mem'.read b = mem.read b ∨
    (mem'.read b = mem.read b ||| accessedByte ∧ ∃ a, UsedEntry cfg mem p m la a ∧ b = a.toNat) ∨
    (mem'.read b = mem.read b ||| accessedByte ||| dirtyByte ∧
      ∃ t l, OnWalk cfg mem p m la anyEntry t ∧ WalkSees cfg mem p m la t (.leaf l) ∧
        allowed p.wp .write cpl l.rw l.us l.xd = true ∧ b = (entryAddress m t la).toNat)

/-- A walk through `mem`, each of whose entries has its accessed bit set in `mem'`, ends at the leaf l
(R139, R172). -/
def MarkedLeaf (cfg : Config) (mem mem' : Memory) (p : Proc) (m : PMode) (la : LAddr) (l : Leaf) : Prop :=
  ∃ t, OnWalk cfg mem p m la (Accessed mem') t ∧ WalkSees cfg mem p m la t (.leaf l) ∧
    Accessed mem' (entryAddress m t la)

/-- A walk through `mem`, each of whose entries has its accessed bit set in `mem'`, reads an entry that
leads on to the partial translation t' (R139, R194). -/
def MarkedStep (cfg : Config) (mem mem' : Memory) (p : Proc) (m : PMode) (la : LAddr) (t' : Partial) :
    Prop :=
  ∃ t, OnWalk cfg mem p m la (Accessed mem') t ∧ WalkSees cfg mem p m la t (.next t') ∧
    Accessed mem' (entryAddress m t la)

/-- The leaf with the dirty bit that an access leaves in it: a write that it allows sets it (R142). -/
def leafAfter (p : Proc) (kind : AccessKind) (cpl : Cpl) (l : Leaf) : Leaf :=
  { l with dirty := l.dirty || (kind == .write && allowed p.wp kind cpl l.rw l.us l.xd) }

/-- Physical addresses to which p may translate la for an access: by a TLB entry that applies, or by a
walk through `mem`, in either case with rights that allow it (R140, R150). -/
def TranslatesTo (cfg : Config) (mem : Memory) (p : Proc) (m : PMode) (la : LAddr) (kind : AccessKind)
    (cpl : Cpl) (pa : PAddr) : Prop :=
  (∃ e ∈ tlbFor p m la, allowed p.wp kind cpl e.rw e.us e.xd = true ∧
    (kind = .write → e.dirty = true) ∧ pa = frameAddress m e.kind e.frame la) ∨
  ∃ t l, OnWalk cfg mem p m la anyEntry t ∧ WalkSees cfg mem p m la t (.leaf l) ∧
    allowed p.wp kind cpl l.rw l.us l.xd = true ∧ pa = leafAddress m l la

/-- Every entry of the four sets of q is one of p, or is made for la, with the current mode m and by the
rules of R173, R286 and R196 to R198, from a walk through `mem` whose entries have their accessed bits
set in `mem'` (R41, R172, R194). -/
structure NewEntries (cfg : Config) (mem mem' : Memory) (p : Proc) (m : PMode) (la : LAddr)
    (kind : AccessKind) (cpl : Cpl) (q : Proc) : Prop where
  tlb : ∀ e ∈ q.tlb, e ∈ p.tlb ∨ ∃ l, MarkedLeaf cfg mem mem' p m la l ∧
    (e = tlbEntryOf p m la (leafAfter p kind cpl l) ∨
      l.large = true ∧ e = pieceEntryOf p m la (leafAfter p kind cpl l))
  pml4c : ∀ c ∈ q.pml4c, c ∈ p.pml4c ∨ ∃ t, MarkedStep cfg mem mem' p m la t ∧
    t.next = .l3 ∧ c = ⟨pml4Key la, t.addr, t.rw, t.us, t.xd⟩
  pdpc : ∀ c ∈ q.pdpc, c ∈ p.pdpc ∨ ∃ t, MarkedStep cfg mem mem' p m la t ∧
    t.next = .l2 ∧ c = ⟨pdpKey la, t.addr, t.rw, t.us, t.xd⟩
  pdec : ∀ c ∈ q.pdec, c ∈ p.pdec ∨ ∃ t, MarkedStep cfg mem mem' p m la t ∧
    t.next = .l1 ∧ c = ⟨m, pdeKey m la, t.addr, t.rw, t.us, t.xd⟩

/-! ### Changes of a processor -/

/-- No cached entry of p can be used for la while its mode is m (R238). -/
def NoneApplies (p : Proc) (m : PMode) (la : LAddr) : Prop :=
  tlbFor p m la = [] ∧ pml4cFor p m la = [] ∧ pdpcFor p m la = [] ∧ pdecFor p m la = []

/-- Of the entries of p none has a key for la, whatever its tag: what a page fault on la guarantees
(R237, R238). -/
def NoneKeyed (p : Proc) (la : LAddr) : Prop :=
  (∀ e ∈ p.tlb, e.covers la = false) ∧ (∀ c ∈ p.pml4c, c.key ≠ pml4Key la) ∧
    (∀ c ∈ p.pdpc, c.key ≠ pdpKey la) ∧ (∀ c ∈ p.pdec, c.key ≠ pdeKey c.mode la)

/-- Every entry of `l` is one of `l'`: the set only lost entries. -/
def OnlyLost {α : Type} (l l' : List α) : Prop := ∀ x ∈ l, x ∈ l'

/-- The processor `q` is `p` but that its four sets may have lost entries: every register, the halted
flag, the program and the access in progress are the same. -/
def SameButLost (q p : Proc) : Prop :=
  OnlyLost q.tlb p.tlb ∧ OnlyLost q.pml4c p.pml4c ∧ OnlyLost q.pdpc p.pdpc ∧ OnlyLost q.pdec p.pdec ∧
    q = { p with tlb := q.tlb, pml4c := q.pml4c, pdpc := q.pdpc, pdec := q.pdec }

/-- What either of two invalidations requires. -/
def Req.or (r1 r2 : Req) : Req :=
  { tlb := fun e => r1.tlb e || r2.tlb e
    pml4c := fun c => r1.pml4c c || r2.pml4c c
    pdpc := fun c => r1.pdpc c || r2.pdpc c
    pdec := fun c => r1.pdec c || r2.pdec c }

/-- The processor less exactly the entries that `r` names in its four sets. -/
def Proc.without (p : Proc) (r : Req) : Proc :=
  { p with
    tlb := p.tlb.filter fun e => !r.tlb e
    pml4c := p.pml4c.filter fun c => !r.pml4c c
    pdpc := p.pdpc.filter fun c => !r.pdpc c
    pdec := p.pdec.filter fun c => !r.pdec c }

/-- Every cached entry of `p` is one of `q`: nothing was invalidated. -/
def NoneLost (p q : Proc) : Prop :=
  OnlyLost p.tlb q.tlb ∧ OnlyLost p.pml4c q.pml4c ∧ OnlyLost p.pdpc q.pdpc ∧ OnlyLost p.pdec q.pdec

/-- The control registers, EFER, the CPL and the PDPTR registers of `q` are those of `p`. -/
def SameRegisters (q p : Proc) : Prop :=
  q.pg = p.pg ∧ q.wp = p.wp ∧ q.cr3 = p.cr3 ∧ q.pse = p.pse ∧ q.pae = p.pae ∧ q.pge = p.pge ∧
    q.lma = p.lma ∧ q.nxe = p.nxe ∧ q.cpl = p.cpl ∧ q.pdptr = p.pdptr ∧ q.pdptrValid = p.pdptrValid

/-- The processor `q` is `p` but for its four sets and the access in progress. -/
def SameButCaches (q p : Proc) : Prop :=
  q = { p with tlb := q.tlb, pml4c := q.pml4c, pdpc := q.pdpc, pdec := q.pdec, busy := q.busy }

/-- The two states differ in the current processor, memory, the trace and the choices at most. -/
def SameElsewhere (t s : State) : Prop :=
  t.config = s.config ∧ t.current = s.current ∧ t.schedule = s.schedule ∧
    t.procs.length = s.procs.length ∧ ∀ k, k ≠ s.current → t.procs[k]? = s.procs[k]?

/-! ### Cached entries that agree with memory (R41, R175, R230) -/

/-- A TLB entry translates la as the leaf does, with the same rights; its dirty indication is 1 only
if the leaf's is. -/
def TlbEntry.agrees (m : PMode) (la : LAddr) (e : TlbEntry) (l : Leaf) : Prop :=
  frameAddress m e.kind e.frame la = leafAddress m l la ∧ e.rw = l.rw ∧ e.us = l.us ∧ e.xd = l.xd ∧
    (e.dirty = true → l.dirty = true)

/-- No cached entry of p that applies to la is stale: a walk from each paging-structure-cache entry ends
as the walk from the root does, and each TLB entry translates as that walk's leaf. -/
def AgreesWithMemory (cfg : Config) (mem : Memory) (p : Proc) (m : PMode) (la : LAddr) : Prop :=
  (∀ e ∈ tlbFor p m la, ∃ l, memoryWalk cfg mem p m la = .leaf l ∧ e.agrees m la l) ∧
  (∀ c ∈ pml4cFor p m la, memoryWalkFrom cfg mem p m la 4 c.partial' = memoryWalk cfg mem p m la) ∧
  (∀ c ∈ pdpcFor p m la, memoryWalkFrom cfg mem p m la 4 c.partial' = memoryWalk cfg mem p m la) ∧
  (∀ c ∈ pdecFor p m la, memoryWalkFrom cfg mem p m la 4 c.partial' = memoryWalk cfg mem p m la)

/-- Enough choices are fixed in advance for one access, and none lets another agent act meanwhile. -/
def Uninterrupted (s : State) : Prop := accessFuel ≤ s.choices.length ∧ ∀ c ∈ s.choices, c.pause = false

/-- A demand access that has not begun to translate (R150). -/
def newAccess (kind : AccessKind) (la : LAddr) (n v : Nat) (cpl : Cpl) : Access :=
  { kind := kind, la := la, n := n, v := v, cpl := cpl, demand := true, phase := .begin,
    mustCommit := false }

/-- The access operation of a kind (R151 to R153). -/
def accessOp (kind : AccessKind) (la : LAddr) (n v : Nat) : Instr :=
  match kind with
  | .read => .read la n
  | .write => .write la n v
  | .fetch => .fetch la n

/-! ### The PDPTRs in memory -/

/-- The i-th entry of the page-directory-pointer table that a CR3 value locates at `c[31:5] << 5` (R330). -/
def pdptrAt (mem : Memory) (c : BitVec 64) (i : Nat) : BitVec 64 :=
  BitVec.ofNat 64 (mem.readLE (c.toNat % 2 ^ 32 / 32 * 32 + 8 * i) 8)

/-- The four of them as a load puts them into the registers (R330). -/
def pdptrsAt (mem : Memory) (c : BitVec 64) : Pdptrs :=
  ⟨pdptrAt mem c 0, pdptrAt mem c 1, pdptrAt mem c 2, pdptrAt mem c 3⟩

/-- The table is populated, no entry has a must-be-zero bit set (63, 8:6, 5, 2, 1: R332), and no present
entry has a refused bit set (R82): a load succeeds. -/
def PdptrsLoadable (cfg : Config) (mem : Memory) (c : BitVec 64) : Prop :=
  reaches cfg (c.toNat % 2 ^ 32 / 32 * 32) 32 = true ∧
    ∀ i < 4, pdptrAt mem c i &&& 0x80000000000001E6 = 0 ∧
      ((pdptrAt mem c i).getLsbD 0 = true → pdptrAt mem c i &&& pdptrRefused cfg = 0)

/-- The table is populated and some entry has a must-be-zero bit set (R332). -/
def PdptrsFaulty (cfg : Config) (mem : Memory) (c : BitVec 64) : Prop :=
  reaches cfg (c.toNat % 2 ^ 32 / 32 * 32) 32 = true ∧
    ∃ i < 4, pdptrAt mem c i &&& 0x80000000000001E6 ≠ 0

/-- The table is populated, no entry has a must-be-zero bit set, and some present entry has a refused bit
set (R332, R82, U7). -/
def PdptrsReserved (cfg : Config) (mem : Memory) (c : BitVec 64) : Prop :=
  reaches cfg (c.toNat % 2 ^ 32 / 32 * 32) 32 = true ∧
    (∀ i < 4, pdptrAt mem c i &&& 0x80000000000001E6 = 0) ∧
    ∃ i < 4, (pdptrAt mem c i).getLsbD 0 = true ∧ pdptrAt mem c i &&& pdptrRefused cfg ≠ 0

/-- The table leaves the populated range (R96). -/
def PdptrsOutside (cfg : Config) (c : BitVec 64) : Prop :=
  reaches cfg (c.toNat % 2 ^ 32 / 32 * 32) 32 = false

/-- The processor with the PDPTR registers loaded from memory if a load is needed (R330). -/
def Proc.withPdptrs (p : Proc) (needed : Bool) (mem : Memory) (c : BitVec 64) : Proc :=
  if needed then { p with pdptr := pdptrsAt mem c, pdptrValid := true } else p

/-- A MOV to CR3 loads the PDPTRs: LMA = 0 and CR4.PAE = 1 (R330). -/
def cr3LoadsPdptrs (p : Proc) : Bool := !p.lma && p.pae

/-- A MOV to CR4 loads the PDPTRs: it results in CR4.PAE = 1, LMA = 0, CR0.PG = 1, and it modifies at
least one of PAE, PGE and PSE (R330). -/
def cr4LoadsPdptrs (p : Proc) (v : BitVec 64) : Bool :=
  v.getLsbD 5 && !p.lma && p.pg &&
    (p.pse != v.getLsbD 4 || p.pae != v.getLsbD 5 || p.pge != v.getLsbD 7)

/-- A MOV to CR0 loads the PDPTRs: it modifies CR0.PG with LMA = 0 and CR4.PAE = 1 (R330). -/
def cr0LoadsPdptrs (p : Proc) (v : BitVec 64) : Bool := v.getLsbD 31 != p.pg && !p.lma && p.pae

end Sys2Proof.Machine
end

