-- ==== Sys2Proof/Laws/Ops.lean ====
section
/-! SUPPORT. For each shared operation, once, everything it can do: invalidation, the exceptions, the
privilege check, the PDPTR load, the fills. -/

namespace Sys2Proof.Machine

/-! ### Invalidation (R234) -/

/-- What is left was there before and was not required to go. -/
theorem removeWhere_mem {α : Type} (req : α → Bool) (mask : Nat) (l : List α) (x : α)
    (h : x ∈ removeWhere req mask l) : x ∈ l ∧ req x = false := by
  induction l generalizing mask with
  | nil => simp [removeWhere] at h
  | cons e rest ih =>
    unfold removeWhere at h
    split at h
    · have := ih _ h
      exact ⟨List.mem_cons_of_mem _ this.1, this.2⟩
    · rename_i hkeep
      rcases List.mem_cons.mp h with rfl | h
      · simp only [Bool.or_eq_true, not_or, Bool.not_eq_true] at hkeep
        exact ⟨by simp, hkeep.1⟩
      · have := ih _ h
        exact ⟨List.mem_cons_of_mem _ this.1, this.2⟩

/-- Removal keeps the order, so it keeps a set without repeats. -/
theorem removeWhere_sublist {α : Type} (req : α → Bool) (mask : Nat) (l : List α) :
    (removeWhere req mask l).Sublist l := by
  induction l generalizing mask with
  | nil => simp [removeWhere]
  | cons e rest ih =>
    unfold removeWhere
    split
    · exact (ih _).cons _
    · exact (ih _).cons_cons _

/-- With nothing chosen beyond the required entries, exactly the required ones go. -/
theorem removeWhere_zero {α : Type} (req : α → Bool) (l : List α) :
    removeWhere req 0 l = l.filter (fun e => !req e) := by
  induction l with
  | nil => rfl
  | cons e rest ih =>
    cases h : req e <;> simp [removeWhere, h, ih]

/-- When everything is required nothing is left. -/
theorem removeWhere_all {α : Type} (mask : Nat) (l : List α) :
    removeWhere (fun _ => true) mask l = [] := by
  induction l generalizing mask with
  | nil => rfl
  | cons e rest ih => simp [removeWhere, ih]

@[simp] theorem removeWhere_nil {α : Type} (req : α → Bool) (mask : Nat) :
    removeWhere req mask [] = [] := rfl

/-- An invalidation only loses entries. -/
theorem Proc.invalidate_sameButLost (p : Proc) (req : Req) (extra : Removal) :
    SameButLost (p.invalidate req extra) p :=
  ⟨fun _ h => (removeWhere_mem _ _ _ _ h).1, fun _ h => (removeWhere_mem _ _ _ _ h).1,
    fun _ h => (removeWhere_mem _ _ _ _ h).1, fun _ h => (removeWhere_mem _ _ _ _ h).1, rfl⟩

/-- A page-fault invalidation leaves no entry keyed for the address (R237). -/
theorem Proc.invalidate_pageFault (p : Proc) (la : LAddr) (extra : Removal) :
    NoneKeyed (p.invalidate (Req.pageFault la) extra) la := by
  refine ⟨fun e h => ?_, fun c h => ?_, fun c h => ?_, fun c h => ?_⟩
  · exact (removeWhere_mem _ _ _ _ h).2
  · simpa [Req.pageFault] using (removeWhere_mem _ _ _ _ h).2
  · simpa [Req.pageFault] using (removeWhere_mem _ _ _ _ h).2
  · simpa [Req.pageFault] using (removeWhere_mem _ _ _ _ h).2

/-! ### invalidated -/

section
variable (s : State) (p : Proc) (req : Req)

@[simp] theorem State.invalidated_config : (s.invalidated p req).config = s.config := by
  simp [State.invalidated]
@[simp] theorem State.invalidated_mem : (s.invalidated p req).mem = s.mem := by
  simp [State.invalidated]
@[simp] theorem State.invalidated_current : (s.invalidated p req).current = s.current := by
  simp [State.invalidated]
@[simp] theorem State.invalidated_trace : (s.invalidated p req).trace = s.trace := by
  simp [State.invalidated]
@[simp] theorem State.invalidated_schedule : (s.invalidated p req).schedule = s.schedule := by
  simp [State.invalidated]
@[simp] theorem State.invalidated_procs : (s.invalidated p req).procs =
    s.procs.set s.current (p.invalidate req s.choice.extra) := by
  simp [State.invalidated]

/-- The processor after an invalidation. -/
theorem State.invalidated_proc? (q : Proc) (h : s.proc? = some q) :
    (s.invalidated p req).proc? = some (p.invalidate req s.choice.extra) := by
  unfold State.invalidated
  exact State.setProc_proc? _ _ (by simpa using h)

end

/-! ### Exceptions -/

/-- A page fault always gives a next state: the event, and the current processor without the entries
of R237 (R401). -/
theorem takePageFault_eq (a : Access) (s : State) (p : Proc) (h : s.proc? = some p) :
    takePageFault a s =
      .next ((s.invalidated p (Req.pageFault a.la)).report
        (.pageFault s.current a.la a.kind a.cpl)) := by
  simp [takePageFault, State.withProc, h]

/-- A privileged operation at CPL 0. -/
theorem State.privileged_eq (s : State) (k : Proc → Result) (p : Proc) (h : s.proc? = some p)
    (hc : p.cpl = 0) : s.privileged k = k p := by
  simp [State.privileged, State.withProc, h, hc]

/-- A privileged operation at any other CPL takes general protection (R406). -/
theorem State.privileged_gp (s : State) (k : Proc → Result) (p : Proc) (h : s.proc? = some p)
    (hc : p.cpl ≠ 0) : s.privileged k = .next (s.report (.generalProtection s.current)) := by
  simp [State.privileged, State.withProc, h, hc, takeGeneralProtection]

/-- If a privileged operation answers a next state, it ran at CPL 0 or took general protection. -/
theorem State.privileged_next (s : State) (k : Proc → Result) (t : State)
    (h : s.privileged k = .next t) :
    ∃ p, s.proc? = some p ∧
      ((p.cpl = 0 ∧ k p = .next t) ∨ (p.cpl ≠ 0 ∧ t = s.report (.generalProtection s.current))) := by
  obtain ⟨p, hp, h⟩ := State.withProc_next s _ t h
  refine ⟨p, hp, ?_⟩
  split at h
  · exact .inl ⟨by assumption, h⟩
  · refine .inr ⟨by assumption, ?_⟩
    simp only [takeGeneralProtection, Host.Outcome.next.injEq] at h
    exact h.symm

/-! ### The PDPTR load -/

/-- If a load answers a next state, it was not needed, or it succeeded, or it faulted with nothing
changed but the event (R330 to R332, R405). -/
theorem State.loadPdptrs_next (s : State) (p : Proc) (needed : Bool) (c : BitVec 64)
    (k : Proc → Result) (t : State) (h : s.loadPdptrs p needed c k = .next t) :
    (needed = false ∧ k p = .next t) ∨
    (∃ q, needed = true ∧ readPdptrs s.config s.mem c = .loaded q ∧
      k { p with pdptr := q, pdptrValid := true } = .next t) ∨
    (needed = true ∧ readPdptrs s.config s.mem c = .mustBeZero ∧
      t = s.report (.pdptrLoad s.current)) := by
  unfold State.loadPdptrs at h
  split at h
  · rename_i hn
    split at h
    · exact .inr (.inl ⟨_, hn, by assumption, h⟩)
    · refine .inr (.inr ⟨hn, by assumption, ?_⟩)
      simp only [takePdptrLoadFault, Host.Outcome.next.injEq] at h
      exact h.symm
    · cases h
    · cases h
  · rename_i hn
    exact .inl ⟨by simpa using hn, h⟩

/-- Loaded registers have their must-be-zero bits 0 (R332). -/
theorem readPdptrs_legal (cfg : Config) (m : Memory) (c : BitVec 64) (q : Pdptrs)
    (h : readPdptrs cfg m c = .loaded q) : q.legal = true := by
  unfold readPdptrs at h
  split at h
  · simp only at h
    split at h
    · cases h
    · rename_i hf
      split at h
      · cases h
      · simp only [PdptrLoad.loaded.injEq] at h
        subst h
        simpa [Pdptrs.legal, and_assoc] using hf
  · cases h

/-! ### Sets -/

/-- Adding to a set adds that one element. -/
theorem mem_addToSet {α : Type} [DecidableEq α] (x y : α) (l : List α) :
    y ∈ addToSet x l ↔ y = x ∨ y ∈ l := by
  unfold addToSet
  split
  · constructor
    · exact .inr
    · rintro (rfl | h) <;> assumption
  · simp

/-- Adding to a set keeps it without repeats. -/
theorem addToSet_nodup {α : Type} [DecidableEq α] (x : α) (l : List α) (h : l.Nodup) :
    (addToSet x l).Nodup := by
  unfold addToSet
  split
  · exact h
  · exact List.nodup_cons.mpr ⟨by assumption, h⟩

/-! ### Fills -/

/-- A kept partial translation changes one paging-structure cache and nothing else (R196 to R198). -/
theorem Proc.keepPartial_rest (p : Proc) (m : PMode) (la : LAddr) (t : Partial) :
    p.keepPartial m la t =
      { p with
        pml4c := (p.keepPartial m la t).pml4c
        pdpc := (p.keepPartial m la t).pdpc
        pdec := (p.keepPartial m la t).pdec } := by
  unfold Proc.keepPartial
  split <;> rfl

/-- A kept leaf changes the TLB and nothing else (R173). -/
theorem Proc.keepLeaf_rest (p : Proc) (m : PMode) (la : LAddr) (l : Leaf) (k1 k2 : Bool) :
    p.keepLeaf m la l k1 k2 = { p with tlb := (p.keepLeaf m la l k1 k2).tlb } := by
  unfold Proc.keepLeaf
  cases k1 <;> cases (k2 && l.large) <;> rfl

/-- What a kept leaf adds to the TLB: the entry made from it, or the piece (R173, R286). -/
theorem Proc.mem_keepLeaf (p : Proc) (m : PMode) (la : LAddr) (l : Leaf) (k1 k2 : Bool) (e : TlbEntry)
    (h : e ∈ (p.keepLeaf m la l k1 k2).tlb) :
    e ∈ p.tlb ∨ e = tlbEntryOf p m la l ∨ (e = pieceEntryOf p m la l ∧ l.large = true) := by
  unfold Proc.keepLeaf at h
  cases k1 <;> cases hk : (k2 && l.large)
  · simp only [hk] at h
    exact .inl h
  all_goals simp only [hk, if_true, if_false, Bool.false_eq_true, mem_addToSet] at h
  · simp only [Bool.and_eq_true] at hk
    tauto
  · tauto
  · simp only [Bool.and_eq_true] at hk
    tauto

/-- A kept leaf keeps the TLB without repeats. -/
theorem Proc.keepLeaf_nodup (p : Proc) (m : PMode) (la : LAddr) (l : Leaf) (k1 k2 : Bool)
    (h : p.tlb.Nodup) : (p.keepLeaf m la l k1 k2).tlb.Nodup := by
  unfold Proc.keepLeaf
  cases k1 <;> cases (k2 && l.large) <;>
    simp only [if_true, if_false, Bool.false_eq_true] <;>
    repeat (first | exact h | apply addToSet_nodup)

/-- What a kept partial translation adds to the PML4 cache. -/
theorem Proc.mem_keepPartial_pml4c (p : Proc) (m : PMode) (la : LAddr) (t : Partial) (c : Pml4Entry)
    (h : c ∈ (p.keepPartial m la t).pml4c) :
    c ∈ p.pml4c ∨ (t.next = .l3 ∧ c = ⟨pml4Key la, t.addr, t.rw, t.us, t.xd⟩) := by
  unfold Proc.keepPartial at h
  split at h <;> simp_all [mem_addToSet]
  tauto

/-- What a kept partial translation adds to the PDP cache. -/
theorem Proc.mem_keepPartial_pdpc (p : Proc) (m : PMode) (la : LAddr) (t : Partial) (c : PdpEntry)
    (h : c ∈ (p.keepPartial m la t).pdpc) :
    c ∈ p.pdpc ∨ (t.next = .l2 ∧ c = ⟨pdpKey la, t.addr, t.rw, t.us, t.xd⟩) := by
  unfold Proc.keepPartial at h
  split at h <;> simp_all [mem_addToSet]
  tauto

/-- What a kept partial translation adds to the PDE cache. -/
theorem Proc.mem_keepPartial_pdec (p : Proc) (m : PMode) (la : LAddr) (t : Partial) (c : PdeEntry)
    (h : c ∈ (p.keepPartial m la t).pdec) :
    c ∈ p.pdec ∨ (t.next = .l1 ∧ c = ⟨m, pdeKey m la, t.addr, t.rw, t.us, t.xd⟩) := by
  unfold Proc.keepPartial at h
  split at h <;> simp_all [mem_addToSet]
  tauto

/-- A kept partial translation keeps the caches without repeats. -/
theorem Proc.keepPartial_nodup (p : Proc) (m : PMode) (la : LAddr) (t : Partial)
    (h : p.pml4c.Nodup ∧ p.pdpc.Nodup ∧ p.pdec.Nodup) :
    (p.keepPartial m la t).pml4c.Nodup ∧ (p.keepPartial m la t).pdpc.Nodup ∧
      (p.keepPartial m la t).pdec.Nodup := by
  unfold Proc.keepPartial
  split
  · exact ⟨addToSet_nodup _ _ h.1, h.2⟩
  · exact ⟨h.1, addToSet_nodup _ _ h.2.1, h.2.2⟩
  · exact ⟨h.1, h.2.1, addToSet_nodup _ _ h.2.2⟩
  · exact h

end Sys2Proof.Machine
end

