-- ==== Sys2Proof/Laws/Walk.lean ====
section
/-! SUPPORT. What one step of an access can do, said once; and the induction over the steps of an access. -/

namespace Sys2Proof.Machine

/-- The state after a committing step that found a further structure (R139, R196 to R198). -/
def extendedState (a : Access) (c : Choice) (p : Proc) (m : PMode) (pa : PAddr) (t' : Partial)
    (s : State) : State :=
  let s1 := s.setMem (setEntryBits s.mem m pa accessedMask)
  if c.keep then s1.setProc (p.keepPartial m a.la t') else s1

/-- Whether the committing step at a leaf also sets the dirty bit (R142). -/
def leafWrites (a : Access) (p : Proc) (l : Leaf) : Bool :=
  a.kind == .write && allowed p.wp a.kind a.cpl l.rw l.us l.xd

/-- The state after a committing step at a leaf (R142, R173). -/
def leafState (a : Access) (c : Choice) (p : Proc) (m : PMode) (pa : PAddr) (l : Leaf) (s : State) : State :=
  (s.setMem (setEntryBits s.mem m pa
      (if leafWrites a p l then accessedDirtyMask else accessedMask))).setProc
    (p.keepLeaf m a.la { l with dirty := l.dirty || leafWrites a p l } c.keep c.keepPiece)

/-- The next entry of the walk is populated, and `seen` is what the walk of an access sees there. -/
def Sees (a : Access) (p : Proc) (m : PMode) (t : Partial) (s : State) (seen : Seen) : Prop :=
  reaches s.config (entryAddress m t a.la).toNat (entrySize m) = true ∧
    viewEntry s.config p m t (entryAddress m t a.la) (readEntry s.mem m (entryAddress m t a.la)) = seen

/-- The ways an access goes on. -/
inductive GoesOn (a : Access) (c : Choice) (p : Proc) (m : PMode) (s : State) : Access → State → Prop
  /-- Path (B): the walk starts. -/
  | start (t : Partial) (h : a.phase = .begin) (ht : startPartial p m a.la c.start = some t) :
      GoesOn a c p m s { a with phase := .walk t false } s
  /-- Path (A): a TLB entry is used. -/
  | hit (e : TlbEntry) (h : a.phase = .begin) (he : chosenHit p m a.la c.hit = some e)
      (hok : allowed p.wp a.kind a.cpl e.rw e.us e.xd = true) (hd : a.kind = .write → e.dirty = true) :
      GoesOn a c p m s { a with phase := .translated (frameAddress m e.kind e.frame a.la) } s
  /-- A dry step to a further structure. -/
  | dry (t t' : Partial) (d : Bool) (h : a.phase = .walk t d) (hs : Sees a p m t s (.next t'))
      (hm : d = true ∨ a.mustCommit = false) :
      GoesOn a c p m s { a with phase := .walk t' true } s
  /-- A dry walk that would be allowed: translated afresh. -/
  | again (t : Partial) (d : Bool) (l : Leaf) (h : a.phase = .walk t d) (hs : Sees a p m t s (.leaf l))
      (hok : allowed p.wp a.kind a.cpl l.rw l.us l.xd = true) (hd : a.demand = true)
      (hm : d = true ∨ a.mustCommit = false) :
      GoesOn a c p m s { a with phase := .begin, mustCommit := true } s
  /-- A committing step to a further structure. -/
  | extend (t t' : Partial) (h : a.phase = .walk t false) (hs : Sees a p m t s (.next t')) :
      GoesOn a c p m s { a with phase := .walk t' false }
        (extendedState a c p m (entryAddress m t a.la) t' s)
  /-- A committing step at an allowed leaf. -/
  | leaf (t : Partial) (l : Leaf) (h : a.phase = .walk t false) (hs : Sees a p m t s (.leaf l))
      (hok : allowed p.wp a.kind a.cpl l.rw l.us l.xd = true) :
      GoesOn a c p m s
        { a with phase := .translated (frameAddress m (if l.large then .large else .ord4k) l.frame a.la) }
        (leafState a c p m (entryAddress m t a.la) l s)

/-- The ways an access ends. -/
inductive Ends (a : Access) (c : Choice) (p : Proc) (m : PMode) (s : State) : Result → Prop
  /-- PAE translation with the PDPTR registers never loaded (R321). -/
  | notLoaded (h : a.phase = .begin) (hm : m = .pae) (hv : p.pdptrValid = false) :
      Ends a c p m s (.refused .pdptrNotLoaded)
  /-- No root: a PDPTR that is not present (R321). -/
  | noRoot (h : a.phase = .begin) (ht : startPartial p m a.la c.start = none) :
      Ends a c p m s (failAccess a s)
  /-- The rights of a TLB entry deny the access (R150). -/
  | deniedHit (e : TlbEntry) (h : a.phase = .begin) (he : chosenHit p m a.la c.hit = some e)
      (hok : allowed p.wp a.kind a.cpl e.rw e.us e.xd = false) : Ends a c p m s (failAccess a s)
  /-- An entry outside the populated range (R96). -/
  | outside (t : Partial) (d : Bool) (h : a.phase = .walk t d)
      (hr : reaches s.config (entryAddress m t a.la).toNat (entrySize m) = false) :
      Ends a c p m s (.fault .outsideMemRange)
  /-- An entry that is not present (R75). -/
  | notPresent (t : Partial) (d : Bool) (h : a.phase = .walk t d) (hs : Sees a p m t s .notPresent) :
      Ends a c p m s (failAccess a s)
  /-- A present entry with a refused bit (R82). -/
  | refused (t : Partial) (d : Bool) (h : a.phase = .walk t d) (hs : Sees a p m t s .refused) :
      Ends a c p m s (.refused .reservedBit)
  /-- A dry step at a leaf that denies the access (R143). -/
  | deniedDry (t : Partial) (d : Bool) (l : Leaf) (h : a.phase = .walk t d) (hs : Sees a p m t s (.leaf l))
      (hok : allowed p.wp a.kind a.cpl l.rw l.us l.xd = false) : Ends a c p m s (failAccess a s)
  /-- A speculative dry walk that would be allowed (R143). -/
  | abortDry (t : Partial) (d : Bool) (l : Leaf) (h : a.phase = .walk t d) (hs : Sees a p m t s (.leaf l))
      (hd : a.demand = false) : Ends a c p m s (.next s)
  /-- A committing step at a leaf that denies the access (R173). -/
  | deniedLeaf (t : Partial) (l : Leaf) (h : a.phase = .walk t false) (hs : Sees a p m t s (.leaf l))
      (hok : allowed p.wp a.kind a.cpl l.rw l.us l.xd = false) :
      Ends a c p m s (failAccess a (leafState a c p m (entryAddress m t a.la) l s))
  /-- The data are moved (R151 to R153). -/
  | data (pa : PAddr) (h : a.phase = .translated pa) : Ends a c p m s (moveData a pa s)

/-- One step of an access goes on or ends in one of these ways, and in no other. -/
theorem accessStep_spec (a : Access) (c : Choice) (p : Proc) (m : PMode) (s : State) :
    (∃ a' s', accessStep a c p m s = .more a' s' ∧ GoesOn a c p m s a' s') ∨
    (∃ r, accessStep a c p m s = .done r ∧ Ends a c p m s r) := by
  unfold accessStep
  split
  · rename_i hph
    split
    · rename_i hv
      simp only [Bool.and_eq_true, beq_iff_eq, Bool.not_eq_true'] at hv
      exact .inr ⟨_, rfl, .notLoaded hph hv.1 hv.2⟩
    · have hwalk : ∀ w : Progress, w = (match startPartial p m a.la c.start with
            | none => .done (failAccess a s)
            | some t => .more { a with phase := .walk t false } s) →
          (∃ a' s', w = .more a' s' ∧ GoesOn a c p m s a' s') ∨
          (∃ r, w = .done r ∧ Ends a c p m s r) := by
        intro w hw
        cases ht : startPartial p m a.la c.start with
        | none => exact .inr ⟨_, by rw [hw, ht], .noRoot hph ht⟩
        | some t => exact .inl ⟨_, _, by rw [hw, ht], .start t hph ht⟩
      unfold beginStep
      simp only
      split
      · exact hwalk _ rfl
      · rename_i e he
        split
        · rename_i hok
          exact .inr ⟨_, rfl, .deniedHit e hph he (by simpa using hok)⟩
        · rename_i hok
          split
          · exact hwalk _ rfl
          · rename_i hd
            refine .inl ⟨_, _, rfl, .hit e hph he (by simpa using hok) fun hk => ?_⟩
            simpa [hk] using hd
  · rename_i t d hph
    unfold walkStep
    simp only
    split
    · rename_i hr
      split
      · rename_i hdry
        have hm : d = true ∨ a.mustCommit = false := by
          cases d <;> simp_all
        unfold dryStep
        split
        · rename_i hs
          exact .inr ⟨_, rfl, .notPresent t d hph ⟨hr, hs⟩⟩
        · rename_i hs
          exact .inr ⟨_, rfl, .refused t d hph ⟨hr, hs⟩⟩
        · rename_i t' hs
          exact .inl ⟨_, _, rfl, .dry t t' d hph ⟨hr, hs⟩ hm⟩
        · rename_i l hs
          split
          · rename_i hok
            exact .inr ⟨_, rfl, .deniedDry t d l hph ⟨hr, hs⟩ (by simpa using hok)⟩
          · rename_i hok
            split
            · rename_i hd
              exact .inl ⟨_, _, rfl, .again t d l hph ⟨hr, hs⟩ (by simpa using hok) hd hm⟩
            · rename_i hd
              exact .inr ⟨_, rfl, .abortDry t d l hph ⟨hr, hs⟩ (by simpa using hd)⟩
      · rename_i hdry
        simp only [Bool.or_eq_true, not_or, Bool.not_eq_true] at hdry
        obtain ⟨rfl, -⟩ := hdry
        unfold commitStep
        split
        · rename_i hs
          exact .inr ⟨_, rfl, .notPresent t false hph ⟨hr, hs⟩⟩
        · rename_i hs
          exact .inr ⟨_, rfl, .refused t false hph ⟨hr, hs⟩⟩
        · rename_i t' hs
          exact .inl ⟨_, _, rfl, .extend t t' hph ⟨hr, hs⟩⟩
        · rename_i l hs
          simp only
          split
          · rename_i hok
            exact .inl ⟨_, _, rfl, .leaf t l hph ⟨hr, hs⟩ hok⟩
          · rename_i hok
            exact .inr ⟨_, rfl, .deniedLeaf t l hph ⟨hr, hs⟩ (by simpa using hok)⟩
    · rename_i hr
      exact .inr ⟨_, rfl, .outside t d hph (by simpa using hr)⟩
  · rename_i pa hph
    exact .inr ⟨_, rfl, .data pa hph⟩

/-- The induction over the steps of an access, once: if `Q` holds at the beginning and every step keeps
it, and every way of ending from `Q` gives `R`, then the access answers with `R`. -/
theorem runAccess_induction {Q : Access → State → Prop} {R : Result → Prop}
    (hmore : ∀ a s p m a' s', Q a s → s.proc? = some p → p.mode = some m →
      GoesOn a s.choice p m s.drawn a' s' → Q a' s')
    (hdone : ∀ a s p m r, Q a s → s.proc? = some p → p.mode = some m →
      Ends a s.choice p m s.drawn r → R r)
    (hwait : ∀ a s, Q a s → R (waitAccess a s))
    (hpause : ∀ a s, Q a s → a.demand = true → s.choice.pause = true → R (waitAccess a s.drawn))
    (hoff : ∀ a s p, Q a s → s.proc? = some p → p.mode = none → R (moveData a (unpagedAddress a.la) s))
    (hnone : ∀ a s, Q a s → s.proc? = none → R (.refused .noSuchProcessor)) :
    ∀ fuel a s, Q a s → R (runAccess fuel a s) := by
  intro fuel
  induction fuel with
  | zero => intro a s hq; exact hwait a s hq
  | succ fuel ih =>
    intro a s hq
    unfold runAccess
    cases hp : s.proc? with
    | none => simpa [State.withProc, hp] using hnone a s hq hp
    | some p =>
      rw [State.withProc_eq _ _ p hp]
      cases hm : p.mode with
      | none => exact hoff a s p hq hp hm
      | some m =>
        simp only
        split
        · rename_i hpz
          simp only [Bool.and_eq_true] at hpz
          exact hpause a s hq hpz.1 hpz.2
        · rcases accessStep_spec a s.choice p m s.drawn with ⟨a', s', h, hg⟩ | ⟨r, h, he⟩
          · rw [h]
            exact ih a' s' (hmore a s p m a' s' hq hp hm hg)
          · rw [h]
            exact hdone a s p m r hq hp hm he

/-- The same induction over the steps of a fill, which stops when it has a physical address. -/
theorem fillWalk_induction {Q : Access → State → Prop} {R : Result → Prop}
    (hmore : ∀ a s p m a' s', Q a s → s.proc? = some p → p.mode = some m →
      GoesOn a s.choice p m s.drawn a' s' → (∀ pa, a'.phase ≠ .translated pa) → Q a' s')
    (hlast : ∀ a s p m a' s', Q a s → s.proc? = some p → p.mode = some m →
      GoesOn a s.choice p m s.drawn a' s' → R (.next s'))
    (hdone : ∀ a s p m r, Q a s → s.proc? = some p → p.mode = some m →
      Ends a s.choice p m s.drawn r → R r)
    (hstop : ∀ a s, Q a s → R (.next s))
    (hnone : ∀ a s, Q a s → s.proc? = none → R (.refused .noSuchProcessor)) :
    ∀ steps a s, Q a s → R (fillWalk steps a s) := by
  intro steps
  induction steps with
  | zero => intro a s hq; exact hstop a s hq
  | succ steps ih =>
    intro a s hq
    unfold fillWalk
    cases hp : s.proc? with
    | none => simpa [State.withProc, hp] using hnone a s hq hp
    | some p =>
      rw [State.withProc_eq _ _ p hp]
      cases hm : p.mode with
      | none => exact hstop a s hq
      | some m =>
        simp only
        rcases accessStep_spec a s.choice p m s.drawn with ⟨a', s', h, hg⟩ | ⟨r, h, he⟩
        · rw [h]
          simp only
          split
          · exact hlast a s p m a' s' hq hp hm hg
          · exact ih a' s' (hmore a s p m a' s' hq hp hm hg (by simp_all))
          · exact ih a' s' (hmore a s p m a' s' hq hp hm hg (by simp_all))
        · rw [h]
          exact hdone a s p m r hq hp hm he

end Sys2Proof.Machine
end

