-- ==== Sys2Proof/Laws/Access.lean ====
section
/-! SUPPORT. What an access can have done when it ends, said once: the frame of READ, WRITE and FETCH, of
speculative accesses and of fills. -/

namespace Sys2Proof.Machine

/-- Memory differs only in that bit 5 was set in some bytes. -/
def OnlyAccessedSet (m m' : Memory) : Prop :=
  ∀ a, m'.read a = m.read a ∨ m'.read a = m.read a ||| accessedByte

/-- Setting the accessed bit twice is setting it once. -/
theorem accessedByte_or_twice (b : Byte) : b ||| accessedByte ||| accessedByte = b ||| accessedByte := by
  rw [BitVec.or_assoc, BitVec.or_self]

/-- Unchanged memory. -/
theorem OnlyAccessedSet.refl (m : Memory) : OnlyAccessedSet m m := fun _ => .inl rfl

/-- Two changes that only set accessed bits are one. -/
theorem OnlyAccessedSet.trans {a b c : Memory} (h1 : OnlyAccessedSet a b) (h2 : OnlyAccessedSet b c) :
    OnlyAccessedSet a c := by
  intro k
  rcases h1 k with e1 | e1 <;> rcases h2 k with e2 | e2
  · exact .inl (e2.trans e1)
  · exact .inr (by rw [e2, e1])
  · exact .inr (e2.trans e1)
  · exact .inr (by rw [e2, e1, accessedByte_or_twice])

/-- Setting the accessed bit of an entry only sets an accessed bit. -/
theorem setEntryBits_onlyAccessed (mem : Memory) (m : PMode) (a : PAddr) (hm : mem.wf) :
    OnlyAccessedSet mem (setEntryBits mem m a accessedMask) := by
  intro b
  rw [setEntryBits_read _ _ _ _ hm (by decide)]
  split
  · exact .inr rfl
  · exact .inl rfl

/-- What a TLB entry that an access adds is. -/
def AddedFor (p0 : Proc) (m : PMode) (la : LAddr) (e : TlbEntry) : Prop :=
  e.covers la = true ∧ e.mode = m ∧ (e.global = true → p0.pge = true)

/-- How far an access `a0` that began in `s0` has gone: it is now `a` in `s`. -/
structure Went (s0 : State) (p0 : Proc) (m : PMode) (a0 a : Access) (s : State) : Prop where
  fields : a.kind = a0.kind ∧ a.la = a0.la ∧ a.n = a0.n ∧ a.v = a0.v ∧ a.cpl = a0.cpl ∧ a.demand =
      a0.demand
  config : s.config = s0.config
  current : s.current = s0.current
  schedule : s.schedule = s0.schedule
  trace : s.trace = s0.trace
  length : s.procs.length = s0.procs.length
  others : ∀ k, k ≠ s0.current → s.procs[k]? = s0.procs[k]?
  proc : ∃ q, s.proc? = some q ∧ SameButCaches q p0 ∧ q.busy = p0.busy ∧
    ∀ e ∈ q.tlb, e ∈ p0.tlb ∨ AddedFor p0 m a0.la e
  mem : s0.mem.wf → s.mem.wf ∧
    ((a.kind ≠ .write ∨ ∀ pa, a.phase ≠ .translated pa) → OnlyAccessedSet s0.mem s.mem)
  kept : ∀ q, s.proc? = some q → NoneLost p0 q

/-- Nothing has happened yet. -/
theorem NoneLost.refl (p : Proc) : NoneLost p p :=
  ⟨fun _ h => h, fun _ h => h, fun _ h => h, fun _ h => h⟩

/-- Two changes that lose no entry are one. -/
theorem NoneLost.trans {p q r : Proc} (h1 : NoneLost p q) (h2 : NoneLost q r) : NoneLost p r :=
  ⟨fun x h => h2.1 x (h1.1 x h), fun x h => h2.2.1 x (h1.2.1 x h),
    fun x h => h2.2.2.1 x (h1.2.2.1 x h), fun x h => h2.2.2.2 x (h1.2.2.2 x h)⟩

/-- Adding an entry to a set loses none. -/
theorem OnlyLost.addToSet {α : Type} [DecidableEq α] (a : α) (l : List α) :
    OnlyLost l (addToSet a l) := by
  intro x hx
  unfold Machine.addToSet
  split
  · exact hx
  · exact List.mem_cons_of_mem _ hx

/-- Keeping a partial translation loses no entry. -/
theorem Proc.keepPartial_noneLost (p : Proc) (m la t) : NoneLost p (p.keepPartial m la t) := by
  obtain ⟨h1, h2, h3, h4⟩ := NoneLost.refl p
  unfold Proc.keepPartial
  split
  · exact ⟨h1, .addToSet _ _, h3, h4⟩
  · exact ⟨h1, h2, .addToSet _ _, h4⟩
  · exact ⟨h1, h2, h3, .addToSet _ _⟩
  · exact ⟨h1, h2, h3, h4⟩

/-- Keeping a leaf loses no entry. -/
theorem Proc.keepLeaf_noneLost (p : Proc) (m la l k1 k2) : NoneLost p (p.keepLeaf m la l k1 k2) := by
  rw [Proc.keepLeaf_rest]
  refine ⟨?_, fun _ h => h, fun _ h => h, fun _ h => h⟩
  intro x hx
  unfold Proc.keepLeaf
  cases k1 <;> cases k2 <;> cases l.large <;> simp <;> first
    | exact hx
    | exact OnlyLost.addToSet _ _ _ hx
    | exact OnlyLost.addToSet _ _ _ (OnlyLost.addToSet _ _ _ hx)

/-- The paging mode is no part of the caches. -/
theorem SameButCaches.mode {q p : Proc} (h : SameButCaches q p) : q.mode = p.mode := by
  unfold SameButCaches at h; rw [h]; rfl

/-- CR4.PGE is no part of the caches. -/
theorem SameButCaches.pge {q p : Proc} (h : SameButCaches q p) : q.pge = p.pge := by
  unfold SameButCaches at h; rw [h]

/-- CR0.WP is no part of the caches. -/
theorem SameButCaches.wp {q p : Proc} (h : SameButCaches q p) : q.wp = p.wp := by
  unfold SameButCaches at h
  rw [h]

/-- A processor differs from itself in nothing. -/
theorem SameButCaches.refl (p : Proc) : SameButCaches p p := rfl

/-- Two changes of the caches are one. -/
theorem SameButCaches.trans {r q p : Proc} (h1 : SameButCaches r q) (h2 : SameButCaches q p) :
    SameButCaches r p := by
  unfold SameButCaches at *; rw [h1, h2]

/-- Keeping a partial translation changes caches only. -/
theorem Proc.keepPartial_sameButCaches (p : Proc) (m la t) : SameButCaches (p.keepPartial m la t) p := by
  unfold SameButCaches Proc.keepPartial
  split <;> rfl

/-- Keeping a partial translation leaves the access in progress. -/
theorem Proc.keepPartial_busy (p : Proc) (m la t) : (p.keepPartial m la t).busy = p.busy := by
  rw [Proc.keepPartial_rest]

/-- Keeping a partial translation leaves the TLBs. -/
theorem Proc.keepPartial_tlb (p : Proc) (m la t) : (p.keepPartial m la t).tlb = p.tlb := by
  rw [Proc.keepPartial_rest]

/-- Keeping a leaf changes caches only. -/
theorem Proc.keepLeaf_sameButCaches (p : Proc) (m la l k1 k2) : SameButCaches (p.keepLeaf m la l k1 k2)
    p := by
  unfold SameButCaches
  rw [Proc.keepLeaf_rest]

/-- Keeping a leaf leaves the access in progress. -/
theorem Proc.keepLeaf_busy (p : Proc) (m la l k1 k2) : (p.keepLeaf m la l k1 k2).busy = p.busy := by
  rw [Proc.keepLeaf_rest]

/-- An invalidation changes caches only. -/
theorem Proc.invalidate_sameButCaches (p : Proc) (r x) : SameButCaches (p.invalidate r x) p := rfl

/-- The entry made from a leaf is one for its own address (R173). -/
theorem tlbEntryOf_added (p p0 : Proc) (m la l) (h : p.pge = p0.pge) : AddedFor p0 m la (tlbEntryOf p m
    la l) := by
  refine ⟨?_, rfl, ?_⟩
  · cases hl : l.large <;> simp [TlbEntry.covers, tlbEntryOf, hl]
  · simp [tlbEntryOf, h]; tauto

/-- The piece made from a leaf is one for its own address (R286). -/
theorem pieceEntryOf_added (p p0 : Proc) (m la l) (h : p.pge = p0.pge) : AddedFor p0 m la (pieceEntryOf
    p m la l) := by
  refine ⟨?_, rfl, ?_⟩
  · simp [TlbEntry.covers, pieceEntryOf]
  · simp [pieceEntryOf, h]; tauto

/-- Drawing a choice changes nothing that matters. -/
theorem Went.drawn {s0 p0 m a0 a s} (h : Went s0 p0 m a0 a s) : Went s0 p0 m a0 a s.drawn := by
  obtain ⟨hf, h1, h2, h3, h4, h5, h6, h7, h8, h9⟩ := h
  exact ⟨hf, by simpa, by simpa, by simpa, by simpa, by simpa, by simpa, by simpa,
      by rw [State.drawn_mem]; exact h8, by simpa⟩

/-- A committing step at a leaf. -/
theorem Went.atLeaf {s0 p0 m a0 a s p} (h : Went s0 p0 m a0 a s) (c : Choice) (pa : PAddr) (l : Leaf)
    (hp : s.proc? = some p) (hph : ∀ pa, a.phase ≠ .translated pa)
    (a' : Access) (hf : a'.kind = a.kind ∧ a'.la = a.la ∧ a'.n = a.n ∧ a'.v = a.v ∧ a'.cpl = a.cpl ∧
        a'.demand = a.demand)
    (hw : (a'.kind ≠ .write ∨ ∀ pa, a'.phase ≠ .translated pa) → leafWrites a p l = false) :
    Went s0 p0 m a0 a' (leafState a c p m pa l s) := by
  obtain ⟨q, hq, hs, hb, ht⟩ := h.proc
  rw [hp] at hq; cases hq
  have hcur := h.current
  refine ⟨?_, h.config, h.current, h.schedule, h.trace, by simpa [leafState] using h.length, ?_, ?_, ?_,
    ?_⟩
  · obtain ⟨b1, b2, b3, b4, b5, b6⟩ := h.fields
    obtain ⟨c1, c2, c3, c4, c5, c6⟩ := hf
    exact ⟨c1.trans b1, c2.trans b2, c3.trans b3, c4.trans b4, c5.trans b5, c6.trans b6⟩
  · intro k hk
    rw [← h.others k hk]
    exact State.setProc_other _ _ _ (by simpa [hcur] using hk)
  · refine ⟨_, State.setProc_proc? _ _ (by simpa using hp),
      (Proc.keepLeaf_sameButCaches _ _ _ _ _ _).trans hs, (Proc.keepLeaf_busy _ _ _ _ _ _).trans hb, ?_⟩
    intro e he
    rcases Proc.mem_keepLeaf _ _ _ _ _ _ _ he with he | rfl | ⟨rfl, -⟩
    · exact ht e he
    · right; rw [h.fields.2.1]; exact tlbEntryOf_added _ _ _ _ _ hs.pge
    · right; rw [h.fields.2.1]; exact pieceEntryOf_added _ _ _ _ _ hs.pge
  · intro hm0
    obtain ⟨hm, ho⟩ := h.mem hm0
    refine ⟨setEntryBits_wf _ _ _ _ hm, fun hk => ?_⟩
    simp only [leafState, State.setProc_mem, State.setMem_mem, hw hk, Bool.false_eq_true, if_false]
    exact (ho (.inr hph)).trans (setEntryBits_onlyAccessed _ _ _ hm)
  · intro q' hq'
    rw [leafState, State.setProc_proc? _ _ (by simpa using hp)] at hq'
    cases hq'
    exact (h.kept p hp).trans (Proc.keepLeaf_noneLost _ _ _ _ _ _)

/-- A step that changes the access alone. -/
theorem Went.rephase {s0 p0 m a0 a s} (h : Went s0 p0 m a0 a s) (a' : Access)
    (hf : a'.kind = a.kind ∧ a'.la = a.la ∧ a'.n = a.n ∧ a'.v = a.v ∧ a'.cpl = a.cpl ∧ a'.demand =
        a.demand)
    (hph : ∀ pa, a.phase ≠ .translated pa) : Went s0 p0 m a0 a' s := by
  obtain ⟨⟨b1, b2, b3, b4, b5, b6⟩, h1, h2, h3, h4, h5, h6, h7, h8, h9⟩ := h
  obtain ⟨c1, c2, c3, c4, c5, c6⟩ := hf
  exact ⟨⟨c1.trans b1, c2.trans b2, c3.trans b3, c4.trans b4, c5.trans b5, c6.trans b6⟩, h1, h2, h3, h4,
      h5, h6, h7,
    fun hm => ⟨(h8 hm).1, fun _ => (h8 hm).2 (.inr hph)⟩, h9⟩

/-- Each way of going on. -/
theorem Went.goesOn {s0 p0 m a0 a s p a' s' c} (h : Went s0 p0 m a0 a s) (hp : s.proc? = some p)
    (hg : GoesOn a c p m s a' s') : Went s0 p0 m a0 a' s' := by
  cases hg with
  | start t hph ht => exact h.rephase _ ⟨rfl, rfl, rfl, rfl, rfl, rfl⟩ (by simp [hph])
  | hit e hph he hok hd => exact h.rephase _ ⟨rfl, rfl, rfl, rfl, rfl, rfl⟩ (by simp [hph])
  | dry t t' d hph hs => exact h.rephase _ ⟨rfl, rfl, rfl, rfl, rfl, rfl⟩ (by simp [hph])
  | again t d l hph hs hok hd hm => exact h.rephase _ ⟨rfl, rfl, rfl, rfl, rfl, rfl⟩ (by simp [hph])
  | leaf t l hph hs hok =>
    refine Went.atLeaf h c _ l hp (by simp [hph]) _ ⟨rfl, rfl, rfl, rfl, rfl, rfl⟩ ?_
    intro hk
    have : a.kind ≠ .write := by simpa using hk
    simp [leafWrites, this]
  | extend t t' hph hs =>
    have h' := h.rephase { a with phase := .walk t' false } ⟨rfl, rfl, rfl, rfl, rfl, rfl⟩ (by simp [hph])
    obtain ⟨q, hq, hsb, hb, htl⟩ := h.proc
    rw [hp] at hq; cases hq
    have hcur := h.current
    have hmem : s0.mem.wf → (setEntryBits s.mem m (entryAddress m t a.la) accessedMask).wf ∧
        OnlyAccessedSet s0.mem (setEntryBits s.mem m (entryAddress m t a.la) accessedMask) := by
      intro hm0
      obtain ⟨hm, ho⟩ := h.mem hm0
      exact ⟨setEntryBits_wf _ _ _ _ hm,
          (ho (.inr (by simp [hph]))).trans (setEntryBits_onlyAccessed _ _ _ hm)⟩
    unfold extendedState
    simp only
    split
    · refine ⟨h'.fields, h.config, h.current, h.schedule, h.trace, by simpa using h.length, ?_, ?_,
        fun hm => ⟨(hmem hm).1, fun _ => (hmem hm).2⟩, ?_⟩
      · intro k hk
        rw [← h.others k hk]
        exact State.setProc_other _ _ _ (by simpa [hcur] using hk)
      · refine ⟨_, State.setProc_proc? _ _ (by simpa using hp),
          (Proc.keepPartial_sameButCaches _ _ _ _).trans hsb, (Proc.keepPartial_busy _ _ _ _).trans hb,
          ?_⟩
        rw [Proc.keepPartial_tlb]
        exact htl
      · intro q' hq'
        rw [State.setProc_proc? _ _ (by simpa using hp)] at hq'
        cases hq'
        exact (h.kept p hp).trans (Proc.keepPartial_noneLost _ _ _ _)
    · exact ⟨h'.fields, h.config, h.current, h.schedule, h.trace, h.length, h.others, ⟨_, hp, hsb, hb,
        htl⟩, fun hm => ⟨(hmem hm).1, fun _ => (hmem hm).2⟩, h.kept⟩

/-- An access that has not begun. -/
theorem Went.start (s0 : State) (p0 : Proc) (m : PMode) (a0 : Access) (hp : s0.proc? = some p0) : Went
    s0 p0 m a0 a0 s0 :=
  ⟨⟨rfl, rfl, rfl, rfl, rfl, rfl⟩, rfl, rfl, rfl, rfl, rfl, fun _ _ => rfl, ⟨p0, hp, .refl _, rfl,
      fun _ h => .inl h⟩,
    fun h => ⟨h, fun _ => .refl _⟩, fun q hq => by rw [hp] at hq; cases hq; exact .refl _⟩

/-- How an access that has gone so far comes to its end. -/
inductive Ended (s0 : State) (p0 : Proc) (m : PMode) (a0 : Access) : Result → Prop
  | stop (r : Result) (h : ∀ t, r ≠ .next t) : Ended s0 p0 m a0 r
  | failed (a : Access) (s : State) (h : Went s0 p0 m a0 a s) (hph : ∀ pa, a.phase ≠ .translated pa) :
      Ended s0 p0 m a0 (failAccess a s)
  | aborted (a : Access) (s : State) (h : Went s0 p0 m a0 a s) (hd : a0.demand = false) (hph : ∀ pa,
      a.phase ≠ .translated pa) : Ended s0 p0 m a0 (.next s)
  | waits (a : Access) (s : State) (h : Went s0 p0 m a0 a s) : Ended s0 p0 m a0 (waitAccess a s)
  | moved (a : Access) (s : State) (pa : PAddr) (h : Went s0 p0 m a0 a s) : Ended s0 p0 m a0 (moveData a
      pa s)

/-- An access with paging on ends in one of these ways. -/
theorem runAccess_ended (s0 : State) (p0 : Proc) (m : PMode) (a0 : Access) (hp : s0.proc? = some p0) (hm
    : p0.mode = some m)
    (fuel : Nat) : Ended s0 p0 m a0 (runAccess fuel a0 s0) := by
  have hmode : ∀ {a s p}, Went s0 p0 m a0 a s → s.proc? = some p → p.mode = some m := by
    intro a s p h hp
    obtain ⟨q, hq, hs, -, -⟩ := h.proc
    rw [hp] at hq; cases hq
    rw [hs.mode, hm]
  refine runAccess_induction (Q := Went s0 p0 m a0) (R := Ended s0 p0 m a0) ?_ ?_ ?_ ?_ ?_ ?_ fuel a0 s0
      (Went.start _ _ _ _ hp)
  · intro a s p m' a' s' h hps hm' hg
    have := hmode h hps
    rw [hm'] at this; cases this
    exact h.drawn.goesOn (by simpa using hps) hg
  · intro a s p m' r h hps hm' he
    have := hmode h hps
    rw [hm'] at this; cases this
    cases he with
    | notLoaded => exact .stop _ (by simp)
    | noRoot hph => exact .failed _ _ h.drawn (by simp [hph])
    | deniedHit e hph => exact .failed _ _ h.drawn (by simp [hph])
    | outside => exact .stop _ (by simp)
    | notPresent t d hph => exact .failed _ _ h.drawn (by simp [hph])
    | refused => exact .stop _ (by simp)
    | deniedDry t d l hph => exact .failed _ _ h.drawn (by simp [hph])
    | abortDry t d l hph hs hd =>
      exact .aborted _ _ h.drawn (by rw [← h.fields.2.2.2.2.2]; exact hd) (by simp [hph])
    | deniedLeaf t l hph hs hok =>
      refine .failed _ _ (Went.atLeaf h.drawn s.choice _ l (by simpa using hps) (by simp [hph]) _ ⟨rfl,
          rfl, rfl, rfl, rfl, rfl⟩ ?_) (by simp [hph])
      intro _
      simp [leafWrites, hok]
    | data pa hph => exact .moved _ _ _ h.drawn
  · intro a s h; exact .waits _ _ h
  · intro a s h _ _; exact .waits _ _ h.drawn
  · intro a s p h hps hno
    have := hmode h hps
    rw [hno] at this; cases this
  · intro a s h hno
    obtain ⟨q, hq, -⟩ := h.proc
    rw [hq] at hno; cases hno

/-- An access with paging off moves its data at once (R155). -/
theorem runAccess_pagingOff (s0 : State) (p0 : Proc) (a0 : Access) (hp : s0.proc? = some p0) (hm :
    p0.mode = none)
    (fuel : Nat) : runAccess (fuel + 1) a0 s0 = moveData a0 (unpagedAddress a0.la) s0 := by
  rw [runAccess, State.withProc_eq _ _ _ hp]
  simp [hm]

/-- What moving the data can change (R151 to R153). -/
theorem moveData_next (a : Access) (pa : PAddr) (s t : State) (h : moveData a pa s = .next t) :
    t.config = s.config ∧ t.current = s.current ∧ t.schedule = s.schedule ∧ t.procs = s.procs ∧
    (a.kind ≠ .write → t.mem = s.mem) ∧ (a.kind = .write →
        t.mem = s.mem.writeLE pa.toNat a.n a.v ∧ t.trace = s.trace) ∧
    (s.mem.wf → t.mem.wf) ∧
    (a.kind ≠ .write → ∃ pre, t.trace = (if a.demand then [.value s.current a.kind a.la a.n
        (s.mem.readLE pa.toNat a.n)] else []) ++ pre ++ s.trace ∧
       (pre = [] ∨ pre = [.sideEffect s.current pa.toNat a.n])) := by
  unfold moveData at h
  split at h
  · have rd : ∀ t, readData a pa s = t →
      t.config = s.config ∧ t.current = s.current ∧ t.schedule = s.schedule ∧ t.procs = s.procs ∧ t.mem
      = s.mem ∧ ∃ pre,
      t.trace = (if a.demand then [.value s.current a.kind a.la a.n (s.mem.readLE pa.toNat a.n)] else
      []) ++ pre ++ s.trace ∧
       (pre = [] ∨ pre = [.sideEffect s.current pa.toNat a.n]) := by
      rintro t rfl
      unfold readData
      cases touchesSideEffect s.config pa.toNat a.n <;> cases a.demand <;> simp
      all_goals exact ⟨[_], rfl, .inr rfl⟩
    split at h
    · rename_i hk
      cases h
      obtain ⟨b1, b2, b3, b4, b5, b6⟩ := rd _ rfl
      exact ⟨b1, b2, b3, b4, fun _ => b5, by simp [hk], by rw [b5]; exact id, fun _ => b6⟩
    · rename_i hk
      cases h
      obtain ⟨b1, b2, b3, b4, b5, b6⟩ := rd _ rfl
      exact ⟨b1, b2, b3, b4, fun _ => b5, by simp [hk], by rw [b5]; exact id, fun _ => b6⟩
    · rename_i hk
      cases h
      exact ⟨rfl, rfl, rfl, rfl, by simp [hk], by simp, fun h => Memory.writeLE_wf _ _ _ _ h,
          by simp [hk]⟩
  · cases h

/-- A next state of an access: what it can have changed. -/
structure After (s0 : State) (p0 : Proc) (t : State) : Prop where
  config : t.config = s0.config
  current : t.current = s0.current
  schedule : t.schedule = s0.schedule
  length : t.procs.length = s0.procs.length
  others : ∀ k, k ≠ s0.current → t.procs[k]? = s0.procs[k]?
  proc : ∃ q, t.proc? = some q ∧ SameButCaches q p0 ∧ ∀ e ∈ q.tlb,
      e ∈ p0.tlb ∨ (e.global = true → p0.pge = true)
  wf : s0.mem.wf → t.mem.wf

/-- An access that has gone so far has changed no more than that. -/
theorem Went.after {s0 p0 m a0 a s} (h : Went s0 p0 m a0 a s) : After s0 p0 s :=
  let ⟨q, hq, hs, _, ht⟩ := h.proc
  ⟨h.config, h.current, h.schedule, h.length, h.others, ⟨q, hq, hs,
      fun e he => (ht e he).imp id fun h => h.2.2⟩, fun hm => (h.mem hm).1⟩

/-- A translation that fails: a speculative access ends, a demand one page-faults (R150, R403). -/
theorem failAccess_next (a : Access) (s t : State) (p : Proc) (hp : s.proc? = some p) (h : failAccess a
    s = .next t) :
    (a.demand = false ∧ t = s) ∨ (a.demand = true ∧
      t = (s.invalidated p (Req.pageFault a.la)).report (.pageFault s.current a.la a.kind a.cpl)) := by
  unfold failAccess at h
  split at h
  · right; rw [takePageFault_eq _ _ _ hp] at h; exact ⟨by assumption, by simpa using h.symm⟩
  · left; exact ⟨by simpa using (‹¬ a.demand = true›), by simpa using h.symm⟩

/-- An access that waits: a speculative one ends, a demand one is parked (R137). -/
theorem waitAccess_next (a : Access) (s t : State) (p : Proc) (hp : s.proc? = some p) (h : waitAccess a
    s = .next t) :
    (a.demand = false ∧ t = s) ∨ (a.demand = true ∧ t = s.setProc { p with busy := some a }) := by
  unfold waitAccess at h
  rw [State.withProc_eq _ _ _ hp] at h
  split at h
  · right; exact ⟨by assumption, by simpa using h.symm⟩
  · left; exact ⟨by simpa using (‹¬ a.demand = true›), by simpa using h.symm⟩

/-- A further change of the current processor that adds nothing to the TLBs. -/
theorem After.setProc (s0 s t : State) (p0 p' : Proc) (h : After s0 p0 s) (h1 : t.config = s.config) (h2
    : t.current = s.current)
    (h3 : t.schedule = s.schedule) (h4 : t.procs = s.procs.set s.current p') (h5 : t.mem = s.mem) (hs :
        SameButCaches p' p0) (q : Proc) (hq : s.proc? = some q) (hsub : ∀ e ∈ p'.tlb,
        e ∈ q.tlb) : After s0 p0 t := by
  obtain ⟨a1, a2, a3, a4, a5, ⟨q1, a6, a7, a9⟩, a8⟩ := h
  rw [hq] at a6; cases a6
  refine ⟨by rw [h1, a1], by rw [h2, a2], by rw [h3, a3], by simp [h4, a4], ?_, ⟨p', ?_, hs,
      fun e he => a9 e (hsub e he)⟩, by rw [h5]; exact a8⟩
  · intro k hk
    rw [h4, List.getElem?_set_ne (by rw [a2]; exact Ne.symm hk), a5 k hk]
  · have := State.setProc_proc? s p' hq
    simpa [State.proc?, h2, h4] using this

/-- Every next state that an access with paging on ends in. -/
theorem Ended.after {s0 p0 m a0 r t} (h : Ended s0 p0 m a0 r) (ht : r = .next t) : After s0 p0 t := by
  cases h with
  | stop _ h => exact absurd ht (h t)
  | failed a s h _ =>
    obtain ⟨q, hq, hs, -⟩ := h.proc
    rcases failAccess_next _ _ _ _ hq ht with ⟨-, rfl⟩ | ⟨-, rfl⟩
    · exact h.after
    · refine After.setProc s0 s _ p0 (q.invalidate (Req.pageFault a.la) s.choice.extra) h.after
        ?_ ?_ ?_ ?_ ?_ ((Proc.invalidate_sameButCaches _ _ _).trans hs) q hq fun e he =>
            (removeWhere_mem _ _ _ _ he).1
      all_goals simp
  | aborted a s h _ => cases ht; exact h.after
  | waits a s h =>
    obtain ⟨q, hq, hs, -⟩ := h.proc
    rcases waitAccess_next _ _ _ _ hq ht with ⟨-, rfl⟩ | ⟨-, rfl⟩
    · exact h.after
    · refine After.setProc s0 s _ p0 { q with busy := some a } h.after rfl rfl rfl rfl rfl ?_ q hq (fun
        _ h => h)
      unfold SameButCaches at hs ⊢; rw [hs]
  | moved a s pa h =>
    have hh := h.after
    obtain ⟨b1, b2, b3, b4, b5, b6, b7, b8⟩ := moveData_next _ _ _ _ ht
    exact ⟨by rw [b1, hh.config], by rw [b2, hh.current], by rw [b3, hh.schedule], by rw [b4,
        hh.length], by rw [b4]; exact hh.others,
      by rw [State.proc?, b4, b2]; exact hh.proc, fun hm => b7 (hh.wf hm)⟩

/-- Every next state that an operation making an access answers. -/
theorem demandAccess_after (kind la n v) (s t : State) (p : Proc) (hp : s.proc? = some p) (h :
    demandAccess kind la n v s = .next t) : After s p t := by
  unfold demandAccess at h
  rw [State.withProc_eq _ _ _ hp] at h
  split at h
  · cases h
  · split at h
    · cases h
    · cases hm : p.mode with
      | none =>
        rw [accessFuel, runAccess_pagingOff _ _ _ hp hm] at h
        obtain ⟨b1, b2, b3, b4, b5, b6, b7, b8⟩ := moveData_next _ _ _ _ h
        exact ⟨b1, b2, b3, by rw [b4], by intros; rw [b4], ⟨p, by rw [State.proc?, b4, b2]; exact hp,
            .refl _, fun _ h => .inl h⟩, b7⟩
      | some m =>
        exact (runAccess_ended s p m _ hp hm _).after h

end Sys2Proof.Machine
end

