-- ==== Sys2Proof/Laws/Invariant.lean ====
section
/-! SUPPORT. The invariant of a processor's caches and what keeps it: keys and addresses of their tag's
widths, aligned addresses, possible tags and rights, no entry twice. -/

namespace Sys2Proof.Machine

/-- The invariant of the four sets, as a proposition. -/
theorem Proc.cachesOk_iff (cfg : Config) (p : Proc) : p.cachesOk cfg = true ↔
    (∀ e ∈ p.tlb, e.ok cfg p = true) ∧ (∀ e ∈ p.pml4c, e.ok cfg p = true) ∧
    (∀ e ∈ p.pdpc, e.ok cfg p = true) ∧ (∀ e ∈ p.pdec, e.ok cfg p = true) ∧
    p.tlb.Nodup ∧ p.pml4c.Nodup ∧ p.pdpc.Nodup ∧ p.pdec.Nodup := by
  simp [Proc.cachesOk, List.all_eq_true, and_assoc]

/-- The invariant of a processor, as a proposition. -/
theorem Proc.ok_iff (cfg : Config) (p : Proc) : p.ok cfg = true ↔
    p.modeLegal cfg = true ∧ p.pdptrsLegal = true ∧ p.cachesOk cfg = true ∧ p.busyOk = true := by
  simp [Proc.ok, and_assoc]

/-- Low bits zero, as a remainder. -/
theorem lowBits_zero_iff (a : PAddr) (k : Nat) (_hk : k ≤ 52) : (a.extractLsb' 0 k == 0) = true ↔ a.toNat
    % 2 ^ k = 0 := by
  rw [beq_iff_eq, ← BitVec.toNat_inj]
  simp [BitVec.extractLsb'_toNat]

/-- A shifted address is aligned. -/
theorem shiftLeft_mod (a : PAddr) (j k : Nat) (h : k ≤ j) (hk : k ≤ 52) : (a <<< j).toNat % 2 ^ k = 0 :=
    by
  rw [BitVec.toNat_shiftLeft, Nat.shiftLeft_eq]
  rw [Nat.mod_mod_of_dvd _ (Nat.pow_dvd_pow 2 hk)]
  exact Nat.mod_eq_zero_of_dvd (dvd_mul_of_dvd_right (Nat.pow_dvd_pow 2 h) _)

/-- The address in a non-leaf entry is aligned (R74). -/
theorem nextAddr_aligned (m e) : ((nextAddr m e).extractLsb' 0 12 == 0) = true := by
  rw [lowBits_zero_iff _ _ (by omega)]
  cases m <;> exact shiftLeft_mod _ _ _ (by omega) (by omega)

/-- The address in a non-leaf entry is aligned (R74). -/
theorem nextAddr_mod (m e) : (nextAddr m e).toNat % 4096 = 0 := by
  have := nextAddr_aligned m e
  rwa [lowBits_zero_iff _ _ (by omega)] at this

/-- The frame of a large page is aligned (R74, R352). -/
theorem largeFrame_aligned (cfg m e) : frameAligned m .large (largeFrame cfg m e) = true := by
  cases m <;> simp only [frameAligned, largeFrame]
  · split
    · rw [lowBits_zero_iff _ _ (by omega), BitVec.toNat_or, Nat.or_mod_two_pow,
        shiftLeft_mod _ _ _ (by omega) (by omega), shiftLeft_mod _ _ _ (by omega) (by omega)]; rfl
    · rw [lowBits_zero_iff _ _ (by omega)]; exact shiftLeft_mod _ _ _ (by omega) (by omega)
  · rw [lowBits_zero_iff _ _ (by omega)]; exact shiftLeft_mod _ _ _ (by omega) (by omega)
  · rw [lowBits_zero_iff _ _ (by omega)]; exact shiftLeft_mod _ _ _ (by omega) (by omega)

/-- XD of an entry is possible (R81). -/
theorem xdPossible_xdBit (p : Proc) (m e) : xdPossible p m (xdBit m p.nxe e) = true := by
  cases m <;> simp [xdPossible, xdBit] <;> cases p.nxe <;> simp

/-- XD along a walk is possible (R138). -/
theorem xdPossible_or (p : Proc) (m a b) (h1 : xdPossible p m a = true) (h2 : xdPossible p m b = true) :
    xdPossible p m (a || b) = true := by
  cases a <;> cases b <;> simp_all

/-- The current mode is a possible tag (R39). -/
theorem tagPossible_mode (p : Proc) (m) (h : p.mode = some m) : tagPossible p m = true := by
  unfold Proc.mode at h
  unfold tagPossible
  cases h1 : p.pg <;> cases h2 : p.lma <;> cases h3 : p.pae <;> simp [h1, h2, h3] at h <;> subst h <;> rfl

/-- The bits of a range. -/
theorem bitRange_getLsbD (hi lo i : Nat) (h : hi < 64) (h1 : lo ≤ i) (h2 : i ≤ hi) :
    (bitRange hi lo).getLsbD i = true := by
  unfold bitRange
  have e : 2 ^ (hi + 1) - 2 ^ lo = 2 ^ lo * (2 ^ (hi + 1 - lo) - 1) := by
    rw [Nat.mul_sub, ← Nat.pow_add, Nat.mul_one]; congr 2; omega
  rw [BitVec.getLsbD_ofNat, e, Nat.testBit_two_pow_mul]
  simp
  omega

/-- An entry without a refused bit has no bit of a refused range. -/
theorem getLsbD_of_and_eq_zero {e r : Entry} (h : e &&& r = 0) {i : Nat} (hr : r.getLsbD i = true) :
    e.getLsbD i = false := by
  have := congrArg (·.getLsbD i) h
  simpa [hr] using this

/-- An address is as wide as its highest bit says. -/
theorem toNat_lt_of_bits (a : PAddr) (w : Nat) (h : ∀ i, w ≤ i → i < 52 → a.getLsbD i = false) :
    a.toNat < 2 ^ w := by
  apply Nat.lt_pow_two_of_testBit
  intro i hi
  by_cases h2 : i < 52
  · exact h i hi h2
  · exact Nat.testBit_lt_two_pow (Nat.lt_of_lt_of_le a.isLt (Nat.pow_le_pow_right (by omega) (by omega)))

/-- The refused bits at or above the physical-address width (R82, R85). -/
theorem refusedBits_addr (cfg : Config) (nxe : Bool) (m : PMode) (level : Level) (large : Bool) (i : Nat)
    (hm : m ≠ .legacy32) (h1 : addressWidth cfg m false ≤ i) (h2 : i < 52)
    (h3 : m = .pae → i < 36) : (refusedBits cfg nxe m level large).getLsbD i = true := by
  cases m with
  | legacy32 => exact absurd rfl hm
  | ia32e =>
    have := bitRange_getLsbD 51 cfg.maxPhyAddr i (by omega) (by simpa [addressWidth] using h1) (by omega)
    simp [refusedBits, this]
  | pae =>
    have := h3 rfl
    have := bitRange_getLsbD 35 cfg.maxPhyAddr i (by omega)
      (by simp only [addressWidth] at h1; omega) (by omega)
    simp [refusedBits, this]

/-- The address in an entry that is not refused is as wide as the mode's (R82, R85). -/
theorem nextAddr_lt {cfg : Config} {nxe : Bool} {m : PMode} {level : Level} {large : Bool} {e : Entry}
    (h : e &&& refusedBits cfg nxe m level large = 0) :
    (nextAddr m e).toNat < 2 ^ addressWidth cfg m false := by
  apply toNat_lt_of_bits
  intro i h1 h2
  cases m with
  | legacy32 =>
    simp only [addressWidth, Bool.false_and, Bool.false_eq_true, if_false] at h1
    simp [nextAddr]; omega
  | ia32e =>
    have := getLsbD_of_and_eq_zero h (refusedBits_addr cfg nxe .ia32e level large i (by simp) h1 h2 (by simp))
    simp only [nextAddr, BitVec.getLsbD_shiftLeft, BitVec.getLsbD_setWidth, BitVec.getLsbD_extractLsb']
    by_cases h12 : i < 12
    · simp [h12]
    · rw [show 12 + (i - 12) = i by omega, this]; simp
  | pae =>
    simp only [nextAddr, BitVec.getLsbD_shiftLeft, BitVec.getLsbD_setWidth, BitVec.getLsbD_extractLsb']
    by_cases h36 : i < 36
    · have := getLsbD_of_and_eq_zero h
        (refusedBits_addr cfg nxe .pae level large i (by simp) h1 h2 (by simp [h36]))
      by_cases h12 : i < 12
      · simp [h12]
      · rw [show 12 + (i - 12) = i by omega, this]; simp
    · simp; omega

/-- `32 <= MAXPHYADDR <= 52` (R6). -/
theorem config_wf_bounds {cfg : Config} (h : cfg.wf = true) : 32 ≤ cfg.maxPhyAddr ∧ cfg.maxPhyAddr ≤ 52 := by
  simp only [Config.wf, Bool.and_eq_true, decide_eq_true_eq] at h
  exact ⟨h.1.1.1, h.1.1.2⟩

/-- The frame in an entry that is not refused is as wide as a large page's (R82, R85, R352). -/
theorem largeFrame_lt {cfg : Config} {nxe : Bool} {m : PMode} {level : Level} {e : Entry}
    (hc : cfg.wf = true) (h : e &&& refusedBits cfg nxe m level true = 0) :
    (largeFrame cfg m e).toNat < 2 ^ addressWidth cfg m true := by
  have hM : 32 ≤ cfg.maxPhyAddr := (config_wf_bounds hc).1
  apply toNat_lt_of_bits
  intro i h1 h2
  cases m with
  | legacy32 =>
    simp only [addressWidth, Bool.true_and] at h1
    cases hp : cfg.pse36 with
    | false =>
      simp only [hp, Bool.false_eq_true, if_false] at h1
      simp [largeFrame, hp]; omega
    | true =>
      simp only [hp, if_true] at h1
      simp only [largeFrame, hp, if_true, BitVec.getLsbD_or, BitVec.getLsbD_shiftLeft,
        BitVec.getLsbD_setWidth, BitVec.getLsbD_extractLsb']
      by_cases h32 : i < 32
      · omega
      by_cases h36 : i < 36
      · have hr : (refusedBits cfg nxe .legacy32 level true).getLsbD (13 + (i - 32)) = true := by
          have := bitRange_getLsbD 16 (cfg.maxPhyAddr - 19) (13 + (i - 32)) (by omega) (by omega) (by omega)
          simp [refusedBits, hp, this]
        rw [getLsbD_of_and_eq_zero h hr]
        simp; omega
      · simp; omega
  | ia32e =>
    have := getLsbD_of_and_eq_zero h (refusedBits_addr cfg nxe .ia32e level true i (by simp) h1 h2 (by simp))
    simp only [largeFrame, BitVec.getLsbD_shiftLeft, BitVec.getLsbD_setWidth, BitVec.getLsbD_extractLsb']
    by_cases h21 : i < 21
    · simp [h21]
    · rw [show 21 + (i - 21) = i by omega, this]; simp
  | pae =>
    simp only [largeFrame, BitVec.getLsbD_shiftLeft, BitVec.getLsbD_setWidth, BitVec.getLsbD_extractLsb']
    by_cases h36 : i < 36
    · have := getLsbD_of_and_eq_zero h
        (refusedBits_addr cfg nxe .pae level true i (by simp) h1 h2 (by simp [h36]))
      by_cases h21 : i < 21
      · simp [h21]
      · rw [show 21 + (i - 21) = i by omega, this]; simp
    · simp; omega

/-- The key of a page has the width of its mode (R34). -/
theorem pageNumber_lt (m : PMode) (k : TlbKind) (la : LAddr) (h : k ≠ .large) :
    (pageNumber m la).toNat < 2 ^ keyWidth m k := by
  cases k <;> first | exact absurd rfl h | (cases m <;> simp only [pageNumber, keyWidth])
  all_goals first
    | exact BitVec.isLt _
    | (rw [BitVec.toNat_setWidth]; exact Nat.lt_of_le_of_lt (Nat.mod_le _ _) (BitVec.isLt _))

/-- The key of a large page has the width of its mode (R34). -/
theorem largePageNumber_lt (m : PMode) (la : LAddr) :
    (largePageNumber m la).toNat < 2 ^ keyWidth m .large := by
  cases m <;> simp only [largePageNumber, keyWidth] <;>
    (rw [BitVec.toNat_setWidth]; exact Nat.lt_of_le_of_lt (Nat.mod_le _ _) (BitVec.isLt _))

/-- The key of a PDE-cache entry has the width of its mode (R37). -/
theorem pdeKey_lt (m : PMode) (la : LAddr) : (pdeKey m la).toNat < 2 ^ keyWidth m .large := by
  cases m <;> simp only [pdeKey, keyWidth]
  all_goals first
    | exact BitVec.isLt _
    | (rw [BitVec.toNat_setWidth]; exact Nat.lt_of_le_of_lt (Nat.mod_le _ _) (BitVec.isLt _))

/-- No address is wider than 52 bits (R31). -/
theorem addressWidth_le {cfg : Config} (hc : cfg.wf = true) (m : PMode) (large : Bool) :
    32 ≤ addressWidth cfg m large ∧ addressWidth cfg m large ≤ 52 := by
  have := config_wf_bounds hc
  cases m <;> simp only [addressWidth]
  · split <;> omega
  · omega
  · omega

/-- The frame of a piece lies within its large page (R286). -/
theorem piece_lt {cfg : Config} {m : PMode} {f : PAddr} (la : LAddr) (hc : cfg.wf = true)
    (ha : frameAligned m .large f = true) (h : f.toNat < 2 ^ addressWidth cfg m true) :
    (f + pieceOffset m la).toNat < 2 ^ addressWidth cfg m true := by
  have key : ∀ k, 12 ≤ k → k ≤ 32 → f.toNat % 2 ^ k = 0 → (pieceOffset m la).toNat < 2 ^ k →
      (f + pieceOffset m la).toNat < 2 ^ addressWidth cfg m true := by
    intro k h1 h2 h3 h4
    have hw := (addressWidth_le hc m true).1
    obtain ⟨d, hd⟩ := Nat.exists_eq_add_of_le (show k ≤ addressWidth cfg m true by omega)
    rw [hd, Nat.pow_add] at h ⊢
    have h5 : f.toNat / 2 ^ k < 2 ^ d := Nat.div_lt_of_lt_mul h
    have h6 : f.toNat = 2 ^ k * (f.toNat / 2 ^ k) := by
      have := Nat.div_add_mod f.toNat (2 ^ k); omega
    have h7 : 2 ^ k * (f.toNat / 2 ^ k + 1) ≤ 2 ^ k * 2 ^ d := Nat.mul_le_mul_left _ h5
    rw [BitVec.toNat_add]
    refine Nat.lt_of_le_of_lt (Nat.mod_le _ _) ?_
    rw [Nat.mul_add, ← h6] at h7
    omega
  have ext : ∀ a b : Nat, (la.extractLsb' a b).toNat < 2 ^ b := fun a b => BitVec.isLt _
  cases m <;> simp only [frameAligned] at ha <;> rw [lowBits_zero_iff _ _ (by omega)] at ha
  · refine key 22 (by omega) (by omega) ha ?_
    have := ext 12 10
    simp only [pieceOffset, BitVec.toNat_shiftLeft, BitVec.toNat_setWidth, Nat.shiftLeft_eq]
    omega
  all_goals
    refine key 21 (by omega) (by omega) ha ?_
    have := ext 12 9
    simp only [pieceOffset, BitVec.toNat_shiftLeft, BitVec.toNat_setWidth, Nat.shiftLeft_eq]
    omega

/-- A piece made from an aligned large page lies at its place in it (R286, R356). -/
theorem pieceEntryOf_inPlace (p : Proc) {m : PMode} (la : LAddr) (l : Leaf)
    (h : frameAligned m .large l.frame = true) : (pieceEntryOf p m la l).pieceInPlace = true := by
  have ext : ∀ a b, (la.extractLsb' a b).toNat = la.toNat / 2 ^ a % 2 ^ b := fun a b => by
    rw [BitVec.extractLsb'_toNat, Nat.shiftRight_eq_div_pow]
  simp only [TlbEntry.pieceInPlace, Bool.or_eq_true, beq_iff_eq]
  right
  have hf := l.frame.isLt
  cases m <;> simp only [frameAligned] at h <;> rw [lowBits_zero_iff _ _ (by omega)] at h <;>
    simp only [pieceEntryOf, pieceBits, pieceOffset, pageNumber, BitVec.toNat_add,
      BitVec.toNat_shiftLeft, BitVec.toNat_setWidth, Nat.shiftLeft_eq, ext] <;> omega

/-- What a leaf found from a good partial translation is. -/
structure LeafOk (cfg : Config) (p : Proc) (m : PMode) (l : Leaf) : Prop where
  al : frameAligned m (if l.large then .large else .ord4k) l.frame = true
  lt : l.frame.toNat < 2 ^ addressWidth cfg m l.large
  xd : xdPossible p m l.xd = true

/-- Alignment of a 4-KByte frame. -/
theorem frameAligned_ord4k (m : PMode) (f : PAddr) : frameAligned m .ord4k f = (f.extractLsb' 0 12 == 0)
    := by cases m <;> rfl

/-- Alignment of the frame of a piece. -/
theorem frameAligned_piece (m : PMode) (f : PAddr) : frameAligned m .ordFromLarge f = (f.extractLsb' 0
    12 == 0) := by cases m <;> rfl

/-- A leaf found from a good partial translation is good. -/
theorem viewEntry_leaf_ok {cfg p m t a e l} (hc : cfg.wf = true) (ht : Partial.ok p m t = true)
    (h : viewEntry cfg p m t a e = .leaf l) : LeafOk cfg p m l := by
  unfold viewEntry at h
  split at h
  · cases h
  split at h
  · cases h
  rename_i hr
  split at h
  · cases h
    simp only [Partial.ok, Bool.and_eq_true] at ht
    simp only [bne_iff_ne, ne_eq, Decidable.not_not] at hr
    refine ⟨?_, ?_, xdPossible_or _ _ _ _ ht.2 (xdPossible_xdBit _ _ _)⟩
    on_goal 2 =>
      simp only [leafOf]
      cases hl : mapsLarge p t.next e with
      | true => rw [hl] at hr; exact largeFrame_lt hc hr
      | false => rw [hl] at hr; exact nextAddr_lt hr
    show frameAligned m (if (leafOf cfg p m t a e).large = true then _ else _) (leafOf cfg p m t a
        e).frame = true
    simp only [leafOf]
    by_cases hl : mapsLarge p t.next e = true
    · simp only [hl, if_true]; exact largeFrame_aligned _ _ _
    · simp only [hl]; simp only [Bool.false_eq_true,
        if_false]; rw [frameAligned_ord4k]; exact nextAddr_aligned _ _
  · cases h

/-- A good partial translation extends to a good one. -/
theorem viewEntry_next_ok {cfg p m t a e t'} (ht : Partial.ok p m t = true) (h : viewEntry cfg p m t a e
    = .next t') :
    Partial.ok p m t' = true ∧ t.next ≠ .l1 ∧ t' = extendPartial p m t e ∧
      t'.addr.toNat < 2 ^ addressWidth cfg m false := by
  unfold viewEntry at h
  split at h
  · cases h
  split at h
  · cases h
  rename_i hr
  split at h
  · cases h
  rename_i hend
  cases h
  simp only [bne_iff_ne, ne_eq, Decidable.not_not] at hr
  simp only [Partial.ok, Bool.and_eq_true, Bool.or_eq_true, beq_iff_eq] at ht ⊢
  have hl : t.next ≠ .l1 := by
    intro h; simp [endsWalk, h] at hend
  refine ⟨⟨⟨?_, ?_⟩, xdPossible_or _ _ _ _ ht.2 (xdPossible_xdBit _ _ _)⟩, hl, trivial, nextAddr_lt hr⟩
  · exact beq_iff_eq.mp (nextAddr_aligned _ _)
  · simp only [extendPartial]
    rcases ht.1.2 with (h | h) | h
    · exact .inl (.inl h)
    · right; rw [h]; rfl
    · exact absurd h hl

/-- Keeping a partial translation keeps the invariant of the four sets. -/
theorem Proc.keepPartial_cachesOk {p m la t e t'} (cfg a) (hp : p.cachesOk cfg = true) (hm : p.mode = some
    m) (ht : Partial.ok p m t = true)
    (h : viewEntry cfg p m t a e = .next t') : (p.keepPartial m la t').cachesOk cfg = true := by
  obtain ⟨h1, h2, h3, hlt⟩ := viewEntry_next_ok ht h
  rw [Proc.cachesOk_iff] at hp ⊢
  obtain ⟨b1, b2, b3, b4, b5, b6, b7, b8⟩ := hp
  have hmode := tagPossible_mode p m hm
  have hlow : m = .ia32e ∨ t'.next = .l1 := by
    simp only [Partial.ok, Bool.and_eq_true, Bool.or_eq_true, beq_iff_eq] at ht
    rcases ht.1.2 with (h | h) | h
    · exact .inl h
    · right; rw [h3]; simp [extendPartial, h, Level.below]
    · exact absurd h h2
  have key : ∀ e0 : Proc, e0.lma = p.lma → e0.nxe = p.nxe → e0.pge = p.pge →
      (∀ e : TlbEntry, e.ok cfg e0 = e.ok cfg p) ∧ (∀ e : Pml4Entry, e.ok cfg e0 = e.ok cfg p) ∧
      (∀ e : PdpEntry, e.ok cfg e0 = e.ok cfg p) ∧ (∀ e : PdeEntry, e.ok cfg e0 = e.ok cfg p) := by
    intro e0 h1 h2 h3
    simp [TlbEntry.ok, Pml4Entry.ok, PdpEntry.ok, PdeEntry.ok, tagPossible, xdPossible, h1, h2, h3]
  obtain ⟨k1, k2, k3, k4⟩ := key (p.keepPartial m la t') (by rw [Proc.keepPartial_rest]) (by rw
      [Proc.keepPartial_rest]) (by rw [Proc.keepPartial_rest])
  simp only [Partial.ok, Bool.and_eq_true] at h1
  have lma : t'.next ≠ .l1 → m = .ia32e ∧ p.lma = true := by
    intro hn
    have hm' := hlow.resolve_right hn
    subst hm'
    exact ⟨rfl, by simpa [tagPossible] using hmode.symm⟩
  refine ⟨?_, ?_, ?_, ?_, by rw [Proc.keepPartial_tlb]; exact b5, Proc.keepPartial_nodup p m la t' ⟨b6,
      b7, b8⟩⟩
  · rw [Proc.keepPartial_tlb]; intro e he; rw [k1]; exact b1 e he
  · intro c hc
    rw [k2]
    rcases Proc.mem_keepPartial_pml4c _ _ _ _ _ hc with hc | ⟨hn, rfl⟩
    · exact b2 c hc
    · obtain ⟨rfl, hl⟩ := lma (by rw [hn]; simp)
      simp [Pml4Entry.ok, hl, h1, hlt]; exact beq_iff_eq.mp h1.1.1
  · intro c hc
    rw [k3]
    rcases Proc.mem_keepPartial_pdpc _ _ _ _ _ hc with hc | ⟨hn, rfl⟩
    · exact b3 c hc
    · obtain ⟨rfl, hl⟩ := lma (by rw [hn]; simp)
      simp [PdpEntry.ok, hl, h1, hlt]; exact beq_iff_eq.mp h1.1.1
  · intro c hc
    rw [k4]
    rcases Proc.mem_keepPartial_pdec _ _ _ _ _ hc with hc | ⟨hn, rfl⟩
    · exact b4 c hc
    · simp [PdeEntry.ok, hmode, h1, hlt, pdeKey_lt]; exact beq_iff_eq.mp h1.1.1

/-- A piece begins at a 4-KByte boundary (R286). -/
theorem pieceOffset_mod (m la) : (pieceOffset m la).toNat % 4096 = 0 := by
  cases m <;> exact shiftLeft_mod _ _ 12 (by omega) (by omega)

/-- Every frame is 4-KByte aligned. -/
theorem frameAligned_mod {m k f} (h : frameAligned m k f = true) : f.toNat % 4096 = 0 := by
  cases k
  · rwa [frameAligned_ord4k, lowBits_zero_iff _ _ (by omega)] at h
  · cases m <;> simp only [frameAligned] at h <;> rw [lowBits_zero_iff _ _ (by omega)] at h <;> omega
  · rwa [frameAligned_piece, lowBits_zero_iff _ _ (by omega)] at h

/-- Keeping a leaf keeps the invariant of the four sets. -/
theorem Proc.keepLeaf_cachesOk {cfg p m la l d k1 k2} (hc : cfg.wf = true) (hp : p.cachesOk cfg = true)
    (hm : p.mode = some m) (hl : LeafOk cfg p m l) :
    (p.keepLeaf m la { l with dirty := d } k1 k2).cachesOk cfg = true := by
  rw [Proc.cachesOk_iff] at hp ⊢
  obtain ⟨b1, b2, b3, b4, b5, b6, b7, b8⟩ := hp
  have hmode := tagPossible_mode p m hm
  have hnd := Proc.keepLeaf_nodup p m la { l with dirty := d } k1 k2 b5
  have hmem := Proc.mem_keepLeaf p m la { l with dirty := d } k1 k2
  have hr := Proc.keepLeaf_rest p m la { l with dirty := d } k1 k2
  generalize p.keepLeaf m la { l with dirty := d } k1 k2 = q at *
  have key : (∀ e : TlbEntry, e.ok cfg q = e.ok cfg p) ∧ (∀ e : Pml4Entry, e.ok cfg q = e.ok cfg p) ∧
      (∀ e : PdpEntry, e.ok cfg q = e.ok cfg p) ∧ (∀ e : PdeEntry, e.ok cfg q = e.ok cfg p) := by
    rw [hr]
    exact ⟨fun _ => rfl, fun _ => rfl, fun _ => rfl, fun _ => rfl⟩
  obtain ⟨k1, k2, k3, k4⟩ := key
  refine ⟨?_, ?_, ?_, ?_, hnd, ?_, ?_, ?_⟩
  · intro e he
    rw [k1]
    rcases hmem e he with he | rfl | ⟨rfl, hlarge⟩
    · exact b1 e he
    · simp only [TlbEntry.ok, tlbEntryOf, hmode, hl.xd, Bool.true_and, Bool.and_true]
      have h1 := hl.lt
      rw [hl.al]
      cases hlarge : l.large <;> cases p.pge <;> rw [hlarge] at h1 <;>
        simp [h1, largePageNumber_lt, pageNumber_lt, TlbEntry.pieceInPlace,
          show (TlbKind.large != .ord4k) = true from rfl]
    · simp only [TlbEntry.ok, pieceEntryOf, hmode, hl.xd, Bool.true_and, Bool.and_true]
      simp only at hlarge
      have h3 := hl.lt
      have h4 := hl.al
      rw [hlarge] at h3 h4
      have h5 := piece_lt la hc h4 h3
      have h1 := frameAligned_mod hl.al
      have h2 := pieceOffset_mod m la
      have : frameAligned m .ordFromLarge (l.frame + pieceOffset m la) = true := by
        rw [frameAligned_piece, lowBits_zero_iff _ _ (by omega), BitVec.toNat_add]
        omega
      have h6 : (l.frame + pieceOffset m la).toNat <
          2 ^ addressWidth cfg m (TlbKind.ordFromLarge != TlbKind.ord4k) := h5
      rw [this]
      simp only [Bool.and_eq_true]
      exact ⟨⟨⟨⟨decide_eq_true (pageNumber_lt m .ordFromLarge la (by simp)), trivial⟩, decide_eq_true h6⟩,
        by cases p.pge <;> simp⟩, pieceEntryOf_inPlace p la { l with dirty := d } h4⟩
  all_goals rw [hr]
  · intro e he; exact b2 e he
  · intro e he; exact b3 e he
  · intro e he; exact b4 e he
  · exact b6
  · exact b7
  · exact b8

/-- An invalidation keeps the invariant of the four sets. -/
theorem Proc.invalidate_cachesOk {cfg} {p : Proc} (req x) (hp : p.cachesOk cfg = true) : (p.invalidate req
    x).cachesOk cfg = true := by
  rw [Proc.cachesOk_iff] at hp ⊢
  obtain ⟨b1, b2, b3, b4, b5, b6, b7, b8⟩ := hp
  exact ⟨fun e he => b1 e (removeWhere_mem _ _ _ _ he).1, fun e he => b2 e (removeWhere_mem _ _ _ _ he).1,
    fun e he => b3 e (removeWhere_mem _ _ _ _ he).1, fun e he => b4 e (removeWhere_mem _ _ _ _ he).1,
    b5.sublist (removeWhere_sublist _ _ _), b6.sublist (removeWhere_sublist _ _ _),
        b7.sublist (removeWhere_sublist _ _ _), b8.sublist (removeWhere_sublist _ _ _)⟩

/-- A processor that is good but for its access in progress. -/
theorem Proc.invalidate_ok {cfg} {p : Proc} (req x) (hp : p.ok cfg = true) : (p.invalidate req x).ok cfg
    = true := by
  rw [Proc.ok_iff] at hp ⊢
  exact ⟨hp.1, hp.2.1, Proc.invalidate_cachesOk _ _ hp.2.2.1, hp.2.2.2⟩

/-- A change of the caches that keeps their invariant keeps that of the processor. -/
theorem SameButCaches.ok {cfg} {p q : Proc} (h : SameButCaches q p) (hb : q.busy = p.busy) (hc :
    q.cachesOk cfg = true) (hp : p.ok cfg = true) : q.ok cfg = true := by
  rw [Proc.ok_iff] at hp ⊢
  unfold SameButCaches at h
  refine ⟨by rw [h]; exact hp.1, by rw [h]; exact hp.2.1, hc, ?_⟩
  rw [h, hb]; exact hp.2.2.2

/-- The root is a good partial translation (R135). -/
theorem rootPartial_ok {p m la t} (h : rootPartial p m la = some t) : Partial.ok p m t = true := by
  unfold rootPartial at h
  cases m <;> simp only at h
  · cases h
    simp only [Partial.ok, freshPartial, xdPossible]
    simp only [rootAddress]
    rw [(lowBits_zero_iff _ 12 (by omega)).mpr (shiftLeft_mod _ _ 12 (by omega) (by omega))]; rfl
  · split at h
    · cases h
      simp only [Partial.ok, freshPartial, xdPossible]
      rw [nextAddr_aligned]; rfl
    · cases h
  · cases h
    simp only [Partial.ok, freshPartial, xdPossible]
    simp only [rootAddress]
    rw [(lowBits_zero_iff _ 12 (by omega)).mpr (shiftLeft_mod _ _ 12 (by omega) (by omega))]; rfl

/-- Wherever a walk starts, it starts from a good partial translation. -/
theorem startPartial_ok {cfg p m la st t} (hc : p.cachesOk cfg = true) (h : startPartial p m la st = some t) :
    Partial.ok p m t = true := by
  rw [Proc.cachesOk_iff] at hc
  obtain ⟨b1, b2, b3, b4, -⟩ := hc
  unfold startPartial at h
  split at h
  · exact rootPartial_ok h
  · split at h
    · rename_i c hh
      cases h
      have := List.mem_of_getElem? hh
      simp only [pml4cFor, List.mem_filter, Bool.and_eq_true, beq_iff_eq] at this
      obtain ⟨h1, rfl, -⟩ := this
      have := b2 c h1
      simp only [Pml4Entry.ok, Bool.and_eq_true] at this
      simp [Partial.ok, Pml4Entry.partial', this.2]; exact beq_iff_eq.mp this.1.1.2
    · exact rootPartial_ok h
  · split at h
    · rename_i c hh
      cases h
      have := List.mem_of_getElem? hh
      simp only [pdpcFor, List.mem_filter, Bool.and_eq_true, beq_iff_eq] at this
      obtain ⟨h1, rfl, -⟩ := this
      have := b3 c h1
      simp only [PdpEntry.ok, Bool.and_eq_true] at this
      simp [Partial.ok, PdpEntry.partial', this.2]; exact beq_iff_eq.mp this.1.1.2
    · exact rootPartial_ok h
  · split at h
    · rename_i c hh
      cases h
      have := List.mem_of_getElem? hh
      simp only [pdecFor, List.mem_filter, Bool.and_eq_true, beq_iff_eq] at this
      obtain ⟨h1, rfl, -⟩ := this
      have := b4 c h1
      simp only [PdeEntry.ok, Bool.and_eq_true] at this
      simp [Partial.ok, PdeEntry.partial', this.2]; exact beq_iff_eq.mp this.1.1.2
    · exact rootPartial_ok h

end Sys2Proof.Machine
end

