-- ==== Sys2Proof/Laws/Entries.lean ====
section
/-! SUPPORT. What the paging structures say does not depend on accessed bits (R78, R136), and how the walk
of memory unfolds. -/

namespace Sys2Proof.Machine

/-- Memory differs only in accessed bits at entry addresses. -/
def AccessedSet (m : PMode) (mem mem' : Memory) : Prop :=
  ∀ a, mem'.read a = mem.read a ∨ (a % entrySize m = 0 ∧ mem'.read a = mem.read a ||| accessedByte)

/-- Such a change only sets accessed bits. -/
theorem AccessedSet.only {m mem mem'} (h : AccessedSet m mem mem') : OnlyAccessedSet mem mem' := fun a
    => (h a).imp id fun h => h.2

/-- Unchanged memory. -/
theorem AccessedSet.refl (m mem) : AccessedSet m mem mem := fun _ => .inl rfl

/-- Two such changes are one. -/
theorem AccessedSet.trans {m a b c} (h1 : AccessedSet m a b) (h2 : AccessedSet m b c) : AccessedSet m a
    c := by
  intro k
  rcases h1 k with e1 | ⟨m1, e1⟩ <;> rcases h2 k with e2 | ⟨m2, e2⟩
  · exact .inl (e2.trans e1)
  · exact .inr ⟨m2, by rw [e2, e1]⟩
  · exact .inr ⟨m1, e2.trans e1⟩
  · exact .inr ⟨m1, by rw [e2, e1, accessedByte_or_twice]⟩

/-- Setting the accessed bit of an aligned entry is such a change. -/
theorem setEntryBits_accessedSet (mem : Memory) (m : PMode) (a : PAddr) (hm : mem.wf) (ha : a.toNat %
    entrySize m = 0) : AccessedSet m mem (setEntryBits mem m a accessedMask) := by
  intro b
  rw [setEntryBits_read _ _ _ _ hm (by decide)]
  split
  · exact .inr ⟨by simp_all, rfl⟩
  · exact .inl rfl

/-- An entry is its first byte and the rest. -/
theorem readEntry_eq (mem : Memory) (m : PMode) (a : PAddr) :
    readEntry mem m a = BitVec.ofNat 64 ((mem.read a.toNat).toNat + 256 * mem.readLE (a.toNat + 1)
        (entrySize m - 1)) := by
  cases m <;> rfl

/-- Setting bits of the first byte. -/
theorem or_low_byte (x y k : Nat) (hx : x < 256) (hk : k < 256) : (x ||| k) + 256 * y = (x + 256 * y)
    ||| k := by
  have h1 := Nat.two_pow_add_eq_or_of_lt (i := 8) (b := x) hx y
  have hxk : x ||| k < 2 ^ 8 := Nat.or_lt_two_pow hx hk
  have h2 := Nat.two_pow_add_eq_or_of_lt (i := 8) (b := x ||| k) hxk y
  rw [Nat.add_comm, Nat.add_comm x, show 256 = 2 ^ 8 from rfl, h1, h2, Nat.or_assoc]

/-- An aligned entry is unchanged or has its accessed bit set. -/
theorem AccessedSet.entry_or {m mem mem'} (h : AccessedSet m mem mem') (a : PAddr) (ha : a.toNat %
    entrySize m = 0) :
    readEntry mem' m a = readEntry mem m a ∨ readEntry mem' m a = readEntry mem m a ||| accessedMask := by
  rw [readEntry_eq, readEntry_eq]
  have rest : mem'.readLE (a.toNat + 1) (entrySize m - 1) = mem.readLE (a.toNat + 1) (entrySize m - 1)
      := by
    apply Memory.readLE_congr
    intro k hk
    rcases h (a.toNat + 1 + k) with e | ⟨hm, -⟩
    · exact e
    · exfalso
      cases m <;> simp only [entrySize] at * <;> omega
  rw [rest]
  rcases h a.toNat with e | ⟨-, e⟩
  · left; rw [e]
  · right
    rw [e, BitVec.toNat_or, or_low_byte _ _ _ (BitVec.isLt _) (by decide)]
    apply BitVec.eq_of_toNat_eq
    simp only [BitVec.toNat_ofNat, BitVec.toNat_or]
    rw [Nat.or_mod_two_pow]; rfl

/-- A range of bits above bit 5 does not contain it. -/
theorem bitRange_accessed (hi lo : Nat) (h : 5 < lo) : (bitRange hi lo).getLsbD 5 = false := by
  unfold bitRange
  rw [BitVec.getLsbD_ofNat]
  have : (2 ^ (hi + 1) - 2 ^ lo).testBit 5 = false := by
    by_cases hl : lo ≤ hi + 1
    · have e : 2 ^ (hi + 1) - 2 ^ lo = 2 ^ lo * (2 ^ (hi + 1 - lo) - 1) := by
        rw [Nat.mul_sub, ← Nat.pow_add, Nat.mul_one]; congr 2; omega
      rw [e, Nat.testBit_two_pow_mul]
      simp; omega
    · rw [Nat.sub_eq_zero_of_le (Nat.pow_le_pow_right (by omega) (by omega))]; simp
  simp [this]

/-- The accessed bit is in no set of refused bits (R82). -/
theorem refusedBits_accessed (cfg nxe m level large) (hc : cfg.wf = true) : (refusedBits cfg nxe m level
    large).getLsbD 5 = false := by
  have hM : 32 ≤ cfg.maxPhyAddr := by
    simp only [Config.wf, Bool.and_eq_true, decide_eq_true_eq] at hc; exact hc.1.1.1
  have ite (c : Prop) [Decidable c] (x y : Entry) (hx : x.getLsbD 5 = false) (hy : y.getLsbD 5 = false)
      : (if c then x else y).getLsbD 5 = false := by
    split <;> assumption
  have leaf : (leafReserved level large).getLsbD 5 = false := by
    unfold leafReserved
    rw [BitVec.getLsbD_or, ite _ _ _ (bitRange_accessed _ _ (by omega)) rfl,
        ite _ _ _ (bitRange_accessed _ _ (by omega)) rfl]; rfl
  have nx : (nxeReserved nxe).getLsbD 5 = false := ite _ _ _ rfl (bitRange_accessed _ _ (by omega))
  cases m <;> simp only [refusedBits]
  · rw [BitVec.getLsbD_or, ite _ _ _ (bitRange_accessed _ _ (by omega)) rfl]
    refine ite _ _ _ ?_ rfl
    rw [BitVec.getLsbD_or, BitVec.getLsbD_or, bitRange_accessed _ _ (by omega),
        bitRange_accessed _ _ (by omega),
        ite _ _ _ (bitRange_accessed _ _ (by omega)) (bitRange_accessed _ _ (by omega))]; rfl
  · simp only [BitVec.getLsbD_or, leaf, nx]
    rw [bitRange_accessed _ _ (by omega), bitRange_accessed _ _ (by omega)]; rfl
  · simp only [BitVec.getLsbD_or, leaf, nx]
    rw [bitRange_accessed _ _ (by omega), bitRange_accessed _ _ (by omega)]; rfl

/-- A mask without bit 5 does not see the accessed bit. -/
theorem or_accessed_and (e R : Entry) (h : R.getLsbD 5 = false) : (e ||| accessedMask) &&& R = e &&& R
    := by
  apply BitVec.eq_of_getLsbD_eq
  intro i hi
  simp only [BitVec.getLsbD_and, BitVec.getLsbD_or]
  by_cases h5 : i = 5
  · subst h5; rw [h]; simp only [Bool.and_false]
  · have : accessedMask.getLsbD i = false := by
      unfold accessedMask
      interval_cases i <;> first | rfl | exact absurd rfl h5
    simp [this]

/-- Another bit does not see the accessed bit. -/
theorem getLsbD_or_accessed (e : Entry) (k : Nat) (h : accessedMask.getLsbD k = false) : (e |||
    accessedMask).getLsbD k = e.getLsbD k := by
  simp [h]

/-- A field without bit 5 does not see the accessed bit. -/
theorem extractLsb_or_accessed (e : Entry) (s l : Nat) (h : accessedMask.extractLsb' s l = 0) : (e |||
    accessedMask).extractLsb' s l = e.extractLsb' s l := by
  rw [BitVec.extractLsb'_or, h]; simp

/-- What an entry is to a walk does not depend on its accessed bit (R136). -/
theorem viewEntry_or_accessed (cfg p m t a e) (hc : cfg.wf = true) : viewEntry cfg p m t a (e |||
    accessedMask) = viewEntry cfg p m t a e := by
  have b0 : presentBit (e ||| accessedMask) = presentBit e := getLsbD_or_accessed _ _ rfl
  have b1 : rwBit (e ||| accessedMask) = rwBit e := getLsbD_or_accessed _ _ rfl
  have b2 : usBit (e ||| accessedMask) = usBit e := getLsbD_or_accessed _ _ rfl
  have b6 : dirtyBit (e ||| accessedMask) = dirtyBit e := getLsbD_or_accessed _ _ rfl
  have b7 : psBit (e ||| accessedMask) = psBit e := getLsbD_or_accessed _ _ rfl
  have b8 : globalBit (e ||| accessedMask) = globalBit e := getLsbD_or_accessed _ _ rfl
  have bx : xdBit m p.nxe (e ||| accessedMask) = xdBit m p.nxe e := by
    cases m <;> simp only [xdBit, getLsbD_or_accessed _ _ (show accessedMask.getLsbD 63 = false from rfl)]
  have bn : nextAddr m (e ||| accessedMask) = nextAddr m e := by
    cases m <;> simp only [nextAddr,
        extractLsb_or_accessed _ _ _ (show accessedMask.extractLsb' 12 20 = 0 from rfl),
        extractLsb_or_accessed _ _ _ (show accessedMask.extractLsb' 12 24 = 0 from rfl),
        extractLsb_or_accessed _ _ _ (show accessedMask.extractLsb' 12 40 = 0 from rfl)]
  have bl : largeFrame cfg m (e ||| accessedMask) = largeFrame cfg m e := by
    cases m <;> simp only [largeFrame,
        extractLsb_or_accessed _ _ _ (show accessedMask.extractLsb' 13 4 = 0 from rfl),
        extractLsb_or_accessed _ _ _ (show accessedMask.extractLsb' 22 10 = 0 from rfl),
        extractLsb_or_accessed _ _ _ (show accessedMask.extractLsb' 21 15 = 0 from rfl),
        extractLsb_or_accessed _ _ _ (show accessedMask.extractLsb' 21 31 = 0 from rfl)]
  have bm : ∀ l, mapsLarge p l (e ||| accessedMask) = mapsLarge p l e := by intro l; simp only
      [mapsLarge, b7]
  simp only [viewEntry, endsWalk, leafOf, extendPartial, b0, b1, b2, b6, b8, bx, bn, bl, bm,
      or_accessed_and _ _ (refusedBits_accessed cfg p.nxe m t.next _ hc)]
  congr!

/-- Entries are naturally aligned (R72). -/
theorem entryAddress_mod (m t la) (h : t.addr.toNat % 4096 = 0) : (entryAddress m t la).toNat %
    entrySize m = 0 := by
  have hB := t.addr.isLt
  have e4 : ∀ x y : PAddr, (x + y).toNat % 8 = (x.toNat + y.toNat) % 8 := by
    intro x y; rw [BitVec.toNat_add]; omega
  have e4' : ∀ x y : PAddr, (x + y).toNat % 4 = (x.toNat + y.toNat) % 4 := by
    intro x y; rw [BitVec.toNat_add]; omega
  unfold entryAddress
  cases m <;> simp only [entrySize]
  · rw [e4', BitVec.toNat_mul, show (BitVec.ofNat 52 4).toNat = 4 from rfl]; omega
  · rw [e4, BitVec.toNat_mul, show (BitVec.ofNat 52 8).toNat = 8 from rfl]; omega
  · rw [e4, BitVec.toNat_mul, show (BitVec.ofNat 52 8).toNat = 8 from rfl]; omega

/-- A walk sees the same entry before and after such a change. -/
theorem AccessedSet.view_eq {m mem mem'} (h : AccessedSet m mem mem') (cfg p t la) (hc : cfg.wf = true)
    (ht : t.addr.toNat % 4096 = 0) :
    viewEntry cfg p m t (entryAddress m t la) (readEntry mem' m (entryAddress m t la)) =
    viewEntry cfg p m t (entryAddress m t la) (readEntry mem m (entryAddress m t la)) := by
  rcases AccessedSet.entry_or h _ (entryAddress_mod m t la ht) with e | e
  · rw [e]
  · rw [e, viewEntry_or_accessed _ _ _ _ _ _ hc]

/-- A non-leaf entry leads to an aligned structure one level below (R136). -/
theorem viewEntry_next_aligned {cfg p m t a e t'} (h : viewEntry cfg p m t a e = .next t') :
    t'.addr.toNat % 4096 = 0 ∧ t.next ≠ .l1 ∧ t'.next = t.next.below := by
  unfold viewEntry at h
  split at h
  · cases h
  split at h
  · cases h
  split at h
  · cases h
  rename_i hend
  cases h
  exact ⟨nextAddr_mod _ _, by intro h; simp [endsWalk, h] at hend, rfl⟩

/-- The structures in memory say the same before and after such a change. -/
theorem AccessedSet.walk_eq {m mem mem'} (h : AccessedSet m mem mem') (cfg p la) (hc : cfg.wf = true)
    (n) : ∀ t, t.addr.toNat % 4096 = 0 →
    memoryWalkFrom cfg mem' p m la n t = memoryWalkFrom cfg mem p m la n t := by
  induction n with
  | zero => intro t _; rfl
  | succ n ih =>
    intro t ht
    simp only [memoryWalkFrom, AccessedSet.view_eq h _ _ _ _ hc ht]
    split
    · split <;> try rfl
      rename_i t' hv
      exact ih _ (viewEntry_next_aligned hv).1
    · rfl

/-- How many entries a walk has still to read at a level (R135). -/
def Level.rank : Level → Nat
  | .l1 => 1
  | .l2 => 2
  | .l3 => 3
  | .l4 => 4

/-- One fewer below. -/
theorem Level.rank_below (l : Level) (h : l ≠ .l1) : Level.rank l.below + 1 = Level.rank l := by cases l
    <;> first | rfl | exact absurd rfl h

/-- At least one. -/
theorem Level.rank_pos (l) : 0 < Level.rank l := by cases l <;> decide

/-- At most four. -/
theorem Level.rank_le (l) : Level.rank l ≤ 4 := by cases l <;> decide

/-- A walk that may read as many entries as its level asks for needs no more. -/
theorem memoryWalkFrom_fuel (cfg mem p m la) (n k : Nat) : ∀ t,
    Level.rank t.next ≤ n → Level.rank t.next ≤ k →
    memoryWalkFrom cfg mem p m la n t = memoryWalkFrom cfg mem p m la k t := by
  induction n generalizing k with
  | zero => intro t h; have := Level.rank_pos t.next; omega
  | succ n ih =>
    intro t h1 h2
    cases k with
    | zero => have := Level.rank_pos t.next; omega
    | succ k =>
      simp only [memoryWalkFrom]
      split
      · split <;> try rfl
        rename_i t' hv
        obtain ⟨-, h3, h4⟩ := viewEntry_next_aligned hv
        have := Level.rank_below _ h3
        exact ih _ _ (by rw [h4]; omega) (by rw [h4]; omega)
      · rfl

/-- The dirty indication of a leaf is the bit of the entry it was read from. -/
theorem memoryWalkFrom_leaf_dirty {cfg mem p m la l} (n) : ∀ t,
    memoryWalkFrom cfg mem p m la n t = .leaf l → l.dirty = dirtyBit (readEntry mem m l.entry) := by
  induction n with
  | zero => intro t h; cases h
  | succ n ih =>
    intro t h
    simp only [memoryWalkFrom] at h
    split at h
    · split at h
      · cases h
      · cases h
      · rename_i l' hv
        cases h
        unfold viewEntry at hv
        split at hv
        · cases hv
        split at hv
        · cases hv
        split at hv
        · cases hv; rfl
        · cases hv
      · exact ih _ h
    · cases h

/-- A walk step does not depend on the caches. -/
theorem SameButCaches.view_eq {q p : Proc} (h : SameButCaches q p) (cfg m t a e) : viewEntry cfg q m t a
    e = viewEntry cfg p m t a e := by
  unfold SameButCaches at h; rw [h]; rfl

/-- What memory says does not depend on the caches. -/
theorem SameButCaches.walkFrom_eq {q p : Proc} (h : SameButCaches q p) (cfg mem m la n) : ∀ t,
    memoryWalkFrom cfg mem q m la n t = memoryWalkFrom cfg mem p m la n t := by
  induction n with
  | zero => intro; rfl
  | succ n ih => intro t; simp only [memoryWalkFrom, SameButCaches.view_eq h, ih]

/-- The root does not depend on the caches. -/
theorem SameButCaches.root_eq {q p : Proc} (h : SameButCaches q p) (m la) : rootPartial q m la =
    rootPartial p m la := by
  unfold SameButCaches at h; rw [h]; rfl

/-- What memory says does not depend on the caches. -/
theorem SameButCaches.walk_eq {q p : Proc} (h : SameButCaches q p) (cfg mem m la) : memoryWalk cfg mem q
    m la = memoryWalk cfg mem p m la := by
  simp only [memoryWalk, SameButCaches.root_eq h, SameButCaches.walkFrom_eq h]

/-- The walk of memory, one entry at a time. -/
theorem memoryWalkFrom_eq {cfg mem p m la} (t : Partial) (hr : reaches cfg (entryAddress m t la).toNat
    (entrySize m) = true) :
    memoryWalkFrom cfg mem p m la 4 t = match viewEntry cfg p m t (entryAddress m t la) (readEntry mem m
        (entryAddress m t la)) with
      | .notPresent => .notPresent
      | .refused => .refused
      | .leaf l => .leaf l
      | .next t' => memoryWalkFrom cfg mem p m la 4 t' := by
  rw [memoryWalkFrom]
  simp only [hr, if_true]
  cases hv : viewEntry cfg p m t (entryAddress m t la) (readEntry mem m (entryAddress m t la)) with
  | next t' =>
    obtain ⟨-, h3, h4⟩ := viewEntry_next_aligned hv
    have := Level.rank_below _ h3
    have := Level.rank_le t.next
    exact memoryWalkFrom_fuel _ _ _ _ _ _ _ _ (by rw [h4]; omega) (by rw [h4]; omega)
  | _ => rfl

end Sys2Proof.Machine
end

