-- ==== Sys2Proof/Laws/Agreement.lean ====
section
/-! SUPPORT. An access whose address no stale entry applies to goes where the structures in memory say
(R41, R230): the invariant of its steps, and that it ends. -/

namespace Sys2Proof.Machine

/-- A TLB entry gives what the walk's end says. -/
def TlbAgrees (W : WalkEnd) (m : PMode) (la : LAddr) (e : TlbEntry) : Prop := ∃ l,
    W = .leaf l ∧ e.agrees m la l

/-- The entries of `q` that apply to `la` give the end `W` of the walk of memory. -/
structure CachesAgree (cfg : Config) (mem0 : Memory) (p0 : Proc) (m : PMode) (la : LAddr) (W : WalkEnd)
    (q : Proc) : Prop where
  tlb : ∀ e ∈ tlbFor q m la, TlbAgrees W m la e
  pml4c : ∀ c ∈ pml4cFor q m la, c.addr.toNat % 4096 = 0 ∧ memoryWalkFrom cfg mem0 p0 m la 4 c.partial'
      = W
  pdpc : ∀ c ∈ pdpcFor q m la, c.addr.toNat % 4096 = 0 ∧ memoryWalkFrom cfg mem0 p0 m la 4 c.partial' = W
  pdec : ∀ c ∈ pdecFor q m la, c.addr.toNat % 4096 = 0 ∧ memoryWalkFrom cfg mem0 p0 m la 4 c.partial' = W

/-- Memory of a write after its leaf. -/
def DirtyWritten (l : Leaf) (mem mem' : Memory) : Prop :=
  (∀ b, b ≠ l.entry.toNat → mem'.read b = mem.read b ∨ mem'.read b = mem.read b ||| accessedByte) ∧
  (mem'.read l.entry.toNat = mem.read l.entry.toNat ||| dirtyByte ∨ mem'.read l.entry.toNat = mem.read
      l.entry.toNat ||| accessedByte ||| dirtyByte)

/-- How far an access has gone whose address no stale entry applies to. -/
structure Agreeing (s0 : State) (p0 : Proc) (m : PMode) (a0 : Access) (W : WalkEnd) (a : Access) (s :
    State) : Prop where
  went : Went s0 p0 m a0 a s
  acc : (a.kind ≠ .write ∨ ∀ pa, a.phase ≠ .translated pa) → AccessedSet m s0.mem s.mem
  caches : (a.kind ≠ .write ∨ ∀ pa, a.phase ≠ .translated pa) → ∀ q,
      s.proc? = some q → CachesAgree s0.config s0.mem p0 m a0.la W q
  walk : ∀ t d, a.phase = .walk t d →
      t.addr.toNat % 4096 = 0 ∧ memoryWalkFrom s0.config s0.mem p0 m a0.la 4 t = W ∧ (d = true →
      a.mustCommit = false)
  there : ∀ pa, a.phase = .translated pa → ∃ l,
      W = .leaf l ∧ pa = leafAddress m l a0.la ∧ allowed p0.wp a.kind a.cpl l.rw l.us l.xd = true ∧
    (a.kind = .write → DirtyWritten l s0.mem s.mem)

/-- What a step sees, the walk of memory sees. -/
theorem Agreeing.sees {s0 p0 m a0 W a s q t d seen} (hc : s0.config.wf = true) (h : Agreeing s0 p0 m a0
    W a s) (hq : s.proc? = some q) (hph : a.phase = .walk t d)
    (hs : Sees a q m t s seen) :
    W = match seen with
      | .notPresent => .notPresent
      | .refused => .refused
      | .leaf l => .leaf l
      | .next t' => memoryWalkFrom s0.config s0.mem p0 m a0.la 4 t' := by
  obtain ⟨q', hq', hsame, -, -⟩ := h.went.proc
  rw [hq] at hq'; cases hq'
  obtain ⟨ht, hw, -⟩ := h.walk t d hph
  obtain ⟨hr, hv⟩ := hs
  rw [h.went.config, h.went.fields.2.1] at hr hv
  rw [SameButCaches.view_eq hsame, AccessedSet.view_eq (h.acc (.inr (by simp [hph]))) _ _ _ _ hc ht] at hv
  rw [← hw, memoryWalkFrom_eq t hr, hv]
  cases seen <;> rfl

/-- A further structure that a step sees ends as the walk does. -/
theorem Agreeing.sees_next {s0 p0 m a0 W a s q t d t'} (hc : s0.config.wf = true) (h : Agreeing s0 p0 m
    a0 W a s) (hq : s.proc? = some q) (hph : a.phase = .walk t d)
    (hs : Sees a q m t s (.next t')) : t'.addr.toNat % 4096 = 0 ∧ memoryWalkFrom s0.config s0.mem p0 m
        a0.la 4 t' = W :=
  ⟨(viewEntry_next_aligned hs.2).1, (h.sees hc hq hph hs).symm⟩

/-- A step outside the populated range is one of the walk. -/
theorem Agreeing.outside {s0 p0 m a0 W a s t d} (h : Agreeing s0 p0 m a0 W a s) (hph : a.phase = .walk t
    d)
    (hr : reaches s.config (entryAddress m t a.la).toNat (entrySize m) = false) : W = .outside := by
  obtain ⟨ht, hw, -⟩ := h.walk t d hph
  rw [h.went.config, h.went.fields.2.1] at hr
  rw [← hw, memoryWalkFrom]
  simp [hr]

/-- Keeping a partial translation of the walk. -/
theorem CachesAgree.partial_kept {cfg mem0 p0 m la W q t'} (h : CachesAgree cfg mem0 p0 m la W q) (ha :
    t'.addr.toNat % 4096 = 0)
    (hw : memoryWalkFrom cfg mem0 p0 m la 4 t' = W) : CachesAgree cfg mem0 p0 m la W (q.keepPartial m la
        t') := by
  have w3 : ∀ n, t'.next = n → memoryWalkFrom cfg mem0 p0 m la 4 ⟨n, t'.addr, t'.rw, t'.us,
      t'.xd⟩ = W := by
    rintro n rfl; exact hw
  refine ⟨?_, ?_, ?_, ?_⟩
  · have : tlbFor (q.keepPartial m la t') m la = tlbFor q m la := by simp only [tlbFor,
      Proc.keepPartial_tlb]
    rw [this]; exact h.tlb
  · intro c hc
    simp only [pml4cFor, List.mem_filter] at hc
    rcases Proc.mem_keepPartial_pml4c _ _ _ _ _ hc.1 with hc' | ⟨hn, rfl⟩
    · exact h.pml4c c (by simp only [pml4cFor, List.mem_filter]; exact ⟨hc', hc.2⟩)
    · exact ⟨ha, w3 _ hn⟩
  · intro c hc
    simp only [pdpcFor, List.mem_filter] at hc
    rcases Proc.mem_keepPartial_pdpc _ _ _ _ _ hc.1 with hc' | ⟨hn, rfl⟩
    · exact h.pdpc c (by simp only [pdpcFor, List.mem_filter]; exact ⟨hc', hc.2⟩)
    · exact ⟨ha, w3 _ hn⟩
  · intro c hc
    simp only [pdecFor, List.mem_filter] at hc
    rcases Proc.mem_keepPartial_pdec _ _ _ _ _ hc.1 with hc' | ⟨hn, rfl⟩
    · exact h.pdec c (by simp only [pdecFor, List.mem_filter]; exact ⟨hc', hc.2⟩)
    · exact ⟨ha, w3 _ hn⟩

/-- A piece of a large page translates as the page does (R286). -/
theorem pieceEntryOf_translates (p : Proc) (m : PMode) (la : LAddr) (l : Leaf) :
    frameAddress m .ordFromLarge (pieceEntryOf p m la l).frame la = frameAddress m .large l.frame la := by
  simp only [frameAddress, pieceEntryOf]
  rw [BitVec.add_assoc]
  congr 1
  apply BitVec.eq_of_toNat_eq
  have ext : ∀ a b : Nat, (la.extractLsb' a b).toNat = la.toNat / 2 ^ a % 2 ^ b := fun a b => by
    simp [BitVec.extractLsb'_toNat, Nat.shiftRight_eq_div_pow]
  cases m <;>
    simp only [pieceOffset, pageOffset, largeOffset, BitVec.toNat_add, BitVec.toNat_shiftLeft,
      BitVec.toNat_setWidth, ext, Nat.shiftLeft_eq] <;> omega

/-- Keeping the leaf of the walk. -/
theorem CachesAgree.leaf_kept {cfg mem0 p0 m la q l k1 k2} (d : Bool) (hd : d = true →
    l.dirty = true) (h : CachesAgree cfg mem0 p0 m la (.leaf l) q) :
    CachesAgree cfg mem0 p0 m la (.leaf l) (q.keepLeaf m la { l with dirty := d } k1 k2) := by
  have hr := Proc.keepLeaf_rest q m la { l with dirty := d } k1 k2
  refine ⟨?_, ?_, ?_, ?_⟩
  · intro e he
    simp only [tlbFor, List.mem_filter] at he
    rcases Proc.mem_keepLeaf _ _ _ _ _ _ _ he.1 with he' | rfl | ⟨rfl, hl⟩
    · exact h.tlb e (by simp only [tlbFor, List.mem_filter]; exact ⟨he', he.2⟩)
    · exact ⟨l, rfl, rfl, rfl, rfl, rfl, hd⟩
    · refine ⟨l, rfl, ?_, rfl, rfl, rfl, hd⟩
      simp only at hl
      simp only [leafAddress, hl, if_true]
      exact pieceEntryOf_translates q m la l
  · rw [hr]; exact h.pml4c
  · rw [hr]; exact h.pdpc
  · rw [hr]; exact h.pdec

/-- Wherever the walk starts, it ends as memory says. -/
theorem CachesAgree.started {cfg mem0 p0 m la W q st t} (h : CachesAgree cfg mem0 p0 m la W q) (hs :
    SameButCaches q p0)
    (hW : W = memoryWalk cfg mem0 p0 m la) (ht : startPartial q m la st = some t) :
    t.addr.toNat % 4096 = 0 ∧ memoryWalkFrom cfg mem0 p0 m la 4 t = W := by
  have root : rootPartial q m la = some t →
      t.addr.toNat % 4096 = 0 ∧ memoryWalkFrom cfg mem0 p0 m la 4 t = W := by
    intro h
    have h1 := rootPartial_ok h
    simp only [Partial.ok, Bool.and_eq_true] at h1
    refine ⟨(lowBits_zero_iff _ 12 (by omega)).mp h1.1.1, ?_⟩
    rw [SameButCaches.root_eq hs] at h
    rw [hW, memoryWalk, h]
  unfold startPartial at ht
  split at ht
  · exact root ht
  · split at ht
    · rename_i c hc
      cases ht
      exact h.pml4c c (List.mem_of_getElem? hc)
    · exact root ht
  · split at ht
    · rename_i c hc
      cases ht
      exact h.pdpc c (List.mem_of_getElem? hc)
    · exact root ht
  · split at ht
    · rename_i c hc
      cases ht
      exact h.pdec c (List.mem_of_getElem? hc)
    · exact root ht

/-- A walk without a root ends not present (R321). -/
theorem startPartial_none_agrees {cfg mem0 p0 m la W q st} (hs : SameButCaches q p0)
    (hW : W = memoryWalk cfg mem0 p0 m la) (ht : startPartial q m la st = none) : W = .notPresent := by
  have root : rootPartial q m la = none → W = .notPresent := by
    intro h
    rw [SameButCaches.root_eq hs] at h
    rw [hW, memoryWalk, h]
  unfold startPartial at ht
  split at ht
  · exact root ht
  all_goals
    split at ht
    · cases ht
    · exact root ht

/-- Whichever TLB entry is used. -/
theorem CachesAgree.hit {cfg mem0 p0 m la W q hit e} (h : CachesAgree cfg mem0 p0 m la W q) (he :
    chosenHit q m la hit = some e) : TlbAgrees W m la e := by
  unfold chosenHit at he
  split at he
  · cases he
  · exact h.tlb e (List.mem_of_getElem? he)

/-- Setting the dirty bit of a byte that has it. -/
theorem or_dirtyByte (b : Byte) (h : b.getLsbD 6 = true) : b ||| dirtyByte = b := by
  apply BitVec.eq_of_getLsbD_eq
  intro i hi
  rw [BitVec.getLsbD_or]
  by_cases h6 : i = 6
  · subst h6; rw [h]; rfl
  · have : dirtyByte.getLsbD i = false := by
      unfold dirtyByte
      interval_cases i <;> first | rfl | exact absurd rfl h6
    rw [this]; simp

/-- The dirty bit lies in the first byte of an entry. -/
theorem dirtyBit_readEntry (mem : Memory) (m a) (h : dirtyBit (readEntry mem m a) = true) : (mem.read
    a.toNat).getLsbD 6 = true := by
  rw [readEntry_eq, dirtyBit, BitVec.getLsbD_ofNat] at h
  simp only [show (6 < 64) = True by simp, decide_true, Bool.true_and] at h
  have h2 := Nat.two_pow_add_eq_or_of_lt (i := 8) (b := (mem.read a.toNat).toNat) (mem.read
      a.toNat).isLt (mem.readLE (a.toNat + 1) (entrySize m - 1))
  rw [Nat.add_comm, show 256 = 2 ^ 8 from rfl, h2, Nat.testBit_or, Nat.testBit_two_pow_mul] at h
  rw [BitVec.getLsbD]
  simpa using h

/-- The dirty indication of a leaf is the bit of the entry it was read from. -/
theorem memoryWalk_leaf_dirty {cfg mem p m la l} (h : memoryWalk cfg mem p m la = .leaf l) : l.dirty =
    dirtyBit (readEntry mem m l.entry) := by
  unfold memoryWalk at h
  split at h
  · cases h
  · exact memoryWalkFrom_leaf_dirty _ _ h

/-- A leaf that is dirty already. -/
theorem DirtyWritten.of_dirty {m mem mem' l} (h : AccessedSet m mem mem') (hd : (mem.read
    l.entry.toNat).getLsbD 6 = true) : DirtyWritten l mem mem' := by
  refine ⟨fun b _ => h.only b, ?_⟩
  have hb := or_dirtyByte _ hd
  rcases h.only l.entry.toNat with e | e
  · left; rw [e, hb]
  · right; rw [e]
    rw [BitVec.or_assoc, BitVec.or_comm accessedByte, ← BitVec.or_assoc, hb]

/-- The committing step of a write at its leaf (R142). -/
theorem DirtyWritten.of_set {m} {mem mem' : Memory} {a : PAddr} {l : Leaf} (h : AccessedSet m mem mem')
    (hl : l.entry = a) (hm : mem'.wf) :
    DirtyWritten l mem (setEntryBits mem' m a accessedDirtyMask) := by
  subst hl
  constructor
  · intro b hb
    rw [setEntryBits_read _ _ _ _ hm (by decide), if_neg hb]
    exact h.only b
  · right
    rw [setEntryBits_read _ _ _ _ hm (by decide), if_pos rfl]
    have : (BitVec.ofNat 8 accessedDirtyMask.toNat : Byte) = accessedByte ||| dirtyByte := by decide
    rw [this]
    rcases h.only l.entry.toNat with e | e
    · rw [e, BitVec.or_assoc]
    · rw [e, ← BitVec.or_assoc, accessedByte_or_twice]

/-- The address of the leaf that a step sees. -/
theorem Sees.leaf_entry {a p m t s l} (h : Sees a p m t s (.leaf l)) : l.entry = entryAddress m t a.la
    := by
  have hv := h.2
  unfold viewEntry at hv
  split at hv
  · cases hv
  split at hv
  · cases hv
  split at hv
  · cases hv; rfl
  · cases hv

/-- Drawing a choice changes nothing that matters. -/
theorem Agreeing.drawn {s0 p0 m a0 W a s} (h : Agreeing s0 p0 m a0 W a s) : Agreeing s0 p0 m a0 W a
    s.drawn :=
  ⟨h.went.drawn, by rw [State.drawn_mem]; exact h.acc, by rw [State.drawn_proc?]; exact h.caches,
      h.walk, by rw [State.drawn_mem]; exact h.there⟩

/-- Each way of going on. -/
theorem Agreeing.goesOn {s0 p0 m a0 W a s q a' s' c} (hc : s0.config.wf = true) (hwf0 : s0.mem.wf) (hW :
    W = memoryWalk s0.config s0.mem p0 m a0.la)
    (h : Agreeing s0 p0 m a0 W a s) (hq : s.proc? = some q)
    (hg : GoesOn a c q m s a' s') : Agreeing s0 p0 m a0 W a' s' := by
  have hw' := h.went.goesOn hq hg
  obtain ⟨q', hq', hsame, -, -⟩ := h.went.proc
  rw [hq] at hq'; cases hq'
  have hla := h.went.fields.2.1
  have hwf := (h.went.mem hwf0).1
  cases hg with
  | start t hph ht =>
    have hn : ∀ pa, a.phase ≠ .translated pa := by simp [hph]
    have hcg := h.caches (.inr hn) q hq
    rw [hla] at ht
    obtain ⟨h1, h2⟩ := CachesAgree.started hcg hsame hW ht
    exact ⟨hw', fun _ => h.acc (.inr hn), fun _ => h.caches (.inr hn),
        fun t' d hp => by simp at hp; obtain ⟨rfl, rfl⟩ := hp; exact ⟨h1, h2, by simp⟩,
        fun pa hp => by simp at hp⟩
  | hit e hph he hok hd =>
    have hn : ∀ pa, a.phase ≠ .translated pa := by simp [hph]
    have hcg := h.caches (.inr hn) q hq
    rw [hla] at he
    obtain ⟨l, hWl, hfr, hrw, hus, hxd, hdd⟩ := CachesAgree.hit hcg he
    refine ⟨hw', fun _ => h.acc (.inr hn), fun _ => h.caches (.inr hn), fun t' d hp => by simp at hp,
        fun pa hp => ?_⟩
    simp only [Phase.translated.injEq] at hp
    refine ⟨l, hWl, by rw [← hp, hla]; exact hfr, ?_, fun hk => ?_⟩
    · simp only; rw [← SameButCaches.wp hsame, ← hrw, ← hus, ← hxd]; exact hok
    · have h1 := hdd (hd hk)
      rw [memoryWalk_leaf_dirty (hW.symm.trans hWl)] at h1
      exact DirtyWritten.of_dirty (h.acc (.inr hn)) (dirtyBit_readEntry _ _ _ h1)
  | dry t t' d hph hs hm =>
    have hn : ∀ pa, a.phase ≠ .translated pa := by simp [hph]
    obtain ⟨h1, h2⟩ := h.sees_next hc hq hph hs
    have h3 := (h.walk t d hph).2.2
    refine ⟨hw', fun _ => h.acc (.inr hn), fun _ => h.caches (.inr hn), fun t'' d' hp => ?_,
        fun pa hp => by simp at hp⟩
    simp at hp; obtain ⟨rfl, rfl⟩ := hp
    refine ⟨h1, h2, fun _ => ?_⟩
    rcases hm with rfl | hm
    · exact h3 rfl
    · exact hm
  | again t d l hph hs hok hd hm =>
    have hn : ∀ pa, a.phase ≠ .translated pa := by simp [hph]
    exact ⟨hw', fun _ => h.acc (.inr hn), fun _ => h.caches (.inr hn), fun t'' d' hp => by simp at hp,
        fun pa hp => by simp at hp⟩
  | extend t t' hph hs =>
    have hn : ∀ pa, a.phase ≠ .translated pa := by simp [hph]
    obtain ⟨h1, h2⟩ := h.sees_next hc hq hph hs
    have hal := (h.walk t false hph).1
    have hacc : AccessedSet m s0.mem (extendedState a c q m (entryAddress m t a.la) t' s).mem := by
      have : (extendedState a c q m (entryAddress m t a.la) t' s).mem = setEntryBits s.mem m
          (entryAddress m t a.la) accessedMask := by
        unfold extendedState; simp only; split <;> rfl
      rw [this]
      exact (h.acc (.inr hn)).trans (setEntryBits_accessedSet _ _ _ hwf (entryAddress_mod _ _ _ hal))
    refine ⟨hw', fun _ => hacc, fun _ q2 hq2 => ?_, fun t'' d' hp => ?_, fun pa hp => by simp at hp⟩
    · have hcg := h.caches (.inr hn) q hq
      unfold extendedState at hq2
      simp only at hq2
      split at hq2
      · rw [State.setProc_proc? _ _ (by simpa using hq)] at hq2
        cases hq2
        rw [hla]
        exact CachesAgree.partial_kept hcg h1 h2
      · simp only [State.setMem_proc?] at hq2
        rw [hq] at hq2; cases hq2
        exact hcg
    · simp at hp; obtain ⟨rfl, rfl⟩ := hp
      exact ⟨h1, h2, by simp⟩
  | leaf t l hph hs hok =>
    have hn : ∀ pa, a.phase ≠ .translated pa := by simp [hph]
    have hWl := h.sees hc hq hph hs
    simp only at hWl
    have hal := (h.walk t false hph).1
    refine ⟨hw', fun hk => ?_, fun hk q2 hq2 => ?_, fun t'' d' hp => by simp at hp, fun pa hp => ?_⟩
    · have hk : a.kind ≠ .write := by simpa using hk
      have : leafWrites a q l = false := by simp [leafWrites, hk]
      simp only [leafState, State.setProc_mem, State.setMem_mem, this, Bool.false_eq_true, if_false]
      exact (h.acc (.inr hn)).trans (setEntryBits_accessedSet _ _ _ hwf (entryAddress_mod _ _ _ hal))
    · have hk : a.kind ≠ .write := by simpa using hk
      have hcg := h.caches (.inr hn) q hq
      unfold leafState at hq2
      rw [State.setProc_proc? _ _ (by simpa using hq)] at hq2
      cases hq2
      rw [hla]
      rw [hWl] at hcg ⊢
      exact CachesAgree.leaf_kept _ (by simp [leafWrites, hk]) hcg
    · simp only [Phase.translated.injEq] at hp
      refine ⟨l, hWl, by rw [← hp, ← hla]; rfl, ?_, fun hk => ?_⟩
      · simp only; rw [← SameButCaches.wp hsame]; exact hok
      · have : leafWrites a q l = true := by
          have hk : a.kind = .write := hk
          simp [leafWrites, hk, hk ▸ hok]
        simp only [leafState, State.setProc_mem, State.setMem_mem, this, if_true]
        exact DirtyWritten.of_set (h.acc (.inr hn)) (Sees.leaf_entry hs) hwf

/-- How many more steps an access can take. -/
def stepsLeft (a : Access) : Nat :=
  match a.phase with
  | .begin => if a.mustCommit then 6 else 11
  | .walk t _ => Level.rank t.next + (if a.mustCommit then 1 else 6)
  | .translated _ => 1

/-- An access that no other agent interrupts ends: its steps left go down with each step. -/
theorem runAccess_completes {Q : Access → State → Prop} {R : Result → Prop} {m : PMode}
    (hproc : ∀ a s, Q a s → ∃ q, s.proc? = some q ∧ q.mode = some m)
    (hwalk : ∀ a s t d, Q a s → a.phase = .walk t d → (d = true → a.mustCommit = false))
    (hdraw : ∀ a s, Q a s → Q a s.drawn)
    (hmore : ∀ a c s q a' s', Q a s → s.proc? = some q → GoesOn a c q m s a' s' → Q a' s')
    (hdone : ∀ a c s q r, Q a s → s.proc? = some q → Ends a c q m s r → R r) :
    ∀ fuel a s, Q a s → stepsLeft a ≤ fuel → fuel ≤ s.choices.length → (∀ c ∈ s.choices,
        c.pause = false) → R (runAccess fuel a s) := by
  intro fuel
  induction fuel with
  | zero =>
    intro a s _ h
    exfalso
    unfold stepsLeft at h
    split at h
    · split at h <;> omega
    · rename_i t d _; have := Level.rank_pos t.next; omega
    · omega
  | succ fuel ih =>
    intro a s hQ hf hl hp
    obtain ⟨q, hq, hm⟩ := hproc a s hQ
    unfold runAccess
    rw [State.withProc_eq _ _ _ hq]
    simp only [hm]
    have hch : s.choice.pause = false := by
      cases hc : s.choices with
      | nil => rw [hc] at hl; simp at hl
      | cons c cs => rw [State.choice_of_cons _ _ _ hc]; exact hp c (by rw [hc]; simp)
    rw [hch]
    simp only [Bool.and_false, Bool.false_eq_true, if_false]
    rcases accessStep_spec a s.choice q m s.drawn with ⟨a', s', he, hg⟩ | ⟨r, he, hr⟩
    · rw [he]
      have hQ' := hmore a s.choice s.drawn q a' s' (hdraw a s hQ) (by simpa using hq) hg
      have hw := hwalk a s
      have hlen : s'.choices = s.drawn.choices := by
        cases hg <;> try rfl
        unfold extendedState; simp only; split <;> rfl
      rw [State.drawn_choices] at hlen
      have hrest : ∀ c ∈ s'.choices, c.pause = false := by
        rw [hlen]
        exact fun c hc => hp c (List.mem_of_mem_tail hc)
      refine ih a' s' hQ' ?_ (by rw [hlen, List.length_tail]; omega) hrest
      cases hg with
      | start t hph ht =>
        have := Level.rank_le t.next
        simp only [stepsLeft, hph] at hf ⊢
        split at hf <;> simp_all <;> omega
      | hit e hph => simp only [stepsLeft, hph] at hf ⊢; split at hf <;> omega
      | dry t t' d hph hs hm' =>
        obtain ⟨-, h3, h4⟩ := viewEntry_next_aligned hs.2
        have := Level.rank_below _ h3
        simp only [stepsLeft, hph, h4] at hf ⊢
        omega
      | extend t t' hph hs =>
        obtain ⟨-, h3, h4⟩ := viewEntry_next_aligned hs.2
        have := Level.rank_below _ h3
        simp only [stepsLeft, hph, h4] at hf ⊢
        omega
      | leaf t l hph hs hok =>
        have := Level.rank_pos t.next
        simp only [stepsLeft, hph] at hf ⊢
        split at hf <;> omega
      | again t d l hph hs hok hd hm' =>
        have := Level.rank_pos t.next
        have hmc : a.mustCommit = false := by
          rcases hm' with rfl | h
          · exact hw t true hQ hph rfl
          · exact h
        simp only [stepsLeft, hph, hmc] at hf ⊢
        simp at hf ⊢; omega
    · rw [he]
      exact hdone a s.choice s.drawn q r (hdraw a s hQ) (by simpa using hq) hr

/-- An access that has not begun. -/
theorem Agreeing.begin {s p m a W} (hp : s.proc? = some p) (hph : a.phase = .begin) (hc : CachesAgree
    s.config s.mem p m a.la W p) : Agreeing s p m a W a s :=
  ⟨Went.start _ _ _ _ hp, fun _ => .refl _ _, fun _ q hq => by rw [hp] at hq; cases hq; exact hc,
      fun t d h => absurd (hph.symm.trans h) (by simp), fun pa h => absurd (hph.symm.trans h) (by simp)⟩

/-- No stale entry applies. -/
theorem CachesAgree.of_agreesWithMemory {cfg mem p m la} (hok : p.cachesOk cfg = true)
    (h : AgreesWithMemory cfg mem p m la) :
    CachesAgree cfg mem p m la (memoryWalk cfg mem p m la) p := by
  obtain ⟨h1, h2, h3, h4⟩ := h
  rw [Proc.cachesOk_iff] at hok
  obtain ⟨b1, b2, b3, b4, -⟩ := hok
  have al : ∀ a : PAddr, (a.extractLsb' 0 12 == 0) = true →
      a.toNat % 4096 = 0 := fun a => (lowBits_zero_iff a 12 (by omega)).mp
  refine ⟨fun e he => h1 e he, fun c hc => ⟨?_, h2 c hc⟩, fun c hc => ⟨?_, h3 c hc⟩, fun c hc => ⟨?_,
      h4 c hc⟩⟩
  · have := b2 c (List.mem_filter.mp hc).1
    simp only [Pml4Entry.ok, Bool.and_eq_true] at this; exact al _ this.1.1.2
  · have := b3 c (List.mem_filter.mp hc).1
    simp only [PdpEntry.ok, Bool.and_eq_true] at this; exact al _ this.1.1.2
  · have := b4 c (List.mem_filter.mp hc).1
    simp only [PdeEntry.ok, Bool.and_eq_true] at this; exact al _ this.1.1.2

/-- No entry applies at all. -/
theorem CachesAgree.of_noneApplies {cfg mem p m la W q} (h : NoneApplies q m la) : CachesAgree cfg mem p
    m la W q := by
  obtain ⟨h1, h2, h3, h4⟩ := h
  refine ⟨?_, ?_, ?_, ?_⟩ <;> simp [h1, h2, h3, h4]

/-- Back again, after a change of memory that only sets accessed bits. -/
theorem CachesAgree.agrees {cfg mem mem' p q m la} (hc : cfg.wf = true)
    (h : CachesAgree cfg mem p m la (memoryWalk cfg mem p m la) q) (hs : SameButCaches q p)
    (ha : AccessedSet m mem mem') : AgreesWithMemory cfg mem' q m la := by
  have hW : memoryWalk cfg mem' q m la = memoryWalk cfg mem p m la := by
    rw [SameButCaches.walk_eq hs]
    unfold memoryWalk
    cases hr : rootPartial p m la with
    | none => rfl
    | some r =>
      have h1 := rootPartial_ok hr
      simp only [Partial.ok, Bool.and_eq_true] at h1
      exact AccessedSet.walk_eq ha _ _ _ hc _ _ ((lowBits_zero_iff _ 12 (by omega)).mp h1.1.1)
  unfold AgreesWithMemory
  rw [hW]
  refine ⟨h.tlb, fun c hc' => ?_, fun c hc' => ?_, fun c hc' => ?_⟩
  · rw [SameButCaches.walkFrom_eq hs,
      AccessedSet.walk_eq ha _ _ _ hc _ _ (h.pml4c c hc').1]; exact (h.pml4c c hc').2
  · rw [SameButCaches.walkFrom_eq hs,
      AccessedSet.walk_eq ha _ _ _ hc _ _ (h.pdpc c hc').1]; exact (h.pdpc c hc').2
  · rw [SameButCaches.walkFrom_eq hs,
      AccessedSet.walk_eq ha _ _ _ hc _ _ (h.pdec c hc').1]; exact (h.pdec c hc').2

end Sys2Proof.Machine
end

