-- ==== Sys2Proof/Laws/Marks.lean ====
section
/-! SUPPORT. The entries that an access uses, said once: whose accessed bits it sets, what it makes cached
entries from, and where it goes (`40_address_translation.md` R136 to R143, `41_tlb.md` R172, R173,
`42_paging_structure_caches.md` R194 to R198). -/

namespace Sys2Proof.Machine

/-! ### Walks through a memory -/

/-- What a step sees is what the walk of memory sees there. -/
theorem Sees.walkSees {a p m t s seen} (h : Sees a p m t s seen) :
    WalkSees s.config s.mem p m a.la t seen := h

/-- The partial translations of more entries are more. -/
theorem OnWalk.mono {cfg mem p m la t} {u v : PAddr → Prop} (h : OnWalk cfg mem p m la u t)
    (huv : ∀ a, u a → v a) : OnWalk cfg mem p m la v t := by
  induction h with
  | start st t h => exact .start st t h
  | next t t' _ hs hu ih => exact .next t t' ih hs (huv _ hu)

/-- Without regard to the entries' bits. -/
theorem OnWalk.any {cfg mem p m la t} {u : PAddr → Prop} (h : OnWalk cfg mem p m la u t) :
    OnWalk cfg mem p m la anyEntry t := h.mono fun _ _ => trivial

/-- The structures that walks come to are aligned (R72, R74). -/
theorem OnWalk.aligned {cfg mem p m la u t} (hc : p.cachesOk cfg = true)
    (h : OnWalk cfg mem p m la u t) : t.addr.toNat % 4096 = 0 := by
  cases h with
  | start st t h =>
    have := startPartial_ok hc h
    simp only [Partial.ok, Bool.and_eq_true] at this
    exact (lowBits_zero_iff _ 12 (by omega)).mp this.1.1
  | next t t' _ hs _ => exact (viewEntry_next_aligned hs.2).1

/-- A walk sees the same through a memory in which only accessed bits differ, and on a processor in which
only the caches do. -/
theorem WalkSees.back {cfg mem mem' p q m la t seen} (h : WalkSees cfg mem' q m la t seen)
    (ha : AccessedSet m mem mem') (hq : SameButCaches q p) (hc : cfg.wf = true)
    (ht : t.addr.toNat % 4096 = 0) : WalkSees cfg mem p m la t seen := by
  obtain ⟨h1, h2⟩ := h
  rw [SameButCaches.view_eq hq, AccessedSet.view_eq ha _ _ _ _ hc ht] at h2
  exact ⟨h1, h2⟩

/-! ### The bits -/

/-- A memory in which the accessed bits of `mem` are set too. -/
def KeepsAccessed (mem mem' : Memory) : Prop := ∀ a, Accessed mem a → Accessed mem' a

/-- Setting bits of an entry clears none. -/
theorem setEntryBits_keeps (mem : Memory) (m : PMode) (a : PAddr) (mask : Entry) (hm : mem.wf)
    (hk : mask.toNat < 256) : KeepsAccessed mem (setEntryBits mem m a mask) := by
  intro b hb
  unfold Accessed at *
  rw [setEntryBits_read _ _ _ _ hm hk]
  split <;> simp [hb]

/-- A committing step sets the accessed bit of the entry it reads (R139). -/
theorem setEntryBits_accessed (mem : Memory) (m : PMode) (a : PAddr) (mask : Entry) (hm : mem.wf)
    (hk : mask = accessedMask ∨ mask = accessedDirtyMask) : Accessed (setEntryBits mem m a mask) a := by
  unfold Accessed
  rcases hk with rfl | rfl
  · rw [setEntryBits_read _ _ _ _ hm (by decide), if_pos rfl, BitVec.getLsbD_or]
    rw [show (BitVec.ofNat 8 accessedMask.toNat).getLsbD 5 = true from by decide, Bool.or_true]
  · rw [setEntryBits_read _ _ _ _ hm (by decide), if_pos rfl, BitVec.getLsbD_or]
    rw [show (BitVec.ofNat 8 accessedDirtyMask.toNat).getLsbD 5 = true from by decide, Bool.or_true]

/-- Unchanged memory. -/
theorem AccessedBitsSet.refl (cfg p m la mem) : AccessedBitsSet cfg p m la mem mem := fun _ => .inl rfl

/-- One more entry of the walk. -/
theorem AccessedBitsSet.one {cfg p m la mem mem'} {a : PAddr} (h : AccessedBitsSet cfg p m la mem mem')
    (hm : mem'.wf) (ha : UsedEntry cfg mem p m la a) :
    AccessedBitsSet cfg p m la mem (setEntryBits mem' m a accessedMask) := by
  intro b
  rw [setEntryBits_read _ _ _ _ hm (by decide)]
  split
  · rename_i hb
    right
    refine ⟨?_, a, ha, hb⟩
    have : (BitVec.ofNat 8 accessedMask.toNat : Byte) = accessedByte := by decide
    rw [this]
    rcases h b with e | ⟨e, -⟩
    · rw [e]
    · rw [e, accessedByte_or_twice]
  · exact h b

/-- Only accessed bits of aligned entries are set. -/
theorem AccessedBitsSet.accessedSet {cfg p m la mem mem'} (hc : p.cachesOk cfg = true)
    (h : AccessedBitsSet cfg p m la mem mem') : AccessedSet m mem mem' := by
  intro b
  rcases h b with e | ⟨e, a, ⟨t, ht, rfl, -⟩, rfl⟩
  · exact .inl e
  · exact .inr ⟨entryAddress_mod _ _ _ (ht.aligned hc), e⟩

/-- The dirty bit of the leaf that allows a write, with its accessed bit (R142). -/
theorem AccessedBitsSet.dirty {cfg p m la mem mem' cpl} {t : Partial} {l : Leaf}
    (h : AccessedBitsSet cfg p m la mem mem') (hm : mem'.wf) (ht : OnWalk cfg mem p m la anyEntry t)
    (hl : WalkSees cfg mem p m la t (.leaf l)) (hok : allowed p.wp .write cpl l.rw l.us l.xd = true) :
    WriteBitsSet cfg p m la cpl mem (setEntryBits mem' m (entryAddress m t la) accessedDirtyMask) := by
  intro b
  rw [setEntryBits_read _ _ _ _ hm (by decide)]
  split
  · rename_i hb
    right; right
    refine ⟨?_, t, l, ht, hl, hok, hb⟩
    have : (BitVec.ofNat 8 accessedDirtyMask.toNat : Byte) = accessedByte ||| dirtyByte := by decide
    rw [this]
    rcases h b with e | ⟨e, -⟩
    · rw [e, BitVec.or_assoc]
    · rw [e, ← BitVec.or_assoc, accessedByte_or_twice]
  · exact (h b).imp id .inl

/-- Accessed bits alone are among what a write may set. -/
theorem AccessedBitsSet.write {cfg p m la mem mem' cpl} (h : AccessedBitsSet cfg p m la mem mem') :
    WriteBitsSet cfg p m la cpl mem mem' := fun b => (h b).imp id .inl

/-! ### The entries -/

/-- More accessed bits. -/
theorem MarkedLeaf.mono {cfg mem mem1 mem2 p m la l} (h : MarkedLeaf cfg mem mem1 p m la l)
    (hk : KeepsAccessed mem1 mem2) : MarkedLeaf cfg mem mem2 p m la l :=
  let ⟨t, h1, h2, h3⟩ := h
  ⟨t, h1.mono hk, h2, hk _ h3⟩

/-- More accessed bits. -/
theorem MarkedStep.mono {cfg mem mem1 mem2 p m la t'} (h : MarkedStep cfg mem mem1 p m la t')
    (hk : KeepsAccessed mem1 mem2) : MarkedStep cfg mem mem2 p m la t' :=
  let ⟨t, h1, h2, h3⟩ := h
  ⟨t, h1.mono hk, h2, hk _ h3⟩

/-- A partial translation of a marked step is one of the walk. -/
theorem MarkedStep.onWalk {cfg mem mem' p m la t'} (h : MarkedStep cfg mem mem' p m la t') :
    OnWalk cfg mem p m la (Accessed mem') t' :=
  let ⟨t, h1, h2, h3⟩ := h
  .next t t' h1 h2 h3

/-- Nothing new. -/
theorem NewEntries.refl (cfg mem mem' p m la kind cpl) : NewEntries cfg mem mem' p m la kind cpl p :=
  ⟨fun _ h => .inl h, fun _ h => .inl h, fun _ h => .inl h, fun _ h => .inl h⟩

/-- More accessed bits. -/
theorem NewEntries.mono {cfg mem mem1 mem2 p m la kind cpl q}
    (h : NewEntries cfg mem mem1 p m la kind cpl q) (hk : KeepsAccessed mem1 mem2) :
    NewEntries cfg mem mem2 p m la kind cpl q :=
  ⟨fun e he => (h.tlb e he).imp id fun ⟨l, h1, h2⟩ => ⟨l, h1.mono hk, h2⟩,
    fun e he => (h.pml4c e he).imp id fun ⟨l, h1, h2⟩ => ⟨l, h1.mono hk, h2⟩,
    fun e he => (h.pdpc e he).imp id fun ⟨l, h1, h2⟩ => ⟨l, h1.mono hk, h2⟩,
    fun e he => (h.pdec e he).imp id fun ⟨l, h1, h2⟩ => ⟨l, h1.mono hk, h2⟩⟩

/-- Fewer entries. -/
theorem NewEntries.lost {cfg mem mem' p m la kind cpl q r}
    (h : NewEntries cfg mem mem' p m la kind cpl q) (h1 : OnlyLost r.tlb q.tlb)
    (h2 : OnlyLost r.pml4c q.pml4c) (h3 : OnlyLost r.pdpc q.pdpc) (h4 : OnlyLost r.pdec q.pdec) :
    NewEntries cfg mem mem' p m la kind cpl r :=
  ⟨fun e he => h.tlb e (h1 e he), fun e he => h.pml4c e (h2 e he), fun e he => h.pdpc e (h3 e he),
    fun e he => h.pdec e (h4 e he)⟩

/-- A marked step kept in a paging-structure cache (R196 to R198). -/
theorem NewEntries.keepPartial {cfg mem mem' p m la kind cpl q t}
    (h : NewEntries cfg mem mem' p m la kind cpl q) (ht : MarkedStep cfg mem mem' p m la t) :
    NewEntries cfg mem mem' p m la kind cpl (q.keepPartial m la t) := by
  refine ⟨by rw [Proc.keepPartial_tlb]; exact h.tlb, fun c hc => ?_, fun c hc => ?_, fun c hc => ?_⟩
  · rcases Proc.mem_keepPartial_pml4c _ _ _ _ _ hc with hc | hc
    · exact h.pml4c c hc
    · exact .inr ⟨t, ht, hc⟩
  · rcases Proc.mem_keepPartial_pdpc _ _ _ _ _ hc with hc | hc
    · exact h.pdpc c hc
    · exact .inr ⟨t, ht, hc⟩
  · rcases Proc.mem_keepPartial_pdec _ _ _ _ _ hc with hc | hc
    · exact h.pdec c hc
    · exact .inr ⟨t, ht, hc⟩

/-- A marked leaf kept in the TLB (R173, R286). -/
theorem NewEntries.keepLeaf {cfg mem mem' p m la kind cpl q l k1 k2}
    (h : NewEntries cfg mem mem' p m la kind cpl q) (hs : SameButCaches q p)
    (hl : MarkedLeaf cfg mem mem' p m la l) :
    NewEntries cfg mem mem' p m la kind cpl (q.keepLeaf m la (leafAfter p kind cpl l) k1 k2) := by
  have hr := Proc.keepLeaf_rest q m la (leafAfter p kind cpl l) k1 k2
  have hp := hs.pge
  refine ⟨fun e he => ?_, by rw [hr]; exact h.pml4c, by rw [hr]; exact h.pdpc, by rw [hr]; exact h.pdec⟩
  rcases Proc.mem_keepLeaf _ _ _ _ _ _ _ he with he | rfl | ⟨rfl, hlarge⟩
  · exact h.tlb e he
  · exact .inr ⟨l, hl, .inl (by simp [tlbEntryOf, hp])⟩
  · exact .inr ⟨l, hl, .inr ⟨hlarge, by simp [pieceEntryOf, hp]⟩⟩

/-- Wherever a walk starts on a processor with new entries, the starting point is one of the walk. -/
theorem NewEntries.started {cfg mem mem' p m la kind cpl q st t}
    (h : NewEntries cfg mem mem' p m la kind cpl q) (hs : SameButCaches q p)
    (ht : startPartial q m la st = some t) : OnWalk cfg mem p m la (Accessed mem') t := by
  have root : rootPartial q m la = some t → OnWalk cfg mem p m la (Accessed mem') t := by
    intro h
    rw [SameButCaches.root_eq hs] at h
    exact .start .root t h
  unfold startPartial at ht
  split at ht
  · exact root ht
  · split at ht
    · rename_i c hc
      cases ht
      have hf := List.mem_filter.mp (List.mem_of_getElem? hc)
      rcases h.pml4c c hf.1 with h1 | ⟨t, h1, h2, rfl⟩
      · have hin : c ∈ pml4cFor p m la := List.mem_filter.mpr ⟨h1, hf.2⟩
        obtain ⟨k, hk⟩ := List.mem_iff_getElem?.mp hin
        exact .start (.pml4c k) _ (by simp only [startPartial]; rw [hk])
      · have := h1.onWalk
        cases t; cases h2; exact this
    · exact root ht
  · split at ht
    · rename_i c hc
      cases ht
      have hf := List.mem_filter.mp (List.mem_of_getElem? hc)
      rcases h.pdpc c hf.1 with h1 | ⟨t, h1, h2, rfl⟩
      · have hin : c ∈ pdpcFor p m la := List.mem_filter.mpr ⟨h1, hf.2⟩
        obtain ⟨k, hk⟩ := List.mem_iff_getElem?.mp hin
        exact .start (.pdpc k) _ (by simp only [startPartial]; rw [hk])
      · have := h1.onWalk
        cases t; cases h2; exact this
    · exact root ht
  · split at ht
    · rename_i c hc
      cases ht
      have hf := List.mem_filter.mp (List.mem_of_getElem? hc)
      rcases h.pdec c hf.1 with h1 | ⟨t, h1, h2, rfl⟩
      · have hin : c ∈ pdecFor p m la := List.mem_filter.mpr ⟨h1, hf.2⟩
        obtain ⟨k, hk⟩ := List.mem_iff_getElem?.mp hin
        exact .start (.pdec k) _ (by simp only [startPartial]; rw [hk])
      · have := h1.onWalk
        cases t; cases h2; exact this
    · exact root ht

/-- Of the entries made for la none is left when those keyed for la are removed (R237). -/
theorem NewEntries.pageFault {cfg mem mem' p m la kind cpl q} (extra : Removal)
    (h : NewEntries cfg mem mem' p m la kind cpl q) (hs : SameButCaches q p) (hb : q.busy = p.busy) :
    SameButLost (q.invalidate (Req.pageFault la) extra) p := by
  refine ⟨fun e he => ?_, fun c hc => ?_, fun c hc => ?_, fun c hc => ?_, ?_⟩
  · obtain ⟨h1, h2⟩ := removeWhere_mem _ _ _ _ he
    rcases h.tlb e h1 with h1 | ⟨l, -, rfl | ⟨hl, rfl⟩⟩
    · exact h1
    · exfalso
      have := (tlbEntryOf_added p p m la (leafAfter p kind cpl l) rfl).1
      simp [Req.pageFault, this] at h2
    · exfalso
      have := (pieceEntryOf_added p p m la (leafAfter p kind cpl l) rfl).1
      simp [Req.pageFault, this] at h2
  · obtain ⟨h1, h2⟩ := removeWhere_mem _ _ _ _ hc
    rcases h.pml4c c h1 with h1 | ⟨t, -, -, rfl⟩
    · exact h1
    · simp [Req.pageFault] at h2
  · obtain ⟨h1, h2⟩ := removeWhere_mem _ _ _ _ hc
    rcases h.pdpc c h1 with h1 | ⟨t, -, -, rfl⟩
    · exact h1
    · simp [Req.pageFault] at h2
  · obtain ⟨h1, h2⟩ := removeWhere_mem _ _ _ _ hc
    rcases h.pdec c h1 with h1 | ⟨t, -, -, rfl⟩
    · exact h1
    · simp [Req.pageFault] at h2
  · unfold SameButCaches at hs
    unfold Proc.invalidate
    rw [hs, ← hb]

/-- Wherever the walks come to, the walk of memory goes on to its end, if no stale entry applies. -/
theorem OnWalk.ends {cfg mem p m la u t} (h : OnWalk cfg mem p m la u t)
    (ha : AgreesWithMemory cfg mem p m la) :
    memoryWalkFrom cfg mem p m la 4 t = memoryWalk cfg mem p m la := by
  induction h with
  | start st t h =>
    have root : rootPartial p m la = some t →
        memoryWalkFrom cfg mem p m la 4 t = memoryWalk cfg mem p m la := by
      intro h; rw [memoryWalk, h]
    unfold startPartial at h
    split at h
    · exact root h
    · split at h
      · cases h; exact ha.2.1 _ (List.mem_of_getElem? ‹_›)
      · exact root h
    · split at h
      · cases h; exact ha.2.2.1 _ (List.mem_of_getElem? ‹_›)
      · exact root h
    · split at h
      · cases h; exact ha.2.2.2 _ (List.mem_of_getElem? ‹_›)
      · exact root h
  | next t t' _ hs _ ih =>
    rw [memoryWalkFrom_eq t hs.1, hs.2] at ih
    exact ih

/-- What is made from the entries in memory agrees with them, if no stale entry applied before (R41). -/
theorem NewEntries.agrees {cfg mem mem' p m la kind cpl q}
    (h : NewEntries cfg mem mem' p m la kind cpl q) (hc : cfg.wf = true) (hok : p.cachesOk cfg = true)
    (hk : kind ≠ .write) (hs : SameButCaches q p) (hb : AccessedBitsSet cfg p m la mem mem')
    (ha : AgreesWithMemory cfg mem p m la) : AgreesWithMemory cfg mem' q m la := by
  have h0 := CachesAgree.of_agreesWithMemory hok ha
  have step : ∀ {t}, MarkedStep cfg mem mem' p m la t →
      t.addr.toNat % 4096 = 0 ∧ memoryWalkFrom cfg mem p m la 4 t = memoryWalk cfg mem p m la :=
    fun ht => ⟨ht.onWalk.aligned hok, ht.onWalk.ends ha⟩
  have made : ∀ {t : Partial} {n : Level} {addr rw us xd}, MarkedStep cfg mem mem' p m la t → t.next = n →
      t.addr = addr → t.rw = rw → t.us = us → t.xd = xd → addr.toNat % 4096 = 0 ∧
        memoryWalkFrom cfg mem p m la 4 ⟨n, addr, rw, us, xd⟩ = memoryWalk cfg mem p m la := by
    rintro t n addr rw us xd ht rfl rfl rfl rfl rfl
    exact step ht
  refine CachesAgree.agrees hc ⟨fun e he => ?_, fun c hc => ?_, fun c hc => ?_, fun c hc => ?_⟩ hs
    (hb.accessedSet hok)
  · have hf := List.mem_filter.mp he
    rcases h.tlb e hf.1 with h1 | ⟨l, ⟨t, h1, h2, -⟩, h3⟩
    · exact h0.tlb e (List.mem_filter.mpr ⟨h1, hf.2⟩)
    · have hW := h1.ends ha
      rw [memoryWalkFrom_eq t h2.1, h2.2] at hW
      have hd : leafAfter p kind cpl l = l := by
        have hk' : (kind == AccessKind.write) = false := by cases kind <;> first | rfl | exact absurd rfl hk
        unfold leafAfter
        rw [hk', Bool.false_and, Bool.or_false]
      rw [hd] at h3
      refine ⟨l, hW.symm, ?_⟩
      rcases h3 with rfl | ⟨hl, rfl⟩
      · exact ⟨rfl, rfl, rfl, rfl, id⟩
      · refine ⟨?_, rfl, rfl, rfl, id⟩
        simp only [leafAddress, hl, if_true]
        exact pieceEntryOf_translates p m la l
  · have hf := List.mem_filter.mp hc
    rcases h.pml4c c hf.1 with h1 | ⟨t, h1, h2, rfl⟩
    · exact h0.pml4c c (List.mem_filter.mpr ⟨h1, hf.2⟩)
    · exact made h1 h2 rfl rfl rfl rfl
  · have hf := List.mem_filter.mp hc
    rcases h.pdpc c hf.1 with h1 | ⟨t, h1, h2, rfl⟩
    · exact h0.pdpc c (List.mem_filter.mpr ⟨h1, hf.2⟩)
    · exact made h1 h2 rfl rfl rfl rfl
  · have hf := List.mem_filter.mp hc
    rcases h.pdec c hf.1 with h1 | ⟨t, h1, h2, rfl⟩
    · exact h0.pdec c (List.mem_filter.mpr ⟨h1, hf.2⟩)
    · exact made h1 h2 rfl rfl rfl rfl

/-! ### The steps of an access -/

/-- How far an access that began in s0 has gone, with the entries it has used. -/
structure Marked (s0 : State) (p0 : Proc) (m : PMode) (a0 a : Access) (s : State) : Prop where
  went : Went s0 p0 m a0 a s
  entries : ∀ q, s.proc? = some q → NewEntries s0.config s0.mem s.mem p0 m a0.la a0.kind a0.cpl q
  bits : (a.kind ≠ .write ∨ ∀ pa, a.phase ≠ .translated pa) →
    AccessedBitsSet s0.config p0 m a0.la s0.mem s.mem
  writeBits : a.kind = .write → WriteBitsSet s0.config p0 m a0.la a0.cpl s0.mem s.mem

/-- The same, and where its walk is. -/
structure Walking (s0 : State) (p0 : Proc) (m : PMode) (a0 a : Access) (s : State) : Prop
    extends Marked s0 p0 m a0 a s where
  tlb : (∀ pa, a.phase ≠ .translated pa) → ∀ q, s.proc? = some q → q.tlb = p0.tlb
  walk : ∀ t d, a.phase = .walk t d → OnWalk s0.config s0.mem p0 m a0.la anyEntry t
  marked : ∀ t, a.phase = .walk t false → OnWalk s0.config s0.mem p0 m a0.la (Accessed s.mem) t
  there : ∀ pa, a.phase = .translated pa →
    TranslatesTo s0.config s0.mem p0 m a0.la a0.kind a0.cpl pa ∧
    (tlbFor p0 m a0.la = [] → ∃ l, MarkedLeaf s0.config s0.mem s.mem p0 m a0.la l ∧
      pa = leafAddress m l a0.la)

/-- What holds of the state in which an access begins. -/
structure GoodStart (s0 : State) (p0 : Proc) : Prop where
  config : s0.config.wf = true
  mem : s0.mem.wf
  caches : p0.cachesOk s0.config = true

/-- A good state is a good start for the processor that takes the step. -/
theorem GoodStart.of_inv {s p} (h : Inv s) (hp : s.proc? = some p) : GoodStart s p :=
  ⟨h.1, h.2.1, ((Proc.ok_iff _ _).mp (h.2.2.2.2 p (List.mem_of_getElem? hp))).2.2.1⟩

/-- An access that has not begun. -/
theorem Walking.begin {s0 p0 m a0} (hp : s0.proc? = some p0) (hph : a0.phase = .begin) :
    Walking s0 p0 m a0 a0 s0 where
  went := Went.start _ _ _ _ hp
  entries q hq := by rw [hp] at hq; cases hq; exact .refl _ _ _ _ _ _ _ _
  bits _ := .refl _ _ _ _ _
  writeBits _ := (AccessedBitsSet.refl _ _ _ _ _).write
  tlb _ q hq := by rw [hp] at hq; cases hq; rfl
  walk t d h := absurd (hph.symm.trans h) (by simp)
  marked t h := absurd (hph.symm.trans h) (by simp)
  there pa h := absurd (hph.symm.trans h) (by simp)

/-- Drawing a choice changes nothing that matters. -/
theorem Walking.drawn {s0 p0 m a0 a s} (h : Walking s0 p0 m a0 a s) : Walking s0 p0 m a0 a s.drawn where
  went := h.went.drawn
  entries := by rw [State.drawn_mem, State.drawn_proc?]; exact h.entries
  bits := by rw [State.drawn_mem]; exact h.bits
  writeBits := by rw [State.drawn_mem]; exact h.writeBits
  tlb := by rw [State.drawn_proc?]; exact h.tlb
  walk := h.walk
  marked := by rw [State.drawn_mem]; exact h.marked
  there := by rw [State.drawn_mem]; exact h.there

/-- What a step of the walk sees, a walk through the memory at the beginning sees. -/
theorem Walking.sees {s0 p0 m a0 a s q t d seen} (hg : GoodStart s0 p0) (h : Walking s0 p0 m a0 a s)
    (hq : s.proc? = some q) (hph : a.phase = .walk t d) (hs : Sees a q m t s seen) :
    WalkSees s0.config s0.mem p0 m a0.la t seen := by
  obtain ⟨q', hq', hsame, -, -⟩ := h.went.proc
  rw [hq] at hq'; cases hq'
  have := hs.walkSees
  rw [h.went.config, h.went.fields.2.1] at this
  exact this.back ((h.bits (.inr (by simp [hph]))).accessedSet hg.caches) hsame hg.config
    ((h.walk t d hph).aligned hg.caches)

/-- A committing step at a leaf, whether the access goes on or not. -/
theorem Walking.atLeaf {s0 p0 m a0 a s q t l} (hg : GoodStart s0 p0) (h : Walking s0 p0 m a0 a s)
    (hq : s.proc? = some q) (c : Choice) (hph : a.phase = .walk t false) (hs : Sees a q m t s (.leaf l))
    (a' : Access) (hf : a'.kind = a.kind ∧ a'.la = a.la ∧ a'.n = a.n ∧ a'.v = a.v ∧ a'.cpl = a.cpl ∧
      a'.demand = a.demand)
    (hw : (a'.kind ≠ .write ∨ ∀ pa, a'.phase ≠ .translated pa) → leafWrites a q l = false) :
    Marked s0 p0 m a0 a' (leafState a c q m (entryAddress m t a.la) l s) ∧
      MarkedLeaf s0.config s0.mem (leafState a c q m (entryAddress m t a.la) l s).mem p0 m a0.la l := by
  have hsee := h.sees hg hq hph hs
  have hw0 := h.went
  obtain ⟨q', hq', hsame, -, -⟩ := hw0.proc
  rw [hq] at hq'; cases hq'
  have hn : ∀ pa, a.phase ≠ .translated pa := by simp [hph]
  have hwf := (hw0.mem hg.mem).1
  obtain ⟨f1, f2, -, -, f5, -⟩ := hw0.fields
  have hwalk := h.walk t false hph
  have hbits := h.bits (.inr hn)
  have hmem : (leafState a c q m (entryAddress m t a.la) l s).mem = setEntryBits s.mem m
      (entryAddress m t a.la) (if leafWrites a q l then accessedDirtyMask else accessedMask) := rfl
  have hmask : ∀ b : Bool, (if b then accessedDirtyMask else accessedMask) = accessedMask ∨
      (if b then accessedDirtyMask else accessedMask) = accessedDirtyMask := by
    intro b; cases b <;> simp
  have hlt : ∀ b : Bool, (if b then accessedDirtyMask else accessedMask).toNat < 256 := by
    intro b; cases b <;> decide
  have hkeeps := setEntryBits_keeps s.mem m (entryAddress m t a.la) _ hwf (hlt (leafWrites a q l))
  have hset := setEntryBits_accessed s.mem m (entryAddress m t a.la) _ hwf (hmask (leafWrites a q l))
  rw [← hmem] at hkeeps hset
  have hml : MarkedLeaf s0.config s0.mem (leafState a c q m (entryAddress m t a.la) l s).mem p0 m a0.la l :=
    ⟨t, (h.marked t hph).mono hkeeps, hsee, by rw [← f2]; exact hset⟩
  have hused : UsedEntry s0.config s0.mem p0 m a0.la (entryAddress m t a.la) :=
    ⟨t, hwalk, by rw [f2], .inr ⟨l, hsee⟩⟩
  refine ⟨⟨Went.atLeaf hw0 c _ l hq hn a' hf hw, fun q2 hq2 => ?_, fun hk => ?_, fun hk => ?_⟩, hml⟩
  · rw [leafState, State.setProc_proc? _ _ (by simpa using hq)] at hq2
    cases hq2
    have : ({ l with dirty := l.dirty || leafWrites a q l } : Leaf) = leafAfter p0 a0.kind a0.cpl l := by
      simp only [leafAfter, leafWrites, f1, f5, SameButCaches.wp hsame]
    have hla : q.keepLeaf m a.la = q.keepLeaf m a0.la := by rw [f2]
    rw [this, hla]
    exact ((h.entries q hq).mono hkeeps).keepLeaf hsame hml
  · rw [hmem, hw hk]
    exact hbits.one hwf hused
  · rw [hmem]
    cases hlw : leafWrites a q l with
    | false => exact (hbits.one hwf hused).write
    | true =>
      simp only [if_true]
      rw [f2]
      refine hbits.dirty hwf hwalk hsee ?_
      simp only [leafWrites, Bool.and_eq_true, beq_iff_eq] at hlw
      rw [← SameButCaches.wp hsame, ← f5]
      rw [hlw.1] at hlw
      exact hlw.2

/-- The access has only another phase. -/
theorem Marked.rephase {s0 p0 m a0 a s} (h : Marked s0 p0 m a0 a s) (a' : Access)
    (hf : a'.kind = a.kind ∧ a'.la = a.la ∧ a'.n = a.n ∧ a'.v = a.v ∧ a'.cpl = a.cpl ∧
      a'.demand = a.demand) (hph : ∀ pa, a.phase ≠ .translated pa) : Marked s0 p0 m a0 a' s :=
  ⟨h.went.rephase a' hf hph, h.entries, fun _ => h.bits (.inr hph),
    fun hk => h.writeBits (by rw [← hf.1]; exact hk)⟩

/-- Each way of going on. -/
theorem Walking.goesOn {s0 p0 m a0 a s q a' s' c} (hg : GoodStart s0 p0) (h : Walking s0 p0 m a0 a s)
    (hq : s.proc? = some q) (hgo : GoesOn a c q m s a' s') : Walking s0 p0 m a0 a' s' := by
  obtain ⟨q', hq', hsame, -, -⟩ := h.went.proc
  rw [hq] at hq'; cases hq'
  obtain ⟨f1, f2, -, -, f5, -⟩ := h.went.fields
  have hwf := (h.went.mem hg.mem).1
  cases hgo with
  | start t hph ht =>
    have hn : ∀ pa, a.phase ≠ .translated pa := by simp [hph]
    rw [f2] at ht
    have hst := (h.entries q hq).started hsame ht
    refine ⟨h.toMarked.rephase _ ⟨rfl, rfl, rfl, rfl, rfl, rfl⟩ hn, fun _ => h.tlb hn, ?_, ?_, ?_⟩
    · intro t' d hp; simp at hp; obtain ⟨rfl, rfl⟩ := hp; exact hst.any
    · intro t' hp; simp at hp; subst hp; exact hst
    · intro pa hp; simp at hp
  | hit e hph he hok hd =>
    have hn : ∀ pa, a.phase ≠ .translated pa := by simp [hph]
    have hmem : e ∈ tlbFor p0 m a0.la := by
      unfold chosenHit at he
      split at he
      · cases he
      · have := List.mem_of_getElem? he
        rw [f2] at this
        simp only [tlbFor, h.tlb hn q hq] at this
        exact this
    refine ⟨h.toMarked.rephase _ ⟨rfl, rfl, rfl, rfl, rfl, rfl⟩ hn, fun hp => absurd rfl (hp _), ?_, ?_, ?_⟩
    · intro t' d hp; simp at hp
    · intro t' hp; simp at hp
    · intro pa hp
      simp only [Phase.translated.injEq] at hp
      refine ⟨.inl ⟨e, hmem, ?_, ?_, by rw [← hp, f2]⟩, fun hno => by rw [hno] at hmem; simp at hmem⟩
      · rw [← SameButCaches.wp hsame, ← f1, ← f5]; exact hok
      · rw [← f1]; exact hd
  | dry t t' d hph hs hm =>
    have hn : ∀ pa, a.phase ≠ .translated pa := by simp [hph]
    have hsee := h.sees hg hq hph hs
    refine ⟨h.toMarked.rephase _ ⟨rfl, rfl, rfl, rfl, rfl, rfl⟩ hn, fun _ => h.tlb hn, ?_, ?_, ?_⟩
    · intro t2 d2 hp; simp at hp; obtain ⟨rfl, rfl⟩ := hp
      exact .next t _ (h.walk t d hph) hsee trivial
    · intro t2 hp; simp at hp
    · intro pa hp; simp at hp
  | again t d l hph hs hok hd hm =>
    have hn : ∀ pa, a.phase ≠ .translated pa := by simp [hph]
    refine ⟨h.toMarked.rephase _ ⟨rfl, rfl, rfl, rfl, rfl, rfl⟩ hn, fun _ => h.tlb hn, ?_, ?_, ?_⟩
    · intro t2 d2 hp; simp at hp
    · intro t2 hp; simp at hp
    · intro pa hp; simp at hp
  | extend t t' hph hs =>
    have hn : ∀ pa, a.phase ≠ .translated pa := by simp [hph]
    have hsee := h.sees hg hq hph hs
    have hwalk := h.walk t false hph
    have hmem : (extendedState a c q m (entryAddress m t a.la) t' s).mem =
        setEntryBits s.mem m (entryAddress m t a.la) accessedMask := by
      unfold extendedState; simp only; split <;> rfl
    have hkeeps := setEntryBits_keeps s.mem m (entryAddress m t a.la) accessedMask hwf (by decide)
    have hset := setEntryBits_accessed s.mem m (entryAddress m t a.la) accessedMask hwf (.inl rfl)
    have hstep : MarkedStep s0.config s0.mem (setEntryBits s.mem m (entryAddress m t a.la) accessedMask)
        p0 m a0.la t' := ⟨t, (h.marked t hph).mono hkeeps, hsee, by rw [← f2]; exact hset⟩
    have hbits := (h.bits (.inr hn)).one hwf (a := entryAddress m t a.la)
      ⟨t, hwalk, by rw [f2], .inl ⟨t', hsee⟩⟩
    have hproc : ∀ q2, (extendedState a c q m (entryAddress m t a.la) t' s).proc? = some q2 →
        q2 = (if c.keep then q.keepPartial m a0.la t' else q) := by
      intro q2 hq2
      unfold extendedState at hq2
      simp only at hq2
      split at hq2
      · rename_i hk
        rw [State.setProc_proc? _ _ (by simpa using hq)] at hq2
        cases hq2; simp [hk, f2]
      · rename_i hk
        simp only [State.setMem_proc?] at hq2
        rw [hq] at hq2; cases hq2; simp [hk]
    refine ⟨⟨h.went.goesOn hq (.extend t t' hph hs), fun q2 hq2 => ?_, fun _ => ?_, fun _ => ?_⟩,
      fun _ q2 hq2 => ?_, ?_, ?_, ?_⟩
    · rw [hmem, hproc q2 hq2]
      have hnew := (h.entries q hq).mono hkeeps
      split
      · exact hnew.keepPartial hstep
      · exact hnew
    · rw [hmem]; exact hbits
    · rw [hmem]; exact hbits.write
    · rw [hproc q2 hq2]
      split
      · rw [Proc.keepPartial_tlb]; exact h.tlb hn q hq
      · exact h.tlb hn q hq
    · intro t2 d2 hp; simp at hp; obtain ⟨rfl, rfl⟩ := hp
      exact hstep.onWalk.any
    · intro t2 hp; simp at hp; subst hp; rw [hmem]; exact hstep.onWalk
    · intro pa hp; simp at hp
  | leaf t l hph hs hok =>
    have hsee := h.sees hg hq hph hs
    obtain ⟨h1, h2⟩ := h.atLeaf hg hq c hph hs
      { a with phase := .translated (frameAddress m (if l.large then .large else .ord4k) l.frame a.la) }
      ⟨rfl, rfl, rfl, rfl, rfl, rfl⟩ (by
        intro hk
        have : a.kind ≠ .write := by simpa using hk
        simp [leafWrites, this])
    refine ⟨h1, fun hp => absurd rfl (hp _), ?_, ?_, ?_⟩
    · intro t' d hp; simp at hp
    · intro t' hp; simp at hp
    · intro pa hp
      simp only [Phase.translated.injEq] at hp
      have hpa : pa = leafAddress m l a0.la := by rw [← hp, ← f2]; rfl
      refine ⟨.inr ⟨t, l, h.walk t false hph, hsee, ?_, hpa⟩, fun _ => ⟨l, h2, hpa⟩⟩
      rw [← SameButCaches.wp hsame, ← f1, ← f5]; exact hok

/-- How an access comes to its end, with the entries it has used. -/
inductive MarkedEnd (s0 : State) (p0 : Proc) (m : PMode) (a0 : Access) : Result → Prop
  /-- It has no next state. -/
  | stop (r : Result) (h : ∀ t, r ≠ .next t) : MarkedEnd s0 p0 m a0 r
  /-- Translation fails. -/
  | failed (a : Access) (s : State) (h : Marked s0 p0 m a0 a s) (hph : ∀ pa, a.phase ≠ .translated pa) :
      MarkedEnd s0 p0 m a0 (failAccess a s)
  /-- A speculative access is aborted. -/
  | aborted (a : Access) (s : State) (h : Marked s0 p0 m a0 a s) (hd : a0.demand = false)
      (hph : ∀ pa, a.phase ≠ .translated pa) : MarkedEnd s0 p0 m a0 (.next s)
  /-- The access waits. -/
  | waits (a : Access) (s : State) (h : Marked s0 p0 m a0 a s) : MarkedEnd s0 p0 m a0 (waitAccess a s)
  /-- The data are moved. -/
  | moved (a : Access) (s : State) (pa : PAddr) (h : Walking s0 p0 m a0 a s)
      (hph : a.phase = .translated pa) : MarkedEnd s0 p0 m a0 (moveData a pa s)

/-- Each way of ending. -/
theorem Walking.ends {s0 p0 m a0 a s q r c} (hg : GoodStart s0 p0) (h : Walking s0 p0 m a0 a s)
    (hq : s.proc? = some q) (he : Ends a c q m s r) : MarkedEnd s0 p0 m a0 r := by
  cases he with
  | notLoaded => exact .stop _ (by simp)
  | noRoot hph => exact .failed _ _ h.toMarked (by simp [hph])
  | deniedHit e hph => exact .failed _ _ h.toMarked (by simp [hph])
  | outside => exact .stop _ (by simp)
  | notPresent t d hph => exact .failed _ _ h.toMarked (by simp [hph])
  | refused => exact .stop _ (by simp)
  | deniedDry t d l hph => exact .failed _ _ h.toMarked (by simp [hph])
  | abortDry t d l hph hs hd =>
    exact .aborted _ _ h.toMarked (by rw [← h.went.fields.2.2.2.2.2]; exact hd) (by simp [hph])
  | deniedLeaf t l hph hs hok =>
    exact .failed _ _ (h.atLeaf hg hq c hph hs a ⟨rfl, rfl, rfl, rfl, rfl, rfl⟩
      (by simp [leafWrites, hok])).1 (by simp [hph])
  | data pa hph => exact .moved _ _ _ h hph

/-- The mode does not change while an access goes on. -/
theorem Walking.mode {s0 p0 m a0 a s p m'} (h : Walking s0 p0 m a0 a s) (hm : p0.mode = some m)
    (hp : s.proc? = some p) (hm' : p.mode = some m') : m' = m := by
  obtain ⟨q, hq, hs, -, -⟩ := h.went.proc
  rw [hp] at hq; cases hq
  rw [hs.mode, hm] at hm'
  cases hm'; rfl

/-- An access with paging on ends in one of these ways. -/
theorem runAccess_marked {s0 p0 m a0} (hg : GoodStart s0 p0) (hp : s0.proc? = some p0)
    (hm : p0.mode = some m) (hph : a0.phase = .begin) (fuel : Nat) :
    MarkedEnd s0 p0 m a0 (runAccess fuel a0 s0) := by
  refine runAccess_induction (Q := Walking s0 p0 m a0) (R := MarkedEnd s0 p0 m a0) ?_ ?_ ?_ ?_ ?_ ?_ fuel
    a0 s0 (Walking.begin hp hph)
  · intro a s p m' a' s' h hps hm' hgo
    cases h.mode hm hps hm'
    exact h.drawn.goesOn hg (by simpa using hps) hgo
  · intro a s p m' r h hps hm' he
    cases h.mode hm hps hm'
    exact h.drawn.ends hg (by simpa using hps) he
  · intro a s h; exact .waits _ _ h.toMarked
  · intro a s h _ _; exact .waits _ _ h.drawn.toMarked
  · intro a s p h hps hno
    obtain ⟨q, hq, hs, -, -⟩ := h.went.proc
    rw [hps] at hq; cases hq
    rw [hs.mode, hm] at hno; cases hno
  · intro a s h hno
    obtain ⟨q, hq, -⟩ := h.went.proc
    rw [hq] at hno; cases hno

/-- A fill ends with accessed bits set and entries cached, and in no other way. -/
theorem fillWalk_marked {s0 p0 m a0} (hg : GoodStart s0 p0) (hp : s0.proc? = some p0)
    (hm : p0.mode = some m) (hph : a0.phase = .begin) (hd0 : a0.demand = false) (steps : Nat) (t : State)
    (ht : fillWalk steps a0 s0 = .next t) : ∃ a, Marked s0 p0 m a0 a t := by
  refine fillWalk_induction
    (Q := fun a s => Walking s0 p0 m a0 a s ∧ ∀ pa, a.phase ≠ .translated pa)
    (R := fun r => ∀ t, r = .next t → ∃ a, Marked s0 p0 m a0 a t) ?_ ?_ ?_ ?_ ?_ steps a0 s0
    ⟨Walking.begin hp hph, by simp [hph]⟩ t ht
  · rintro a s p m' a' s' ⟨h, -⟩ hps hm' hgo hph
    cases h.mode hm hps hm'
    exact ⟨h.drawn.goesOn hg (by simpa using hps) hgo, hph⟩
  · rintro a s p m' a' s' ⟨h, -⟩ hps hm' hgo t ⟨⟩
    cases h.mode hm hps hm'
    exact ⟨_, (h.drawn.goesOn hg (by simpa using hps) hgo).toMarked⟩
  · rintro a s p m' r ⟨h, hph⟩ hps hm' he t rfl
    cases h.mode hm hps hm'
    have hd : a.demand = false := by rw [h.went.fields.2.2.2.2.2]; exact hd0
    have fail : ∀ s', Marked s0 p0 m a0 a s' → ∀ t, failAccess a s' = .next t →
        ∃ a, Marked s0 p0 m a0 a t := by
      intro s' h' t ht
      simp only [failAccess, hd, Bool.false_eq_true, if_false, Host.Outcome.next.injEq] at ht
      exact ⟨a, ht ▸ h'⟩
    have hps' : s.drawn.proc? = some p := by simpa using hps
    generalize hr : (Host.Outcome.next t : Result) = r at he
    cases he with
    | notLoaded => cases hr
    | noRoot hph => exact fail _ h.drawn.toMarked _ hr.symm
    | deniedHit e hph => exact fail _ h.drawn.toMarked _ hr.symm
    | outside => cases hr
    | notPresent t d hph => exact fail _ h.drawn.toMarked _ hr.symm
    | refused => cases hr
    | deniedDry t d l hph => exact fail _ h.drawn.toMarked _ hr.symm
    | abortDry t d l hph hs hd => cases hr; exact ⟨a, h.drawn.toMarked⟩
    | deniedLeaf t' l hph hs hok =>
      exact fail _ (h.drawn.atLeaf hg hps' s.choice hph hs a ⟨rfl, rfl, rfl, rfl, rfl, rfl⟩
        (by simp [leafWrites, hok])).1 _ hr.symm
    | data pa hph' => exact absurd hph' (hph pa)
  · rintro a s ⟨h, -⟩ t ⟨⟩; exact ⟨_, h.toMarked⟩
  · rintro a s ⟨h, -⟩ hno t ⟨⟩

end Sys2Proof.Machine
end

