-- ==== Sys2Proof/Laws/Step.lean ====
section
/-! SUPPORT. What a move can do, said once: the ways a step answers a next state. -/

namespace Sys2Proof.Machine

/-- The access that a speculative move makes (R156). -/
def speculation (pr : Proc) (la : LAddr) (kind : AccessKind) (cpl : Cpl) (n : Nat) : Access :=
  { kind := kind, la := operandAddress pr.mode la, n := n, v := 0, cpl := cpl, demand := false,
    phase := .begin, mustCommit := false }

/-- The walk that a fill makes (R199). -/
def fillAccess (pr : Proc) (la : LAddr) : Access :=
  { kind := .read, la := operandAddress pr.mode la, n := 1, v := 0, cpl := 0, demand := false,
    phase := .begin, mustCommit := true }

/-- The ways a move leads from s to t. -/
inductive Moves (s : State) : State → Prop
  /-- Nothing to do: the move is not taken (log 40). -/
  | idle : Moves s s
  /-- Software goes on with its access in progress. -/
  | goesOn (p : Nat) (pr : Proc) (a : Access) (t : State) (hp : s.procs[p]? = some pr)
      (hb : pr.busy = some a) (h : continueAccess a { s with current := p } = .next t) : Moves s t
  /-- Software issues its next operation. -/
  | issues (p : Nat) (pr : Proc) (op : Issue) (ops : List Issue) (i : Instr) (t : State)
      (hp : s.procs[p]? = some pr) (hh : pr.halted = false) (hb : pr.busy = none)
      (h : exec i (s.issued p pr op ops) = .next t) : Moves s t
  /-- A speculative access. -/
  | speculates (p : Nat) (pr : Proc) (m : PMode) (la : LAddr) (kind : AccessKind) (cpl : Cpl) (n : Nat)
      (t : State) (hp : s.procs[p]? = some pr) (hm : pr.mode = some m) (hk : kind ≠ .write)
      (h : runAccess accessFuel (speculation pr la kind cpl n) { s with current := p } = .next t) :
      Moves s t
  /-- A fill. -/
  | fills (p : Nat) (pr : Proc) (m : PMode) (la : LAddr) (steps : Nat) (t : State)
      (hp : s.procs[p]? = some pr) (hm : pr.mode = some m)
      (h : fillWalk steps (fillAccess pr la) { s with current := p } = .next t) : Moves s t
  /-- Spontaneous invalidation. -/
  | drops (p : Nat) (pr : Proc) (which : Removal) (hp : s.procs[p]? = some pr) :
      Moves s { s with procs := s.procs.set p (pr.invalidate Req.nothing which) }
  /-- The environment resumes a processor. -/
  | resumes (p : Nat) (pr : Proc) (hp : s.procs[p]? = some pr) :
      Moves s { s with procs := s.procs.set p { pr with halted := false } }

/-- A processor whose mode is not `Off` has a mode. -/
theorem mode_of_ne_none {o : Option PMode} (h : (o == none) = false) : ∃ m, o = some m := by
  cases o with
  | none => cases h
  | some m => exact ⟨m, rfl⟩

/-- A move that answers a next state leads there in one of these ways. -/
theorem move_next (e : Event) (s t : State) (h : move e s = .next t) : Moves s t := by
  cases e with
  | software p =>
    simp only [move, fetchSoftware] at h
    cases hp : s.procs[p]? with
    | none =>
      simp only [hp] at h
      cases h; exact .idle
    | some pr =>
      simp only [hp] at h
      cases hh : pr.halted with
      | true =>
        simp only [hh, if_true] at h
        cases h; exact .idle
      | false =>
        simp only [hh, Bool.false_eq_true, if_false] at h
        cases hb : pr.busy with
        | some a =>
          simp only [hb] at h
          exact .goesOn p pr a t hp hb h
        | none =>
          simp only [hb] at h
          cases hpr : pr.program with
          | nil =>
            simp only [hpr] at h
            cases h; exact .idle
          | cons op ops =>
            simp only [hpr] at h
            cases hd : decode pr.lma op.text with
            | bad why => simp only [hd] at h; cases h
            | ok i rest =>
              simp only [hd] at h
              exact .issues p pr op ops i t hp hh hb h
  | speculate p la kind cpl n =>
    simp only [move, speculativeAccess] at h
    cases hp : s.procs[p]? with
    | none =>
      simp only [hp] at h
      cases h; exact .idle
    | some pr =>
      simp only [hp] at h
      split at h
      · cases h; exact .idle
      · rename_i hc
        simp only [Bool.or_eq_true, not_or, Bool.not_eq_true] at hc
        obtain ⟨m, hm⟩ := mode_of_ne_none hc.1.1.1
        exact .speculates p pr m la kind cpl n t hp hm (by rintro rfl; simp at hc) h
  | fill p la steps =>
    simp only [move, fillCaches] at h
    cases hp : s.procs[p]? with
    | none =>
      simp only [hp] at h
      cases h; exact .idle
    | some pr =>
      simp only [hp] at h
      split at h
      · cases h; exact .idle
      · rename_i hc
        simp only [Bool.or_eq_true, not_or, Bool.not_eq_true] at hc
        obtain ⟨m, hm⟩ := mode_of_ne_none hc.1
        exact .fills p pr m la steps t hp hm h
  | drop p which =>
    simp only [move, dropEntries] at h
    cases hp : s.procs[p]? with
    | none =>
      simp only [hp] at h
      cases h; exact .idle
    | some pr =>
      simp only [hp] at h
      cases h; exact .drops p pr which hp
  | resume p =>
    simp only [move, resumeProc] at h
    cases hp : s.procs[p]? with
    | none =>
      simp only [hp] at h
      cases h; exact .idle
    | some pr =>
      simp only [hp] at h
      cases h; exact .resumes p pr hp

/-- A step that answers a next state is a move from the state whose schedule has advanced. -/
theorem step_next (s t : State) (h : step s = .next t) : Moves s.scheduled t := move_next _ _ _ h

end Sys2Proof.Machine
end

