-- ==== Sys2Proof/Certificates/Slice0/Obligations.lean ====
section
/-! DEFINITION. The statements for the provers. -/

open Sys2Proof Sys2Proof.Machine

/-! ### Encoding -/

/-- R113, R117 (the encodings are general knowledge in the spec; the displacement lengths, and that 16-bit
addressing takes the address-size prefix outside 64-bit mode, are the model's choice, log 36; 64-bit mode
is LMA = 1, log 45): decoding the slot of a well-formed operation, in a mode that has its addressing form,
gives the operation back, with every operand and every field of its encoding. -/
def Obligations.DecodeEncodeRoundTrip : Prop :=
  ∀ (long : Bool) (i : Instr), wellFormed i = true → (long = true → usesAddr16 i = false) →
    decode long (encode i) = .ok i []

/-- R112 (general knowledge in the spec: optional legacy and REX prefixes, at most 15 bytes). Which bytes
are legacy prefixes, that the address-size prefix selects 16-bit addressing outside 64-bit mode, that REX.R
extends the number of a control register, and the displacement lengths are the model's choice (PRESUMED,
log 36): so where an instruction ends, and where the next begins, rests on that choice. Whatever prefixes
stand before a well-formed instruction that fits them and whatever bytes follow it, the decoder gives the
instruction and the bytes after it if it has at most 15 bytes with its prefixes, and refuses it if it has
more; a MOV to or from a control register with REX.R = 1 names another register and is refused. -/
def Obligations.DecodeStopsAtInstructionEnd : Prop :=
  ∀ (long : Bool) (i : Instr) (ps bytes rest : List Byte) (v : BitVec 64), wellFormed i = true →
    encode i = .code bytes v → prefixesOk long ps = true →
    (∀ md rm tail la, i = .invlpg md rm tail la →
      tail.addr16 = selects16 long (ps.takeWhile isLegacyPrefix)) →
    let ext := extendsReg long (ps.dropWhile isLegacyPrefix) && namesControlRegister i
    (ext = false → ps.length + (opcodeBytes i).length ≤ 15 →
      decode long (.code (ps ++ opcodeBytes i ++ rest) v) = .ok i rest) ∧
    (ext = false → 15 < ps.length + (opcodeBytes i).length →
      decode long (.code (ps ++ opcodeBytes i ++ rest) v) = .bad (.illFormed .tooLong)) ∧
    (ext = true → decode long (.code (ps ++ opcodeBytes i ++ rest) v) = .bad .extendedControlRegister)

/-- R112, R113 (general knowledge in the spec; the prefixes and the addressing forms are the model's choice,
log 36): the other direction: the bytes that were decoded are prefixes followed by the encoding of what was
decoded, at most 15 in all, so no two instructions share bytes; the operand value is kept where the row
has one. -/
def Obligations.DecodedBytesAreItsEncoding : Prop :=
  ∀ (long : Bool) (bytes rest : List Byte) (v : BitVec 64) (i : Instr),
    decode long (.code bytes v) = .ok i rest →
    ∃ ps used, bytes = ps ++ opcodeBytes i ++ rest ∧ prefixesOk long ps = true ∧
      1 ≤ (opcodeBytes i).length ∧ ps.length + (opcodeBytes i).length ≤ 15 ∧
      (∀ md rm tail la, i = .invlpg md rm tail la →
        tail.addr16 = selects16 long (ps.takeWhile isLegacyPrefix)) ∧
      (namesControlRegister i = true → extendsReg long (ps.dropWhile isLegacyPrefix) = false) ∧
      (encode i = .code used v ∨
        (encode i = .code used 0 ∧
          (i = .hlt ∨ i = .cpuid ∨ ∃ md cr rm, i = .movFromCrn md cr rm)))

/-- R93, R113 (general knowledge in the spec): the decoder gives only well-formed operations, in 64-bit mode
and outside it. -/
def Obligations.DecodedIsWellFormed : Prop :=
  ∀ (long : Bool) (x : OpText) (i : Instr) (rest : List Byte), decode long x = .ok i rest →
    wellFormed i = true

/-- R113 (general knowledge in the spec): one word of each encoded row of the opcode table decodes to
that row's instruction. -/
def Obligations.TableWordsDecode : Prop :=
  decodeTableWord 24 0x38010F = some (.invlpg 0 0 ⟨false, []⟩ 0) ∧
  decodeTableWord 24 0x3E010F = some (.invlpg 0 6 ⟨false, []⟩ 0) ∧
  decodeTableWord 24 0xD8220F = some (.movToCr3 3 0 0) ∧
  decodeTableWord 24 0xE0220F = some (.movToCr4 3 0 0) ∧
  decodeTableWord 24 0xC0220F = some (.movToCr0 3 0 0) ∧
  decodeTableWord 24 0xD8200F = some (.movFromCrn 3 .cr3 0) ∧
  decodeTableWord 8 0xF4 = some .hlt ∧
  decodeTableWord 16 0xA20F = some .cpuid

/-- R113, R115: INVLPG with mod = 11 and a MOV to or from a control register that the spec does not
describe are no operations of the machine. -/
def Obligations.OtherEncodingsAreRejected : Prop :=
  (∀ (long : Bool) (rm : BitVec 3) (rest : List Byte) (v : BitVec 64),
    decode long (.code (0x0F :: 0x01 :: modRm 3 7 rm :: rest) v) = .bad (.illFormed .registerForm)) ∧
  (∀ (long : Bool) (md : BitVec 2) (n rm : BitVec 3) (rest : List Byte) (v : BitVec 64),
    n ≠ 0 → n ≠ 3 → n ≠ 4 →
    decode long (.code (0x0F :: 0x22 :: modRm md n rm :: rest) v) =
      .bad (.undescribedControlRegister n) ∧
    decode long (.code (0x0F :: 0x20 :: modRm md n rm :: rest) v) =
      .bad (.undescribedControlRegister n))

/-! ### The step -/

/-- R20, R26, R110: when the next move is processor p's software, p is not halted and has no access in
progress, and its next slot decodes to i in its mode (64-bit mode is LMA = 1, log 45), the step is
`exec i`, with p selected, its CPL the slot's, and the slot taken off its program. -/
def Obligations.StepRunsDecodedOperation : Prop :=
  ∀ (s : State) (p : Nat) (pr : Proc) (es : List Event) (op : Issue) (ops : List Issue) (i : Instr)
    (rest : List Byte), s.schedule = .software p :: es → s.procs[p]? = some pr → pr.halted = false →
    pr.busy = none → pr.program = op :: ops → decode pr.lma op.text = .ok i rest →
    step s = exec i
      { s with
        schedule := es
        current := p
        procs := s.procs.set p { pr with program := ops, cpl := op.cpl } }

/-- R376 (D27): while a processor is halted it issues no operation: its software move changes nothing
but the schedule. -/
def Obligations.HaltedProcessorIssuesNothing : Prop :=
  ∀ (s : State) (p : Nat) (pr : Proc) (es : List Event), s.schedule = .software p :: es →
    s.procs[p]? = some pr → pr.halted = true → step s = .next { s with schedule := es }

/-- R376 (a decision of the spec, D27): Resume(p) sets halted to false and has no other effect. -/
def Obligations.ResumeOnlyClearsHalted : Prop :=
  ∀ (s : State) (p : Nat) (pr : Proc) (es : List Event), s.schedule = .resume p :: es →
    s.procs[p]? = some pr →
    step s = .next { s with schedule := es, procs := s.procs.set p { pr with halted := false } }

/-- R60: the values of the table of R60 for every logical processor, for all parameters and every memory
image. The registers' values are the spec's own decisions (D12, D13), not the source's. -/
def Obligations.ResetValues : Prop :=
  ∀ (cfg : Config) (image : Memory) (p : Proc), p ∈ (State.resetWith cfg image).procs →
    p.pg = false ∧ p.wp = false ∧ p.cr3 = 0 ∧ p.pse = false ∧ p.pae = false ∧ p.pge = false ∧
    p.lma = false ∧ p.nxe = false ∧ p.cpl = 0 ∧ p.tlb = [] ∧ p.pml4c = [] ∧ p.pdpc = [] ∧
    p.pdec = [] ∧ p.pdptrValid = false ∧ p.halted = false

/-- R441, R25, R331, R41 (start states are the spec's decisions D12, D30; log 34): every state in which a
run may start meets the invariant, with empty caches, the default, or with cached entries as R41 bounds
them; the machine after reset is such a state with empty caches, for all legal parameters and every
canonical memory image, and so is `State.reset`. -/
def Obligations.ResetMeetsInvariant : Prop :=
  (∀ s : State, StartState s → Inv s) ∧
  (∀ (cfg : Config) (image : Memory), cfg.wf = true → image.wf →
    StartState (State.resetWith cfg image) ∧
      ∀ p ∈ (State.resetWith cfg image).procs, p.nothingCached) ∧
  StartState State.reset

/-- Every step keeps the invariant: canonical memory, legal mode bits (R25), loaded and legal PDPTR
registers in PAE mode (R331, R332), cached entries with possible tags and rights, keys of the tag's width,
aligned frames of at most the mode's physical-address width, a piece of a large page at its place in it (R34
to R37, R41, R82, R286), no global entry with CR4.PGE = 0 (R303), no cached entry twice (R33), no access in
progress on a halted processor. -/
def Obligations.StepKeepsInvariant : Prop :=
  ∀ s t : State, Inv s → step s = .next t → Inv t

/-- R24, R27: no step changes the parameters, the number of processors, or any processor's LMA or NXE. -/
def Obligations.ParametersAndEferNeverChange : Prop :=
  ∀ s t : State, step s = .next t →
    t.config = s.config ∧ t.procs.length = s.procs.length ∧
    ∀ (k : Nat) (p q : Proc), s.procs[k]? = some p → t.procs[k]? = some q →
      q.lma = p.lma ∧ q.nxe = p.nxe

/-- R25: the processor ensures that it is never the case that CR4.PAE = 0 and IA32_EFER.LMA = 1: every
step from a state in which this holds of every processor leads to another, and a MOV to CR4 at CPL 0 that
would clear PAE while LMA = 1 has no successor state. How the processor ensures it is not in the source
(U27): that there is no successor state is the spec's reading, kept by the model (DEDUCED, log 17), and
that the MOV needs CPL 0 is D18 (log 28). -/
def Obligations.LmaImpliesPaeIsKept : Prop :=
  (∀ s t : State, (∀ p ∈ s.procs, p.lma = true → p.pae = true) → step s = .next t →
    ∀ p ∈ t.procs, p.lma = true → p.pae = true) ∧
  ∀ (s t : State) (p : Proc) (md : BitVec 2) (rm : BitVec 3) (v : BitVec 64), s.proc? = some p →
    p.cpl = 0 → p.lma = true → v.getLsbD 5 = false → exec (.movToCr4 md rm v) s ≠ .next t

/-- R303 (its last sentence, an invariant that the spec derives): while CR4.PGE = 0 no TLB entry is
global. Every step keeps it. -/
def Obligations.NoGlobalEntryWithoutPgeIsKept : Prop :=
  ∀ s t : State, (∀ p ∈ s.procs, p.pge = false → ∀ e ∈ p.tlb, e.global = false) → step s = .next t →
    ∀ p ∈ t.procs, p.pge = false → ∀ e ∈ p.tlb, e.global = false

/-- R331 (its last sentence, which the spec derives): every way into PAE mode loads the PDPTR registers,
so in PAE mode they have been loaded. Every step keeps it. -/
def Obligations.PaeModeHasLoadedPdptrsIsKept : Prop :=
  ∀ s t : State, (∀ p ∈ s.procs, p.mode = some .pae → p.pdptrValid = true) → step s = .next t →
    ∀ p ∈ t.procs, p.mode = some .pae → p.pdptrValid = true

/-! ### Frames of all operations -/

/-- R370: an operation acts on the executing logical processor only: no other processor's registers,
caches or program change, nor do the parameters, the schedule or which processor is current. -/
def Obligations.OperationsActOnTheirProcessorOnly : Prop :=
  ∀ (i : Instr) (s t : State), exec i s = .next t → SameElsewhere t s

/-- R331, R21 to R24, R26: no operation but MOV to CR0, CR3 and CR4 changes a control register, EFER, the
CPL or a PDPTR register. That no operation changes the CPL is the spec's decision D28 (R26, log 12), and
that none writes LMA or NXE is D30 (R24, log 35). -/
def Obligations.OnlyMovToCrChangesRegisters : Prop :=
  ∀ (i : Instr) (s t : State) (p : Proc), exec i s = .next t → s.proc? = some p →
    (∀ md rm v, i ≠ .movToCr0 md rm v) → (∀ md rm v, i ≠ .movToCr3 md rm v) →
    (∀ md rm v, i ≠ .movToCr4 md rm v) →
    ∃ q, t.proc? = some q ∧ SameRegisters q p ∧ q.program = p.program

/-- R91, R152, R78, R139: no operation but WRITE stores data: every other one leaves memory as it is, but
that READ and FETCH with paging on may set the accessed bits of entries that a walk for their address
uses. -/
def Obligations.OnlyAccessesChangeMemory : Prop :=
  ∀ (i : Instr) (s t : State) (p : Proc), Inv s → s.proc? = some p → exec i s = .next t →
    (∀ la n v, i ≠ .write la n v) →
    t.mem = s.mem ∨ ∃ m la n, p.mode = some m ∧ (i = .read la n ∨ i = .fetch la n) ∧
      AccessedBitsSet s.config p m (operandAddress (some m) la) s.mem t.mem

/-! ### Accesses with paging off -/

/-- R155 (general knowledge in the spec, D33), R151, R153: with CR0.PG = 0 a READ or FETCH of populated
bytes completes: it returns the bytes at the physical address equal to the low 32 bits of the linear
address, changes no memory and no cached entry, and page-faults in no case. Where those bytes have read side
effects a READ delivers them (R151); that a FETCH does so too (`before` in its clause) is the model's
choice, since R153 does not say (DESIGN CHOICE, log 19). -/
def Obligations.PagingOffReadsPhysicalMemory : Prop :=
  ∀ (s : State) (p : Proc) (la : LAddr) (n : Nat), s.proc? = some p → p.pg = false →
    wellFormed (.read la n) = true → reaches s.config (la.toNat % 2 ^ 32) n = true →
    let pa := la.toNat % 2 ^ 32
    let before := if touchesSideEffect s.config pa n then .sideEffect s.current pa n :: s.trace else s.trace
    exec (.read la n) s = .next { s with
      trace := .value s.current .read (BitVec.ofNat 64 pa) n (s.mem.readLE pa n) :: before } ∧
    exec (.fetch la n) s = .next { s with
      trace := .value s.current .fetch (BitVec.ofNat 64 pa) n (s.mem.readLE pa n) :: before }

/-- R155 (general knowledge in the spec, D33), R152, R91: with CR0.PG = 0 a WRITE to populated bytes
completes: the n bytes from the physical address equal to the low 32 bits of the linear address become
those of v, little-endian, every other byte and everything else is unchanged. -/
def Obligations.PagingOffWritesPhysicalMemory : Prop :=
  ∀ (s : State) (p : Proc) (la : LAddr) (n v : Nat), s.proc? = some p → p.pg = false →
    wellFormed (.write la n v) = true → reaches s.config (la.toNat % 2 ^ 32) n = true → s.mem.wf →
    ∃ mem', exec (.write la n v) s = .next { s with mem := mem' } ∧
      (∀ k < n, mem'.read (la.toNat % 2 ^ 32 + k) = BitVec.ofNat 8 (v / 256 ^ k)) ∧
      (∀ b, b < la.toNat % 2 ^ 32 ∨ la.toNat % 2 ^ 32 + n ≤ b → mem'.read b = s.mem.read b)

/-- R95, R99, R155 (D33): with paging off a READ and a FETCH return what an earlier WRITE of the same bytes
stored. That a FETCH sees the store, at once and with no synchronising operation between, is the spec's own
decision D9 (R99, log 9). -/
def Obligations.ReadAndFetchSeeAnEarlierWrite : Prop :=
  ∀ (s t : State) (p : Proc) (la : LAddr) (n v : Nat), s.proc? = some p → p.pg = false → s.mem.wf →
    wellFormed (.write la n v) = true → exec (.write la n v) s = .next t →
    ∃ u w, exec (.read la n) t = .next u ∧ exec (.fetch la n) t = .next w ∧
      u.trace.head? = some (.value s.current .read (BitVec.ofNat 64 (la.toNat % 2 ^ 32)) n v) ∧
      w.trace.head? = some (.value s.current .fetch (BitVec.ofNat 64 (la.toNat % 2 ^ 32)) n v)

/-! ### Accesses translated by a TLB entry -/

/-- R174, R140, R151, R153: an access that uses a TLB entry whose rights allow it completes at the
entry's frame plus the offset: memory is not consulted for the translation and no accessed bit is set,
whatever the paging structures hold. -/
def Obligations.TlbEntryTranslatesReads : Prop :=
  ∀ (s : State) (p : Proc) (m : PMode) (la : LAddr) (n k : Nat) (e : TlbEntry) (c0 c1 : Choice)
    (cs : List Choice), s.proc? = some p → p.mode = some m → wellFormed (.read la n) = true →
    (m = .ia32e → canonical la = true) → (m = .pae → p.pdptrValid = true) →
    s.choices = c0 :: c1 :: cs → c0.pause = false → c1.pause = false → c0.hit = some k →
    (tlbFor p m (operandAddress (some m) la))[k]? = some e →
    let la' := operandAddress (some m) la
    let pa := (frameAddress m e.kind e.frame la').toNat
    reaches s.config pa n = true → touchesSideEffect s.config pa n = false →
    (allowed p.wp .read p.cpl e.rw e.us e.xd = true →
      exec (.read la n) s = .next { s with
        choices := cs
        trace := .value s.current .read la' n (s.mem.readLE pa n) :: s.trace }) ∧
    (allowed p.wp .fetch p.cpl e.rw e.us e.xd = true →
      exec (.fetch la n) s = .next { s with
        choices := cs
        trace := .value s.current .fetch la' n (s.mem.readLE pa n) :: s.trace })

/-- R177, R152 (d): a write that uses a TLB entry with dirty = 1 stores at the entry's frame and touches
no paging-structure entry; every byte outside the n stored ones is unchanged. -/
def Obligations.DirtyTlbEntryTranslatesWrites : Prop :=
  ∀ (s : State) (p : Proc) (m : PMode) (la : LAddr) (n v k : Nat) (e : TlbEntry) (c0 c1 : Choice)
    (cs : List Choice), s.proc? = some p → p.mode = some m → wellFormed (.write la n v) = true →
    (m = .ia32e → canonical la = true) → (m = .pae → p.pdptrValid = true) →
    s.choices = c0 :: c1 :: cs → c0.pause = false → c1.pause = false → c0.hit = some k →
    (tlbFor p m (operandAddress (some m) la))[k]? = some e → e.dirty = true → s.mem.wf →
    allowed p.wp .write p.cpl e.rw e.us e.xd = true →
    let pa := (frameAddress m e.kind e.frame (operandAddress (some m) la)).toNat
    reaches s.config pa n = true →
    ∃ mem', exec (.write la n v) s = .next { s with choices := cs, mem := mem' } ∧
      (∀ j < n, mem'.read (pa + j) = BitVec.ofNat 8 (v / 256 ^ j)) ∧
      (∀ b, b < pa ∨ pa + n ≤ b → mem'.read b = s.mem.read b)

/-- R177 (a decision of the spec, D15): a write cannot be completed by a TLB entry whose dirty
indication is 0: if the entry's rights allow it, it walks, exactly as if no entry had been chosen. -/
def Obligations.CleanTlbEntryMakesWritesWalk : Prop :=
  ∀ (s : State) (p : Proc) (m : PMode) (la : LAddr) (n v k : Nat) (e : TlbEntry) (c0 : Choice)
    (cs : List Choice), s.proc? = some p → p.mode = some m → s.choices = c0 :: cs → c0.hit = some k →
    (tlbFor p m (operandAddress (some m) la))[k]? = some e → e.dirty = false →
    allowed p.wp .write p.cpl e.rw e.us e.xd = true →
    exec (.write la n v) s =
      exec (.write la n v) { s with choices := { c0 with hit := none } :: cs }

/-- R150, R401, R404: an access whose chosen TLB entry denies it page-faults, whatever memory holds; the
fault removes every entry keyed for the address and changes neither memory nor a register. -/
def Obligations.DenyingTlbEntryFaults : Prop :=
  ∀ (s : State) (p : Proc) (m : PMode) (kind : AccessKind) (la : LAddr) (n v k : Nat) (e : TlbEntry)
    (c0 : Choice) (cs : List Choice), s.proc? = some p → p.mode = some m →
    wellFormed (accessOp kind la n v) = true → (m = .ia32e → canonical la = true) →
    (m = .pae → p.pdptrValid = true) → s.choices = c0 :: cs → c0.pause = false → c0.hit = some k →
    (tlbFor p m (operandAddress (some m) la))[k]? = some e →
    allowed p.wp kind p.cpl e.rw e.us e.xd = false →
    ∃ t q, exec (accessOp kind la n v) s = .next t ∧ t.mem = s.mem ∧
      t.trace = .pageFault s.current (operandAddress (some m) la) kind p.cpl :: s.trace ∧
      t.proc? = some q ∧ SameButLost q p ∧ NoneKeyed q (operandAddress (some m) la)

/-! ### Accesses in general -/

/-- R136 to R142, R150, R151, R153, R172, R173, R194: with no stale entry applying to the address, a READ or
FETCH that the structures in memory allow completes at the physical address they give, by whichever path
the processor takes: it returns the bytes there; it changes memory only by setting accessed bits of entries
that a walk for the address uses, and if no TLB entry applied, those of every entry of a walk to the leaf
are set; what it caches is made from such entries and agrees with memory. -/
def Obligations.AgreeingReadGoesWhereMemorySays : Prop :=
  ∀ (s : State) (p : Proc) (m : PMode) (kind : AccessKind) (la : LAddr) (n : Nat) (l : Leaf), Inv s →
    s.proc? = some p → p.mode = some m → kind ≠ .write → wellFormed (accessOp kind la n 0) = true →
    (m = .ia32e → canonical la = true) → Uninterrupted s →
    let la' := operandAddress (some m) la
    let pa := (leafAddress m l la').toNat
    AgreesWithMemory s.config s.mem p m la' → memoryWalk s.config s.mem p m la' = .leaf l →
    allowed p.wp kind p.cpl l.rw l.us l.xd = true → reaches s.config pa n = true →
    ∃ t q, exec (accessOp kind la n 0) s = .next t ∧ t.proc? = some q ∧
      t.trace.head? = some (.value s.current kind la' n (t.mem.readLE pa n)) ∧
      AccessedBitsSet s.config p m la' s.mem t.mem ∧
      (tlbFor p m la' = [] → MarkedLeaf s.config s.mem t.mem p m la' l) ∧
      SameButCaches q p ∧ q.busy = p.busy ∧
      NewEntries s.config s.mem t.mem p m la' kind p.cpl q ∧
      AgreesWithMemory t.config t.mem q m la'

/-- R142, R152, R177, R139: with no stale entry applying to the address, a WRITE that the structures in
memory allow completes at the physical address they give: the n bytes there become those of v; outside them
memory changes only by accessed bits of entries that a walk for the address uses and, in the leaf entry's
first byte, the dirty bit, which is 1 afterwards unless the write itself stored over that byte, and so is
the leaf's accessed bit if no TLB entry applied. -/
def Obligations.AgreeingWriteGoesWhereMemorySays : Prop :=
  ∀ (s : State) (p : Proc) (m : PMode) (la : LAddr) (n v : Nat) (l : Leaf), Inv s →
    s.proc? = some p → p.mode = some m → wellFormed (.write la n v) = true →
    (m = .ia32e → canonical la = true) → Uninterrupted s →
    let la' := operandAddress (some m) la
    let pa := (leafAddress m l la').toNat
    AgreesWithMemory s.config s.mem p m la' → memoryWalk s.config s.mem p m la' = .leaf l →
    allowed p.wp .write p.cpl l.rw l.us l.xd = true → reaches s.config pa n = true →
    ∃ t q, exec (.write la n v) s = .next t ∧ t.proc? = some q ∧ t.trace = s.trace ∧
      SameButCaches q p ∧ q.busy = p.busy ∧
      (∀ j < n, t.mem.read (pa + j) = BitVec.ofNat 8 (v / 256 ^ j)) ∧
      (∀ b, b < pa ∨ pa + n ≤ b → b ≠ l.entry.toNat → t.mem.read b = s.mem.read b ∨
        (t.mem.read b = s.mem.read b ||| accessedByte ∧
          ∃ a, UsedEntry s.config s.mem p m la' a ∧ b = a.toNat)) ∧
      (l.entry.toNat < pa ∨ pa + n ≤ l.entry.toNat →
        (t.mem.read l.entry.toNat = s.mem.read l.entry.toNat ||| dirtyByte ∨
          t.mem.read l.entry.toNat = s.mem.read l.entry.toNat ||| accessedByte ||| dirtyByte) ∧
        (tlbFor p m la' = [] → Accessed t.mem l.entry))

/-- R401, R402, R237: with no stale entry applying to the address, an access that the structures in memory
do not allow page-faults, by whichever path: the operation is not executed, memory changes only by accessed
bits of entries that a walk for the address uses, no entry keyed for the address is left, and the processor
is otherwise as before, but for entries it may have lost. -/
def Obligations.AgreeingAccessFaultsWhereMemoryDenies : Prop :=
  ∀ (s : State) (p : Proc) (m : PMode) (kind : AccessKind) (la : LAddr) (n v : Nat), Inv s →
    s.proc? = some p → p.mode = some m → wellFormed (accessOp kind la n v) = true →
    (m = .ia32e → canonical la = true) → Uninterrupted s →
    let la' := operandAddress (some m) la
    AgreesWithMemory s.config s.mem p m la' →
    (memoryWalk s.config s.mem p m la' = .notPresent ∨
      ∃ l, memoryWalk s.config s.mem p m la' = .leaf l ∧
        allowed p.wp kind p.cpl l.rw l.us l.xd = false) →
    ∃ t q, exec (accessOp kind la n v) s = .next t ∧ t.proc? = some q ∧
      t.trace = .pageFault s.current la' kind p.cpl :: s.trace ∧
      AccessedBitsSet s.config p m la' s.mem t.mem ∧ SameButLost q p ∧ NoneKeyed q la'

/-- R82, R96 (the spec's own decisions D17, D8): with no stale entry applying to the address, an access
whose walk reads a present entry with a refused bit is refused, and one whose walk leaves the populated
range has no successor state, nor has one that is allowed but whose data address lies outside it, with
paging on or off (R155, D33). -/
def Obligations.AgreeingAccessStopsWhereMemoryStops : Prop :=
  (∀ (s : State) (p : Proc) (m : PMode) (kind : AccessKind) (la : LAddr) (n v : Nat), Inv s →
    s.proc? = some p → p.mode = some m → wellFormed (accessOp kind la n v) = true →
    (m = .ia32e → canonical la = true) → Uninterrupted s →
    let la' := operandAddress (some m) la
    AgreesWithMemory s.config s.mem p m la' →
    (memoryWalk s.config s.mem p m la' = .refused →
      exec (accessOp kind la n v) s = .refused .reservedBit) ∧
    (memoryWalk s.config s.mem p m la' = .outside →
      exec (accessOp kind la n v) s = .fault .outsideMemRange) ∧
    (∀ l, memoryWalk s.config s.mem p m la' = .leaf l →
      allowed p.wp kind p.cpl l.rw l.us l.xd = true →
      reaches s.config (leafAddress m l la').toNat n = false →
      exec (accessOp kind la n v) s = .fault .outsideMemRange)) ∧
  ∀ (s : State) (p : Proc) (kind : AccessKind) (la : LAddr) (n v : Nat), s.proc? = some p →
    p.pg = false → wellFormed (accessOp kind la n v) = true →
    reaches s.config (la.toNat % 2 ^ 32) n = false →
    exec (accessOp kind la n v) s = .fault .outsideMemRange

/-- R237, R401, R331: whatever was cached, if an access page-faults then afterwards no entry keyed for the
address is left, memory changed only by accessed bits of entries that a walk for the address uses, and
nothing else of the processor changed but entries it may have lost: no register, the PDPTR registers among
them, and no entry appeared. -/
def Obligations.PageFaultInvalidatesItsAddress : Prop :=
  ∀ (s t : State) (p : Proc) (m : PMode) (kind : AccessKind) (la la' : LAddr) (n v x : Nat) (c : Cpl),
    Inv s → s.proc? = some p → p.mode = some m → exec (accessOp kind la n v) s = .next t →
    t.trace = .pageFault x la' kind c :: s.trace →
    x = s.current ∧ la' = operandAddress (some m) la ∧ c = p.cpl ∧
    AccessedBitsSet s.config p m la' s.mem t.mem ∧
    ∃ q, t.proc? = some q ∧ SameButLost q p ∧ NoneKeyed q la'

/-- R238: right after a page fault no cached entry applies to its address, and the fault will not recur
if the operation is issued again and the fault would not be caused by the contents of the paging
structures in memory: whatever caused the first one. -/
def Obligations.SpuriousPageFaultDoesNotRecur : Prop :=
  ∀ (s t u : State) (p q : Proc) (m : PMode) (kind : AccessKind) (la la' : LAddr) (n v x y : Nat)
    (c d : Cpl) (l : Leaf), Inv s → s.proc? = some p → p.mode = some m →
    exec (accessOp kind la n v) s = .next t → t.trace = .pageFault x la' kind c :: s.trace →
    t.proc? = some q →
    NoneApplies q m la' ∧
    (memoryWalk t.config t.mem q m la' = .leaf l → allowed q.wp kind q.cpl l.rw l.us l.xd = true →
      exec (accessOp kind la n v) t = .next u → u.trace ≠ .pageFault y la' kind d :: t.trace)

/-- R173, R286, R191 to R198, R39, R41, R139, R142, R172, R194: whatever an access adds to the four sets is
made for its own address, with the current mode, from the entries of a walk through memory whose accessed
bits are set before it is added; a TLB entry is global only with CR4.PGE = 1. Memory changes, before the
data are stored, only by accessed bits of entries that a walk for the address uses and, for an allowed
write, the dirty bit of its leaf; a WRITE that completes then stores its n bytes at an address to which the
processor may translate. -/
def Obligations.AccessCachesItsOwnAddressOnly : Prop :=
  ∀ (s t : State) (p q : Proc) (m : PMode) (kind : AccessKind) (la : LAddr) (n v : Nat), Inv s →
    s.proc? = some p → p.mode = some m → exec (accessOp kind la n v) s = .next t →
    t.proc? = some q →
    let la' := operandAddress (some m) la
    (∀ e ∈ q.tlb, e ∈ p.tlb ∨
      (e.covers la' = true ∧ e.mode = m ∧ (e.global = true → p.pge = true))) ∧
    ∃ mem1, NewEntries s.config s.mem mem1 p m la' kind p.cpl q ∧
      (kind ≠ .write → AccessedBitsSet s.config p m la' s.mem mem1 ∧ t.mem = mem1) ∧
      (kind = .write → WriteBitsSet s.config p m la' p.cpl s.mem mem1 ∧
        (t.mem = mem1 ∨ ∃ pa, TranslatesTo s.config s.mem p m la' .write p.cpl pa ∧
          reaches s.config pa.toNat n = true ∧ t.mem = mem1.writeLE pa.toNat n v))

/-- R137, R150 (the spec's decision D10; the choices that pause are the model's, log 4): between two steps
of an access other agents may act: an access that pauses is kept with the partial translation it carries,
and when its processor's software moves again, it goes on from there, with memory as it is then: an access
that has not begun translates as the operation afresh; a walk reads the entry that its partial translation
leads to; a translated one moves its data at the address it has. -/
def Obligations.PausedAccessGoesOn : Prop :=
  ∀ (s : State) (k : Nat) (p : Proc) (m : PMode) (a : Access) (c : Choice) (cs : List Choice)
    (es : List Event), s.schedule = .software k :: es → s.procs[k]? = some p → p.halted = false →
    p.mode = some m → s.choices = c :: cs → a.demand = true →
    let idle := { p with busy := none }
    (∀ (kind : AccessKind) (la : LAddr) (n v : Nat), s.current = k → c.pause = true →
      wellFormed (accessOp kind la n v) = true → (m = .ia32e → canonical la = true) →
      (kind ≠ .write → v = 0) →
      exec (accessOp kind la n v) s = .next { s with
        choices := cs
        procs := s.procs.set k
          { p with busy := some (newAccess kind (operandAddress (some m) la) n v p.cpl) } }) ∧
    (p.busy = some a → c.pause = true →
      step s = .next { s with schedule := es, current := k, choices := cs }) ∧
    (∀ (kind : AccessKind) (la : LAddr) (n v : Nat), p.busy = some a →
      a = newAccess kind (operandAddress (some m) la) n v p.cpl → (kind ≠ .write → v = 0) →
      wellFormed (accessOp kind la n v) = true → (m = .ia32e → canonical la = true) →
      step s = exec (accessOp kind la n v)
        { s with schedule := es, current := k, procs := s.procs.set k idle }) ∧
    (∀ (t : Partial) (c2 : Choice) (cs2 : List Choice), p.busy = some a → a.phase = .walk t false →
      c.pause = false → c.commit = true → cs = c2 :: cs2 → c2.pause = true →
      let e := entryAddress m t a.la
      let parked (ph : Phase) (q : Proc) (mem : Memory) : State :=
        { s with
          schedule := es
          current := k
          choices := cs2
          mem := mem
          procs := s.procs.set k { q with busy := some { a with phase := ph } } }
      (∀ t', WalkSees s.config s.mem p m a.la t (.next t') →
        step s = .next (parked (.walk t' false) (if c.keep then p.keepPartial m a.la t' else p)
          (setEntryBits s.mem m e accessedMask))) ∧
      (∀ l, WalkSees s.config s.mem p m a.la t (.leaf l) →
        allowed p.wp a.kind a.cpl l.rw l.us l.xd = true →
        step s = .next (parked (.translated (leafAddress m l a.la))
          (p.keepLeaf m a.la (leafAfter p a.kind a.cpl l) c.keep c.keepPiece)
          (setEntryBits s.mem m e
            (if a.kind = .write then accessedDirtyMask else accessedMask)))) ∧
      (WalkSees s.config s.mem p m a.la t .notPresent →
        ∃ u q, step s = .next u ∧ u.mem = s.mem ∧ u.procs[k]? = some q ∧ SameButLost q idle ∧
          NoneKeyed q a.la ∧ u.trace = .pageFault k a.la a.kind a.cpl :: s.trace)) ∧
    (∀ pa, p.busy = some a → a.phase = .translated pa → c.pause = false →
      reaches s.config pa.toNat a.n = true →
      ∃ u, step s = .next u ∧ u.procs = s.procs.set k idle ∧
        (a.kind = .write → u.mem = s.mem.writeLE pa.toNat a.n a.v ∧ u.trace = s.trace) ∧
        (a.kind ≠ .write → u.mem = s.mem ∧
          u.trace.head? = some (.value k a.kind a.la a.n (s.mem.readLE pa.toNat a.n))))

/-- R133 (refusing is the spec's decision D38): in IA-32e mode an access, and INVLPG at CPL 0, with an
address that is not canonical is refused. -/
def Obligations.NonCanonicalAddressIsRefused : Prop :=
  ∀ (s : State) (p : Proc) (la : LAddr), s.proc? = some p → p.mode = some .ia32e →
    (∃ i, 48 ≤ i ∧ i < 64 ∧ la.getLsbD i ≠ la.getLsbD 47) →
    (∀ (kind : AccessKind) (n v : Nat), wellFormed (accessOp kind la n v) = true →
      exec (accessOp kind la n v) s = .refused .nonCanonical) ∧
    (p.cpl = 0 → ∀ md rm tail, exec (.invlpg md rm tail la) s = .refused .nonCanonical)

/-! ### The translation hardware on its own -/

/-- R156, R403 (that an aborted access invalidates nothing is derived by the spec), R142, R172, R173, R194,
R196 to R198: a speculative access never page-faults, never stores data, never sets a dirty bit and
invalidates nothing: with paging off it does nothing; otherwise memory changes only by accessed bits of
entries that a walk for its address uses, no register changes, no cached entry is lost, the entries it adds
are for its own address and the current mode, made from entries whose accessed bits are set, and agree with
memory if no stale entry applied before; the only event it can deliver is the side effect of its read, at
an address to which the processor may translate it. -/
def Obligations.SpeculationOnlySetsAccessedBits : Prop :=
  ∀ (s t : State) (k : Nat) (la : LAddr) (kind : AccessKind) (cpl : Cpl) (n : Nat) (es : List Event),
    Inv s → s.schedule = .speculate k la kind cpl n :: es → step s = .next t →
    (∀ j, j ≠ k → t.procs[j]? = s.procs[j]?) ∧
    (s.procs[k]? = none → t = { s with schedule := es }) ∧
    ∀ p, s.procs[k]? = some p →
      (p.mode = none → t = { s with schedule := es }) ∧
      ∀ m, p.mode = some m →
        let la' := operandAddress (some m) la
        AccessedBitsSet s.config p m la' s.mem t.mem ∧
        (t.trace = s.trace ∨ ∃ pa : PAddr, TranslatesTo s.config s.mem p m la' kind cpl pa ∧
          touchesSideEffect s.config pa.toNat n = true ∧
          t.trace = .sideEffect k pa.toNat n :: s.trace) ∧
        ∃ q, t.procs[k]? = some q ∧ SameButCaches q p ∧ q.busy = p.busy ∧ NoneLost p q ∧
          NewEntries s.config s.mem t.mem p m la' kind cpl q ∧
          (AgreesWithMemory s.config s.mem p m la' → AgreesWithMemory t.config t.mem q m la')

/-- R196 to R199, R173, R139, R172, R194, R286: a fill sets accessed bits of entries that a walk for its
address uses and adds cached entries made from them, for its own address and the current mode, agreeing
with memory if no stale entry applied before, and does nothing else. And a fill that starts at a partial
translation t and takes one step sets the accessed bit of the entry it reads, and keeps what the entry
gives if the processor chooses to: a partial translation in the matching paging-structure cache, a leaf in
the TLB. That a fill with a leaf outside the populated range completes is the model's choice (log 18). -/
def Obligations.FillOnlySetsAccessedBits : Prop :=
  (∀ (s t : State) (k : Nat) (la : LAddr) (steps : Nat) (es : List Event), Inv s →
    s.schedule = .fill k la steps :: es → step s = .next t →
    t.trace = s.trace ∧ (∀ j, j ≠ k → t.procs[j]? = s.procs[j]?) ∧
    (s.procs[k]? = none → t = { s with schedule := es }) ∧
    ∀ p, s.procs[k]? = some p →
      (p.mode = none → t = { s with schedule := es }) ∧
      ∀ m, p.mode = some m →
        let la' := operandAddress (some m) la
        AccessedBitsSet s.config p m la' s.mem t.mem ∧
        ∃ q, t.procs[k]? = some q ∧ SameButCaches q p ∧ q.busy = p.busy ∧ NoneLost p q ∧
          NewEntries s.config s.mem t.mem p m la' .read 0 q ∧
          (AgreesWithMemory s.config s.mem p m la' → AgreesWithMemory t.config t.mem q m la')) ∧
  ∀ (s : State) (k : Nat) (p : Proc) (m : PMode) (la : LAddr) (t : Partial) (c0 c1 : Choice)
    (cs : List Choice) (es : List Event), Inv s → s.schedule = .fill k la 2 :: es →
    s.procs[k]? = some p → p.mode = some m → (m = .ia32e → canonical la = true) →
    s.choices = c0 :: c1 :: cs → c0.hit = none →
    let la' := operandAddress (some m) la
    let a := entryAddress m t la'
    startPartial p m la' c0.start = some t →
    (∀ t', WalkSees s.config s.mem p m la' t (.next t') →
      ∃ u, step s = .next u ∧ Accessed u.mem a ∧ u.mem = setEntryBits s.mem m a accessedMask ∧
        u.procs = s.procs.set k (if c1.keep then p.keepPartial m la' t' else p)) ∧
    (∀ l, WalkSees s.config s.mem p m la' t (.leaf l) →
      ∃ u, step s = .next u ∧ Accessed u.mem a ∧ u.mem = setEntryBits s.mem m a accessedMask ∧
        u.procs = s.procs.set k (p.keepLeaf m la' l c1.keep c1.keepPiece))

/-- R241, R331: spontaneous invalidation only removes cached entries; the PDPTR registers are not
subject to it. -/
def Obligations.SpontaneousInvalidationOnlyRemoves : Prop :=
  ∀ (s : State) (k : Nat) (p : Proc) (which : Removal) (es : List Event),
    s.schedule = .drop k which :: es → s.procs[k]? = some p →
    ∃ q, step s = .next { s with schedule := es, procs := s.procs.set k q } ∧ SameButLost q p

/-- R234, R240, R241: whatever an invalidation requires to go, any further entries of the four sets may go
with it, and no others need: for any set of further entries some value of the choice removes exactly the
required and the further ones. So INVLPG may remove any further entries, and spontaneous invalidation any
entries at all. -/
def Obligations.EverySupersetCanBeRemoved : Prop :=
  (∀ (p : Proc) (req more : Req),
    ∃ extra : Removal, p.invalidate req extra = p.without (req.or more)) ∧
  (∀ (s : State) (p : Proc) (md : BitVec 2) (rm : BitVec 3) (tail : Tail) (la : LAddr) (more : Req)
    (cs : List Choice), s.proc? = some p → p.cpl = 0 →
    (p.mode = some .ia32e → canonical la = true) →
    ∃ c : Choice, exec (.invlpg md rm tail la) { s with choices := c :: cs } =
      .next { s with
        choices := cs
        procs := s.procs.set s.current (p.without ((invlpgReq s.config p la).or more)) }) ∧
  ∀ (s : State) (k : Nat) (p : Proc) (more : Req) (es : List Event), s.procs[k]? = some p →
    ∃ which : Removal, step { s with schedule := .drop k which :: es } =
      .next { s with schedule := es, procs := s.procs.set k (p.without more) }

/-! ### The invalidating instructions -/

/-- R231, R288, R301 (that it neither translates nor accesses its operand is D39, log 37; CPL 0 is D18,
log 28): at CPL 0, with a canonical operand in IA-32e mode, INVLPG completes: no TLB entry that covers the
address is left, global or not, nor any piece of the large page it lies in; with `InvlpgSelective` false
all entries of the paging-structure caches are gone; nothing else changes but
further removals. -/
def Obligations.InvlpgRemovesItsAddress : Prop :=
  ∀ (s : State) (p : Proc) (md : BitVec 2) (rm : BitVec 3) (tail : Tail) (la : LAddr),
    s.proc? = some p → p.cpl = 0 → (p.mode = some .ia32e → canonical la = true) →
    ∃ t q, exec (.invlpg md rm tail la) s = .next t ∧ t.proc? = some q ∧
      (∀ e ∈ q.tlb, e.covers (operandAddress p.mode la) = false ∧
        e.pieceOfLargePage (operandAddress p.mode la) = false) ∧
      (s.config.invlpgSelective = false → q.pml4c = [] ∧ q.pdpc = [] ∧ q.pdec = []) ∧ SameButLost q p ∧
      t.mem = s.mem ∧ t.trace = s.trace ∧ SameElsewhere t s

/-- R392: with `InvlpgSelective` true INVLPG removes the same TLB entries, but of the paging-structure
caches only the entries for its address in the current paging mode. -/
def Obligations.SelectiveInvlpgRemovesItsAddress : Prop :=
  ∀ (s : State) (p : Proc) (m : PMode) (md : BitVec 2) (rm : BitVec 3) (tail : Tail) (la : LAddr),
    s.proc? = some p → p.cpl = 0 → p.mode = some m → (m = .ia32e → canonical la = true) →
    s.config.invlpgSelective = true →
    ∃ t q, exec (.invlpg md rm tail la) s = .next t ∧ t.proc? = some q ∧
      (∀ e ∈ q.tlb, e.covers (operandAddress (some m) la) = false ∧
        e.pieceOfLargePage (operandAddress (some m) la) = false) ∧
      (m = .ia32e → ∀ c ∈ q.pml4c, c.key ≠ pml4Key la) ∧
      (m = .ia32e → ∀ c ∈ q.pdpc, c.key ≠ pdpKey la) ∧
      (∀ c ∈ q.pdec, c.mode = m → c.key ≠ pdeKey m (operandAddress (some m) la)) ∧
      SameButLost q p ∧ t.mem = s.mem ∧ t.trace = s.trace ∧ SameElsewhere t s

/-- R392, R234: with no further removal chosen, the selective INVLPG keeps every paging-structure-cache
entry for another address or another mode, and INVLPG of either kind every TLB entry it is not required
to remove. -/
def Obligations.InvlpgNeedRemoveNoMore : Prop :=
  ∀ (s : State) (p : Proc) (m : PMode) (md : BitVec 2) (rm : BitVec 3) (tail : Tail) (la : LAddr)
    (c : Choice) (cs : List Choice), s.proc? = some p → p.cpl = 0 → p.mode = some m →
    (m = .ia32e → canonical la = true) → s.choices = c :: cs → c.extra = ⟨0, 0, 0, 0⟩ →
    ∃ t q, exec (.invlpg md rm tail la) s = .next t ∧ t.proc? = some q ∧
      (∀ e ∈ p.tlb, e.covers (operandAddress (some m) la) = false →
        e.pieceOfLargePage (operandAddress (some m) la) = false → e ∈ q.tlb) ∧
      (s.config.invlpgSelective = true →
        (∀ x ∈ p.pml4c, m ≠ .ia32e ∨ x.key ≠ pml4Key la → x ∈ q.pml4c) ∧
        (∀ x ∈ p.pdpc, m ≠ .ia32e ∨ x.key ≠ pdpKey la → x ∈ q.pdpc) ∧
        (∀ x ∈ p.pdec, x.mode ≠ m ∨ x.key ≠ pdeKey m (operandAddress (some m) la) → x ∈ q.pdec))

/-- R230, R242, R451, R139: after an INVLPG (`InvlpgSelective` false) for the address, a read or fetch of
it on the same processor, at any CPL, goes where the structures in memory say, in every run: by a walk from
the root, whose entries all have their accessed bits set afterwards; memory changes by nothing else. -/
def Obligations.ReadAfterInvlpgGoesWhereMemorySays : Prop :=
  ∀ (s t : State) (p q : Proc) (m : PMode) (kind : AccessKind) (md : BitVec 2) (rm : BitVec 3)
    (tail : Tail) (la : LAddr) (n : Nat) (c : Cpl) (l : Leaf), Inv s → s.proc? = some p →
    p.cpl = 0 → p.mode = some m → s.config.invlpgSelective = false → kind ≠ .write →
    wellFormed (accessOp kind la n 0) = true → exec (.invlpg md rm tail la) s = .next t →
    t.proc? = some q → Uninterrupted t →
    let la' := operandAddress (some m) la
    let pa := (leafAddress m l la').toNat
    memoryWalk t.config t.mem q m la' = .leaf l → allowed q.wp kind c l.rw l.us l.xd = true →
    reaches t.config pa n = true →
    ∃ u, exec (accessOp kind la n 0) (t.setProc { q with cpl := c }) = .next u ∧
      u.trace.head? = some (.value s.current kind la' n (u.mem.readLE pa n)) ∧ t.mem = s.mem ∧
      AccessedBitsSet s.config { q with cpl := c } m la' s.mem u.mem ∧
      MarkedLeaf s.config s.mem u.mem { q with cpl := c } m la' l

/-- R232, R330, R38, R113: at CPL 0, and if a PDPTR load is needed with a loadable table, MOV to CR3
completes: CR3 has the value, all 64 bits in 64-bit mode and the low 32 outside it (64-bit mode is LMA = 1,
log 45), the PDPTR registers hold the table that it locates if LMA = 0 and CR4.PAE = 1, every TLB entry
left is global, the paging-structure caches are empty; nothing else changes. -/
def Obligations.MovToCr3Completes : Prop :=
  ∀ (s : State) (p : Proc) (md : BitVec 2) (rm : BitVec 3) (v : BitVec 64), s.proc? = some p →
    p.cpl = 0 → (cr3LoadsPdptrs p = true → PdptrsLoadable s.config s.mem v) →
    ∃ t q, exec (.movToCr3 md rm v) s = .next t ∧ t.proc? = some q ∧
      SameButLost q { p.withPdptrs (cr3LoadsPdptrs p) s.mem v with cr3 := crOperand p v } ∧
      (p.lma = true → q.cr3 = v) ∧ (p.lma = false → q.cr3.toNat = v.toNat % 2 ^ 32) ∧
      (∀ e ∈ q.tlb, e.global = true) ∧ q.pml4c = [] ∧ q.pdpc = [] ∧ q.pdec = [] ∧
      t.mem = s.mem ∧ t.trace = s.trace ∧ SameElsewhere t s

/-- R302: MOV to CR3 may or may not invalidate global TLB entries: with no further removal chosen every
one of them is still there, and with the removal of all TLB entries chosen none is. -/
def Obligations.MovToCr3MayOrMayNotRemoveGlobals : Prop :=
  ∀ (s : State) (p : Proc) (md : BitVec 2) (rm : BitVec 3) (v : BitVec 64) (c : Choice)
    (cs : List Choice), s.proc? = some p → p.cpl = 0 →
    (cr3LoadsPdptrs p = true → PdptrsLoadable s.config s.mem v) → s.choices = c :: cs →
    ∃ t q, exec (.movToCr3 md rm v) s = .next t ∧ t.proc? = some q ∧
      (c.extra = ⟨0, 0, 0, 0⟩ → ∀ e ∈ p.tlb, e.global = true → e ∈ q.tlb) ∧
      (c.extra.tlb = 2 ^ p.tlb.length - 1 → q.tlb = [])

/-- R233, R303, R304, R330: at CPL 0, not clearing PAE with LMA = 1, and if a PDPTR load is needed with
a loadable table, MOV to CR4 completes: PSE, PAE and PGE are bits 4, 5 and 7 of the value, the PDPTR
registers are loaded under the condition of R330, and if PGE is modified, in either direction, every
cached entry is gone. -/
def Obligations.MovToCr4Completes : Prop :=
  ∀ (s : State) (p : Proc) (md : BitVec 2) (rm : BitVec 3) (v : BitVec 64), s.proc? = some p →
    p.cpl = 0 → (p.lma = true → v.getLsbD 5 = true) →
    (cr4LoadsPdptrs p v = true → PdptrsLoadable s.config s.mem p.cr3) →
    ∃ t q, exec (.movToCr4 md rm v) s = .next t ∧ t.proc? = some q ∧
      SameButLost q
        { p.withPdptrs (cr4LoadsPdptrs p v) s.mem p.cr3 with
          pse := v.getLsbD 4, pae := v.getLsbD 5, pge := v.getLsbD 7 } ∧
      (p.pge ≠ v.getLsbD 7 → q.nothingCached) ∧
      t.mem = s.mem ∧ t.trace = s.trace ∧ SameElsewhere t s

/-- R25: with LMA = 1 a MOV to CR4 that would clear PAE has no successor state. -/
def Obligations.ClearingPaeInIa32eModeIsStuck : Prop :=
  ∀ (s : State) (p : Proc) (md : BitVec 2) (rm : BitVec 3) (v : BitVec 64), s.proc? = some p →
    p.cpl = 0 → p.lma = true → v.getLsbD 5 = false →
    exec (.movToCr4 md rm v) s = .fault .paeClearedInIA32e

/-- R340, R330: at CPL 0, and if a PDPTR load is needed with a loadable table, MOV to CR0 completes: PG
and WP are bits 31 and 16 of the value, the PDPTR registers are loaded if PG is modified, in either
direction, with LMA = 0 and CR4.PAE = 1; nothing else changes but removals the processor is free to
make. -/
def Obligations.MovToCr0Completes : Prop :=
  ∀ (s : State) (p : Proc) (md : BitVec 2) (rm : BitVec 3) (v : BitVec 64), s.proc? = some p →
    p.cpl = 0 → (cr0LoadsPdptrs p v = true → PdptrsLoadable s.config s.mem p.cr3) →
    ∃ t q, exec (.movToCr0 md rm v) s = .next t ∧ t.proc? = some q ∧
      SameButLost q
        { p.withPdptrs (cr0LoadsPdptrs p v) s.mem p.cr3 with
          pg := v.getLsbD 31, wp := v.getLsbD 16 } ∧
      t.mem = s.mem ∧ t.trace = s.trace ∧ SameElsewhere t s

/-- R235, R233, R340 (the spec's decision D22): a MOV to CR0, and a MOV to CR4 that leaves PGE
unchanged, need invalidate nothing: with no further removal chosen every cached entry is still there. -/
def Obligations.OtherMovsNeedRemoveNothing : Prop :=
  ∀ (s t : State) (p q : Proc) (i : Instr) (c : Choice) (cs : List Choice), s.proc? = some p →
    p.cpl = 0 → s.choices = c :: cs → c.extra = ⟨0, 0, 0, 0⟩ →
    ((∃ md rm v, i = .movToCr0 md rm v) ∨ ∃ md rm v, i = .movToCr4 md rm v ∧ v.getLsbD 7 = p.pge) →
    exec i s = .next t → t.proc? = some q →
    q.tlb = p.tlb ∧ q.pml4c = p.pml4c ∧ q.pdpc = p.pdpc ∧ q.pdec = p.pdec

/-- R332, R405 (that the fault changes nothing is the spec's decision D19): a MOV to CR0, CR3 or CR4 that
would load a PDPTR with a must-be-zero bit set, whatever that PDPTR's present bit, faults: the event is
delivered and nothing else changes. With none such, but a refused bit set in a present PDPTR, it is refused
(R332, R82, D17); with a table outside the populated range it has no successor state (R96, D8). -/
def Obligations.FaultyPdptrFaultsAndChangesNothing : Prop :=
  ∀ (s : State) (p : Proc) (md : BitVec 2) (rm : BitVec 3) (v c : BitVec 64) (i : Instr),
    s.proc? = some p → p.cpl = 0 →
    (i = .movToCr3 md rm v ∧ c = v ∧ cr3LoadsPdptrs p = true ∨
      i = .movToCr4 md rm v ∧ c = p.cr3 ∧ cr4LoadsPdptrs p v = true ∨
      i = .movToCr0 md rm v ∧ c = p.cr3 ∧ cr0LoadsPdptrs p v = true) →
    (PdptrsFaulty s.config s.mem c →
      exec i s = .next { s with trace := .pdptrLoad s.current :: s.trace }) ∧
    (PdptrsReserved s.config s.mem c → exec i s = .refused .reservedBit) ∧
    (PdptrsOutside s.config c → exec i s = .fault .outsideMemRange)

/-- R406 (general knowledge in the spec, D18): INVLPG, MOV to CR0, CR3 and CR4, and HLT at a CPL other
than 0 raise general protection: the event is delivered and nothing else changes. -/
def Obligations.PrivilegedOperationsFaultAboveCplZero : Prop :=
  ∀ (s : State) (p : Proc) (i : Instr), s.proc? = some p → p.cpl ≠ 0 →
    ((∃ md rm tail la, i = .invlpg md rm tail la) ∨ (∃ md rm v, i = .movToCr3 md rm v) ∨
      (∃ md rm v, i = .movToCr4 md rm v) ∨ (∃ md rm v, i = .movToCr0 md rm v) ∨ i = .hlt) →
    exec i s = .next { s with trace := .generalProtection s.current :: s.trace }

/-! ### HLT, CPUID, MOV from CRn -/

/-- R376 (CPL 0 is general knowledge in the spec, D18): at CPL 0 HLT completes: the processor is halted
and nothing else changes. -/
def Obligations.HltHalts : Prop :=
  ∀ (s : State) (p : Proc), s.proc? = some p → p.cpl = 0 →
    exec .hlt s = .next { s with procs := s.procs.set s.current { p with halted := true } }

/-- R158, R406: CPUID completes at every CPL: it returns MAXPHYADDR and PSE36 and changes no state. -/
def Obligations.CpuidReturnsTheParameters : Prop :=
  ∀ (s : State) (p : Proc), s.proc? = some p →
    exec .cpuid s = .next
      { s with trace := .cpuid s.current s.config.maxPhyAddr s.config.pse36 :: s.trace }

/-- R113 (log 28, log 29: that the value is reported, and at every CPL, is the model's choice; 64-bit mode
is LMA = 1, log 45): MOV from CRn completes, changes no memory and no processor, and the bits of the value
that the spec describes are those of the register, whatever the free value of the others; outside 64-bit
mode the value has 32 bits. -/
def Obligations.MovFromCrnReadsTheRegister : Prop :=
  ∀ (s : State) (p : Proc) (md : BitVec 2) (cr : CrNum) (rm : BitVec 3), s.proc? = some p →
    ∃ t v, exec (.movFromCrn md cr rm) s = .next t ∧
      t.trace = .controlRegister s.current cr v :: s.trace ∧ t.mem = s.mem ∧ t.procs = s.procs ∧
      (cr = .cr0 → v.getLsbD 31 = p.pg ∧ v.getLsbD 16 = p.wp) ∧
      (cr = .cr3 → p.lma = true → v = p.cr3) ∧
      (cr = .cr3 → p.lma = false → v.toNat = p.cr3.toNat % 2 ^ 32) ∧
      (cr = .cr4 → v.getLsbD 4 = p.pse ∧ v.getLsbD 5 = p.pae ∧ v.getLsbD 7 = p.pge) ∧
      (p.lma = false → v.toNat < 2 ^ 32)

/-! ### Modes, keys, formats, rights -/

/-- R131: the paging mode is determined by CR0.PG, IA32_EFER.LMA and CR4.PAE as the table says (its
impossible row left out). -/
def Obligations.PagingModeTable : Prop :=
  ∀ p : Proc, (p.pg = false → p.mode = none) ∧
    (p.pg = true → p.lma = false → p.pae = false → p.mode = some .legacy32) ∧
    (p.pg = true → p.lma = false → p.pae = true → p.mode = some .pae) ∧
    (p.pg = true → p.lma = true → p.pae = true → p.mode = some .ia32e)

/-- R141: an access is allowed iff none of the four cases holds. -/
def Obligations.AccessCheckDeniesTheFourCases : Prop :=
  ∀ (wp : Bool) (kind : AccessKind) (cpl : Cpl) (rw us xd : Bool),
    allowed wp kind cpl rw us xd = true ↔
      ¬(cpl = 3 ∧ us = false) ∧ ¬(kind = .write ∧ rw = false ∧ cpl = 3) ∧
      ¬(kind = .write ∧ rw = false ∧ wp = true) ∧ ¬(kind = .fetch ∧ xd = true)

/-- R208: the bits of the linear address that index each cache, in each paging mode, and the PDPTR
registers in PAE mode. -/
def Obligations.CacheIndexBits : Prop :=
  ∀ la : LAddr,
    (pml4Key la).toNat = la.toNat / 2 ^ 39 % 2 ^ 9 ∧
    (pdpKey la).toNat = la.toNat / 2 ^ 30 % 2 ^ 18 ∧
    (pdeKey .ia32e la).toNat = la.toNat / 2 ^ 21 % 2 ^ 27 ∧
    (pdeKey .pae la).toNat = la.toNat / 2 ^ 21 % 2 ^ 11 ∧
    (pdeKey .legacy32 la).toNat = la.toNat / 2 ^ 22 % 2 ^ 10 ∧
    (pageNumber .ia32e la).toNat = la.toNat / 2 ^ 12 % 2 ^ 36 ∧
    (pageNumber .pae la).toNat = la.toNat / 2 ^ 12 % 2 ^ 20 ∧
    (pageNumber .legacy32 la).toNat = la.toNat / 2 ^ 12 % 2 ^ 20 ∧
    (pdptrIndex la).toNat = la.toNat / 2 ^ 30 % 4

/-- R22, R135, R321, R191 to R193, R71, R72, R70: the root of a walk is at CR3[51:12] << 12 in IA-32e mode
and at CR3[31:12] << 12 in 32-bit paging (CR3's bit ranges are the spec's decision D25, log 24), and in PAE
mode at bits 35:12 of the PDPTR register that bits 31:30 of the linear address select, if it is present,
with read/write and user/supervisor 1 and execute-disable 0; a walk may start there or at a cached entry
that applies, with the entry's address and rights. The address of entry i of a structure at an aligned base
B is B + S*i, with S = 8 in IA-32e and PAE mode and 4 in 32-bit paging and i the field of the linear address
that the table of R71 gives for the structure in the mode, with no carry out of the structure, and the entry
is naturally aligned. -/
def Obligations.WalkStartsAndEntryAddresses : Prop :=
  (∀ (p : Proc) (la : LAddr),
    (∃ a, rootPartial p .ia32e la = some ⟨.l4, a, true, true, false⟩ ∧
      a.toNat = p.cr3.toNat / 2 ^ 12 % 2 ^ 40 * 2 ^ 12) ∧
    (∃ a, rootPartial p .legacy32 la = some ⟨.l2, a, true, true, false⟩ ∧
      a.toNat = p.cr3.toNat / 2 ^ 12 % 2 ^ 20 * 2 ^ 12) ∧
    (∀ q, [p.pdptr.q0, p.pdptr.q1, p.pdptr.q2, p.pdptr.q3][la.toNat / 2 ^ 30 % 4]? = some q →
      (q.toNat % 2 = 0 → rootPartial p .pae la = none) ∧
      (q.toNat % 2 = 1 → ∃ a, rootPartial p .pae la = some ⟨.l2, a, true, true, false⟩ ∧
        a.toNat = q.toNat / 2 ^ 12 % 2 ^ 24 * 2 ^ 12)) ∧
    ∀ m : PMode,
      startPartial p m la .root = rootPartial p m la ∧
      (∀ (k : Nat) (c : Pml4Entry), (pml4cFor p m la)[k]? = some c →
        startPartial p m la (.pml4c k) = some ⟨.l3, c.addr, c.rw, c.us, c.xd⟩) ∧
      (∀ (k : Nat) (c : PdpEntry), (pdpcFor p m la)[k]? = some c →
        startPartial p m la (.pdpc k) = some ⟨.l2, c.addr, c.rw, c.us, c.xd⟩) ∧
      (∀ (k : Nat) (c : PdeEntry), (pdecFor p m la)[k]? = some c →
        startPartial p m la (.pdec k) = some ⟨.l1, c.addr, c.rw, c.us, c.xd⟩)) ∧
  ∀ la : LAddr,
    (∀ (m : PMode) (t : Partial), t.addr.toNat % 4096 = 0 →
      (entryAddress m t la).toNat = t.addr.toNat + entrySize m * (entryIndex m t.next la).toNat ∧
      entrySize m * (entryIndex m t.next la).toNat < 4096 ∧
      (entryAddress m t la).toNat % entrySize m = 0) ∧
    entrySize .ia32e = 8 ∧ entrySize .pae = 8 ∧ entrySize .legacy32 = 4 ∧
    (entryIndex .ia32e .l4 la).toNat = la.toNat / 2 ^ 39 % 2 ^ 9 ∧
    (entryIndex .ia32e .l3 la).toNat = la.toNat / 2 ^ 30 % 2 ^ 9 ∧
    (entryIndex .ia32e .l2 la).toNat = la.toNat / 2 ^ 21 % 2 ^ 9 ∧
    (entryIndex .ia32e .l1 la).toNat = la.toNat / 2 ^ 12 % 2 ^ 9 ∧
    (entryIndex .pae .l2 la).toNat = la.toNat / 2 ^ 21 % 2 ^ 9 ∧
    (entryIndex .pae .l1 la).toNat = la.toNat / 2 ^ 12 % 2 ^ 9 ∧
    (entryIndex .legacy32 .l2 la).toNat = la.toNat / 2 ^ 22 % 2 ^ 10 ∧
    (entryIndex .legacy32 .l1 la).toNat = la.toNat / 2 ^ 12 % 2 ^ 10

/-- R73 to R85, R91, R136, R140, R280, R281, R300, R352: what the bits of an entry are to the walk that
reads it. Its value is the little-endian number of its 8 bytes, in 32-bit paging 4. Bit 0 is present; with
it 1, a bit that R82 does not describe and does not ignore (`RefusedBit`) refuses the entry (the spec's
decision D17, log 15); otherwise bit 1 is read/write, bit 2 user/supervisor, bit 63 execute-disable under
NXE = 1 and not in 32-bit paging. A PTE, and a PDE with bit 7 = 1 while CR4.PSE or CR4.PAE is 1 (that bit 7
is ignored otherwise is D36, log 39), is a leaf: its frame is `addressField` or `largeField`, bit 6 is dirty
and bit 8 is G (the spec's resolution C3, log 22), which makes TLB entries global while CR4.PGE = 1 (sampled
when they are made: D34, log 39). Every other entry leads to the next structure at `addressField`. The
offset of an access within a frame is bits 11:0 of the linear address, in a large frame bits 20:0, in 32-bit
paging 21:0, and the bits above are the large-page number. In 32-bit paging the large frame has the 36-bit
address whose high 4 bits are bits 16:13 of the PDE and whose low 10 bits are its bits 31:22 if PSE-36 is
reported, else the 32-bit address of bits 31:22. -/
def Obligations.EntryFormatsAndFrames : Prop :=
  (∀ (mem : Memory) (m : PMode) (a : PAddr),
    (readEntry mem m a).toNat < 256 ^ entrySize m ∧
    ∀ k < entrySize m, (readEntry mem m a).toNat / 256 ^ k % 256 = (mem.read (a.toNat + k)).toNat) ∧
  (∀ (cfg : Config) (p : Proc) (m : PMode) (t : Partial) (a : PAddr) (e : Entry), cfg.wf = true →
    (m = .ia32e ∨ t.next = .l2 ∨ t.next = .l1) →
    let seen := viewEntry cfg p m t a e
    let large := t.next == .l2 && e.getLsbD 7 && (p.pse || p.pae)
    let refused (k : Nat) : Prop := RefusedBit cfg p.nxe m t.next large k ∧ e.getLsbD k = true
    let rw := t.rw && e.getLsbD 1
    let us := t.us && e.getLsbD 2
    let xd := t.xd || (e.getLsbD 63 && p.nxe && m != .legacy32)
    (e.getLsbD 0 = false → seen = .notPresent) ∧
    (e.getLsbD 0 = true → (∃ k, refused k) → seen = .refused) ∧
    (e.getLsbD 0 = true → (∀ k, ¬ refused k) →
      (t.next = .l1 ∨ large = true → ∃ f : PAddr,
        seen = .leaf ⟨large, a, f, rw, us, xd, e.getLsbD 6, e.getLsbD 8⟩ ∧
        f.toNat = (if large then largeField cfg m e else addressField m e)) ∧
      (t.next ≠ .l1 → large = false → ∃ next b,
        seen = .next ⟨next, b, rw, us, xd⟩ ∧ b.toNat = addressField m e ∧
        (t.next = .l4 → next = .l3) ∧ (t.next = .l3 → next = .l2) ∧ (t.next = .l2 → next = .l1)))) ∧
  (∀ (p : Proc) (m : PMode) (la : LAddr) (l : Leaf),
    (tlbEntryOf p m la l).global = (p.pge && l.g) ∧ (pieceEntryOf p m la l).global = (p.pge && l.g)) ∧
  (∀ (cfg : Config) (e : Entry),
    (cfg.pse36 = true →
      (largeFrame cfg .legacy32 e).toNat =
        e.toNat / 2 ^ 13 % 2 ^ 4 * 2 ^ 32 + e.toNat / 2 ^ 22 % 2 ^ 10 * 2 ^ 22) ∧
    (cfg.pse36 = false → (largeFrame cfg .legacy32 e).toNat = e.toNat / 2 ^ 22 % 2 ^ 10 * 2 ^ 22)) ∧
  ∀ (m : PMode) (f : PAddr) (la : LAddr),
    (f.toNat % 2 ^ 12 = 0 →
      (frameAddress m .ord4k f la).toNat = f.toNat + la.toNat % 2 ^ 12 ∧
      (frameAddress m .ordFromLarge f la).toNat = f.toNat + la.toNat % 2 ^ 12) ∧
    (m = .legacy32 → f.toNat % 2 ^ 22 = 0 →
      (frameAddress m .large f la).toNat = f.toNat + la.toNat % 2 ^ 22) ∧
    (m ≠ .legacy32 → f.toNat % 2 ^ 21 = 0 →
      (frameAddress m .large f la).toNat = f.toNat + la.toNat % 2 ^ 21) ∧
    (largePageNumber .ia32e la).toNat = la.toNat / 2 ^ 21 % 2 ^ 27 ∧
    (largePageNumber .pae la).toNat = la.toNat / 2 ^ 21 % 2 ^ 11 ∧
    (largePageNumber .legacy32 la).toNat = la.toNat / 2 ^ 22 % 2 ^ 10

/-- R286, R287, R288, R231: an ordinary translation made from a large page gives, for every address of its
4-KByte piece, the physical address that the large-page translation gives. INVLPG is required to remove it,
and the large-page translation, exactly if its operand lies in the same large page; and after an INVLPG (at
CPL 0: D18, log 28) of any address of the large page, which completes, neither is left. -/
def Obligations.PieceOfLargePageTranslatesAlike : Prop :=
  ∀ (p : Proc) (m : PMode) (la la2 : LAddr) (l : Leaf), l.large = true →
    (pageNumber m la2 = pageNumber m la →
      frameAddress m .ordFromLarge (pieceEntryOf p m la l).frame la2 =
        frameAddress m .large (tlbEntryOf p m la l).frame la2) ∧
    (invlpgTlb la2 (pieceEntryOf p m la l) = true ↔ largePageNumber m la2 = largePageNumber m la) ∧
    (invlpgTlb la2 (tlbEntryOf p m la l) = true ↔ largePageNumber m la2 = largePageNumber m la) ∧
    ∀ (s : State) (o : Proc) (md : BitVec 2) (rm : BitVec 3) (tail : Tail), s.proc? = some o →
      o.cpl = 0 → o.mode = some m → (m = .ia32e → canonical la2 = true) →
      largePageNumber m la2 = largePageNumber m la →
      ∃ t q, exec (.invlpg md rm tail la2) s = .next t ∧ t.proc? = some q ∧
        pieceEntryOf p m la l ∉ q.tlb ∧ tlbEntryOf p m la l ∉ q.tlb
end

