-- ==== Sys2Proof/Laws/PerInstr.lean ====
section
/-! SUPPORT. Statements made once per instruction. `EncodeBounds`: a well-formed instruction has from 1 to
15 bytes (`30_encoding.md` R112), so a slot of `maxInstrBytes` bytes holds any of them. -/

namespace Sys2Proof.Laws

/-- The bytes of a well-formed instruction are at least 1 and at most 15; an operation without a bit
pattern has none (R117). -/
def EncodeBounds.Statement (i : Instr) : Prop :=
  ∀ (bytes : List Byte) (v : BitVec 64), wellFormed i = true → encode i = .code bytes v →
    1 ≤ bytes.length ∧ bytes.length ≤ maxInstrBytes

/-- A displacement has at most four bytes. -/
theorem EncodeBounds.disp_le (md : BitVec 2) (rm : BitVec 3) (sib : Byte) : dispLength md rm sib ≤ 4 := by
  unfold dispLength
  repeat' split
  all_goals omega

/-- A displacement of 16-bit addressing has at most two bytes. -/
theorem EncodeBounds.disp16_le (md : BitVec 2) (rm : BitVec 3) : dispLength16 md rm ≤ 2 := by
  unfold dispLength16
  repeat' split
  all_goals omega

/-- SIB and displacement together have at most five bytes. -/
theorem EncodeBounds.tail_le (md : BitVec 2) (rm : BitVec 3) (tail : Tail)
    (h : tailFits md rm tail = true) : tail.bytes.length ≤ 5 := by
  unfold tailFits at h
  split at h
  · have := disp16_le md rm
    simp only [beq_iff_eq] at h
    omega
  · split at h
    · split at h
      · cases h
      · rename_i sib disp hb
        have := disp_le md rm sib
        simp only [beq_iff_eq] at h
        simp only [hb, List.length_cons]
        omega
    · have := disp_le md rm 0
      simp only [beq_iff_eq] at h
      omega

theorem EncodeBounds.read (la : LAddr) (n : Nat) : EncodeBounds.Statement (.read la n) := by
  intro bytes v _ h
  cases h

theorem EncodeBounds.write (la : LAddr) (n v : Nat) : EncodeBounds.Statement (.write la n v) := by
  intro bytes v _ h
  cases h

theorem EncodeBounds.fetch (la : LAddr) (n : Nat) : EncodeBounds.Statement (.fetch la n) := by
  intro bytes v _ h
  cases h

theorem EncodeBounds.invlpg (md : BitVec 2) (rm : BitVec 3) (tail : Tail) (la : LAddr) :
    EncodeBounds.Statement (.invlpg md rm tail la) := by
  intro bytes v hw h
  have ht : tailFits md rm tail = true := by
    simp only [wellFormed, illFormed] at hw
    split at hw
    · cases hw
    · split at hw
      · assumption
      · cases hw
  have := tail_le md rm tail ht
  cases h
  unfold instrBytes
  split <;> simp only [opcodeBytes, List.length_cons, maxInstrBytes] <;> omega

theorem EncodeBounds.movToCr3 (md : BitVec 2) (rm : BitVec 3) (v : BitVec 64) :
    EncodeBounds.Statement (.movToCr3 md rm v) := by
  intro bytes v _ h
  cases h
  simp [instrBytes, usesAddr16, opcodeBytes, maxInstrBytes]

theorem EncodeBounds.movToCr4 (md : BitVec 2) (rm : BitVec 3) (v : BitVec 64) :
    EncodeBounds.Statement (.movToCr4 md rm v) := by
  intro bytes v _ h
  cases h
  simp [instrBytes, usesAddr16, opcodeBytes, maxInstrBytes]

theorem EncodeBounds.movToCr0 (md : BitVec 2) (rm : BitVec 3) (v : BitVec 64) :
    EncodeBounds.Statement (.movToCr0 md rm v) := by
  intro bytes v _ h
  cases h
  simp [instrBytes, usesAddr16, opcodeBytes, maxInstrBytes]

theorem EncodeBounds.movFromCrn (md : BitVec 2) (cr : CrNum) (rm : BitVec 3) :
    EncodeBounds.Statement (.movFromCrn md cr rm) := by
  intro bytes v _ h
  cases h
  simp [instrBytes, usesAddr16, opcodeBytes, maxInstrBytes]

theorem EncodeBounds.hlt : EncodeBounds.Statement .hlt := by
  intro bytes v _ h
  cases h
  simp [instrBytes, usesAddr16, opcodeBytes, maxInstrBytes]

theorem EncodeBounds.cpuid : EncodeBounds.Statement .cpuid := by
  intro bytes v _ h
  cases h
  simp [instrBytes, usesAddr16, opcodeBytes, maxInstrBytes]

end Sys2Proof.Laws
end

