-- ==== Sys2Proof/Tests/Slice0.lean ====
section
/-! SUPPORT. Tests of the model. The expected values are those of `95_test_vectors.md` (the item is named at
each test) or are written out by hand from the encodings of `30_encoding.md` R113. After the tests of
WellFormed, of Decode and of single steps come the witnesses: for each obligation with hypotheses a state
and operands that meet all of them together. -/

namespace Sys2Proof.Tests

open Sys2Proof Sys2Proof.Machine

/-! ### WellFormed: one ill-formed operation for each check -/

theorem smoke_emptyAccess : illFormed (.read 0x1000 0) = some .emptyAccess := by decide
theorem smoke_crossesPage : illFormed (.fetch 0x8080604FFF 2) = some .crossesPage := by decide
theorem smoke_valueTooWide : illFormed (.write 0x1000 1 0x100) = some .valueTooWide := by decide
theorem smoke_registerForm : illFormed (.invlpg 3 0 ⟨false, []⟩ 0) = some .registerForm := by decide
theorem smoke_wrongTail : illFormed (.invlpg 1 0 ⟨false, []⟩ 0) = some .wrongTail := by decide
/-- Fourteen address-size prefixes before CPUID. -/
theorem smoke_tooLong : decode false (.code (List.replicate 14 0x67 ++ [0x0F, 0xA2]) 0) =
    .bad (.illFormed .tooLong) := by decide
theorem smoke_lastByteOfPage : wellFormed (.write 0x8080604FFF 1 0xFF) = true := by decide

/-! ### Decode: words written bit by bit from R113, first byte first -/

/-- `0F 01 /7`: 00001111 00000001, ModR/M mod 00, reg 111, r/m 000. -/
theorem decode_invlpg : decode false (.code [0b00001111, 0b00000001, 0b00111000] 0x8080604567) =
    .ok (.invlpg 0 0 ⟨false, []⟩ 0x8080604567) [] := by decide
/-- The same with mod 01, r/m 100: one SIB byte and one displacement byte belong to it, F4 does not. -/
theorem decode_invlpg_sib : decode false (.code [0b00001111, 0b00000001, 0b01111100, 0b00100100, 0x10, 0xF4] 7) =
    .ok (.invlpg 1 4 ⟨false, [0x24, 0x10]⟩ 7) [0xF4] := by decide
/-- `0F 22 /r` with reg 011: CR3. -/
theorem decode_movToCr3 : decode false (.code [0b00001111, 0b00100010, 0b11011000] 0x100000) =
    .ok (.movToCr3 3 0 0x100000) [] := by decide
/-- `0F 22 /r` with reg 100: CR4. -/
theorem decode_movToCr4 : decode false (.code [0b00001111, 0b00100010, 0b11100001] 0xA0) =
    .ok (.movToCr4 3 1 0xA0) [] := by decide
/-- `0F 22 /r` with reg 000: CR0. -/
theorem decode_movToCr0 : decode false (.code [0b00001111, 0b00100010, 0b11000111] 0x80000000) =
    .ok (.movToCr0 3 7 0x80000000) [] := by decide
/-- `0F 20 /r` with reg 100: from CR4. -/
theorem decode_movFromCrn : decode false (.code [0b00001111, 0b00100000, 0b11100010] 0) =
    .ok (.movFromCrn 3 .cr4 2) [] := by decide
/-- `F4`. -/
theorem decode_hlt : decode false (.code [0b11110100] 0) = .ok .hlt [] := by decide
/-- `0F A2`. -/
theorem decode_cpuid : decode false (.code [0b00001111, 0b10100010] 0) = .ok .cpuid [] := by decide
/-- The accesses have no bit pattern (R117). -/
theorem decode_accesses : decode false (.read 0x1000 8) = .ok (.read 0x1000 8) [] ∧
    decode false (.write 0x1000 8 5) = .ok (.write 0x1000 8 5) [] ∧
    decode false (.fetch 0x1000 8) = .ok (.fetch 0x1000 8) [] := by decide
/-- MOV to CR2 is no operation of the machine; `0F 0B` no row of the table; `0F 01 /6` not INVLPG. -/
theorem decode_others : decode false (.code [0x0F, 0x22, 0b11010000] 0) = .bad (.undescribedControlRegister 2) ∧
    decode false (.code [0x0F, 0x0B] 0) = .bad .unknownOpcode ∧ decode false (.code [0x0F, 0x22] 0) = .bad .truncated ∧
    decode false (.code [0x0F, 0x01, 0b00110000] 0) = .bad .notInvlpg := by decide

/-- In 64-bit mode a REX prefix `0100WRXB` with R = 0 changes nothing; with R = 1 it names another control
register; outside 64-bit mode the byte is no prefix (R112). -/
theorem decode_rex : decode true (.code [0b01001000, 0x0F, 0x22, 0b11011000] 5) = .ok (.movToCr3 3 0 5) [] ∧
    decode true (.code [0b01000100, 0x0F, 0x22, 0b11000000] 5) = .bad .extendedControlRegister ∧
    decode false (.code [0b01001000, 0x0F, 0x22, 0b11011000] 5) = .bad .unknownOpcode := by decide
/-- Address size: outside 64-bit mode 67 selects the 16-bit forms, here mod 00, r/m 110 with two displacement
bytes; in 64-bit mode it leaves r/m 110 without any. -/
theorem decode_addressSize :
    decode false (.code [0x66, 0x67, 0x0F, 0x01, 0b00111110, 0x34, 0x12, 0xF4] 0x1234) =
      .ok (.invlpg 0 6 ⟨true, [0x34, 0x12]⟩ 0x1234) [0xF4] ∧
    decode true (.code [0x67, 0x0F, 0x01, 0b00111110, 0xF4] 0x1234) =
      .ok (.invlpg 0 6 ⟨false, []⟩ 0x1234) [0xF4] := by decide

/-- Zero bytes follow the table's bits: INVLPG with mod 10, r/m 100 takes a SIB byte and four more. -/
theorem decode_tableWord_padded : decodeTableWord 24 0xBC010F = some (.invlpg 2 4 ⟨false, [0, 0, 0, 0, 0]⟩ 0) ∧
    decodeTableWord 16 0x200F = some (.movFromCrn 0 .cr0 0) := by decide
/-- A word placed for the next step runs in it: HLT, then CPUID. -/
theorem decode_withFetchWord :
    (match step (State.reset.withFetchWord 8 0xF4) with
      | .next t => t.procs.map (·.halted) | _ => []) = [true, false] ∧
    (match step (State.reset.withFetchWord 16 0xA20F) with
      | .next t => t.trace | _ => []) = [.cpuid 0 36 true] := by decide

/-! ### Single steps -/

/-- Memory with 8-byte values stored. -/
def stored (m : Memory) (l : List (Nat × Nat)) : Memory := l.foldl (fun m x => m.writeLE x.1 8 x.2) m

/-- The four entries for la = 0x8080604567 in the base state of V1, and the data byte. -/
def longMem : Memory :=
  (stored [] [(0x100008, 0x101007), (0x101010, 0x102007), (0x102018, 0x103007), (0x103020, 0x205007)]).write
    0x205567 0x5A

/-- Walk from the root with committing steps, keep nothing. -/
def steady : Choice :=
  { pause := false, hit := none, start := .root, commit := true, keep := false, keepPiece := false,
    extra := ⟨0, 0, 0, 0⟩, bits := 0 }

/-- A processor in IA-32e mode as in V1, at CPL 3. -/
def longProc : Proc :=
  { Proc.reset with pg := true, pae := true, lma := true, nxe := true, cr3 := 0x100000, cpl := 3 }

/-- Two such processors (V1). -/
def longState : State :=
  { State.reset with mem := longMem, procs := [longProc, longProc], choices := List.replicate 12 steady }

/-- The linear address of V1. -/
def la : LAddr := 0x0000008080604567

/-- T1 of V1, the TLB entry a read of `la` may leave. -/
def t1 : TlbEntry := ⟨.ia32e, .ord4k, 0x8080604, 0x205000, true, true, false, false, false⟩

/-- T1 as a write leaves it (V2 a). -/
def t1dirty : TlbEntry := { t1 with dirty := true }

/-- D1 of V6. -/
def d1 : PdeEntry := ⟨.ia32e, 0x40403, 0x103000, true, true, false⟩

/-- D2 of V6. -/
def d2 : PdeEntry := ⟨.ia32e, 0x1, 0x120000, true, false, false⟩

/-- The state in which processor 0 is `p`. -/
def withP0 (s : State) (p : Proc) : State := { s with procs := s.procs.set 0 p }

/-- The first choice is `c`. -/
def withFirst (s : State) (c : Choice) : State := { s with choices := c :: s.choices.tail }

/-- What is read off the next state of an operation. -/
def next {α : Type} (i : Instr) (s : State) (f : State → α) : Option α :=
  match exec i s with
  | .next t => some (f t)
  | .fault _ => none
  | .refused _ => none

/-- Processor 0 afterwards. -/
def p0 (t : State) : Proc := t.procs.headD Proc.reset

/-- V1: the read returns 5A and sets the accessed bit of the PTE. -/
theorem test_read : next (.read la 1) longState (fun t => (t.trace, t.mem.readLE 0x103020 8)) =
    some ([.value 0 .read la 1 0x5A], 0x205027) := by decide
/-- V1 b: PTE 5 is not present. -/
theorem test_read_notPresent : next (.read 0x8080605000 1) longState (·.trace) =
    some [.pageFault 0 0x8080605000 .read 3] := by decide
/-- V2 a: the write sets accessed and dirty of the PTE together, and stores. -/
theorem test_write : next (.write la 1 0xAA) longState
    (fun t => (t.trace, t.mem.readLE 0x103020 8, t.mem.readLE 0x102018 8, t.mem.read 0x205567)) =
    some ([], 0x205067, 0x103027, 0xAA) := by decide
/-- V2 f: read-only page, supervisor, CR0.WP = 1. -/
theorem test_write_wp : next (.write la 1 0xAA)
    (withP0 { longState with mem := stored longMem [(0x103020, 0x205005)] }
      { longProc with cpl := 0, wp := true }) (fun t => (t.trace, t.mem.read 0x205567)) =
    some ([.pageFault 0 la .write 0], 0x5A) := by decide
/-- The structures of V7. -/
def legacyMem : Memory :=
  (Memory.writeLE (Memory.writeLE [] 0x1000C 4 0x11007) 0x1100C 4 0x22007).write 0x22123 0x33

/-- V7: 32-bit paging, PDE 3, PTE 3, offset 123. -/
theorem test_fetch_legacy : next (.fetch 0xC03123 1)
    (withP0 { longState with mem := legacyMem } { Proc.reset with pg := true, cr3 := 0x10000, cpl := 3 })
    (fun t => (t.trace, t.mem.readLE 0x1000C 4)) =
    some ([.value 0 .fetch 0xC03123 1 0x33], 0x11027) := by decide
/-- V8: execute disable in the PTE. -/
theorem test_fetch_xd : next (.fetch la 1)
    { longState with mem := stored longMem [(0x103020, 0x8000000000205007)] } (·.trace) =
    some [.pageFault 0 la .fetch 3] := by decide
/-- V6, `InvlpgSelective` true: D2 and the PML4-cache entry of key 0 may stay, the others go. -/
theorem test_invlpg : next (.invlpg 0 0 ⟨false, []⟩ 0x8080604000)
    (withP0 { longState with config := { Config.initial with invlpgSelective := true } }
      { longProc with
        cpl := 0, tlb := [t1], pml4c := [⟨0, 0x110000, true, false, false⟩],
        pdpc := [⟨0x202, 0x102000, true, true, false⟩], pdec := [d1, d2] })
    (fun t => ((p0 t).tlb, (p0 t).pml4c, (p0 t).pdpc, (p0 t).pdec)) =
    some ([], [⟨0, 0x110000, true, false, false⟩], [], [d2]) := by decide
/-- V11 g: INVLPG at CPL 3. -/
theorem test_invlpg_cpl3 : next (.invlpg 0 0 ⟨false, []⟩ la) (withP0 longState { longProc with tlb := [t1] })
    (fun t => (t.trace, (p0 t).tlb)) = some ([.generalProtection 0], [t1]) := by decide
/-- V4 a: the global entry may stay, the other goes. -/
theorem test_movToCr3 : next (.movToCr3 3 0 0x300000)
    (withP0 longState { longProc with cpl := 0, pge := true, tlb := [t1, { t1 with global := true }] })
    (fun t => ((p0 t).tlb, (p0 t).cr3)) = some ([{ t1 with global := true }], 0x300000) := by decide
/-- V4 e: PGE 1 to 0 removes global entries too. -/
theorem test_movToCr4 : next (.movToCr4 3 0 0x20)
    (withP0 longState { longProc with cpl := 0, pge := true, tlb := [{ t1 with global := true }], pdec := [d1] })
    (fun t => ((p0 t).tlb, (p0 t).pdec, (p0 t).pge, (p0 t).pae)) = some ([], [], false, true) := by
  decide

/-- The PDPTs of V10. -/
def paeMem : Memory := stored [] [(0x1000, 0x2001), (0x1008, 0x3001)]

/-- The processor of V10, before paging is on. -/
def paeProc : Proc := { Proc.reset with pae := true, cr3 := 0x1000 }

/-- V10 a: PG turned on with PAE = 1 and LMA = 0 loads the PDPTRs. -/
theorem test_movToCr0 : next (.movToCr0 3 0 0x80000000) (withP0 { longState with mem := paeMem } paeProc)
    (fun t => ((p0 t).pg, (p0 t).pdptr, (p0 t).pdptrValid)) =
    some (true, ⟨0x2001, 0x3001, 0, 0⟩, true) := by decide
/-- V10 e: bit 5 of a PDPTR that is not present. -/
theorem test_movToCr0_fault : next (.movToCr0 3 0 0x80000000)
    (withP0 { longState with mem := stored paeMem [(0x1010, 0x20)] } paeProc)
    (fun t => ((p0 t).pg, t.trace)) = some (false, [.pdptrLoad 0]) := by decide
/-- R113, R23: PAE is bit 5 and PGE bit 7 of CR4, whatever the other bits. -/
theorem test_movFromCrn : next (.movFromCrn 3 .cr4 0) (withFirst longState { steady with bits := 0xFFFF })
    (·.trace) = some [.controlRegister 0 .cr4 0xFF6F] := by decide
/-- V15: HLT at CPL 0. -/
theorem test_hlt : next .hlt (withP0 longState { longProc with cpl := 0 })
    (fun t => (t.procs.map (·.halted), t.trace)) = some ([true, false], []) := by decide
/-- V15: CPUID at CPL 3. -/
theorem test_cpuid : next .cpuid longState (·.trace) = some [.cpuid 0 36 true] := by decide

/-! ### Witnesses -/

/-- Twelve choices without a pause are fixed in advance. -/
theorem uninterrupted (s : State) (h : s.choices = List.replicate 12 steady) : Uninterrupted s := by
  unfold Uninterrupted
  rw [h]
  decide

/-- Nothing applies, so nothing is stale. -/
theorem agrees_of_noneApplies {cfg : Config} {mem : Memory} {p : Proc} {m : PMode} {x : LAddr}
    (h : NoneApplies p m x) : AgreesWithMemory cfg mem p m x := by
  obtain ⟨h1, h2, h3, h4⟩ := h
  simp [AgreesWithMemory, h1, h2, h3, h4]

/-- An invlpg with a SIB byte and a displacement, one with 16-bit addressing, a write of the last byte of a
page. -/
theorem witness_DecodeEncodeRoundTrip : wellFormed (.invlpg 0 4 ⟨false, [0x25, 1, 2, 3, 4]⟩ la) = true ∧
    usesAddr16 (.invlpg 0 4 ⟨false, [0x25, 1, 2, 3, 4]⟩ la) = false ∧
    wellFormed (.invlpg 0 6 ⟨true, [1, 2]⟩ la) = true ∧ wellFormed (.write 0xFFF 1 0xFF) = true := by decide

/-- The three clauses: 15 bytes, 16 bytes, and REX.R = 1. -/
theorem witness_DecodeStopsAtInstructionEnd : wellFormed (.movToCr3 3 0 5) = true ∧
    encode (.movToCr3 3 0 5) = .code [0x0F, 0x22, 0xD8] 5 ∧
    prefixesOk true (List.replicate 11 0x66 ++ [0x48]) = true ∧
    extendsReg true ((List.replicate 11 0x66 ++ [0x48]).dropWhile isLegacyPrefix) = false ∧
    12 + (opcodeBytes (.movToCr3 3 0 5)).length = 15 ∧
    prefixesOk true (List.replicate 13 0x66) = true ∧
    15 < 13 + (opcodeBytes (.movToCr3 3 0 5)).length ∧
    prefixesOk true [0x66, 0x44] = true ∧ extendsReg true ([0x66, 0x44].dropWhile isLegacyPrefix) = true ∧
    namesControlRegister (.movToCr3 3 0 5) = true ∧
    prefixesOk false [0x67] = true ∧ selects16 false ([0x67].takeWhile isLegacyPrefix) = true ∧
    wellFormed (.invlpg 1 0 ⟨true, [0x7F]⟩ la) = true := by decide

theorem witness_DecodedBytesAreItsEncoding :
    decode true (.code [0x66, 0x48, 0x0F, 0x22, 0xD8, 0xF4] 5) = .ok (.movToCr3 3 0 5) [0xF4] ∧
    decode false (.code [0xF4] 5) = .ok .hlt [] := by decide

theorem witness_DecodedIsWellFormed : decode true (.fetch 0xFF8 8) = .ok (.fetch 0xFF8 8) [] := by decide

theorem witness_OtherEncodingsAreRejected : (2 : BitVec 3) ≠ 0 ∧ (2 : BitVec 3) ≠ 3 ∧ (2 : BitVec 3) ≠ 4 := by
  decide

/-- Processor 1 has HLT as its next operation, at CPL 0. -/
def hltProc : Proc := { longProc with program := [⟨0, .code [0xF4] 0⟩] }

/-- Processor 1's software moves next. -/
def hltState : State := { longState with procs := [longProc, hltProc], schedule := [.software 1] }

theorem witness_StepRunsDecodedOperation : hltState.schedule = [.software 1] ∧
    hltState.procs[1]? = some hltProc ∧ hltProc.halted = false ∧ hltProc.busy = none ∧
    hltProc.program = [⟨0, .code [0xF4] 0⟩] ∧ decode hltProc.lma (.code [0xF4] 0) = .ok .hlt [] := by decide

/-- Processor 1 is halted. -/
def haltedState (e : Event) : State :=
  { longState with procs := [longProc, { longProc with halted := true }], schedule := [e] }

theorem witness_HaltedProcessorIssuesNothing : (haltedState (.software 1)).schedule = [.software 1] ∧
    (haltedState (.software 1)).procs[1]? = some { longProc with halted := true } := by decide

theorem witness_ResumeOnlyClearsHalted : (haltedState (.resume 1)).schedule = [.resume 1] ∧
    (haltedState (.resume 1)).procs[1]? = some { longProc with halted := true } := by decide

theorem witness_ResetValues : Proc.reset ∈ (State.resetWith Config.initial longMem).procs := by decide

theorem witness_ResetMeetsInvariant : Config.initial.wf = true ∧ Memory.wf longMem ∧
    StartState { State.reset with mem := longMem, procs := [{ longProc with tlb := [t1] }, longProc] } :=
  ⟨by decide, by decide, ⟨by decide, by decide, rfl, by decide, by decide, by decide,
    fun p hp => .inr (by revert p; decide), by decide, by decide⟩⟩

/-- R441, R41: a frame that MAXPHYADDR = 36 bits cannot name, and a key that 32-bit paging cannot have. -/
theorem smoke_cachedEntryTooWide :
    TlbEntry.ok Config.initial longProc { t1 with frame := 0x1000000000 } = false ∧
    TlbEntry.ok Config.initial longProc { t1 with frame := 0xFFFFFF000 } = true ∧
    TlbEntry.ok Config.initial Proc.reset ⟨.legacy32, .ord4k, 0x100000, 0, true, true, false, false, false⟩ =
      false := by decide

/-- R441, R41, R286: a piece whose frame is not at the place in the large page that its key names, and one
whose frame is. -/
theorem smoke_pieceOutOfPlace :
    TlbEntry.ok Config.initial longProc
      ⟨.ia32e, .ordFromLarge, 0x8080604, 0x40000000, true, true, false, false, false⟩ = false ∧
    TlbEntry.ok Config.initial longProc
      ⟨.ia32e, .ordFromLarge, 0x8080604, 0x40004000, true, true, false, false, false⟩ = true := by decide

theorem longState_inv (es : List Event) (cs : List Choice) (p : Proc)
    (hp : p.ok Config.initial = true) (hq : longProc.ok Config.initial = true) :
    Inv { longState with procs := [longProc, p], schedule := es, choices := cs } := by
  refine ⟨(by decide : Config.initial.wf = true), (by decide : Memory.wf longMem), rfl,
    (by decide : 0 < 2), fun q h => ?_⟩
  rcases List.mem_cons.mp h with rfl | h
  · exact hq
  · rw [List.mem_singleton.mp h]
    exact hp

/-- The base state of V1 meets the invariant. -/
theorem longState_Inv : Inv longState :=
  longState_inv [] (List.replicate 12 steady) longProc (by decide) (by decide)

theorem witness_StepKeepsInvariant : Inv hltState ∧ ∃ t, step hltState = .next t :=
  ⟨longState_inv _ _ _ (by decide) (by decide), _, rfl⟩

theorem witness_ParametersAndEferNeverChange : (∃ t, step hltState = .next t) ∧
    hltState.procs[1]? = some hltProc := ⟨⟨_, rfl⟩, rfl⟩

/-- Processor 1 holds a non-global entry with PGE = 0 and issues HLT. -/
def tlbState : State := { hltState with procs := [longProc, { hltProc with tlb := [t1] }] }

theorem witness_NoGlobalEntryWithoutPgeIsKept :
    (∀ p ∈ tlbState.procs, p.pge = false → ∀ e ∈ p.tlb, e.global = false) ∧
    ∃ t, step tlbState = .next t := ⟨by decide, _, rfl⟩

/-- A processor in PAE mode with its PDPTR registers loaded (V10). -/
def paeOn : Proc := { paeProc with pg := true, pdptr := ⟨0x2001, 0x3001, 0, 0⟩, pdptrValid := true }

/-- Processor 1 is in PAE mode and issues HLT. -/
def paeHltState : State :=
  { hltState with procs := [longProc, { paeOn with program := [⟨0, .code [0xF4] 0⟩] }] }

theorem witness_PaeModeHasLoadedPdptrsIsKept :
    (∀ p ∈ paeHltState.procs, p.mode = some .pae → p.pdptrValid = true) ∧
    (∃ p ∈ paeHltState.procs, p.mode = some .pae) ∧ ∃ t, step paeHltState = .next t :=
  ⟨by decide, by decide, _, rfl⟩

/-- If what is read off the next state is something, there is a next state. -/
theorem next_exists {α : Type} {i : Instr} {s : State} {f : State → α} {x : α} (h : next i s f = some x) :
    ∃ t, exec i s = .next t ∧ f t = x := by
  unfold next at h
  split at h
  · rename_i t ht
    exact ⟨t, ht, by simpa using h⟩
  · cases h
  · cases h

theorem witness_OperationsActOnTheirProcessorOnly : ∃ t, exec (.write la 1 0xAA) longState = .next t :=
  (next_exists test_write).imp fun _ h => h.1

theorem witness_OnlyMovToCrChangesRegisters : ∃ t, exec (.read la 1) longState = .next t ∧
    longState.proc? = some longProc :=
  (next_exists test_read).imp fun _ h => ⟨h.1, rfl⟩

theorem witness_OnlyAccessesChangeMemory : Inv longState ∧ longState.proc? = some longProc ∧
    ∃ t, exec (.read la 1) longState = .next t :=
  ⟨longState_Inv, rfl, (next_exists test_read).imp fun _ h => h.1⟩

/-- The last byte below 4 GBytes, with a linear address whose upper half is not zero. -/
theorem witness_PagingOffReadsPhysicalMemory : State.reset.proc? = some Proc.reset ∧
    Proc.reset.pg = false ∧ wellFormed (.read 0x7FFFFFFFF 1) = true ∧
    reaches State.reset.config ((0x7FFFFFFFF : LAddr).toNat % 2 ^ 32) 1 = true := by decide

theorem witness_PagingOffWritesPhysicalMemory : State.reset.proc? = some Proc.reset ∧
    Proc.reset.pg = false ∧ wellFormed (.write 0x1FF8 8 0xFFFFFFFFFFFFFFFF) = true ∧
    reaches State.reset.config ((0x1FF8 : LAddr).toNat % 2 ^ 32) 8 = true ∧ Memory.wf State.reset.mem := by
  decide

/-- A store with paging off. -/
theorem offWrite : next (.write 0x1FF8 8 0x1122334455667788) State.reset (·.trace) = some [] := by
  decide

theorem witness_ReadAndFetchSeeAnEarlierWrite : State.reset.proc? = some Proc.reset ∧
    Proc.reset.pg = false ∧ Memory.wf State.reset.mem ∧
    wellFormed (.write 0x1FF8 8 0x1122334455667788) = true ∧
    ∃ t, exec (.write 0x1FF8 8 0x1122334455667788) State.reset = .next t :=
  ⟨rfl, rfl, by decide, by decide, (next_exists offWrite).imp fun _ h => h.1⟩

/-- Use the first TLB entry that applies. -/
def hit0 : Choice := { steady with hit := some 0 }

/-- T1 is cached, as clean or dirty, and chosen. -/
def hitState (e : TlbEntry) : State := withP0 (withFirst longState hit0) { longProc with tlb := [e] }

/-- Both clauses: the read and the fetch are allowed (R178: no XD). -/
theorem witness_TlbEntryTranslatesReads :
    (hitState t1).proc? = some { longProc with tlb := [t1] } ∧ longProc.mode = some .ia32e ∧
    wellFormed (.read la 1) = true ∧ canonical la = true ∧
    (hitState t1).choices = hit0 :: steady :: List.replicate 10 steady ∧ hit0.pause = false ∧
    steady.pause = false ∧ hit0.hit = some 0 ∧
    (tlbFor { longProc with tlb := [t1] } .ia32e (operandAddress (some .ia32e) la))[0]? = some t1 ∧
    reaches (hitState t1).config (frameAddress .ia32e t1.kind t1.frame la).toNat 1 = true ∧
    touchesSideEffect (hitState t1).config (frameAddress .ia32e t1.kind t1.frame la).toNat 1 = false ∧
    allowed false .read 3 t1.rw t1.us t1.xd = true ∧ allowed false .fetch 3 t1.rw t1.us t1.xd = true := by
  decide

theorem witness_DirtyTlbEntryTranslatesWrites :
    (hitState t1dirty).proc? = some { longProc with tlb := [t1dirty] } ∧
    wellFormed (.write la 1 0xAA) = true ∧ canonical la = true ∧
    (hitState t1dirty).choices = hit0 :: steady :: List.replicate 10 steady ∧ hit0.hit = some 0 ∧
    (tlbFor { longProc with tlb := [t1dirty] } .ia32e (operandAddress (some .ia32e) la))[0]? =
      some t1dirty ∧ t1dirty.dirty = true ∧ Memory.wf longState.mem ∧
    allowed false .write 3 t1dirty.rw t1dirty.us t1dirty.xd = true ∧
    reaches longState.config (frameAddress .ia32e t1dirty.kind t1dirty.frame la).toNat 1 = true := by
  decide

theorem witness_CleanTlbEntryMakesWritesWalk :
    (hitState t1).proc? = some { longProc with tlb := [t1] } ∧ longProc.mode = some .ia32e ∧
    (hitState t1).choices = hit0 :: List.replicate 11 steady ∧ hit0.hit = some 0 ∧
    (tlbFor { longProc with tlb := [t1] } .ia32e (operandAddress (some .ia32e) la))[0]? = some t1 ∧
    t1.dirty = false ∧ allowed false .write 3 t1.rw t1.us t1.xd = true := by decide

/-- V9: a read-only entry denies a user write. -/
def t1ro : TlbEntry := { t1 with rw := false }

theorem witness_DenyingTlbEntryFaults :
    (hitState t1ro).proc? = some { longProc with tlb := [t1ro] } ∧ longProc.mode = some .ia32e ∧
    wellFormed (accessOp .write la 1 0xAA) = true ∧ canonical la = true ∧
    (hitState t1ro).choices = hit0 :: List.replicate 11 steady ∧ hit0.hit = some 0 ∧ hit0.pause = false ∧
    (tlbFor { longProc with tlb := [t1ro] } .ia32e (operandAddress (some .ia32e) la))[0]? = some t1ro ∧
    allowed false .write 3 t1ro.rw t1ro.us t1ro.xd = false := by decide

/-- The leaf of `la` in the base state. -/
def leaf1 : Leaf := ⟨false, 0x103020, 0x205000, true, true, false, false, false⟩

/-- A processor that caches T1 and D1, neither of them stale, and its state. -/
def warmProc : Proc := { longProc with tlb := [t1], pdec := [d1] }

/-- The base state with those entries cached. -/
def warmState : State := withP0 longState warmProc

theorem warm_walk : memoryWalk warmState.config warmState.mem warmProc .ia32e la = .leaf leaf1 := by
  decide

theorem warm_agrees : AgreesWithMemory warmState.config warmState.mem warmProc .ia32e la := by
  have h1 : tlbFor warmProc .ia32e la = [t1] := by decide
  have h2 : pdecFor warmProc .ia32e la = [d1] := by decide
  have h3 : memoryWalkFrom warmState.config warmState.mem warmProc .ia32e la 4 d1.partial' = .leaf leaf1 := by
    decide
  refine ⟨fun e he => ⟨leaf1, warm_walk, ?_⟩, fun c hc => ?_, fun c hc => ?_, fun c hc => ?_⟩
  · rw [h1, List.mem_singleton] at he
    rw [he]
    exact ⟨by decide, rfl, rfl, rfl, fun h => by cases h⟩
  · cases hc
  · cases hc
  · rw [h2, List.mem_singleton] at hc
    rw [hc, h3, warm_walk]

theorem warm_Inv : Inv warmState := by
  refine ⟨by decide, by decide, rfl, by decide, ?_⟩
  decide

theorem witness_AgreeingReadGoesWhereMemorySays : Inv warmState ∧ warmState.proc? = some warmProc ∧
    warmProc.mode = some .ia32e ∧ wellFormed (accessOp .fetch la 1 0) = true ∧ canonical la = true ∧
    Uninterrupted warmState ∧ operandAddress (some .ia32e) la = la ∧
    AgreesWithMemory warmState.config warmState.mem warmProc .ia32e la ∧
    memoryWalk warmState.config warmState.mem warmProc .ia32e la = .leaf leaf1 ∧
    allowed false .fetch 3 true true false = true ∧ reaches warmState.config 0x205567 1 = true :=
  ⟨warm_Inv, rfl, rfl, by decide, by decide, uninterrupted _ rfl, rfl, warm_agrees,
    warm_walk, by decide, by decide⟩

theorem witness_AgreeingWriteGoesWhereMemorySays : Inv warmState ∧ warmState.proc? = some warmProc ∧
    warmProc.mode = some .ia32e ∧ wellFormed (.write la 1 0xAA) = true ∧ canonical la = true ∧
    Uninterrupted warmState ∧ AgreesWithMemory warmState.config warmState.mem warmProc .ia32e la ∧
    memoryWalk warmState.config warmState.mem warmProc .ia32e la = .leaf leaf1 ∧
    allowed false .write 3 true true false = true ∧ reaches warmState.config 0x205567 1 = true :=
  ⟨warm_Inv, rfl, rfl, by decide, by decide, uninterrupted _ rfl, warm_agrees, warm_walk,
    by decide, by decide⟩

/-- Nothing is cached in the base state. -/
theorem cold_agrees (x : LAddr) (mem : Memory) :
    AgreesWithMemory longState.config mem longProc .ia32e x :=
  agrees_of_noneApplies ⟨rfl, rfl, rfl, rfl⟩

/-- No TLB entry applies in the base state, so the walk's entries are marked; the leaf entry's byte lies
below the byte that a write of `la` stores. -/
theorem witness_AgreeingAccesses_cold : Inv longState ∧ Uninterrupted longState ∧
    tlbFor longProc .ia32e la = [] ∧ memoryWalk longState.config longState.mem longProc .ia32e la = .leaf leaf1 ∧
    leaf1.entry.toNat < (leafAddress .ia32e leaf1 la).toNat ∧ (leafAddress .ia32e leaf1 la).toNat = 0x205567 ∧
    AgreesWithMemory longState.config longState.mem longProc .ia32e la :=
  ⟨longState_Inv, uninterrupted _ rfl, by decide, by decide, by decide, by decide, cold_agrees _ _⟩


/-- First disjunct: V1 b, PTE 5 is not present. Second: V1 at CPL 3 with a supervisor page. -/
theorem witness_AgreeingAccessFaultsWhereMemoryDenies : Inv longState ∧
    longState.proc? = some longProc ∧ longProc.mode = some .ia32e ∧
    wellFormed (accessOp .read 0x8080605000 1 0) = true ∧ canonical 0x8080605000 = true ∧
    Uninterrupted longState ∧
    AgreesWithMemory longState.config longState.mem longProc .ia32e 0x8080605000 ∧
    memoryWalk longState.config longState.mem longProc .ia32e 0x8080605000 = .notPresent :=
  ⟨longState_Inv, rfl, rfl, by decide, by decide, uninterrupted _ rfl, cold_agrees _ _,
    by decide⟩

/-- The base state with another PTE for `la`. -/
def pteState (pte : Nat) : State := { longState with mem := stored longMem [(0x103020, pte)] }

theorem pteState_Inv (pte : Nat) (h : Memory.wf (stored longMem [(0x103020, pte)])) : Inv (pteState pte) :=
  ⟨longState_Inv.1, h, longState_Inv.2.2⟩

theorem witness_AgreeingAccessFaults_denied : Inv (pteState 0x205003) ∧
    (pteState 0x205003).proc? = some longProc ∧ Uninterrupted (pteState 0x205003) ∧
    wellFormed (accessOp .read la 1 0) = true ∧ canonical la = true ∧
    AgreesWithMemory (pteState 0x205003).config (pteState 0x205003).mem longProc .ia32e la ∧
    memoryWalk (pteState 0x205003).config (pteState 0x205003).mem longProc .ia32e la =
      .leaf { leaf1 with us := false } ∧
    allowed false .read 3 true false false = false :=
  ⟨pteState_Inv _ (by decide), rfl, uninterrupted _ rfl, by decide, by decide,
    cold_agrees _ _, by decide, by decide⟩

/-- First clause: PTE bit 7 set (R82). -/
theorem witness_AgreeingAccessStopsWhereMemoryStops : Inv (pteState 0x205087) ∧
    Uninterrupted (pteState 0x205087) ∧
    AgreesWithMemory (pteState 0x205087).config (pteState 0x205087).mem longProc .ia32e la ∧
    memoryWalk (pteState 0x205087).config (pteState 0x205087).mem longProc .ia32e la = .refused :=
  ⟨pteState_Inv _ (by decide), uninterrupted _ rfl, cold_agrees _ _, by decide⟩

/-- A machine whose memory ends where the page table would begin. -/
def small : Config := { Config.initial with memRange := [⟨0, 0x103000⟩] }

/-- Second clause: the PDE leads outside the populated range (R96). -/
theorem witness_AgreeingAccessStops_outside : Inv { longState with config := small } ∧
    Uninterrupted { longState with config := small } ∧
    AgreesWithMemory small longMem longProc .ia32e la ∧
    memoryWalk small longMem longProc .ia32e la = .outside :=
  ⟨⟨by decide, longState_Inv.2.1, rfl, by decide, by decide⟩, uninterrupted _ rfl,
    agrees_of_noneApplies ⟨rfl, rfl, rfl, rfl⟩, by decide⟩

/-- A machine whose memory ends where the data page would begin. -/
def smallData : Config := { Config.initial with memRange := [⟨0, 0x205000⟩] }

/-- Third clause: the translation gives a data address outside the populated range (R96). -/
theorem witness_AgreeingAccessStops_data : Inv { longState with config := smallData } ∧
    Uninterrupted { longState with config := smallData } ∧
    AgreesWithMemory smallData longMem longProc .ia32e la ∧
    memoryWalk smallData longMem longProc .ia32e la = .leaf leaf1 ∧
    allowed false .read 3 true true false = true ∧
    reaches smallData (leafAddress .ia32e leaf1 la).toNat 1 = false :=
  ⟨⟨by decide, longState_Inv.2.1, rfl, by decide, by decide⟩, uninterrupted _ rfl,
    agrees_of_noneApplies ⟨rfl, rfl, rfl, rfl⟩, by decide, by decide, by decide⟩

/-- Paging off: the first address that is not populated. -/
theorem witness_AgreeingAccessStops_pagingOff :
    let s : State := { State.reset with config := smallData }
    s.proc? = some Proc.reset ∧ Proc.reset.pg = false ∧ wellFormed (accessOp .write 0x205000 1 5) = true ∧
      reaches s.config ((0x205000 : LAddr).toNat % 2 ^ 32) 1 = false ∧
      reaches s.config ((0x204FFF : LAddr).toNat % 2 ^ 32) 1 = true := by decide

theorem witness_PageFaultInvalidatesItsAddress : longState.proc? = some longProc ∧
    longProc.mode = some .ia32e ∧ Inv longState ∧
    ∃ t, exec (accessOp .read 0x8080605000 1 0) longState = .next t ∧
      t.trace = .pageFault 0 0x8080605000 .read 3 :: longState.trace :=
  ⟨rfl, rfl, longState_Inv, next_exists test_read_notPresent⟩

/-- V9: T1 read-only is cached though memory grants the write. The fault, then the write again. -/
def spuriousState : State := withP0 (withFirst longState hit0) { longProc with tlb := [t1ro] }

theorem spurious_fault : next (.write la 1 0xAA) spuriousState (fun t =>
    (decide (t.trace = [.pageFault 0 la .write 3] ∧ t.proc? = some longProc ∧ t.mem = longMem),
      next (.write la 1 0xAA) t (·.mem.read 0x205567))) = some (true, some 0xAA) := by
  decide

theorem witness_SpuriousPageFaultDoesNotRecur : Inv spuriousState ∧
    spuriousState.proc? = some { longProc with tlb := [t1ro] } ∧
    ∃ t u, exec (accessOp .write la 1 0xAA) spuriousState = .next t ∧
      t.trace = .pageFault 0 la .write 3 :: spuriousState.trace ∧ t.proc? = some longProc ∧
      memoryWalk Config.initial t.mem longProc .ia32e la = .leaf leaf1 ∧
      allowed false .write 3 leaf1.rw leaf1.us leaf1.xd = true ∧
      exec (accessOp .write la 1 0xAA) t = .next u := by
  refine ⟨⟨by decide, by decide, rfl, by decide, by decide⟩, rfl, ?_⟩
  obtain ⟨t, h, hf⟩ := next_exists spurious_fault
  simp only [Prod.mk.injEq, decide_eq_true_eq] at hf
  obtain ⟨⟨h1, h2, h3⟩, h4⟩ := hf
  obtain ⟨u, hu, -⟩ := next_exists h4
  exact ⟨t, u, h, h1, h2, by rw [h3]; decide, by decide, hu⟩

/-- A choice that keeps what the step finds. -/
def keeping : Choice := { steady with keep := true }

/-- V1: what a read may leave in the caches: the PML4-cache entry, the PDP-cache entry, D1 and T1. -/
theorem test_read_caches : next (.read la 1) { longState with choices := List.replicate 12 keeping }
    (fun t => ((p0 t).tlb, (p0 t).pml4c, (p0 t).pdpc, (p0 t).pdec)) =
    some ([t1], [⟨0x1, 0x101000, true, true, false⟩], [⟨0x202, 0x102000, true, true, false⟩], [d1]) := by
  decide

theorem witness_AccessCachesItsOwnAddressOnly : Inv longState ∧ longState.proc? = some longProc ∧
    longProc.mode = some .ia32e ∧ (∃ t, exec (accessOp .write la 1 0xAA) longState = .next t) ∧
    ∃ t, exec (accessOp .read la 1 0) { longState with choices := List.replicate 12 keeping } = .next t :=
  ⟨longState_Inv, rfl, rfl, (next_exists test_write).imp fun _ h => h.1,
    (next_exists test_read_caches).imp fun _ h => h.1⟩

/-- Processor 0 has a write of `a` in progress, and its software moves next. -/
def busyState (ph : Phase) (a : LAddr) (cs : List Choice) : State :=
  { longState with
    procs := [{ longProc with busy := some { newAccess .write a 1 0xAA 3 with phase := ph } }, longProc]
    schedule := [.software 0], choices := cs }

/-- Other agents act first. -/
def pausing : Choice := { steady with pause := true }

/-- The partial translation of `la` at its page table. -/
def atPageTable : Partial := ⟨.l1, 0x103000, true, true, false⟩

/-- First to third clause: a pause before the first step, another one, and the beginning afresh. -/
theorem witness_PausedAccessGoesOn :
    let s := { longState with schedule := [.software 0], choices := pausing :: List.replicate 11 steady }
    let b := busyState .begin la [pausing]
    s.schedule = [.software 0] ∧ s.procs[0]? = some longProc ∧ longProc.halted = false ∧
      longProc.mode = some .ia32e ∧ s.current = 0 ∧ pausing.pause = true ∧
      wellFormed (accessOp .write la 1 0xAA) = true ∧ canonical la = true ∧
      (b.procs[0]?.bind (·.busy)) = some (newAccess .write (operandAddress (some .ia32e) la) 1 0xAA 3) := by
  decide

/-- Fourth clause: the root entry leads on, the page-table entry is the leaf, the next one is not present.
Fifth: the translated address is populated. -/
theorem witness_PausedAccessGoesOn_walk :
    let s (ph : Phase) (a : LAddr) := busyState ph a [steady, pausing]
    let root := freshPartial .l4 0x100000
    (((s (.walk root false) la).procs[0]?.bind (·.busy)).map (·.phase)) = some (.walk root false) ∧
      steady.pause = false ∧ steady.commit = true ∧
      WalkSees Config.initial longMem longProc .ia32e la root (.next ⟨.l3, 0x101000, true, true, false⟩) ∧
      WalkSees Config.initial longMem longProc .ia32e la atPageTable (.leaf leaf1) ∧
      allowed false .write 3 leaf1.rw leaf1.us leaf1.xd = true ∧
      WalkSees Config.initial longMem longProc .ia32e 0x8080605000 atPageTable .notPresent ∧
      (((s (.translated 0x205567) la).procs[0]?.bind (·.busy)).map (·.phase)) =
        some (.translated 0x205567) ∧
      reaches (s (.translated 0x205567) la).config 0x205567 1 = true := by
  unfold WalkSees
  decide

/-- V1 c: bit 47 is 1 and bits 63:48 are 0; bit 48 is the one at the boundary. -/
theorem witness_NonCanonicalAddressIsRefused : longState.proc? = some longProc ∧
    longProc.mode = some .ia32e ∧
    ((0x0000808080604567 : LAddr).getLsbD 48 ≠ (0x0000808080604567 : LAddr).getLsbD 47) ∧
    wellFormed (accessOp .read 0x0000808080604567 1 0) = true ∧
    ({ longProc with cpl := 0 } : Proc).cpl = 0 := by
  decide

/-- A machine whose byte at 205567H has a read side effect. -/
def withSideEffect : Config := { Config.initial with readSideEffect := [⟨0x205567, 1⟩] }

/-- V14: processor 1 makes a speculative read of `la`. With nothing cached nothing is stale. -/
theorem witness_SpeculationOnlySetsAccessedBits :
    let s : State := { longState with schedule := [.speculate 1 la .read 3 1] }
    s.schedule = [.speculate 1 la .read 3 1] ∧ Inv s ∧ s.procs[1]? = some longProc ∧
      longProc.mode = some .ia32e ∧ AgreesWithMemory s.config s.mem longProc .ia32e la ∧
      ∃ t, step s = .next t :=
  ⟨rfl, longState_inv _ _ _ (by decide) (by decide), rfl, rfl, cold_agrees _ _, _, rfl⟩

/-- R462: the side effect of a speculative read; and a processor that does not exist, or has paging off. -/
theorem witness_SpeculationOnlySetsAccessedBits_others :
    (match step { longState with config := withSideEffect, schedule := [.speculate 1 la .read 3 1] } with
      | .next t => t.trace | _ => []) = [.sideEffect 1 0x205567 1] ∧
    longState.procs[2]? = none ∧ Proc.reset.mode = none := by decide

/-- First clause: a fill of processor 1. -/
theorem witness_FillOnlySetsAccessedBits :
    let s : State := { longState with schedule := [.fill 1 la 3] }
    s.schedule = [.fill 1 la 3] ∧ Inv s ∧ s.procs[1]? = some longProc ∧ longProc.mode = some .ia32e ∧
      AgreesWithMemory s.config s.mem longProc .ia32e la ∧ ∃ t, step s = .next t :=
  ⟨rfl, longState_inv _ _ _ (by decide) (by decide), rfl, rfl, cold_agrees _ _, _, rfl⟩

/-- Second clause: a step at the root leads on, one from D1 finds the leaf. -/
theorem witness_FillOnlySetsAccessedBits_step :
    let s (st : WalkStart) : State :=
      { warmState with schedule := [.fill 0 la 2], choices := [{ steady with start := st }, steady] }
    Inv (s .root) ∧ Inv (s (.pdec 0)) ∧ (s .root).procs[0]? = some warmProc ∧
      warmProc.mode = some .ia32e ∧ canonical la = true ∧ steady.hit = none ∧
      startPartial warmProc .ia32e la .root = some (freshPartial .l4 0x100000) ∧
      WalkSees Config.initial longMem warmProc .ia32e la (freshPartial .l4 0x100000)
        (.next ⟨.l3, 0x101000, true, true, false⟩) ∧
      startPartial warmProc .ia32e la (.pdec 0) = some atPageTable ∧
      WalkSees Config.initial longMem warmProc .ia32e la atPageTable (.leaf leaf1) := by
  refine ⟨warm_Inv, warm_Inv, ?_⟩
  unfold WalkSees
  decide

theorem witness_SpontaneousInvalidationOnlyRemoves :
    let s : State := { warmState with schedule := [.drop 0 ⟨1, 0, 0, 1⟩] }
    s.schedule = [.drop 0 ⟨1, 0, 0, 1⟩] ∧ s.procs[0]? = some warmProc := ⟨rfl, rfl⟩

/-- Supervisor software on the warm processor. -/
def warmSup : Proc := { warmProc with cpl := 0 }

/-- The state of V5 b before the INVLPG. -/
def supState : State := withP0 longState warmSup

theorem witness_EverySupersetCanBeRemoved : supState.proc? = some warmSup ∧ warmSup.cpl = 0 ∧
    warmSup.mode = some .ia32e ∧ canonical la = true ∧ supState.procs[0]? = some warmSup := by decide

/-- The second clause is V11 e. -/
theorem witness_LmaImpliesPaeIsKept : (∀ p ∈ hltState.procs, p.lma = true → p.pae = true) ∧
    (∃ t, step hltState = .next t) ∧ supState.proc? = some warmSup ∧ warmSup.cpl = 0 ∧
    warmSup.lma = true ∧ (0x80 : BitVec 64).getLsbD 5 = false :=
  ⟨by decide, ⟨_, rfl⟩, rfl, rfl, rfl, by decide⟩

theorem witness_InvlpgRemovesItsAddress : supState.proc? = some warmSup ∧ warmSup.cpl = 0 ∧
    warmSup.mode = some .ia32e ∧ canonical la = true ∧ supState.config.invlpgSelective = false ∧
    (∃ e ∈ warmSup.tlb, e.covers la = true) := by decide

/-- The same machine with the selective INVLPG. -/
def selState : State := { supState with config := { Config.initial with invlpgSelective := true } }

theorem witness_SelectiveInvlpgRemovesItsAddress : selState.proc? = some warmSup ∧ warmSup.cpl = 0 ∧
    warmSup.mode = some .ia32e ∧ canonical la = true ∧ selState.config.invlpgSelective = true := by
  decide

theorem witness_InvlpgNeedRemoveNoMore : selState.proc? = some warmSup ∧ warmSup.cpl = 0 ∧
    warmSup.mode = some .ia32e ∧ canonical 0x8080605000 = true ∧
    selState.choices = steady :: List.replicate 11 steady ∧ steady.extra = ⟨0, 0, 0, 0⟩ ∧
    t1.covers 0x8080605000 = false ∧ t1.pieceOfLargePage 0x8080605000 = false ∧
    selState.config.invlpgSelective = true ∧ d2.key ≠ pdeKey .ia32e 0x8080605000 := by decide

/-- V5 b: the INVLPG, then the state in which the read is made. One more choice is fixed in advance. -/
def invlpgState : State := { supState with choices := List.replicate 13 steady }

theorem invlpg_next : next (.invlpg 0 0 ⟨false, []⟩ la) invlpgState (fun t =>
    decide (t.proc? = some { longProc with cpl := 0 } ∧ t.config = Config.initial ∧ t.mem = longMem ∧
      t.choices = List.replicate 12 steady)) = some true := by decide

theorem witness_ReadAfterInvlpgGoesWhereMemorySays : Inv invlpgState ∧
    invlpgState.proc? = some warmSup ∧ warmSup.cpl = 0 ∧ warmSup.mode = some .ia32e ∧
    invlpgState.config.invlpgSelective = false ∧ wellFormed (accessOp .read la 1 0) = true ∧
    ∃ t, exec (.invlpg 0 0 ⟨false, []⟩ la) invlpgState = .next t ∧ t.proc? = some { longProc with cpl := 0 } ∧
      Uninterrupted t ∧
      memoryWalk t.config t.mem { longProc with cpl := 0 } .ia32e la = .leaf leaf1 ∧
      allowed false .read 3 leaf1.rw leaf1.us leaf1.xd = true ∧ reaches t.config 0x205567 1 = true := by
  refine ⟨⟨by decide, by decide, rfl, by decide, by decide⟩, rfl, rfl, rfl,
    rfl, by decide, ?_⟩
  obtain ⟨t, h, hf⟩ := next_exists invlpg_next
  obtain ⟨h1, h2, h3, h4⟩ := of_decide_eq_true hf
  refine ⟨t, h, h1, ?_, by rw [h2, h3]; decide, by decide, by rw [h2]; decide⟩
  exact uninterrupted t h4

/-- A processor in PAE mode at CPL 0, and its state (V10). -/
def paeState : State := withP0 { longState with mem := paeMem } paeOn

/-- R113: outside 64-bit mode the operand has 32 bits, in 64-bit mode all 64. -/
theorem test_movToCr3_size : next (.movToCr3 3 0 0xFFFFFFFF00001000) paeState (fun t => (p0 t).cr3) =
      some 0x1000 ∧
    next (.movToCr3 3 0 0xFFFFFFFF00001000) supState (fun t => (p0 t).cr3) = some 0xFFFFFFFF00001000 := by
  decide

/-- The load is needed and the table loadable; and a processor in 64-bit mode. -/
theorem witness_MovToCr3Completes : paeState.proc? = some paeOn ∧ paeOn.cpl = 0 ∧ paeOn.lma = false ∧
    cr3LoadsPdptrs paeOn = true ∧ PdptrsLoadable paeState.config paeState.mem 0xFFFFFFFF00001000 ∧
    supState.proc? = some warmSup ∧ warmSup.cpl = 0 ∧ warmSup.lma = true ∧ cr3LoadsPdptrs warmSup = false := by
  refine ⟨rfl, rfl, rfl, rfl, ?_, rfl, rfl, rfl, rfl⟩
  unfold PdptrsLoadable
  decide

/-- Both clauses: a choice of no further removal, and one of the removal of the one TLB entry. -/
theorem witness_MovToCr3MayOrMayNotRemoveGlobals :
    let p : Proc := { longProc with cpl := 0, pge := true, tlb := [{ t1 with global := true }] }
    (withP0 longState p).proc? = some p ∧ p.cpl = 0 ∧ cr3LoadsPdptrs p = false ∧
      (withP0 longState p).choices = steady :: List.replicate 11 steady ∧ steady.extra = ⟨0, 0, 0, 0⟩ ∧
      (withFirst (withP0 longState p) { steady with extra := ⟨1, 0, 0, 0⟩ }).proc? = some p ∧
      (withFirst (withP0 longState p) { steady with extra := ⟨1, 0, 0, 0⟩ }).choices =
        { steady with extra := ⟨1, 0, 0, 0⟩ } :: List.replicate 11 steady ∧
      1 = 2 ^ p.tlb.length - 1 ∧ ∃ e ∈ p.tlb, e.global = true := by decide

/-- V10 g: PSE is modified in PAE mode, the load is needed. PGE is modified too. -/
theorem witness_MovToCr4Completes : paeState.proc? = some paeOn ∧ paeOn.cpl = 0 ∧ paeOn.lma = false ∧
    cr4LoadsPdptrs paeOn 0xB0 = true ∧ paeOn.pge ≠ (0xB0 : BitVec 64).getLsbD 7 ∧
    PdptrsLoadable paeState.config paeState.mem paeOn.cr3 := by
  refine ⟨rfl, rfl, rfl, by decide, by decide, ?_⟩
  unfold PdptrsLoadable
  decide

/-- V11 e. -/
theorem witness_ClearingPaeInIa32eModeIsStuck : supState.proc? = some warmSup ∧ warmSup.cpl = 0 ∧
    warmSup.lma = true ∧ (0x80 : BitVec 64).getLsbD 5 = false := by decide

/-- V10: PG turned off in PAE mode loads too. -/
theorem witness_MovToCr0Completes : paeState.proc? = some paeOn ∧ paeOn.cpl = 0 ∧
    cr0LoadsPdptrs paeOn 0 = true ∧ PdptrsLoadable paeState.config paeState.mem paeOn.cr3 := by
  refine ⟨rfl, rfl, by decide, ?_⟩
  unfold PdptrsLoadable
  decide

/-- Both disjuncts, on the warm processor: V11 c for MOV to CR4. -/
theorem witness_OtherMovsNeedRemoveNothing : supState.proc? = some warmSup ∧ warmSup.cpl = 0 ∧
    supState.choices = steady :: List.replicate 11 steady ∧ steady.extra = ⟨0, 0, 0, 0⟩ ∧
    (0x30 : BitVec 64).getLsbD 7 = warmSup.pge ∧
    (∃ t, exec (.movToCr4 3 0 0x30) supState = .next t) ∧
    ∃ t, exec (.movToCr0 3 0 0x80010000) supState = .next t :=
  ⟨rfl, rfl, rfl, rfl, by decide, ⟨_, rfl⟩, ⟨_, rfl⟩⟩

/-- V10 e: an entry that is not present has bit 5 set. The three operations. -/
theorem witness_FaultyPdptrFaultsAndChangesNothing :
    let s : State := { paeState with mem := stored paeMem [(0x1018, 0x20)] }
    s.proc? = some paeOn ∧ paeOn.cpl = 0 ∧ cr3LoadsPdptrs paeOn = true ∧
      cr4LoadsPdptrs paeOn 0x30 = true ∧ cr0LoadsPdptrs paeOn 0x30 = true ∧
      PdptrsFaulty s.config s.mem 0x1000 ∧ PdptrsFaulty s.config s.mem paeOn.cr3 := by
  refine ⟨rfl, rfl, rfl, by decide, by decide, ?_, ?_⟩ <;>
    exact ⟨by decide, 3, by decide, by decide⟩

/-- A present PDPTR with bit 61, which R82 refuses; and a table that ends where the populated range does not
reach: 101FE0H is the last base below 102000H. -/
theorem witness_FaultyPdptr_stops :
    PdptrsReserved Config.initial (stored paeMem [(0x1000, 0x2000000000000001)]) 0x1000 ∧
    PdptrsOutside { Config.initial with memRange := [⟨0, 0x101FFF⟩] } 0x101FE0 := by
  refine ⟨⟨by decide, by decide, 0, by decide, by decide, by decide⟩, by unfold PdptrsOutside; decide⟩

/-- CPL 1 is the least that is not 0. -/
theorem witness_PrivilegedOperationsFaultAboveCplZero :
    (withP0 longState { longProc with cpl := 1 }).proc? = some { longProc with cpl := 1 } ∧
    ({ longProc with cpl := 1 } : Proc).cpl ≠ 0 := by decide

theorem witness_HltHalts : supState.proc? = some warmSup ∧ warmSup.cpl = 0 := by decide

theorem witness_CpuidReturnsTheParameters : longState.proc? = some longProc := by decide

/-- R113: outside 64-bit mode 32 bits are read. -/
theorem test_movFromCrn_size : next (.movFromCrn 3 .cr0 0)
    (withP0 (withFirst longState { steady with bits := 0xFFFFFFFFFFFFFFFF }) paeOn) (·.trace) =
    some [.controlRegister 0 .cr0 0xFFFEFFFF] := by decide

theorem witness_MovFromCrnReadsTheRegister : longState.proc? = some longProc ∧ longProc.lma = true ∧
    paeState.proc? = some paeOn ∧ paeOn.lma = false := by decide

/-- A processor in each of the four modes. -/
theorem witness_PagingModeTable : Proc.reset.pg = false ∧
    (∃ p : Proc, p.pg = true ∧ p.lma = false ∧ p.pae = false) ∧
    (paeOn.pg = true ∧ paeOn.lma = false ∧ paeOn.pae = true) ∧
    (longProc.pg = true ∧ longProc.lma = true ∧ longProc.pae = true) :=
  ⟨rfl, ⟨{ Proc.reset with pg := true }, rfl, rfl, rfl⟩, ⟨rfl, rfl, rfl⟩, ⟨rfl, rfl, rfl⟩⟩

/-- PDPTR registers 0 (present) and 1 (not present), and an entry of each cache for address 0. -/
def startProc : Proc :=
  { longProc with
    pdptr := ⟨0xFFFFFF001, 0, 0, 0⟩
    pml4c := [⟨0, 0x1000, true, true, false⟩]
    pdpc := [⟨0, 0x2000, true, false, false⟩]
    pdec := [⟨.ia32e, 0, 0x3000, false, true, false⟩] }

theorem witness_WalkStartsAndEntryAddresses :
    (freshPartial .l1 0xFFFFFFFFFF000).addr.toNat % 4096 = 0 ∧
    startProc.pdptr.q0.toNat % 2 = 1 ∧ (0x3FFFFFFF : LAddr).toNat / 2 ^ 30 % 4 = 0 ∧
    startProc.pdptr.q1.toNat % 2 = 0 ∧ (0x40000000 : LAddr).toNat / 2 ^ 30 % 4 = 1 ∧
    (pml4cFor startProc .ia32e 0)[0]? = some ⟨0, 0x1000, true, true, false⟩ ∧
    (pdpcFor startProc .ia32e 0)[0]? = some ⟨0, 0x2000, true, false, false⟩ ∧
    (pdecFor startProc .ia32e 0)[0]? = some ⟨.ia32e, 0, 0x3000, false, true, false⟩ := by decide

/-- R321: PDPTR register 0 leads to the page directory in its bits 35:12. -/
theorem test_paeRoot : rootPartial startProc .pae 0x3FFFFFFF = some ⟨.l2, 0xFFFFFF000, true, true, false⟩ ∧
    rootPartial startProc .pae 0x40000000 = none := by decide

/-- R82 at the ends of its ranges, MAXPHYADDR being 36. -/
theorem witness_EntryFormatsAndFrames : Config.initial.wf = true ∧
    (RefusedBit Config.initial true .ia32e .l4 false 36 ∧ (0x1000000001 : Entry).getLsbD 36 = true) ∧
    (RefusedBit Config.initial false .pae .l1 false 63 ∧ (0x8000000000000001 : Entry).getLsbD 63 = true) ∧
    (RefusedBit Config.initial false .legacy32 .l2 true 21 ∧ (0x200081 : Entry).getLsbD 21 = true) ∧
    (∀ k, ¬ (RefusedBit Config.initial false .ia32e .l4 false k ∧ (1 : Entry).getLsbD k = true)) ∧
    (0xFFFFFFFFFF000 : PAddr).toNat % 2 ^ 12 = 0 ∧ (0xFFFFFFFE00000 : PAddr).toNat % 2 ^ 21 = 0 ∧
    (0xFFFFFFFC00000 : PAddr).toNat % 2 ^ 22 = 0 := by
  refine ⟨by decide, ⟨.inr (.inl (by decide)), by decide⟩, ⟨.inr (.inr (.inl ⟨rfl, rfl⟩)), by decide⟩,
    ⟨.inr ⟨rfl, .inr (.inl (by decide))⟩, by decide⟩, fun k hk => ?_, by decide, by decide, by decide⟩
  obtain ⟨h1, h2⟩ := hk
  have hk0 : k = 0 := by simpa using h2
  subst hk0
  simp [RefusedBit, Config.initial] at h1

/-- R73 to R82: a PDE of a large page with dirty, G and XD, the same with bit 20 and with bit 21, and bit 7
in a PTE. -/
theorem test_entryFormats :
    viewEntry Config.initial longProc .ia32e (freshPartial .l2 0) 8 0x80000000400001E7 =
      .leaf ⟨true, 8, 0x40000000, true, true, longProc.nxe, true, true⟩ ∧
    viewEntry Config.initial longProc .ia32e (freshPartial .l2 0) 8 0x401000E7 = .refused ∧
    viewEntry Config.initial longProc .ia32e (freshPartial .l2 0) 8 0x402000E7 =
      .leaf ⟨true, 8, 0x40200000, true, true, false, true, false⟩ ∧
    viewEntry Config.initial longProc .ia32e (freshPartial .l1 0) 8 0x402000E7 = .refused := by decide

/-- The last piece of the large page of V3. -/
theorem witness_PieceOfLargePageTranslatesAlike : ({ leaf1 with large := true } : Leaf).large = true ∧
    pageNumber .ia32e 0x80807FFFFF = pageNumber .ia32e 0x80807FF000 ∧
    largePageNumber .ia32e 0x80807FFFFF = largePageNumber .ia32e 0x8080600000 ∧
    supState.proc? = some warmSup ∧ warmSup.cpl = 0 ∧ warmSup.mode = some .ia32e ∧
    canonical 0x80807FFFFF = true := by decide

end Sys2Proof.Tests
end

section
/-! PROOFS. What an operation can do (family 10, the state): the ways in which `exec` answers a next state,
said once, so that the frames and the invariants of all operations are case splits over them. -/

namespace Sys2Proof.Machine

/-! ### The operations that make no access -/

/-- A load of the PDPTR registers that did not fault, from p to q: none was needed, or q has legal values
in them (R330 to R332). -/
def PdptrsLoaded (needed : Bool) (p q : Proc) : Prop :=
  (needed = false ∧ q = p) ∨
    (needed = true ∧ ∃ d : Pdptrs, d.legal = true ∧ q = { p with pdptr := d, pdptrValid := true })

/-- An operation that may load the PDPTR registers faults with an event alone, or goes on with a processor
on which the load was made. -/
theorem State.loadPdptrs_cases {s : State} {p : Proc} {needed : Bool} {c : BitVec 64} {k : Proc → Result}
    {t : State} (h : s.loadPdptrs p needed c k = .next t) :
    (∃ r, t = s.report r) ∨ ∃ q, PdptrsLoaded needed p q ∧ k q = .next t := by
  rcases State.loadPdptrs_next _ _ _ _ _ _ h with ⟨hn, hk⟩ | ⟨d, hn, hd, hk⟩ | ⟨-, -, rfl⟩
  · exact .inr ⟨p, .inl ⟨hn, rfl⟩, hk⟩
  · exact .inr ⟨_, .inr ⟨hn, d, readPdptrs_legal _ _ _ _ hd, rfl⟩, hk⟩
  · exact .inl ⟨_, rfl⟩

/-- The ways in which operation i, run by the current processor p, leads from s to a next state. -/
inductive Runs (s : State) (p : Proc) : Instr → State → Prop
  /-- READ, WRITE and FETCH (R151 to R153). -/
  | access (kind : AccessKind) (la : LAddr) (n v : Nat) (t : State)
      (h : demandAccess kind la n v s = .next t) : Runs s p (accessOp kind la n v) t
  /-- An event and nothing else: a fault of a privileged operation (R405, R406), or CPUID (R158). -/
  | reports (i : Instr) (r : Report) : Runs s p i (s.report r)
  /-- MOV from CRn (R113). -/
  | movFromCrn (md : BitVec 2) (cr : CrNum) (rm : BitVec 3) :
      Runs s p (.movFromCrn md cr rm) (s.drawn.report
        (.controlRegister s.current cr (crOperand p (controlValue p cr s.choice.bits))))
  /-- INVLPG (R231). -/
  | invlpg (md : BitVec 2) (rm : BitVec 3) (tail : Tail) (la : LAddr) :
      Runs s p (.invlpg md rm tail la) (s.invalidated p (invlpgReq s.config p la))
  /-- MOV to CR3 (R232). -/
  | movToCr3 (md : BitVec 2) (rm : BitVec 3) (v : BitVec 64) (q : Proc)
      (hq : PdptrsLoaded (!p.lma && p.pae) p q) :
      Runs s p (.movToCr3 md rm v) (s.invalidated { q with cr3 := crOperand p v } Req.nonGlobal)
  /-- MOV to CR4, which does not clear PAE with LMA = 1 (R233, R25). -/
  | movToCr4 (md : BitVec 2) (rm : BitVec 3) (v : BitVec 64) (q : Proc)
      (hpae : p.lma = true → cr4Pae v = true)
      (hq : PdptrsLoaded (cr4Pae v && !p.lma && p.pg && cr4Changed p v) p q) :
      Runs s p (.movToCr4 md rm v)
        (s.invalidated (q.withCr4 v) (if p.pge != cr4Pge v then Req.everything else Req.nothing))
  /-- MOV to CR0 (R340). -/
  | movToCr0 (md : BitVec 2) (rm : BitVec 3) (v : BitVec 64) (q : Proc)
      (hq : PdptrsLoaded (cr0Pg v != p.pg && !p.lma && p.pae) p q) :
      Runs s p (.movToCr0 md rm v)
        (s.invalidated { q with pg := cr0Pg v, wp := cr0Wp v } Req.nothing)
  /-- HLT (R376). -/
  | hlt : Runs s p .hlt (s.setProc { p with halted := true })

/-- A privileged operation that answers a next state reports general protection, or ran at CPL 0. -/
theorem Runs.of_privileged {s t : State} {i : Instr} {k : Proc → Result} (h : s.privileged k = .next t)
    (hk : ∀ p, k p = .next t → Runs s p i t) : ∃ p, s.proc? = some p ∧ Runs s p i t := by
  obtain ⟨p, hp, ⟨-, h⟩ | ⟨-, rfl⟩⟩ := State.privileged_next _ _ _ h
  · exact ⟨p, hp, hk p h⟩
  · exact ⟨p, hp, .reports _ _⟩

/-- An operation on memory that answers a next state has a processor that runs it. -/
theorem Runs.of_demandAccess {s t : State} (kind : AccessKind) (la : LAddr) (n v : Nat)
    (h : demandAccess kind la n v s = .next t) :
    ∃ p, s.proc? = some p ∧ Runs s p (accessOp kind la n v) t := by
  obtain ⟨p, hp, -⟩ := State.withProc_next _ _ _ h
  exact ⟨p, hp, .access kind la n v t h⟩

/-- An operation that answers a next state does so in one of these ways. -/
theorem exec_next {i : Instr} {s t : State} (h : exec i s = .next t) :
    ∃ p, s.proc? = some p ∧ Runs s p i t := by
  cases i with
  | read la n => exact Runs.of_demandAccess .read la n 0 h
  | write la n v => exact Runs.of_demandAccess .write la n v h
  | fetch la n => exact Runs.of_demandAccess .fetch la n 0 h
  | invlpg md rm tail la =>
    refine Runs.of_privileged h fun p hp => ?_
    split at hp
    · cases hp
    · cases hp; exact .invlpg md rm tail la
  | movToCr3 md rm v =>
    refine Runs.of_privileged h fun p hp => ?_
    obtain ⟨r, rfl⟩ | ⟨q, hq, hk⟩ := State.loadPdptrs_cases hp
    · exact .reports _ r
    · cases hk; exact .movToCr3 md rm v q hq
  | movToCr4 md rm v =>
    refine Runs.of_privileged h fun p hp => ?_
    split at hp
    · cases hp
    · rename_i hpae
      obtain ⟨r, rfl⟩ | ⟨q, hq, hk⟩ := State.loadPdptrs_cases hp
      · exact .reports _ r
      · cases hk; exact .movToCr4 md rm v q (by simpa using hpae) hq
  | movToCr0 md rm v =>
    refine Runs.of_privileged h fun p hp => ?_
    obtain ⟨r, rfl⟩ | ⟨q, hq, hk⟩ := State.loadPdptrs_cases hp
    · exact .reports _ r
    · cases hk; exact .movToCr0 md rm v q hq
  | movFromCrn md cr rm =>
    obtain ⟨p, hp, h⟩ := State.withProc_next _ _ _ h
    cases h; exact ⟨p, hp, .movFromCrn md cr rm⟩
  | hlt => exact Runs.of_privileged h fun p hp => by cases hp; exact .hlt
  | cpuid =>
    obtain ⟨p, hp, h⟩ := State.withProc_next _ _ _ h
    cases h; exact ⟨p, hp, .reports _ _⟩

end Sys2Proof.Machine
end

section
/-! PROOFS. Every step keeps the invariant of the machine: the operations on the state keep it, every step of
an access keeps it (`Running`), and so do the operations and the other moves. -/

namespace Sys2Proof.Machine

/-! ### What keeps the invariant of a processor -/

/-- What an entry may be depends on LMA, NXE and CR4.PGE alone. -/
theorem Proc.cachesOk_of_sets {cfg : Config} {p q : Proc} (hp : p.cachesOk cfg = true)
    (hlma : q.lma = p.lma) (hnxe : q.nxe = p.nxe) (hpge : q.pge = p.pge) (htlb : q.tlb = p.tlb)
    (hpml4c : q.pml4c = p.pml4c) (hpdpc : q.pdpc = p.pdpc) (hpdec : q.pdec = p.pdec) :
    q.cachesOk cfg = true := by
  have tlb : ∀ e : TlbEntry, e.ok cfg q = e.ok cfg p := fun e => by
    simp only [TlbEntry.ok, tagPossible, xdPossible, hlma, hnxe, hpge]
  have pml4c : ∀ c : Pml4Entry, c.ok cfg q = c.ok cfg p := fun c => by
    simp only [Pml4Entry.ok, xdPossible, hlma, hnxe]
  have pdpc : ∀ c : PdpEntry, c.ok cfg q = c.ok cfg p := fun c => by
    simp only [PdpEntry.ok, xdPossible, hlma, hnxe]
  have pdec : ∀ c : PdeEntry, c.ok cfg q = c.ok cfg p := fun c => by
    simp only [PdeEntry.ok, tagPossible, xdPossible, hlma, hnxe]
  rw [Proc.cachesOk_iff] at hp ⊢
  simpa only [tlb, pml4c, pdpc, pdec, htlb, hpml4c, hpdpc, hpdec] using hp

/-- A processor whose four sets are empty meets their invariant. -/
theorem Proc.nothingCached.cachesOk {p : Proc} (cfg : Config) (h : p.nothingCached) :
    p.cachesOk cfg = true := by
  obtain ⟨htlb, hpml4c, hpdpc, hpdec⟩ := h
  simp [Proc.cachesOk_iff, htlb, hpml4c, hpdpc, hpdec]

/-- Where everything is required to go nothing is left (R233). -/
theorem Proc.invalidate_everything (p : Proc) (extra : Removal) :
    (p.invalidate Req.everything extra).nothingCached :=
  ⟨removeWhere_all _ _, removeWhere_all _ _, removeWhere_all _ _, removeWhere_all _ _⟩

/-- The access in progress, as a proposition: of a processor that is not halted, and one it can have
(R376, D10). -/
theorem Proc.busyOk_iff (p : Proc) : p.busyOk = true ↔
    ∀ a, p.busy = some a → p.halted = false ∧ a.ok p = true := by
  unfold Proc.busyOk
  cases p.busy <;> simp

/-- Without an access in progress, what a processor has to meet besides the invariant of its caches is about
its registers. -/
theorem Proc.ok_of_idle {cfg : Config} {p : Proc} (hb : p.busy = none) (hm : p.modeLegal cfg = true)
    (hq : p.pdptrsLegal = true) (hc : p.cachesOk cfg = true) : p.ok cfg = true :=
  (Proc.ok_iff _ _).mpr ⟨hm, hq, hc, (Proc.busyOk_iff _).mpr (by simp [hb])⟩

/-- Legal mode bits, as a proposition (R25, R24). -/
theorem Proc.modeLegal_iff (cfg : Config) (p : Proc) : p.modeLegal cfg = true ↔
    (p.lma = true → p.pae = true) ∧ (p.lma = true → cfg.intel64 = true) := by
  unfold Proc.modeLegal
  cases p.lma <;> simp

/-- PAE mode is paging with CR4.PAE = 1 and LMA = 0 (R131). -/
theorem Proc.mode_eq_pae_iff (p : Proc) :
    p.mode = some .pae ↔ p.pg = true ∧ p.lma = false ∧ p.pae = true := by
  unfold Proc.mode
  cases p.pg <;> cases p.lma <;> cases p.pae <;> simp

/-- Legal PDPTR registers, as a proposition (R331, R332). -/
theorem Proc.pdptrsLegal_iff (p : Proc) : p.pdptrsLegal = true ↔
    (p.mode = some .pae → p.pdptrValid = true) ∧ (p.pdptrValid = true → p.pdptr.legal = true) := by
  unfold Proc.pdptrsLegal
  cases p.pdptrValid <;> simp

/-! ### Loads of the PDPTR registers -/

/-- A load changes the PDPTR registers only. -/
theorem PdptrsLoaded.eq_with {needed : Bool} {p q : Proc} (h : PdptrsLoaded needed p q) :
    q = { p with pdptr := q.pdptr, pdptrValid := q.pdptrValid } := by
  obtain ⟨-, rfl⟩ | ⟨-, d, -, rfl⟩ := h <;> rfl

/-- After a load, or where they were legal, the PDPTR registers are legal wherever they are valid. -/
theorem PdptrsLoaded.legal {needed : Bool} {p q : Proc} (h : PdptrsLoaded needed p q)
    (hp : p.pdptrsLegal = true) : q.pdptrValid = true → q.pdptr.legal = true := by
  obtain ⟨-, rfl⟩ | ⟨-, d, hd, rfl⟩ := h
  · exact ((Proc.pdptrsLegal_iff _).mp hp).2
  · exact fun _ => hd

/-- They are valid after a load that was needed, and where they were before. -/
theorem PdptrsLoaded.valid {needed : Bool} {p q : Proc} (h : PdptrsLoaded needed p q)
    (hv : needed = true ∨ p.pdptrValid = true) : q.pdptrValid = true := by
  obtain ⟨hn, rfl⟩ | ⟨-, d, -, rfl⟩ := h
  · exact hv.resolve_left (by simp [hn])
  · rfl

/-- A processor r that differs from the one with the PDPTR registers loaded in control bits only is legal,
if in PAE mode either the load was needed or p was in PAE mode already. -/
theorem PdptrsLoaded.pdptrsLegal {needed : Bool} {p q r : Proc} (h : PdptrsLoaded needed p q)
    (hp : p.pdptrsLegal = true) (hd : r.pdptr = q.pdptr) (hv : r.pdptrValid = q.pdptrValid)
    (hm : r.mode = some .pae → needed = true ∨ p.mode = some .pae) : r.pdptrsLegal = true := by
  rw [Proc.pdptrsLegal_iff, hv, hd]
  refine ⟨fun hr => h.valid ?_, h.legal hp⟩
  exact (hm hr).imp_right ((Proc.pdptrsLegal_iff _).mp hp).1

/-! ### What keeps the invariant of the machine -/

/-- The processor that takes the step meets its invariant. -/
theorem Inv.proc_ok {s : State} {p : Proc} (h : Inv s) (hp : s.proc? = some p) : p.ok s.config = true :=
  h.2.2.2.2 p (List.mem_of_getElem? hp)

/-- The parameters are legal. -/
theorem Inv.config_wf {s : State} (h : Inv s) : s.config.wf = true := h.1

/-- Memory is canonical. -/
theorem Inv.mem_wf {s : State} (h : Inv s) : s.mem.wf := h.2.1

/-- The invariant is about the parameters, memory, the processors and which of them is current. -/
theorem Inv.congr {s t : State} (h : Inv s) (hc : t.config = s.config) (hm : t.mem = s.mem)
    (hp : t.procs = s.procs) (hk : t.current = s.current) : Inv t := by
  unfold Inv
  rw [hc, hm, hp, hk]
  exact h

theorem Inv.drawn {s : State} (h : Inv s) : Inv s.drawn := h.congr (by simp) (by simp) (by simp) (by simp)

theorem Inv.scheduled {s : State} (h : Inv s) : Inv s.scheduled :=
  h.congr (by simp) (by simp) (by simp) (by simp)

theorem Inv.report {s : State} (h : Inv s) (r : Report) : Inv (s.report r) := h.congr rfl rfl rfl rfl

theorem Inv.setMem {s : State} (h : Inv s) {m : Memory} (hm : m.wf) : Inv (s.setMem m) := by
  obtain ⟨hc, -, hl, hk, hp⟩ := h
  exact ⟨hc, hm, hl, hk, hp⟩

/-- A processor becomes current. -/
theorem Inv.select {s : State} (h : Inv s) {k : Nat} {p : Proc} (hp : s.procs[k]? = some p) :
    Inv { s with current := k } := by
  obtain ⟨hc, hm, hl, -, hall⟩ := h
  obtain ⟨hk, -⟩ := List.getElem?_eq_some_iff.mp hp
  exact ⟨hc, hm, hl, hl ▸ hk, hall⟩

/-- A processor changes to a good one. -/
theorem Inv.setAt {s : State} (h : Inv s) (k : Nat) {p : Proc} (hp : p.ok s.config = true) :
    Inv { s with procs := s.procs.set k p } := by
  obtain ⟨hc, hm, hl, hk, hall⟩ := h
  refine ⟨hc, hm, by simpa using hl, hk, fun q hq => ?_⟩
  rcases List.mem_or_eq_of_mem_set hq with hq | rfl
  · exact hall q hq
  · exact hp

theorem Inv.setProc {s : State} (h : Inv s) {p : Proc} (hp : p.ok s.config = true) : Inv (s.setProc p) :=
  h.setAt s.current hp

theorem Inv.invalidated {s : State} (h : Inv s) {p : Proc} {req : Req}
    (hp : (p.invalidate req s.choice.extra).ok s.config = true) : Inv (s.invalidated p req) :=
  h.drawn.setProc (by simpa using hp)

/-! ### Every step of an access keeps it -/

/-- The partial translation that an access carries is one of the processor's mode (R135, R320). -/
def Access.InMode (a : Access) (p : Proc) : Prop :=
  ∀ t d m, a.phase = .walk t d → p.mode = some m → t.ok p m = true

/-- What an access in progress has to be: a demand access with a partial translation of the mode. -/
theorem Access.ok_iff (a : Access) (p : Proc) : a.ok p = true ↔ a.demand = true ∧ a.InMode p := by
  unfold Access.ok Access.InMode
  cases a.phase <;> cases p.mode <;> simp

/-- Outside a walk an access carries no partial translation. -/
theorem Access.InMode.of_notWalking {a : Access} {p : Proc} (h : ∀ t d, a.phase ≠ .walk t d) :
    a.InMode p := fun t d _ hph => absurd hph (h t d)

/-- A walk is in the mode if its partial translation is. -/
theorem Access.InMode.of_walk {a : Access} {p : Proc} {m : PMode} {t : Partial} {d : Bool}
    (hph : a.phase = .walk t d) (hm : p.mode = some m) (ht : t.ok p m = true) : a.InMode p := by
  intro t' d' m' hph' hm'
  rw [hph] at hph'
  rw [hm] at hm'
  cases hph'
  cases hm'
  exact ht

/-- The mode and NXE are no part of the caches. -/
theorem Access.InMode.of_sameButCaches {a : Access} {p q : Proc} (h : a.InMode p) (hs : SameButCaches q p) :
    a.InMode q := by
  unfold SameButCaches at hs
  rw [hs]
  exact h

/-- What holds while an access runs: the invariant, a partial translation of the mode, and a demand access
is that of a processor that is not halted, so that it can wait there. -/
structure Running (a : Access) (s : State) : Prop where
  inv : Inv s
  inMode : ∀ p, s.proc? = some p → a.InMode p
  awake : ∀ p, s.proc? = some p → a.demand = true → p.halted = false

theorem Running.drawn {a : Access} {s : State} (h : Running a s) : Running a s.drawn :=
  ⟨h.inv.drawn, by simpa using h.inMode, by simpa using h.awake⟩

/-- The access changes to a' alone, whose partial translation is one of the mode. -/
theorem Running.rephase {a a' : Access} {s : State} {p : Proc} (h : Running a s) (hp : s.proc? = some p)
    (hd : a'.demand = a.demand) (hm : a'.InMode p) : Running a' s := by
  refine ⟨h.inv, fun q hq => ?_, fun q hq ha => h.awake q hq (hd ▸ ha)⟩
  rw [hp] at hq
  cases hq
  exact hm

/-- Memory and the caches of the processor change, and both keep their invariants. -/
theorem Running.fill {a : Access} {s : State} {p q : Proc} {mem : Memory} (h : Running a s)
    (hp : s.proc? = some p) (hmem : mem.wf) (hs : SameButCaches q p) (hb : q.busy = p.busy)
    (hq : q.cachesOk s.config = true) : Running a ((s.setMem mem).setProc q) := by
  have hq? : ((s.setMem mem).setProc q).proc? = some q := State.setProc_proc? _ _ (by simpa using hp)
  refine ⟨(h.inv.setMem hmem).setProc (hs.ok hb hq (h.inv.proc_ok hp)), fun r hr => ?_, fun r hr ha => ?_⟩
  · rw [hq?] at hr
    cases hr
    exact (h.inMode p hp).of_sameButCaches hs
  · rw [hq?] at hr
    cases hr
    unfold SameButCaches at hs
    rw [hs]
    exact h.awake p hp ha

/-- A committing step at a leaf keeps it (R142, R173). -/
theorem Running.leafState {a : Access} {c : Choice} {s : State} {p : Proc} {m : PMode} {t : Partial}
    {l : Leaf} (h : Running a s) (hp : s.proc? = some p) (hm : p.mode = some m) (ht : t.ok p m = true)
    (hs : Sees a p m t s (.leaf l)) : Running a (leafState a c p m (entryAddress m t a.la) l s) := by
  have hcaches := ((Proc.ok_iff _ _).mp (h.inv.proc_ok hp)).2.2.1
  exact h.fill hp (setEntryBits_wf _ _ _ _ h.inv.mem_wf) (Proc.keepLeaf_sameButCaches _ _ _ _ _ _)
    (Proc.keepLeaf_busy _ _ _ _ _ _)
    (Proc.keepLeaf_cachesOk h.inv.config_wf hcaches hm (viewEntry_leaf_ok h.inv.config_wf ht hs.2))

/-- A committing step to a further structure keeps it (R139, R196 to R198). -/
theorem Running.extendedState {a : Access} {c : Choice} {s : State} {p : Proc} {m : PMode} {t t' : Partial}
    (h : Running a s) (hp : s.proc? = some p) (hm : p.mode = some m) (ht : t.ok p m = true)
    (hs : Sees a p m t s (.next t')) :
    Running { a with phase := .walk t' false }
      (extendedState a c p m (entryAddress m t a.la) t' s) := by
  have hok' := (viewEntry_next_ok ht hs.2).1
  have hmem := setEntryBits_wf s.mem m (entryAddress m t a.la) accessedMask h.inv.mem_wf
  have hcaches := ((Proc.ok_iff _ _).mp (h.inv.proc_ok hp)).2.2.1
  have h' : Running { a with phase := .walk t' false } s :=
    h.rephase hp rfl (.of_walk rfl hm hok')
  unfold Machine.extendedState
  simp only
  split
  · exact h'.fill hp hmem (Proc.keepPartial_sameButCaches _ _ _ _) (Proc.keepPartial_busy _ _ _ _)
      (Proc.keepPartial_cachesOk _ _ hcaches hm ht hs.2)
  · exact ⟨h'.inv.setMem hmem, h'.inMode, h'.awake⟩

/-- Each way of going on keeps it. -/
theorem Running.goesOn {a a' : Access} {c : Choice} {s s' : State} {p : Proc} {m : PMode}
    (h : Running a s) (hp : s.proc? = some p) (hm : p.mode = some m) (hg : GoesOn a c p m s a' s') :
    Running a' s' := by
  have hcaches := ((Proc.ok_iff _ _).mp (h.inv.proc_ok hp)).2.2.1
  have hwalk : ∀ {t d}, a.phase = .walk t d → t.ok p m = true := fun hph => h.inMode p hp _ _ m hph hm
  cases hg with
  | start t hph ht => exact h.rephase hp rfl (.of_walk rfl hm (startPartial_ok hcaches ht))
  | hit e hph he hok hd => exact h.rephase hp rfl (.of_notWalking (by simp))
  | dry t t' d hph hs hmust =>
    exact h.rephase hp rfl (.of_walk rfl hm (viewEntry_next_ok (hwalk hph) hs.2).1)
  | again t d l hph hs hok hd hmust => exact h.rephase hp rfl (.of_notWalking (by simp))
  | extend t t' hph hs => exact h.extendedState hp hm (hwalk hph) hs
  | leaf t l hph hs hok =>
    have h' := h.leafState (c := c) hp hm (hwalk hph) hs
    have hp' := State.setProc_proc? (s.setMem (setEntryBits s.mem m (entryAddress m t a.la)
      (if leafWrites a p l then accessedDirtyMask else accessedMask)))
      (p.keepLeaf m a.la { l with dirty := l.dirty || leafWrites a p l } c.keep c.keepPiece) hp
    exact h'.rephase hp' rfl (.of_notWalking (by simp))

/-! ### Every way of ending an access keeps it -/

/-- A result whose next state, if it has one, meets the invariant. -/
def Keeps (r : Result) : Prop := ∀ t, r = .next t → Inv t

theorem Keeps.next {s : State} (h : Inv s) : Keeps (.next s) := by
  rintro t ⟨⟩
  exact h

theorem Keeps.fault (f : Fault) : Keeps (.fault f) := nofun

theorem Keeps.refused (r : Refusal) : Keeps (.refused r) := nofun

/-- A translation that fails keeps it (R401, R403). -/
theorem Running.failAccess {a : Access} {s : State} (h : Running a s) : Keeps (failAccess a s) := by
  unfold Machine.failAccess
  split
  · intro t ht
    obtain ⟨p, hp, ht⟩ := State.withProc_next _ _ _ ht
    cases ht
    exact (h.inv.invalidated (Proc.invalidate_ok _ _ (h.inv.proc_ok hp))).report _
  · exact .next h.inv

/-- Moving the data keeps it (R151 to R153). -/
theorem Running.moveData {a : Access} {s : State} (h : Running a s) (pa : PAddr) :
    Keeps (moveData a pa s) := by
  intro t ht
  obtain ⟨hc, hk, -, hp, -, -, hmem, -⟩ := moveData_next _ _ _ _ ht
  exact (h.inv.setMem (hmem h.inv.mem_wf)).congr hc rfl hp hk

/-- An access that waits is one in progress of a processor that is not halted (R137, R376). -/
theorem Running.waitAccess {a : Access} {s : State} (h : Running a s) : Keeps (waitAccess a s) := by
  unfold Machine.waitAccess
  split
  · rename_i hd
    intro t ht
    obtain ⟨p, hp, ht⟩ := State.withProc_next _ _ _ ht
    cases ht
    obtain ⟨hmode, hpdptrs, hcaches, -⟩ := (Proc.ok_iff _ _).mp (h.inv.proc_ok hp)
    refine h.inv.setProc ((Proc.ok_iff _ _).mpr ⟨hmode, hpdptrs, hcaches, (Proc.busyOk_iff _).mpr ?_⟩)
    rintro b ⟨⟩
    exact ⟨h.awake p hp hd, (Access.ok_iff _ _).mpr ⟨hd, h.inMode p hp⟩⟩
  · exact .next h.inv

/-- Each way of ending keeps it. -/
theorem Running.ends {a : Access} {c : Choice} {s : State} {p : Proc} {m : PMode} {r : Result}
    (h : Running a s) (hp : s.proc? = some p) (hm : p.mode = some m) (he : Ends a c p m s r) :
    Keeps r := by
  cases he with
  | notLoaded => exact .refused _
  | noRoot => exact h.failAccess
  | deniedHit => exact h.failAccess
  | outside => exact .fault _
  | notPresent => exact h.failAccess
  | refused => exact .refused _
  | deniedDry => exact h.failAccess
  | abortDry => exact .next h.inv
  | deniedLeaf t l hph hs => exact (h.leafState hp hm (h.inMode p hp _ _ m hph hm) hs).failAccess
  | data pa => exact h.moveData pa

/-- An access keeps the invariant. -/
theorem Running.runAccess {a : Access} {s : State} (h : Running a s) (fuel : Nat) :
    Keeps (runAccess fuel a s) := by
  refine runAccess_induction (Q := Running) (R := Keeps) ?_ ?_ ?_ ?_ ?_ ?_ fuel a s h
  · intro a s p m a' s' h hp hm hg
    exact h.drawn.goesOn (by simpa using hp) hm hg
  · intro a s p m r h hp hm he
    exact h.drawn.ends (by simpa using hp) hm he
  · exact fun a s h => h.waitAccess
  · exact fun a s h _ _ => h.drawn.waitAccess
  · exact fun a s p h _ _ => h.moveData _
  · exact fun a s h _ => .refused _

/-- A fill keeps the invariant. -/
theorem Running.fillWalk {a : Access} {s : State} (h : Running a s) (steps : Nat) :
    Keeps (fillWalk steps a s) := by
  refine fillWalk_induction (Q := Running) (R := Keeps) ?_ ?_ ?_ ?_ ?_ steps a s h
  · intro a s p m a' s' h hp hm hg _
    exact h.drawn.goesOn (by simpa using hp) hm hg
  · intro a s p m a' s' h hp hm hg
    exact .next (h.drawn.goesOn (by simpa using hp) hm hg).inv
  · intro a s p m r h hp hm he
    exact h.drawn.ends (by simpa using hp) hm he
  · exact fun a s h => .next h.inv
  · exact fun a s h _ => .refused _

/-- An access that has not begun, of a processor that is not halted if it is a demand access. -/
theorem Running.begin {a : Access} {s : State} {p : Proc} (h : Inv s) (hp : s.proc? = some p)
    (hph : a.phase = .begin) (ha : a.demand = true → p.halted = false) : Running a s := by
  refine ⟨h, fun q _ => .of_notWalking (by simp [hph]), fun q hq hd => ?_⟩
  rw [hp] at hq
  cases hq
  exact ha hd

/-! ### Every operation keeps it -/

/-- An operation on memory keeps it. -/
theorem Inv.demandAccess {s : State} {p : Proc} (h : Inv s) (hp : s.proc? = some p)
    (hh : p.halted = false) (kind : AccessKind) (la : LAddr) (n v : Nat) :
    Keeps (demandAccess kind la n v s) := by
  unfold Machine.demandAccess
  rw [State.withProc_eq _ _ _ hp]
  split
  · exact .refused _
  · split
    · exact .refused _
    · exact (Running.begin h hp rfl fun _ => hh).runAccess _

/-- A MOV to CR3 keeps the processor good: with CR4.PAE = 1 and LMA = 0 it loads the PDPTR registers
(R232, R331). -/
theorem PdptrsLoaded.movToCr3_ok {cfg : Config} {p q : Proc} (v : BitVec 64) (hp : p.ok cfg = true)
    (hb : p.busy = none) (hq : PdptrsLoaded (!p.lma && p.pae) p q) :
    Proc.ok cfg { q with cr3 := v } = true := by
  obtain ⟨hmode, hpdptrs, hcaches, -⟩ := (Proc.ok_iff _ _).mp hp
  have he := hq.eq_with
  refine Proc.ok_of_idle (by rw [he]; exact hb) (by rw [he]; exact hmode)
    (hq.pdptrsLegal hpdptrs rfl rfl fun hm => .inr ?_) ?_
  · rw [he] at hm
    exact hm
  · rw [he]
    exact hcaches

/-- A MOV to CR0 keeps the processor good: if it enters PAE mode it modifies CR0.PG and loads the PDPTR
registers (R340, R331). -/
theorem PdptrsLoaded.movToCr0_ok {cfg : Config} {p q : Proc} (pg wp : Bool) (hp : p.ok cfg = true)
    (hb : p.busy = none) (hq : PdptrsLoaded (pg != p.pg && !p.lma && p.pae) p q) :
    Proc.ok cfg { q with pg := pg, wp := wp } = true := by
  obtain ⟨hmode, hpdptrs, hcaches, -⟩ := (Proc.ok_iff _ _).mp hp
  have he := hq.eq_with
  refine Proc.ok_of_idle (by rw [he]; exact hb) (by rw [he]; exact hmode)
    (hq.pdptrsLegal hpdptrs rfl rfl fun hm => ?_) (by rw [he]; exact hcaches)
  rw [he, Proc.mode_eq_pae_iff] at hm
  obtain ⟨hpg, hlma, hpae⟩ : pg = true ∧ p.lma = false ∧ p.pae = true := hm
  rw [Proc.mode_eq_pae_iff]
  cases hold : p.pg <;> simp [hpg, hlma, hpae]

/-- A MOV to CR4 leaves a good processor: it never clears PAE with LMA = 1 (R25); if it enters PAE mode it
modifies CR4.PAE and loads the PDPTR registers (R331); and if it modifies CR4.PGE no cached entry is left
(R303). -/
theorem PdptrsLoaded.movToCr4_ok {cfg : Config} {p q : Proc} (v : BitVec 64) (extra : Removal)
    (hp : p.ok cfg = true) (hb : p.busy = none) (hpae : p.lma = true → cr4Pae v = true)
    (hq : PdptrsLoaded (cr4Pae v && !p.lma && p.pg && cr4Changed p v) p q) :
    ((q.withCr4 v).invalidate (if p.pge != cr4Pge v then Req.everything else Req.nothing) extra).ok
      cfg = true := by
  obtain ⟨hmode, hpdptrs, hcaches, -⟩ := (Proc.ok_iff _ _).mp hp
  have he := hq.eq_with
  rw [Proc.modeLegal_iff] at hmode
  refine Proc.ok_of_idle (by rw [he]; exact hb) ?_ (hq.pdptrsLegal hpdptrs rfl rfl fun hm => ?_) ?_
  · rw [Proc.modeLegal_iff, he]
    exact ⟨hpae, hmode.2⟩
  · rw [Proc.invalidate_mode, he, Proc.mode_eq_pae_iff] at hm
    obtain ⟨hpg, hlma, hpae'⟩ : p.pg = true ∧ p.lma = false ∧ cr4Pae v = true := hm
    rw [Proc.mode_eq_pae_iff]
    cases hold : p.pae <;> simp [cr4Changed, hpg, hlma, hpae', hold]
  · split
    · exact (Proc.invalidate_everything _ _).cachesOk cfg
    · rename_i hpge
      have hsame : (q.withCr4 v).pge = p.pge := (by simpa using hpge : p.pge = cr4Pge v).symm
      refine Proc.invalidate_cachesOk _ _
        (Proc.cachesOk_of_sets hcaches ?_ ?_ hsame ?_ ?_ ?_ ?_) <;> rw [he] <;> rfl

/-- An operation issued by a processor that is not halted and has no access in progress keeps the
invariant. -/
theorem Inv.exec {i : Instr} {s t : State} {p : Proc} (h : Inv s) (hp : s.proc? = some p)
    (hh : p.halted = false) (hb : p.busy = none) (ht : exec i s = .next t) : Inv t := by
  obtain ⟨p', hp', hr⟩ := exec_next ht
  rw [hp] at hp'
  cases hp'
  have hok := h.proc_ok hp
  cases hr with
  | access kind la n v _ hd => exact h.demandAccess hp hh kind la n v t hd
  | reports i r => exact h.report r
  | movFromCrn md cr rm => exact h.drawn.report _
  | invlpg md rm tail la => exact h.invalidated (Proc.invalidate_ok _ _ hok)
  | movToCr3 md rm v q hq => exact h.invalidated (Proc.invalidate_ok _ _ (hq.movToCr3_ok _ hok hb))
  | movToCr4 md rm v q hpae hq => exact h.invalidated (hq.movToCr4_ok v _ hok hb hpae)
  | movToCr0 md rm v q hq => exact h.invalidated (Proc.invalidate_ok _ _ (hq.movToCr0_ok _ _ hok hb))
  | hlt =>
    obtain ⟨hmode, hpdptrs, hcaches, -⟩ := (Proc.ok_iff _ _).mp hok
    exact h.setProc (Proc.ok_of_idle hb hmode hpdptrs hcaches)

/-! ### Every move keeps it -/

/-- The current processor of a state in which processor k was made current. -/
theorem State.select_proc? {s : State} {k : Nat} {p : Proc} (hp : s.procs[k]? = some p) :
    State.proc? { s with current := k } = some p := hp

/-- The current processor of the state in which processor k issues an operation. -/
theorem State.issued_proc? {s : State} {k : Nat} {p : Proc} (op : Issue) (ops : List Issue)
    (hp : s.procs[k]? = some p) :
    (s.issued k p op ops).proc? = some { p with program := ops, cpl := op.cpl } :=
  State.setProc_proc? { s with current := k } _ hp

/-- Going on with the access in progress keeps it (R137). -/
theorem Inv.continueAccess {s : State} {p : Proc} {a : Access} (h : Inv s) (hp : s.proc? = some p)
    (hb : p.busy = some a) : Keeps (continueAccess a s) := by
  obtain ⟨hmode, hpdptrs, hcaches, hbusy⟩ := (Proc.ok_iff _ _).mp (h.proc_ok hp)
  obtain ⟨hh, ha⟩ := (Proc.busyOk_iff _).mp hbusy a hb
  have hp' := State.setProc_proc? s { p with busy := none } hp
  unfold Machine.continueAccess
  rw [State.withProc_eq _ _ _ hp]
  have hidle : Inv (s.setProc { p with busy := none }) :=
    h.setProc (Proc.ok_of_idle (p := { p with busy := none }) rfl hmode hpdptrs hcaches)
  refine Running.runAccess ⟨hidle, fun q hq => ?_, fun q hq _ => ?_⟩ _
  · rw [hp'] at hq
    cases hq
    exact ((Access.ok_iff _ _).mp ha).2
  · rw [hp'] at hq
    cases hq
    exact hh

/-- Every move keeps it. -/
theorem Moves.inv {s t : State} (hm : Moves s t) (h : Inv s) : Inv t := by
  cases hm with
  | idle => exact h
  | goesOn p pr a _ hp hb ht => exact (h.select hp).continueAccess hp hb t ht
  | issues p pr op ops i _ hp hh hb ht =>
    obtain ⟨hmode, hpdptrs, hcaches, -⟩ := (Proc.ok_iff _ _).mp ((h.select hp).proc_ok hp)
    have hissued : Inv (s.issued p pr op ops) :=
      (h.select hp).setAt p (Proc.ok_of_idle (p := { pr with program := ops, cpl := op.cpl }) hb hmode
        hpdptrs hcaches)
    exact hissued.exec (State.issued_proc? op ops hp) hh hb ht
  | speculates p pr m la kind cpl n _ hp hm hk ht =>
    exact (Running.begin (h.select hp) hp rfl (by simp [speculation])).runAccess _ t ht
  | fills p pr m la steps _ hp hm ht =>
    exact (Running.begin (h.select hp) hp rfl (by simp [fillAccess])).fillWalk _ t ht
  | drops p pr which hp => exact h.setAt p (Proc.invalidate_ok _ _ ((h.select hp).proc_ok hp))
  | resumes p pr hp =>
    obtain ⟨hmode, hpdptrs, hcaches, hbusy⟩ := (Proc.ok_iff _ _).mp ((h.select hp).proc_ok hp)
    rw [Proc.busyOk_iff] at hbusy
    exact h.setAt p ((Proc.ok_iff _ _).mpr ⟨hmode, hpdptrs, hcaches,
      (Proc.busyOk_iff _).mpr fun a hb => ⟨rfl, (hbusy a hb).2⟩⟩)

/-- Settles O12: the invariant is kept by every way in which a move leads to a next state, and taking the
move from the schedule does not touch it. -/
theorem stepKeepsInvariant : Obligations.StepKeepsInvariant := by
  unfold Obligations.StepKeepsInvariant
  exact fun s t h ht => (step_next s t ht).inv h.scheduled

end Sys2Proof.Machine
end

section
/-! PROOFS. What the operations and the moves leave as it is: everything but the current processor, its
registers for all operations but the MOVs to control registers, and LMA, NXE and the parameters for every
step. -/

namespace Sys2Proof.Machine

/-! ### Nothing else than the current processor changes -/

theorem SameElsewhere.refl (s : State) : SameElsewhere s s := ⟨rfl, rfl, rfl, rfl, fun _ _ => rfl⟩

/-- A change of the current processor, and of memory, the trace or the choices at most. -/
theorem SameElsewhere.of_set {s t : State} {q : Proc} (hc : t.config = s.config)
    (hk : t.current = s.current) (hs : t.schedule = s.schedule) (hp : t.procs = s.procs.set s.current q) :
    SameElsewhere t s :=
  ⟨hc, hk, hs, by simp [hp], fun k hne => by rw [hp, List.getElem?_set_ne hne.symm]⟩

theorem State.invalidated_sameElsewhere (s : State) (q : Proc) (req : Req) :
    SameElsewhere (s.invalidated q req) s :=
  .of_set (by simp) (by simp) (by simp) (State.invalidated_procs s q req)

/-- What an access leaves as it is, without the caches. -/
theorem After.sameElsewhere {s t : State} {p : Proc} (h : After s p t) : SameElsewhere t s :=
  ⟨h.config, h.current, h.schedule, h.length, h.others⟩

/-- R370: an operation leaves everything but its processor. -/
theorem Runs.sameElsewhere {s t : State} {p : Proc} {i : Instr} (hp : s.proc? = some p)
    (h : Runs s p i t) : SameElsewhere t s := by
  cases h with
  | access kind la n v _ hd => exact (demandAccess_after _ _ _ _ _ _ _ hp hd).sameElsewhere
  | reports i r => exact .refl s
  | movFromCrn md cr rm => exact ⟨by simp, by simp, by simp, by simp, by simp⟩
  | invlpg => exact State.invalidated_sameElsewhere _ _ _
  | movToCr3 => exact State.invalidated_sameElsewhere _ _ _
  | movToCr4 => exact State.invalidated_sameElsewhere _ _ _
  | movToCr0 => exact State.invalidated_sameElsewhere _ _ _
  | hlt => exact .of_set rfl rfl rfl rfl

/-! ### Accesses and fills, from any phase -/

/-- The mode does not change while an access goes on. -/
theorem Went.mode {s0 p0 m a0 a s p m'} (h : Went s0 p0 m a0 a s) (hm : p0.mode = some m)
    (hp : s.proc? = some p) (hm' : p.mode = some m') : m' = m := by
  obtain ⟨q, hq, hs, -, -⟩ := h.proc
  rw [hp] at hq
  cases hq
  rw [hs.mode, hm] at hm'
  cases hm'
  rfl

/-- Each way in which a step ends an access is an end of the access. -/
theorem Went.ends {s0 p0 m a0 a s p r c} (h : Went s0 p0 m a0 a s) (hp : s.proc? = some p)
    (he : Ends a c p m s r) : Ended s0 p0 m a0 r := by
  cases he with
  | notLoaded => exact .stop _ (by simp)
  | noRoot hph => exact .failed _ _ h (by simp [hph])
  | deniedHit e hph => exact .failed _ _ h (by simp [hph])
  | outside => exact .stop _ (by simp)
  | notPresent t d hph => exact .failed _ _ h (by simp [hph])
  | refused => exact .stop _ (by simp)
  | deniedDry t d l hph => exact .failed _ _ h (by simp [hph])
  | abortDry t d l hph hs hd =>
    obtain ⟨-, -, -, -, -, hdemand⟩ := h.fields
    exact .aborted _ _ h (hdemand ▸ hd) (by simp [hph])
  | deniedLeaf t l hph hs hok =>
    exact .failed _ _ (h.atLeaf c _ l hp (by simp [hph]) a ⟨rfl, rfl, rfl, rfl, rfl, rfl⟩
      (by simp [leafWrites, hok])) (by simp [hph])
  | data pa => exact .moved _ _ _ h

/-- Every next state of an access, begun or gone on with, with paging on or off. -/
theorem runAccess_after {s t : State} {p : Proc} {a : Access} {fuel : Nat} (hp : s.proc? = some p)
    (h : runAccess (fuel + 1) a s = .next t) : After s p t := by
  cases hm : p.mode with
  | none =>
    rw [runAccess_pagingOff _ _ _ hp hm] at h
    obtain ⟨hc, hk, hs, hprocs, -, -, hwf, -⟩ := moveData_next _ _ _ _ h
    exact ⟨hc, hk, hs, by rw [hprocs], fun k _ => by rw [hprocs],
      ⟨p, by rw [State.proc?, hprocs, hk]; exact hp, .refl p, fun _ he => .inl he⟩, hwf⟩
  | some m => exact (runAccess_ended s p m a hp hm _).after h

/-- Every next state of a fill. -/
theorem fillWalk_after {s t : State} {p : Proc} {m : PMode} {a : Access} {steps : Nat}
    (hp : s.proc? = some p) (hm : p.mode = some m) (h : fillWalk steps a s = .next t) : After s p t := by
  refine fillWalk_induction (Q := Went s p m a) (R := fun r => ∀ t, r = .next t → After s p t)
    ?_ ?_ ?_ ?_ ?_ steps a s (Went.start _ _ _ _ hp) t h
  · intro a' s' q m' a'' s'' hw hq hm' hg _
    cases hw.mode hm hq hm'
    exact hw.drawn.goesOn (by simpa using hq) hg
  · rintro a' s' q m' a'' s'' hw hq hm' hg _ ⟨⟩
    cases hw.mode hm hq hm'
    exact (hw.drawn.goesOn (by simpa using hq) hg).after
  · rintro a' s' q m' r hw hq hm' he t ht
    cases hw.mode hm hq hm'
    exact (hw.drawn.ends (by simpa using hq) he).after ht
  · rintro a' s' hw _ ⟨⟩
    exact hw.after
  · rintro a' s' hw hno _ ⟨⟩

/-- Going on with an access clears it from the processor and changes what an access changes. -/
theorem continueAccess_after {s t : State} {p : Proc} {a : Access} (hp : s.proc? = some p)
    (h : continueAccess a s = .next t) :
    After (s.setProc { p with busy := none }) { p with busy := none } t := by
  unfold continueAccess at h
  rw [State.withProc_eq _ _ _ hp] at h
  exact runAccess_after (State.setProc_proc? _ _ hp) h

/-! ### The registers -/

theorem SameRegisters.refl (p : Proc) : SameRegisters p p :=
  ⟨rfl, rfl, rfl, rfl, rfl, rfl, rfl, rfl, rfl, rfl, rfl⟩

/-- The registers and the program are no part of the caches. -/
theorem SameButCaches.sameRegisters {q p : Proc} (h : SameButCaches q p) :
    SameRegisters q p ∧ q.program = p.program := by
  unfold SameButCaches at h
  rw [h]
  exact ⟨.refl p, rfl⟩

/-- Settles O18: the ways of the operations other than the MOVs to control registers are an access, an event,
an invalidation and HLT, and none writes a register. -/
theorem onlyMovToCrChangesRegisters : Obligations.OnlyMovToCrChangesRegisters := by
  unfold Obligations.OnlyMovToCrChangesRegisters
  intro i s t p ht hp hcr0 hcr3 hcr4
  obtain ⟨p', hp', hr⟩ := exec_next ht
  rw [hp] at hp'
  cases hp'
  cases hr with
  | access kind la n v _ hd =>
    obtain ⟨q, hq, hs, -⟩ := (demandAccess_after _ _ _ _ _ _ _ hp hd).proc
    exact ⟨q, hq, hs.sameRegisters⟩
  | reports i r => exact ⟨p, hp, .refl p, rfl⟩
  | movFromCrn md cr rm => exact ⟨p, by simpa using hp, .refl p, rfl⟩
  | invlpg md rm tail la => exact ⟨_, State.invalidated_proc? _ _ _ _ hp, .refl p, rfl⟩
  | movToCr3 md rm v => exact absurd rfl (hcr3 md rm v)
  | movToCr4 md rm v => exact absurd rfl (hcr4 md rm v)
  | movToCr0 md rm v => exact absurd rfl (hcr0 md rm v)
  | hlt => exact ⟨_, State.setProc_proc? _ _ hp, .refl p, rfl⟩

/-! ### LMA, NXE and CR4.PAE -/

/-- From p to q LMA and NXE are kept, and CR4.PAE is not cleared with LMA = 1 (R24, R25). -/
def KeepsEfer (p q : Proc) : Prop :=
  q.lma = p.lma ∧ q.nxe = p.nxe ∧ (p.lma = true → p.pae = true → q.pae = true)

theorem KeepsEfer.refl (p : Proc) : KeepsEfer p p := ⟨rfl, rfl, fun _ h => h⟩

theorem KeepsEfer.trans {p q r : Proc} (h1 : KeepsEfer p q) (h2 : KeepsEfer q r) : KeepsEfer p r := by
  obtain ⟨hlma1, hnxe1, hpae1⟩ := h1
  obtain ⟨hlma2, hnxe2, hpae2⟩ := h2
  exact ⟨hlma2.trans hlma1, hnxe2.trans hnxe1, fun hl hp => hpae2 (hlma1.trans hl) (hpae1 hl hp)⟩

theorem SameRegisters.keepsEfer {q p : Proc} (h : SameRegisters q p) : KeepsEfer p q := by
  obtain ⟨-, -, -, -, hpae, -, hlma, hnxe, -⟩ := h
  exact ⟨hlma, hnxe, fun _ hp => hpae.trans hp⟩

/-- The parameters and the number of processors are the same, and every processor keeps its EFER bits. -/
structure EferKept (s t : State) : Prop where
  config : t.config = s.config
  length : t.procs.length = s.procs.length
  procs : ∀ (k : Nat) (p q : Proc), s.procs[k]? = some p → t.procs[k]? = some q → KeepsEfer p q

theorem EferKept.refl (s : State) : EferKept s s :=
  ⟨rfl, rfl, fun _ _ _ hp hq => by rw [hp] at hq; cases hq; exact .refl _⟩

theorem EferKept.trans {s t u : State} (h1 : EferKept s t) (h2 : EferKept t u) : EferKept s u := by
  refine ⟨h2.config.trans h1.config, h2.length.trans h1.length, fun k p r hp hr => ?_⟩
  obtain ⟨hk, -⟩ := List.getElem?_eq_some_iff.mp hp
  have hq : t.procs[k]? = some (t.procs[k]'(h1.length ▸ hk)) := List.getElem?_eq_getElem _
  exact (h1.procs k p _ hp hq).trans (h2.procs k _ r hq hr)

/-- The current processor keeps its EFER bits and the others do not change. -/
theorem SameElsewhere.eferKept {s t : State} {p q : Proc} (h : SameElsewhere t s) (hp : s.proc? = some p)
    (hq : t.proc? = some q) (hk : KeepsEfer p q) : EferKept s t := by
  obtain ⟨hconfig, hcurrent, -, hlength, hothers⟩ := h
  refine ⟨hconfig, hlength, fun k p' q' hp' hq' => ?_⟩
  by_cases he : k = s.current
  · subst he
    rw [State.proc?, hcurrent, hq'] at hq
    rw [State.proc?, hp'] at hp
    cases hp
    cases hq
    exact hk
  · rw [hothers k he, hp'] at hq'
    cases hq'
    exact .refl _

/-- One processor changes and keeps its EFER bits. -/
theorem EferKept.set {s : State} {k : Nat} {p q : Proc} (hp : s.procs[k]? = some p)
    (hk : KeepsEfer p q) : EferKept s { s with procs := s.procs.set k q } := by
  refine ⟨rfl, by simp, fun j p' q' hp' hq' => ?_⟩
  by_cases he : k = j
  · subst he
    obtain ⟨hlt, -⟩ := List.getElem?_eq_some_iff.mp hp
    rw [hp] at hp'
    cases hp'
    cases (List.getElem?_set_self hlt).symm.trans hq'
    exact hk
  · cases hp'.symm.trans ((List.getElem?_set_ne he).symm.trans hq')
    exact .refl _

/-- What an access changes are no registers. -/
theorem After.eferKept {s t : State} {p : Proc} (h : After s p t) (hp : s.proc? = some p) :
    EferKept s t := by
  obtain ⟨q, hq, hs, -⟩ := h.proc
  exact h.sameElsewhere.eferKept hp hq hs.sameRegisters.1.keepsEfer

/-- No operation writes LMA or NXE, and MOV to CR4 does not clear PAE with LMA = 1 (R24, R25). -/
theorem Runs.keepsEfer {s t : State} {p : Proc} {i : Instr} (hp : s.proc? = some p) (h : Runs s p i t) :
    ∃ q, t.proc? = some q ∧ KeepsEfer p q := by
  cases h with
  | access kind la n v _ hd =>
    obtain ⟨q, hq, hs, -⟩ := (demandAccess_after _ _ _ _ _ _ _ hp hd).proc
    exact ⟨q, hq, hs.sameRegisters.1.keepsEfer⟩
  | reports i r => exact ⟨p, hp, .refl p⟩
  | movFromCrn md cr rm => exact ⟨p, by simpa using hp, .refl p⟩
  | invlpg => exact ⟨_, State.invalidated_proc? _ _ _ _ hp, .refl p⟩
  | movToCr3 md rm v q hq =>
    refine ⟨_, State.invalidated_proc? _ _ _ _ hp, ?_⟩
    rw [hq.eq_with]
    exact .refl p
  | movToCr4 md rm v q hpae hq =>
    refine ⟨_, State.invalidated_proc? _ _ _ _ hp, ?_⟩
    rw [hq.eq_with]
    exact ⟨rfl, rfl, fun hl _ => hpae hl⟩
  | movToCr0 md rm v q hq =>
    refine ⟨_, State.invalidated_proc? _ _ _ _ hp, ?_⟩
    rw [hq.eq_with]
    exact .refl p
  | hlt => exact ⟨_, State.setProc_proc? _ _ hp, .refl p⟩

theorem exec_eferKept {i : Instr} {s t : State} (h : exec i s = .next t) : EferKept s t := by
  obtain ⟨p, hp, hr⟩ := exec_next h
  obtain ⟨q, hq, hk⟩ := hr.keepsEfer hp
  exact (hr.sameElsewhere hp).eferKept hp hq hk

/-- Every move keeps the parameters and the EFER bits; that a processor becomes current is no change of
them. -/
theorem Moves.eferKept {s t : State} (h : Moves s t) : EferKept s t := by
  have select : ∀ k, EferKept s { s with current := k } := fun _ => ⟨rfl, rfl, (EferKept.refl s).procs⟩
  cases h with
  | idle => exact .refl s
  | goesOn p pr a _ hp hb ht =>
    have hidle : EferKept { s with current := p }
        (State.setProc { s with current := p } { pr with busy := none }) := .set hp (.refl pr)
    have hafter := continueAccess_after (State.select_proc? hp) ht
    exact ((select p).trans hidle).trans
      (hafter.eferKept (State.setProc_proc? _ _ (State.select_proc? hp)))
  | issues p pr op ops i _ hp hh hb ht =>
    have hissued : EferKept { s with current := p } (s.issued p pr op ops) := .set hp (.refl pr)
    exact ((select p).trans hissued).trans (exec_eferKept ht)
  | speculates p pr m la kind cpl n _ hp hm hk ht =>
    exact (select p).trans ((runAccess_after (State.select_proc? hp) ht).eferKept hp)
  | fills p pr m la steps _ hp hm ht =>
    exact (select p).trans ((fillWalk_after (State.select_proc? hp) hm ht).eferKept hp)
  | drops p pr which hp => exact .set hp (.refl pr)
  | resumes p pr hp => exact .set hp (.refl pr)

theorem step_eferKept {s t : State} (h : step s = .next t) : EferKept s t := by
  obtain ⟨hconfig, hlength, hprocs⟩ := (step_next s t h).eferKept
  simp only [State.scheduled_config, State.scheduled_procs] at hconfig hlength hprocs
  exact ⟨hconfig, hlength, hprocs⟩

/-- Settles O13: every move keeps the parameters and the EFER bits of every processor. -/
theorem parametersAndEferNeverChange : Obligations.ParametersAndEferNeverChange := by
  unfold Obligations.ParametersAndEferNeverChange
  intro s t h
  obtain ⟨hconfig, hlength, hprocs⟩ := step_eferKept h
  refine ⟨hconfig, hlength, fun k p q hp hq => ?_⟩
  obtain ⟨hlma, hnxe, -⟩ := hprocs k p q hp hq
  exact ⟨hlma, hnxe⟩

/-! ### Clearing PAE in IA-32e mode -/

/-- Settles O47: at CPL 0 the privilege check passes, and with LMA = 1 a value whose bit 5 is 0 takes the
branch without a successor. -/
theorem clearingPaeInIa32eModeIsStuck : Obligations.ClearingPaeInIa32eModeIsStuck := by
  unfold Obligations.ClearingPaeInIa32eModeIsStuck
  intro s p md rm v hp hcpl hlma hv
  have hstuck : (p.lma && !cr4Pae v) = true := by rw [hlma, cr4Pae, hv]; rfl
  show execMovToCr4 v s = _
  unfold execMovToCr4
  rw [State.privileged_eq _ _ _ hp hcpl]
  exact if_pos hstuck

/-- Settles O14: a processor of the next state has the LMA of the one it was, which had PAE = 1 if LMA = 1,
and no step clears that; the MOV to CR4 that would is stuck. -/
theorem lmaImpliesPaeIsKept : Obligations.LmaImpliesPaeIsKept := by
  unfold Obligations.LmaImpliesPaeIsKept
  refine ⟨fun s t hs ht q hq hlma => ?_, fun s t p md rm v hp hcpl hlma hv ht => ?_⟩
  · obtain ⟨-, hlength, hprocs⟩ := step_eferKept ht
    obtain ⟨k, hk⟩ := List.mem_iff_getElem?.mp hq
    obtain ⟨hlt, -⟩ := List.getElem?_eq_some_iff.mp hk
    have hp : s.procs[k]? = some (s.procs[k]'(hlength ▸ hlt)) := List.getElem?_eq_getElem _
    obtain ⟨hlma', -, hpae⟩ := hprocs k _ q hp hk
    have hold : (s.procs[k]'(hlength ▸ hlt)).lma = true := hlma'.symm.trans hlma
    exact hpae hold (hs _ (List.getElem_mem _) hold)
  · rw [clearingPaeInIa32eModeIsStuck s p md rm v hp hcpl hlma hv] at ht
    cases ht

end Sys2Proof.Machine
end

section
/-! PROOFS. What an access adds to the four sets, and which bits of memory it sets before its data are
stored: read off the ways in which a marked access ends. -/

namespace Sys2Proof.Machine

/-- The operation of an access is that access. -/
theorem exec_accessOp (kind : AccessKind) (la : LAddr) (n v : Nat) (s : State) :
    ∃ v', (kind = .write → v' = v) ∧ exec (accessOp kind la n v) s = demandAccess kind la n v' s := by
  cases kind with
  | read => exact ⟨0, nofun, rfl⟩
  | write => exact ⟨v, fun _ => rfl, rfl⟩
  | fetch => exact ⟨0, nofun, rfl⟩

/-- An access operation with paging on that answers a next state runs an access that has not begun. -/
theorem demandAccess_runs {kind : AccessKind} {la : LAddr} {n v : Nat} {s t : State} {p : Proc}
    {m : PMode} (hp : s.proc? = some p) (hm : p.mode = some m) (h : demandAccess kind la n v s = .next t) :
    runAccess accessFuel (newAccess kind (operandAddress (some m) la) n v p.cpl) s = .next t := by
  unfold demandAccess at h
  rw [State.withProc_eq _ _ _ hp, hm] at h
  split at h
  · cases h
  · split at h
    · cases h
    · exact h

/-- Data are moved only where every byte is populated (R96). -/
theorem moveData_reaches {a : Access} {pa : PAddr} {s t : State} (h : moveData a pa s = .next t) :
    reaches s.config pa.toNat a.n = true := by
  unfold moveData at h
  split at h
  · assumption
  · cases h

/-- A new TLB entry is one made for the address, with the current mode, and global only with CR4.PGE = 1
(R173, R300). -/
theorem NewEntries.added {cfg mem mem' p m la kind cpl q} (h : NewEntries cfg mem mem' p m la kind cpl q) :
    ∀ e ∈ q.tlb, e ∈ p.tlb ∨ AddedFor p m la e := by
  intro e he
  rcases h.tlb e he with he | ⟨l, -, rfl | ⟨-, rfl⟩⟩
  · exact .inl he
  · exact .inr (tlbEntryOf_added _ _ _ _ _ rfl)
  · exact .inr (pieceEntryOf_added _ _ _ _ _ rfl)

/-- What a demand access that began in s0 has done in its next state t: new entries for its address, made
from entries marked in `mem`, the bits it set there, and then the data of a write. -/
structure CachedOwn (s0 : State) (p0 : Proc) (m : PMode) (a0 : Access) (t : State) (mem : Memory) :
    Prop where
  entries : ∀ q, t.proc? = some q → NewEntries s0.config s0.mem mem p0 m a0.la a0.kind a0.cpl q
  reads : a0.kind ≠ .write → AccessedBitsSet s0.config p0 m a0.la s0.mem mem ∧ t.mem = mem
  writes : a0.kind = .write → WriteBitsSet s0.config p0 m a0.la a0.cpl s0.mem mem ∧
    (t.mem = mem ∨ ∃ pa, TranslatesTo s0.config s0.mem p0 m a0.la .write a0.cpl pa ∧
      reaches s0.config pa.toNat a0.n = true ∧ t.mem = mem.writeLE pa.toNat a0.n a0.v)

/-- The access stops before its data are moved: memory is as its walks left it, and the processor has the
entries it had then or fewer. -/
theorem Marked.cachedOwn {s0 p0 m a0 a s t} {p q : Proc} (h : Marked s0 p0 m a0 a s)
    (hp : s.proc? = some p) (hq : t.proc? = some q) (hmem : t.mem = s.mem) (htlb : OnlyLost q.tlb p.tlb)
    (hpml4c : OnlyLost q.pml4c p.pml4c) (hpdpc : OnlyLost q.pdpc p.pdpc)
    (hpdec : OnlyLost q.pdec p.pdec) : CachedOwn s0 p0 m a0 t s.mem := by
  obtain ⟨hkind, -⟩ := h.went.fields
  refine ⟨fun q' hq' => ?_, fun hk => ⟨h.bits (.inl (hkind ▸ hk)), hmem⟩,
    fun hk => ⟨h.writeBits (hkind.trans hk), .inl hmem⟩⟩
  rw [hq] at hq'
  cases hq'
  exact (h.entries p hp).lost htlb hpml4c hpdpc hpdec

/-- The access comes to its data. -/
theorem Walking.cachedOwn {s0 p0 m a0 a s t} {pa : PAddr} (h : Walking s0 p0 m a0 a s)
    (hph : a.phase = .translated pa) (ht : moveData a pa s = .next t) :
    CachedOwn s0 p0 m a0 t s.mem := by
  obtain ⟨hkind, -, hn, hv, -, -⟩ := h.went.fields
  obtain ⟨-, hcurrent, -, hprocs, hread, hwrite, -, -⟩ := moveData_next _ _ _ _ ht
  have hproc : t.proc? = s.proc? := by rw [State.proc?, State.proc?, hcurrent, hprocs]
  refine ⟨fun q hq => h.entries q (hproc ▸ hq), fun hk => ?_, fun hk => ?_⟩
  · rw [← hkind] at hk
    exact ⟨h.bits (.inl hk), hread hk⟩
  · have hpa := (h.there pa hph).1
    have hreaches := moveData_reaches ht
    rw [hk] at hpa
    rw [h.went.config, hn] at hreaches
    rw [← hkind] at hk
    refine ⟨h.writeBits hk, .inr ⟨pa, hpa, hreaches, ?_⟩⟩
    rw [(hwrite hk).1, hn, hv]

/-- Every next state of a demand access with paging on. -/
theorem MarkedEnd.cachedOwn {s0 p0 m a0 r t} (h : MarkedEnd s0 p0 m a0 r) (hd : a0.demand = true)
    (ht : r = .next t) : ∃ mem, CachedOwn s0 p0 m a0 t mem := by
  cases h with
  | stop _ h => exact absurd ht (h t)
  | failed a s h hph =>
    obtain ⟨p, hp, -⟩ := h.went.proc
    refine ⟨s.mem, ?_⟩
    rcases failAccess_next _ _ _ _ hp ht with ⟨-, rfl⟩ | ⟨-, rfl⟩
    · exact h.cachedOwn hp hp rfl (fun _ h => h) (fun _ h => h) (fun _ h => h) fun _ h => h
    · obtain ⟨htlb, hpml4c, hpdpc, hpdec, -⟩ :=
        Proc.invalidate_sameButLost p (Req.pageFault a.la) s.choice.extra
      exact h.cachedOwn hp (State.invalidated_proc? _ _ _ _ hp) (by simp) htlb hpml4c hpdpc hpdec
  | aborted a s h hd' => rw [hd] at hd'; cases hd'
  | waits a s h =>
    obtain ⟨p, hp, -⟩ := h.went.proc
    refine ⟨s.mem, ?_⟩
    rcases waitAccess_next _ _ _ _ hp ht with ⟨-, rfl⟩ | ⟨-, rfl⟩
    · exact h.cachedOwn hp hp rfl (fun _ h => h) (fun _ h => h) (fun _ h => h) fun _ h => h
    · exact h.cachedOwn hp (State.setProc_proc? _ _ hp) rfl (fun _ h => h) (fun _ h => h)
        (fun _ h => h) fun _ h => h
  | moved a s pa h hph => exact ⟨s.mem, h.cachedOwn hph ht⟩

/-- Settles O33: an access operation runs one demand access from a good start, and each way in which that
ends gives the memory `mem1` that its walks left. -/
theorem accessCachesItsOwnAddressOnly : Obligations.AccessCachesItsOwnAddressOnly := by
  unfold Obligations.AccessCachesItsOwnAddressOnly
  intro s t p q m kind la n v hinv hp hm ht hq la'
  obtain ⟨v', hv, hexec⟩ := exec_accessOp kind la n v s
  rw [hexec] at ht
  have hend := runAccess_marked (a0 := newAccess kind la' n v' p.cpl) (.of_inv hinv hp) hp hm rfl accessFuel
  obtain ⟨mem1, hown⟩ := hend.cachedOwn rfl (demandAccess_runs hp hm ht)
  have hnew := hown.entries q hq
  refine ⟨hnew.added, mem1, hnew, hown.reads, fun hk => ?_⟩
  rw [← hv hk]
  exact hown.writes hk

end Sys2Proof.Machine
end

section
/-! PROOFS. The step of an issued operation, the values after reset, and where a walk starts and its entries
are, as numbers. -/

namespace Sys2Proof.Machine

/-! ### The step and reset -/

/-- Software that is not halted and has no access in progress issues the operation its next slot decodes
to (R20, R110). -/
theorem fetchSoftware_issue {s : State} {k : Nat} {p : Proc} {op : Issue} {ops : List Issue} {i : Instr}
    {rest : List Byte} (hp : s.procs[k]? = some p) (hh : p.halted = false) (hb : p.busy = none)
    (hops : p.program = op :: ops) (hd : decode p.lma op.text = .ok i rest) :
    fetchSoftware k s = .issue i (s.issued k p op ops) := by
  simp [fetchSoftware, hp, hh, hb, hops, hd]

/-- Settles O7: the software move of the schedule issues the decoded operation. -/
theorem stepRunsDecodedOperation : Obligations.StepRunsDecodedOperation := by
  unfold Obligations.StepRunsDecodedOperation
  intro s k p es op ops i rest hs hp hh hb hops hd
  have hfetch := fetchSoftware_issue (s := { s with schedule := es }) hp hh hb hops hd
  rw [step, State.event_of_cons _ _ _ hs, State.scheduled_of_cons _ _ _ hs, move, hfetch]
  rfl

/-- Settles O10: after reset every processor is the one R60 describes. -/
theorem resetValues : Obligations.ResetValues := by
  unfold Obligations.ResetValues
  intro cfg image p hp
  obtain rfl : p = Proc.reset := List.eq_of_mem_replicate hp
  simp [Proc.reset]

/-! ### Fields of 64-bit values as numbers -/

/-- A field of w bits from bit i on, as a number. -/
theorem toNat_field (x : BitVec 64) (i w : Nat) (hw : w ≤ 52) :
    ((x.extractLsb' i w).setWidth 52).toNat = x.toNat / 2 ^ i % 2 ^ w := by
  have hlt : x.toNat / 2 ^ i % 2 ^ w < 2 ^ 52 :=
    Nat.lt_of_lt_of_le (Nat.mod_lt _ (Nat.two_pow_pos w)) (Nat.pow_le_pow_right (by omega) hw)
  rw [BitVec.toNat_setWidth, BitVec.extractLsb'_toNat, Nat.shiftRight_eq_div_pow, Nat.mod_eq_of_lt hlt]

/-- A field of w bits is below 2 to the w. -/
theorem field_lt (x : BitVec 64) (i w : Nat) : ((x.extractLsb' i w).setWidth 52).toNat < 2 ^ w := by
  rw [BitVec.toNat_setWidth]
  exact Nat.lt_of_le_of_lt (Nat.mod_le _ _) (BitVec.isLt _)

/-- The same field as the address bits from bit k on. -/
theorem toNat_field_shift (x : BitVec 64) (i w k : Nat) (hw : w + k ≤ 52) :
    ((x.extractLsb' i w).setWidth 52 <<< k).toNat = x.toNat / 2 ^ i % 2 ^ w * 2 ^ k := by
  have hlt : x.toNat / 2 ^ i % 2 ^ w * 2 ^ k < 2 ^ 52 :=
    calc x.toNat / 2 ^ i % 2 ^ w * 2 ^ k
        < 2 ^ w * 2 ^ k := Nat.mul_lt_mul_of_pos_right (Nat.mod_lt _ (Nat.two_pow_pos w)) (Nat.two_pow_pos k)
      _ = 2 ^ (w + k) := (Nat.pow_add 2 w k).symm
      _ ≤ 2 ^ 52 := Nat.pow_le_pow_right (by omega) hw
  rw [BitVec.toNat_shiftLeft, Nat.shiftLeft_eq, toNat_field x i w (by omega), Nat.mod_eq_of_lt hlt]

/-- The index of the PDPTR register as a number (R321). -/
theorem pdptrIndex_toNat (la : LAddr) : (pdptrIndex la).toNat = la.toNat / 2 ^ 30 % 4 := by
  rw [pdptrIndex, BitVec.extractLsb'_toNat, Nat.shiftRight_eq_div_pow]

/-- The PDPTR register of an index is the one at that place (R38). -/
theorem selectPdptr_eq (q : Pdptrs) (i : BitVec 2) :
    [q.q0, q.q1, q.q2, q.q3][i.toNat]? = some (selectPdptr q i) := by
  obtain rfl | rfl | rfl | rfl : i = 0 ∨ i = 1 ∨ i = 2 ∨ i = 3 := by revert i; decide
  all_goals rfl

/-- Bit 0 as a remainder (R75). -/
theorem presentBit_eq (e : Entry) : presentBit e = decide (e.toNat % 2 = 1) := by
  rw [presentBit, BitVec.getLsbD, Nat.testBit_zero]

/-! ### Where a walk starts -/

/-- The root in IA-32e mode (R22, R135). -/
theorem rootPartial_ia32e (p : Proc) (la : LAddr) :
    ∃ a, rootPartial p .ia32e la = some ⟨.l4, a, true, true, false⟩ ∧
      a.toNat = p.cr3.toNat / 2 ^ 12 % 2 ^ 40 * 2 ^ 12 :=
  ⟨_, rfl, toNat_field_shift _ 12 40 12 (by omega)⟩

/-- The root in 32-bit paging (R22, R135). -/
theorem rootPartial_legacy32 (p : Proc) (la : LAddr) :
    ∃ a, rootPartial p .legacy32 la = some ⟨.l2, a, true, true, false⟩ ∧
      a.toNat = p.cr3.toNat / 2 ^ 12 % 2 ^ 20 * 2 ^ 12 :=
  ⟨_, rfl, toNat_field_shift _ 12 20 12 (by omega)⟩

/-- The root in PAE mode: the selected PDPTR register, if it is present (R321). -/
theorem rootPartial_pae (p : Proc) (la : LAddr) (q : BitVec 64)
    (hq : [p.pdptr.q0, p.pdptr.q1, p.pdptr.q2, p.pdptr.q3][la.toNat / 2 ^ 30 % 4]? = some q) :
    (q.toNat % 2 = 0 → rootPartial p .pae la = none) ∧
    (q.toNat % 2 = 1 → ∃ a, rootPartial p .pae la = some ⟨.l2, a, true, true, false⟩ ∧
      a.toNat = q.toNat / 2 ^ 12 % 2 ^ 24 * 2 ^ 12) := by
  rw [← pdptrIndex_toNat, selectPdptr_eq] at hq
  cases hq
  refine ⟨fun h => ?_, fun h => ⟨nextAddr .pae (selectPdptr p.pdptr (pdptrIndex la)), ?_,
    toNat_field_shift _ 12 24 12 (by omega)⟩⟩ <;>
  simp [rootPartial, presentBit_eq, h, freshPartial]

/-- A walk may start at the root, or at a cached entry that applies, with the entry's address and rights
(R150, R191 to R193). -/
theorem startPartial_eq (p : Proc) (m : PMode) (la : LAddr) :
    startPartial p m la .root = rootPartial p m la ∧
    (∀ (k : Nat) (c : Pml4Entry), (pml4cFor p m la)[k]? = some c →
      startPartial p m la (.pml4c k) = some ⟨.l3, c.addr, c.rw, c.us, c.xd⟩) ∧
    (∀ (k : Nat) (c : PdpEntry), (pdpcFor p m la)[k]? = some c →
      startPartial p m la (.pdpc k) = some ⟨.l2, c.addr, c.rw, c.us, c.xd⟩) ∧
    (∀ (k : Nat) (c : PdeEntry), (pdecFor p m la)[k]? = some c →
      startPartial p m la (.pdec k) = some ⟨.l1, c.addr, c.rw, c.us, c.xd⟩) := by
  refine ⟨rfl, fun k c hc => ?_, fun k c hc => ?_, fun k c hc => ?_⟩
  · simp only [startPartial, hc]; rfl
  · simp only [startPartial, hc]; rfl
  · simp only [startPartial, hc]; rfl

/-! ### Where the entries are -/

/-- An index has 9 bits, in 32-bit paging at most 10 (R71). -/
theorem entryIndex_lt (m : PMode) (level : Level) (la : LAddr) :
    (entryIndex m level la).toNat < if m = .legacy32 then 1024 else 512 := by
  have nine : ∀ i, ((la.extractLsb' i 9).setWidth 52).toNat < 512 := fun i => field_lt la i 9
  have ten : ∀ i, ((la.extractLsb' i 10).setWidth 52).toNat < 1024 := fun i => field_lt la i 10
  cases m with
  | legacy32 =>
    cases level with
    | l1 => exact ten 12
    | l2 => exact ten 22
    | l3 => exact (nine 30).trans (by decide)
    | l4 => exact (nine 39).trans (by decide)
  | pae => cases level <;> exact nine _
  | ia32e => cases level <;> exact nine _

/-- An entry lies within the 4096 bytes of its structure (R70, R71). -/
theorem entryOffset_lt (m : PMode) (level : Level) (la : LAddr) :
    entrySize m * (entryIndex m level la).toNat < 4096 := by
  have h := entryIndex_lt m level la
  cases m <;> simp only [entrySize, reduceCtorEq, if_true, if_false] at h ⊢ <;> omega

/-- No carry out of a structure at an aligned address (R71, R72). -/
theorem entryAddress_toNat (m : PMode) (t : Partial) (la : LAddr) (h : t.addr.toNat % 4096 = 0) :
    (entryAddress m t la).toNat = t.addr.toNat + entrySize m * (entryIndex m t.next la).toNat := by
  have hidx := entryOffset_lt m t.next la
  have hbase := t.addr.isLt
  have hsize : (BitVec.ofNat 52 (entrySize m)).toNat = entrySize m := by cases m <;> rfl
  have hmul : (entryIndex m t.next la * BitVec.ofNat 52 (entrySize m)).toNat =
      entrySize m * (entryIndex m t.next la).toNat := by
    rw [BitVec.toNat_mul, hsize, Nat.mul_comm, Nat.mod_eq_of_lt (by omega)]
  rw [entryAddress, BitVec.toNat_add, hmul, Nat.mod_eq_of_lt (by omega)]

/-- Settles O58: the roots of the three modes, the cached starting points, and the address of an entry from
the index field of its structure. -/
theorem walkStartsAndEntryAddresses : Obligations.WalkStartsAndEntryAddresses := by
  unfold Obligations.WalkStartsAndEntryAddresses
  refine ⟨fun p la => ⟨rootPartial_ia32e p la, rootPartial_legacy32 p la, rootPartial_pae p la,
    fun m => startPartial_eq p m la⟩, fun la => ⟨fun m t h => ⟨entryAddress_toNat m t la h,
    entryOffset_lt m t.next la, entryAddress_mod m t la h⟩, rfl, rfl, rfl, ?_⟩⟩
  exact ⟨toNat_field la 39 9 (by omega), toNat_field la 30 9 (by omega), toNat_field la 21 9 (by omega),
    toNat_field la 12 9 (by omega), toNat_field la 21 9 (by omega), toNat_field la 12 9 (by omega),
    toNat_field la 22 10 (by omega), toNat_field la 12 10 (by omega)⟩

end Sys2Proof.Machine
end

section
/-! PROOFS. What the decoder answers: each of its stages gives well-formed operations only. -/

namespace Sys2Proof

/-- Every operation that an answer of the decoder holds is well formed. -/
def Decoded.Sound (d : Decoded) : Prop := ∀ i rest, d = .ok i rest → wellFormed i = true

/-- An answer that holds a well-formed operation. -/
theorem Decoded.Sound.ok {i : Instr} {rest : List Byte} (h : wellFormed i = true) :
    (Decoded.ok i rest).Sound := by
  rintro _ _ ⟨⟩
  exact h

/-- An error holds no operation. -/
theorem Decoded.Sound.bad (e : DecodeError) : (Decoded.bad e).Sound := nofun

/-- An operation with which nothing is wrong is well formed. -/
theorem wellFormed_of_illFormed {i : Instr} (h : illFormed i = none) : wellFormed i = true := by
  rw [wellFormed, h]
  rfl

/-- INVLPG is well formed with mod other than 11 and the bytes of its addressing form (R112, R113). -/
theorem wellFormed_invlpg {md : BitVec 2} {rm : BitVec 3} {tail : Tail} {la : LAddr} (hmd : md ≠ 3)
    (ht : tailFits md rm tail = true) : wellFormed (.invlpg md rm tail la) = true :=
  wellFormed_of_illFormed (by rw [illFormed, if_neg hmd, if_pos ht])

/-- The bytes that the decoder takes after ModR/M are those of the addressing form (R112). -/
theorem tailFits_take {addr16 : Bool} {md : BitVec 2} {rm : BitVec 3} {after : List Byte}
    (h : tailLength addr16 md rm after ≤ after.length) :
    tailFits md rm ⟨addr16, after.take (tailLength addr16 md rm after)⟩ = true := by
  cases addr16 with
  | true => simpa [tailFits, tailLength] using h
  | false =>
    by_cases hrm : rm = 4
    · cases after with
      | nil => simp [tailLength, hrm] at h
      | cons sib disp => simpa [tailFits, tailLength, hrm, Nat.add_comm 1] using h
    · simp only [tailFits, tailLength, hrm, if_false, Bool.false_eq_true] at h ⊢
      simpa using h

/-- INVLPG: mod 11 is refused, and the bytes taken are those of the form (R112, R113). -/
theorem decodeInvlpg_sound (addr16 : Bool) (modrm : Byte) (after : List Byte) (v : BitVec 64) :
    (decodeInvlpg addr16 modrm after v).Sound := by
  unfold decodeInvlpg
  split
  · exact .bad _
  · split
    · exact .bad _
    · rename_i hmd
      dsimp only
      split
      · exact .bad _
      · rename_i hlen
        exact .ok (wellFormed_invlpg hmd (tailFits_take (Nat.le_of_not_lt hlen)))

/-- MOV to CRn: nothing constrains its operands (R113). -/
theorem decodeMovTo_sound (modrm : Byte) (rest : List Byte) (v : BitVec 64) :
    (decodeMovTo modrm rest v).Sound := by
  unfold decodeMovTo
  split
  · exact .ok rfl
  · split
    · exact .ok rfl
    · split
      · exact .ok rfl
      · exact .bad _

/-- MOV from CRn likewise (R113). -/
theorem decodeMovFrom_sound (modrm : Byte) (rest : List Byte) : (decodeMovFrom modrm rest).Sound := by
  unfold decodeMovFrom
  split
  · exact .ok rfl
  · split
    · exact .ok rfl
    · split
      · exact .ok rfl
      · exact .bad _

/-- The rows of the two-byte opcode map (R113). -/
theorem decodeTwoByte_sound (addr16 : Bool) (opcode : Byte) (rest : List Byte) (v : BitVec 64) :
    (decodeTwoByte addr16 opcode rest v).Sound := by
  unfold decodeTwoByte
  split
  · exact .ok rfl
  · cases rest with
    | nil => dsimp only; split <;> exact .bad _
    | cons modrm after =>
      dsimp only
      split
      · exact decodeInvlpg_sound _ _ _ _
      · split
        · exact decodeMovFrom_sound _ _
        · split
          · exact decodeMovTo_sound _ _ _
          · exact .bad _

/-- All encoded rows of the table (R113). -/
theorem decodeOpcode_sound (addr16 : Bool) (bytes : List Byte) (v : BitVec 64) :
    (decodeOpcode addr16 bytes v).Sound := by
  cases bytes with
  | nil => exact .bad _
  | cons b rest =>
    unfold decodeOpcode
    dsimp only
    split
    · exact .ok rfl
    · split
      · cases rest with
        | nil => exact .bad _
        | cons opcode rest => exact decodeTwoByte_sound _ _ _ _
      · exact .bad _

/-- What is not refused for the extension of its register is the instruction itself (R112). -/
theorem extended_ok {ext : Bool} {d : Decoded} {i : Instr} {rest : List Byte}
    (h : extended ext d = .ok i rest) : d = .ok i rest := by
  cases d with
  | bad e => cases h
  | ok j r =>
    unfold extended at h
    dsimp only at h
    split at h
    · cases h
    · exact h

/-- What is not refused for its length is the instruction itself (R112). -/
theorem limited_ok {n : Nat} {d : Decoded} {i : Instr} {rest : List Byte}
    (h : limited n d = .ok i rest) : d = .ok i rest := by
  cases d with
  | bad e => cases h
  | ok j r =>
    unfold limited at h
    dsimp only at h
    split at h
    · cases h
    · exact h

/-- Whatever bytes stand before the opcode, and however long the instruction is (R112). -/
theorem decodeBytes_sound (long : Bool) (bytes : List Byte) (v : BitVec 64) :
    (decodeBytes long bytes v).Sound :=
  fun i rest h => decodeOpcode_sound _ _ _ i rest (extended_ok (limited_ok h))

/-- An operation that is checked is well formed (R93). -/
theorem checked_sound (i : Instr) (rest : List Byte) : (checked i rest).Sound := by
  unfold checked
  split
  · exact .bad _
  · rename_i h
    exact .ok (wellFormed_of_illFormed h)

/-- Settles O4: an access is checked, and every row of the table that the decoder finds is well formed. -/
theorem decodedIsWellFormed : Obligations.DecodedIsWellFormed := by
  unfold Obligations.DecodedIsWellFormed
  intro long x
  cases x with
  | read la n => exact checked_sound _ _
  | write la n v => exact checked_sound _ _
  | fetch la n => exact checked_sound _ _
  | code bytes v => exact decodeBytes_sound long bytes v

end Sys2Proof
end

section
/-! PROOFS. What the bits of a paging-structure entry are to the walk that reads it, and the addresses that
frames give, as numbers. -/

namespace Sys2Proof.Machine

/-! ### The value of an entry -/

/-- An entry is the little-endian number of its bytes (R73, R92). -/
theorem readEntry_toNat (mem : Memory) (m : PMode) (a : PAddr) :
    (readEntry mem m a).toNat = mem.readLE a.toNat (entrySize m) := by
  have hlt := Memory.readLE_lt (entrySize m) mem a.toNat
  have hpow : 256 ^ entrySize m ≤ 2 ^ 64 := by cases m <;> decide
  rw [readEntry, BitVec.toNat_ofNat, Nat.mod_eq_of_lt (Nat.lt_of_lt_of_le hlt hpow)]

/-- An entry has 8 bytes, in 32-bit paging 4 (R70). -/
theorem readEntry_lt (mem : Memory) (m : PMode) (a : PAddr) :
    (readEntry mem m a).toNat < 256 ^ entrySize m := by
  rw [readEntry_toNat]
  exact Memory.readLE_lt _ _ _

/-- Byte k of an entry is the byte k places on (R73). -/
theorem readEntry_byte (mem : Memory) (m : PMode) (a : PAddr) {k : Nat} (hk : k < entrySize m) :
    (readEntry mem m a).toNat / 256 ^ k % 256 = (mem.read (a.toNat + k)).toNat := by
  rw [readEntry_toNat, ← Memory.byte_of_readLE _ _ _ _ hk, BitVec.toNat_ofNat]

/-! ### The refused bits -/

/-- The bits of a range are those from its low to its high end. -/
theorem getLsbD_bitRange {hi : Nat} (h : hi < 64) (lo k : Nat) :
    (bitRange hi lo).getLsbD k = true ↔ lo ≤ k ∧ k ≤ hi := by
  refine ⟨fun hk => ?_, fun ⟨hlo, hhi⟩ => bitRange_getLsbD hi lo k h hlo hhi⟩
  rw [bitRange, BitVec.getLsbD_ofNat] at hk
  by_cases hle : lo ≤ hi + 1
  · have e : 2 ^ (hi + 1) - 2 ^ lo = 2 ^ lo * (2 ^ (hi + 1 - lo) - 1) := by
      rw [Nat.mul_sub, ← Nat.pow_add, Nat.mul_one, Nat.add_sub_cancel' hle]
    rw [e, Nat.testBit_two_pow_mul, Nat.testBit_two_pow_sub_one] at hk
    simp only [Bool.and_eq_true, decide_eq_true_eq] at hk
    omega
  · rw [Nat.sub_eq_zero_of_le (Nat.pow_le_pow_right (by omega) (by omega))] at hk
    simp at hk

/-- A mask that is there under a condition. -/
theorem getLsbD_ite_zero (c : Prop) [Decidable c] (x : Entry) (k : Nat) :
    (if c then x else 0).getLsbD k = true ↔ c ∧ x.getLsbD k = true := by
  by_cases h : c <;> simp [h]

/-- Bit 63 is reserved with NXE = 0 (R81, R82). -/
theorem getLsbD_nxeReserved (nxe : Bool) (k : Nat) :
    (nxeReserved nxe).getLsbD k = true ↔ k = 63 ∧ nxe = false := by
  cases nxe with
  | true => simp [nxeReserved]
  | false =>
    simp only [nxeReserved, Bool.false_eq_true, if_false, getLsbD_bitRange (show 63 < 64 by decide), and_true]
    omega

/-- Bit 7 of a PTE is not described (R82). -/
theorem getLsbD_pteReserved (level : Level) (k : Nat) :
    (if level = .l1 then bitRange 7 7 else 0).getLsbD k = true ↔ k = 7 ∧ level = .l1 := by
  rw [getLsbD_ite_zero, getLsbD_bitRange (by decide), and_comm, Nat.le_antisymm_iff, and_comm (a := k ≤ 7)]

/-- Nor are bits 20:12 of a 2-MByte PDE (R82). -/
theorem getLsbD_leafReserved (level : Level) (large : Bool) (k : Nat) :
    (leafReserved level large).getLsbD k = true ↔
      (k = 7 ∧ level = .l1) ∨ (12 ≤ k ∧ k ≤ 20 ∧ large = true) := by
  rw [leafReserved, BitVec.getLsbD_or, Bool.or_eq_true, getLsbD_pteReserved, getLsbD_ite_zero,
    getLsbD_bitRange (by decide), and_comm (a := large = true), and_assoc]

/-- The bits of a 4-MByte PDE that no address has (R352). -/
theorem getLsbD_pde4mReserved {cfg : Config} (hc : cfg.wf = true) (k : Nat) :
    (bitRange 21 17 ||| bitRange 12 12 |||
      (if cfg.pse36 then bitRange 16 (cfg.maxPhyAddr - 19) else bitRange 16 13)).getLsbD k = true ↔
      k = 12 ∨ (17 ≤ k ∧ k ≤ 21) ∨
        (13 ≤ k ∧ k ≤ 16 ∧ (cfg.pse36 = true → cfg.maxPhyAddr ≤ k + 19)) := by
  obtain ⟨hM, -⟩ := config_wf_bounds hc
  simp only [BitVec.getLsbD_or, Bool.or_eq_true, getLsbD_bitRange (show 21 < 64 by decide),
    getLsbD_bitRange (show 12 < 64 by decide)]
  cases cfg.pse36 with
  | true =>
    simp only [if_true, getLsbD_bitRange (show 16 < 64 by decide), forall_const]
    omega
  | false =>
    simp only [Bool.false_eq_true, if_false, getLsbD_bitRange (show 16 < 64 by decide), false_implies,
      and_true]
    omega

/-- The mask of the refused bits has the bits of R82, R85 and R352. -/
theorem getLsbD_refusedBits {cfg : Config} (hc : cfg.wf = true) (nxe : Bool) (m : PMode) (level : Level)
    (large : Bool) (k : Nat) :
    (refusedBits cfg nxe m level large).getLsbD k = true ↔ RefusedBit cfg nxe m level large k := by
  have range : ∀ {hi}, hi < 64 → ∀ lo, ((bitRange hi lo).getLsbD k = true ↔ lo ≤ k ∧ k ≤ hi) :=
    fun h lo => getLsbD_bitRange h lo k
  cases m with
  | ia32e =>
    simp only [refusedBits, RefusedBit, BitVec.getLsbD_or, Bool.or_eq_true, range (show 62 < 64 by decide),
      range (show 51 < 64 by decide), getLsbD_nxeReserved, getLsbD_leafReserved, or_assoc]
  | pae =>
    simp only [refusedBits, RefusedBit, BitVec.getLsbD_or, Bool.or_eq_true, range (show 62 < 64 by decide),
      range (show 35 < 64 by decide), getLsbD_nxeReserved, getLsbD_leafReserved, or_assoc]
  | legacy32 =>
    rw [refusedBits, RefusedBit, BitVec.getLsbD_or, Bool.or_eq_true, getLsbD_pteReserved,
      getLsbD_ite_zero, getLsbD_pde4mReserved hc]

/-- An entry meets a mask where they have a bit in common. -/
theorem and_ne_zero_iff (e r : Entry) :
    e &&& r ≠ 0 ↔ ∃ k, r.getLsbD k = true ∧ e.getLsbD k = true := by
  constructor
  · intro h
    by_contra hnone
    refine h (BitVec.eq_of_getLsbD_eq fun k _ => ?_)
    have hk : ¬ (r.getLsbD k = true ∧ e.getLsbD k = true) := fun hk => hnone ⟨k, hk⟩
    rw [BitVec.getLsbD_and]
    simpa [and_comm] using hk
  · rintro ⟨k, hr, he⟩ h
    rw [getLsbD_of_and_eq_zero h hr] at he
    cases he

/-- A bit that refuses the entry e for the walk that t leads to it is set (R82). -/
def RefusedBy (cfg : Config) (p : Proc) (m : PMode) (t : Partial) (e : Entry) (k : Nat) : Prop :=
  RefusedBit cfg p.nxe m t.next (mapsLarge p t.next e) k ∧ e.getLsbD k = true

/-- The walk refuses an entry for a bit that refuses it (R82, D17). -/
theorem refused_iff {cfg : Config} (hc : cfg.wf = true) (p : Proc) (m : PMode) (t : Partial) (e : Entry) :
    e &&& refusedBits cfg p.nxe m t.next (mapsLarge p t.next e) ≠ 0 ↔ ∃ k, RefusedBy cfg p m t e k := by
  simp only [and_ne_zero_iff, getLsbD_refusedBits hc, RefusedBy]

/-! ### What an entry is to a walk -/

section
variable {cfg : Config} {p : Proc} {m : PMode} {t : Partial} {e : Entry}

/-- An entry with bit 0 clear is not present, whatever its other bits are (R75). -/
theorem viewEntry_notPresent (a : PAddr) (h : e.getLsbD 0 = false) :
    viewEntry cfg p m t a e = .notPresent :=
  if_pos (by rw [presentBit, h]; rfl)

/-- A present entry is refused for its refused bits, or is a leaf, or leads on (R136). -/
theorem viewEntry_present (a : PAddr) (h : e.getLsbD 0 = true) :
    viewEntry cfg p m t a e =
      if e &&& refusedBits cfg p.nxe m t.next (mapsLarge p t.next e) != 0 then .refused
      else if endsWalk p t.next e then .leaf (leafOf cfg p m t a e) else .next (extendPartial p m t e) :=
  if_neg (by rw [presentBit, h]; decide)

/-- A present entry with a refused bit is refused (R82, D17). -/
theorem viewEntry_refused (a : PAddr) (hc : cfg.wf = true) (h : e.getLsbD 0 = true)
    (hr : ∃ k, RefusedBy cfg p m t e k) : viewEntry cfg p m t a e = .refused := by
  rw [viewEntry_present a h, if_pos (bne_iff_ne.mpr ((refused_iff hc p m t e).mpr hr))]

/-- A present entry without a refused bit is a leaf or leads on (R136). -/
theorem viewEntry_described (a : PAddr) (hc : cfg.wf = true) (h : e.getLsbD 0 = true)
    (hr : ∀ k, ¬ RefusedBy cfg p m t e k) :
    viewEntry cfg p m t a e =
      if endsWalk p t.next e then .leaf (leafOf cfg p m t a e) else .next (extendPartial p m t e) := by
  have hnone := mt (refused_iff hc p m t e).mp (not_exists.mpr hr)
  rw [viewEntry_present a h, if_neg (mt bne_iff_ne.mp hnone)]

/-- A PTE, and a PDE that maps a large page, end the walk, and no other entry does (R136, R281). -/
theorem endsWalk_iff (p : Proc) (level : Level) (e : Entry) :
    endsWalk p level e = true ↔ level = .l1 ∨ mapsLarge p level e = true := by
  simp [endsWalk]

end

/-- Execute-disable is bit 63 under NXE = 1, and none in 32-bit paging (R81). -/
theorem xdBit_eq (m : PMode) (nxe : Bool) (e : Entry) :
    xdBit m nxe e = (e.getLsbD 63 && nxe && m != .legacy32) := by
  cases m with
  | legacy32 => simp [xdBit]
  | pae => simp [xdBit, Bool.and_comm]
  | ia32e => simp [xdBit, Bool.and_comm]

/-- The address of the next structure or of the 4-KByte frame, as a number (R74, R83, R85). -/
theorem nextAddr_toNat (m : PMode) (e : Entry) : (nextAddr m e).toNat = addressField m e := by
  cases m with
  | legacy32 => exact toNat_field_shift e 12 20 12 (by omega)
  | pae => exact toNat_field_shift e 12 24 12 (by omega)
  | ia32e => exact toNat_field_shift e 12 40 12 (by omega)

/-- The 4-MByte frame with PSE-36: bits 16:13 above bits 31:22 (R352). -/
theorem pse36Frame_toNat (e : Entry) :
    (((e.extractLsb' 13 4).setWidth 52 <<< 32) ||| ((e.extractLsb' 22 10).setWidth 52 <<< 22) : PAddr).toNat
      = e.toNat / 2 ^ 13 % 2 ^ 4 * 2 ^ 32 + e.toNat / 2 ^ 22 % 2 ^ 10 * 2 ^ 22 := by
  rw [BitVec.toNat_or, toNat_field_shift e 13 4 32 (by omega), toNat_field_shift e 22 10 22 (by omega),
    Nat.mul_comm _ (2 ^ 32), Nat.two_pow_add_eq_or_of_lt (by omega)]

/-- The address of the large frame, as a number (R74, R85, R352). -/
theorem largeFrame_toNat (cfg : Config) (m : PMode) (e : Entry) :
    (largeFrame cfg m e).toNat = largeField cfg m e := by
  cases m with
  | legacy32 =>
    cases h : cfg.pse36 with
    | false => simpa [largeFrame, largeField, h] using toNat_field_shift e 22 10 22 (by omega)
    | true => simpa [largeFrame, largeField, h] using pse36Frame_toNat e
  | pae => exact toNat_field_shift e 21 15 21 (by omega)
  | ia32e => exact toNat_field_shift e 21 31 21 (by omega)

/-! ### The address of an access within a frame -/

/-- No carry out of an aligned frame (R140). -/
theorem frame_add_toNat {f offset : PAddr} {k : Nat} (hk : k ≤ 52) (hf : f.toNat % 2 ^ k = 0)
    (ho : offset.toNat < 2 ^ k) : (f + offset).toNat = f.toNat + offset.toNat := by
  obtain ⟨q, hq⟩ := Nat.dvd_of_mod_eq_zero hf
  have hpow : 2 ^ k * 2 ^ (52 - k) = 2 ^ 52 := by rw [← Nat.pow_add, Nat.add_sub_cancel' hk]
  have hlt : q < 2 ^ (52 - k) := by
    refine Nat.lt_of_mul_lt_mul_left (a := 2 ^ k) ?_
    rw [← hq, hpow]
    exact f.isLt
  have hsum : f.toNat + offset.toNat < 2 ^ 52 :=
    calc f.toNat + offset.toNat
        < 2 ^ k * q + 2 ^ k := by omega
      _ = 2 ^ k * (q + 1) := (Nat.mul_succ _ _).symm
      _ ≤ 2 ^ k * 2 ^ (52 - k) := Nat.mul_le_mul_left _ hlt
      _ = 2 ^ 52 := hpow
  rw [BitVec.toNat_add, Nat.mod_eq_of_lt hsum]

/-- The low k bits of the linear address within a frame aligned to them (R140). -/
theorem frame_add_field_toNat {f : PAddr} {k : Nat} (la : LAddr) (hk : k ≤ 52) (hf : f.toNat % 2 ^ k = 0) :
    (f + (la.extractLsb' 0 k).setWidth 52).toNat = f.toNat + la.toNat % 2 ^ k := by
  rw [frame_add_toNat hk hf (field_lt la 0 k), toNat_field la 0 k hk, Nat.pow_zero, Nat.div_one]

/-- A field of w bits as a key of 36 bits, as a number (R171). -/
theorem toNat_key (la : LAddr) (i w : Nat) (hw : w ≤ 36) :
    ((la.extractLsb' i w).setWidth 36).toNat = la.toNat / 2 ^ i % 2 ^ w := by
  rw [BitVec.toNat_setWidth, BitVec.extractLsb'_toNat, Nat.shiftRight_eq_div_pow]
  exact Nat.mod_eq_of_lt
    (Nat.lt_of_lt_of_le (Nat.mod_lt _ (Nat.two_pow_pos w)) (Nat.pow_le_pow_right (by omega) hw))

/-- The physical address of an access within a large frame (R140). -/
theorem frameAddress_large_toNat {m : PMode} {f : PAddr} (la : LAddr) :
    (m = .legacy32 → f.toNat % 2 ^ 22 = 0 →
      (frameAddress m .large f la).toNat = f.toNat + la.toNat % 2 ^ 22) ∧
    (m ≠ .legacy32 → f.toNat % 2 ^ 21 = 0 →
      (frameAddress m .large f la).toNat = f.toNat + la.toNat % 2 ^ 21) := by
  cases m with
  | legacy32 => exact ⟨fun _ hf => frame_add_field_toNat la (by omega) hf, fun h => absurd rfl h⟩
  | pae => exact ⟨nofun, fun _ hf => frame_add_field_toNat la (by omega) hf⟩
  | ia32e => exact ⟨nofun, fun _ hf => frame_add_field_toNat la (by omega) hf⟩

/-- The frame of a leaf, as a number (R74, R85, R352). -/
theorem leafOf_frame_toNat (cfg : Config) (p : Proc) (m : PMode) (t : Partial) (a : PAddr) (e : Entry) :
    (leafOf cfg p m t a e).frame.toNat =
      if mapsLarge p t.next e then largeField cfg m e else addressField m e := by
  simp only [leafOf, apply_ite BitVec.toNat, largeFrame_toNat, nextAddr_toNat]

/-- Which entries without a refused bit are leaves, and which lead on (R136, R281). -/
theorem viewEntry_formats {cfg : Config} {p : Proc} {m : PMode} {t : Partial} {e : Entry} (a : PAddr)
    (hc : cfg.wf = true) (hp : e.getLsbD 0 = true) (hr : ∀ k, ¬ RefusedBy cfg p m t e k) :
    (t.next = .l1 ∨ mapsLarge p t.next e = true →
      viewEntry cfg p m t a e = .leaf (leafOf cfg p m t a e)) ∧
    (t.next ≠ .l1 → mapsLarge p t.next e = false →
      viewEntry cfg p m t a e = .next (extendPartial p m t e)) := by
  rw [viewEntry_described a hc hp hr]
  refine ⟨fun h => if_pos ((endsWalk_iff p t.next e).mpr h), fun hne hsmall => if_neg ?_⟩
  rw [endsWalk_iff, hsmall]
  simp [hne]

/-- Settles O59: the value of an entry, what its bits are to a walk, when a translation made from it is
global, and the frames and offsets of the three modes. -/
theorem entryFormatsAndFrames : Obligations.EntryFormatsAndFrames := by
  unfold Obligations.EntryFormatsAndFrames
  refine ⟨fun mem m a => ⟨readEntry_lt mem m a, fun k hk => readEntry_byte mem m a hk⟩, ?_,
    fun p m la l => ⟨rfl, rfl⟩, fun cfg e => ⟨fun h => ?_, fun h => ?_⟩, fun m f la => ?_⟩
  · intro cfg p m t a e hc _ seen large refused rw us xd
    refine ⟨viewEntry_notPresent a, viewEntry_refused a hc, fun hp hr => ?_⟩
    obtain ⟨hleaf, hnext⟩ := viewEntry_formats a hc hp hr
    have hxd : xd = (t.xd || xdBit m p.nxe e) := by rw [xdBit_eq]
    rw [hxd]
    exact ⟨fun h => ⟨_, hleaf h, leafOf_frame_toNat cfg p m t a e⟩, fun hne hsmall =>
      ⟨t.next.below, nextAddr m e, hnext hne hsmall, nextAddr_toNat m e,
        fun h => h ▸ rfl, fun h => h ▸ rfl, fun h => h ▸ rfl⟩⟩
  · simp [largeFrame_toNat, largeField, h]
  · simp [largeFrame_toNat, largeField, h]
  · obtain ⟨hlegacy, hlong⟩ := frameAddress_large_toNat (m := m) (f := f) la
    refine ⟨fun hf => ?_, hlegacy, hlong, toNat_key la 21 27 (by omega), toNat_key la 21 11 (by omega),
      toNat_key la 22 10 (by omega)⟩
    have h := frame_add_field_toNat la (show 12 ≤ 52 by decide) hf
    exact ⟨h, h⟩

end Sys2Proof.Machine
end

section
/-! PROOFS. Memory and the operations that access it (family 20): what the operation of an access runs, with
paging on and off, and what each of the other operations leaves of memory. -/

namespace Sys2Proof.Machine

/-! ### The operation of an access -/

/-- A well-formed access operation is one access of its page (R93). -/
theorem accessIllFormed_of_wellFormed {kind : AccessKind} {la : LAddr} {n v : Nat}
    (h : wellFormed (accessOp kind la n v) = true) : accessIllFormed la n = none := by
  cases kind with
  | read => simpa [accessOp, wellFormed, illFormed] using h
  | fetch => simpa [accessOp, wellFormed, illFormed] using h
  | write =>
    cases hw : accessIllFormed la n with
    | none => rfl
    | some why => simp [accessOp, wellFormed, illFormed, hw] at h

/-- The value of a well-formed WRITE is one of its n bytes (R152). -/
theorem lt_of_wellFormed_write {la : LAddr} {n v : Nat} (h : wellFormed (.write la n v) = true) :
    v < 256 ^ n := by
  have hn := accessIllFormed_of_wellFormed (kind := .write) h
  have hv : v < 2 ^ (8 * n) := by simpa [wellFormed, illFormed, hn] using h
  rwa [Nat.pow_mul] at hv

/-- A READ and a FETCH of the bytes of a well-formed WRITE are well formed (R93). -/
theorem wellFormed_load {kind : AccessKind} {la : LAddr} {n v : Nat}
    (h : wellFormed (.write la n v) = true) (hk : kind ≠ .write) :
    wellFormed (accessOp kind la n 0) = true := by
  have hn := accessIllFormed_of_wellFormed (kind := .write) h
  cases kind with
  | read => simp [accessOp, wellFormed, illFormed, hn]
  | fetch => simp [accessOp, wellFormed, illFormed, hn]
  | write => exact absurd rfl hk

/-- A well-formed access operation to an address of the mode runs the access from its beginning (R150 to
R153). -/
theorem exec_accessOp_runs {kind : AccessKind} {la : LAddr} {n v : Nat} {s : State} {p : Proc}
    (hp : s.proc? = some p) (hw : wellFormed (accessOp kind la n v) = true)
    (hc : refusesAddress p.mode la = false) :
    ∃ v', (kind = .write → v' = v) ∧ exec (accessOp kind la n v) s =
      runAccess accessFuel (newAccess kind (operandAddress p.mode la) n v' p.cpl) s := by
  obtain ⟨v', hv, hexec⟩ := exec_accessOp kind la n v s
  refine ⟨v', hv, ?_⟩
  rw [hexec, demandAccess, State.withProc_eq _ _ _ hp, accessIllFormed_of_wellFormed hw]
  simp [hc, newAccess]

/-- A canonical address is refused in no mode (R133). -/
theorem refusesAddress_of_canonical {m : PMode} {la : LAddr} (h : m = .ia32e → canonical la = true) :
    refusesAddress (some m) la = false := by
  by_cases hm : m = .ia32e
  · simp [refusesAddress, h hm]
  · simp [refusesAddress, hm]

/-! ### Moving the data -/

/-- Data outside the populated range are not moved (R96). -/
theorem moveData_outside {a : Access} {pa : PAddr} {s : State}
    (h : reaches s.config pa.toNat a.n = false) : moveData a pa s = .fault .outsideMemRange := by
  simp [moveData, h]

/-- A WRITE of populated bytes stores its value (R152). -/
theorem moveData_write {a : Access} {pa : PAddr} {s : State} (hk : a.kind = .write)
    (h : reaches s.config pa.toNat a.n = true) :
    moveData a pa s = .next (s.setMem (s.mem.writeLE pa.toNat a.n a.v)) := by
  simp [moveData, h, hk]

/-- A READ or FETCH of populated bytes reads them (R151, R153). -/
theorem moveData_load {a : Access} {pa : PAddr} {s : State} (hk : a.kind ≠ .write)
    (h : reaches s.config pa.toNat a.n = true) : moveData a pa s = .next (readData a pa s) := by
  cases hkind : a.kind with
  | read => simp [moveData, h, hkind]
  | fetch => simp [moveData, h, hkind]
  | write => exact absurd hkind hk

/-- The last event of a demand access that read its data is their value (R151, R153). -/
theorem readData_head (a : Access) (pa : PAddr) (s : State) (hd : a.demand = true) :
    (readData a pa s).trace.head? =
      some (.value s.current a.kind a.la a.n (s.mem.readLE pa.toNat a.n)) := by
  cases hs : touchesSideEffect s.config pa.toNat a.n <;> simp [readData, hs, hd]

/-! ### Paging off -/

/-- With CR0.PG = 0 there is no paging mode (R131). -/
theorem Proc.mode_of_pagingOff {p : Proc} (h : p.pg = false) : p.mode = none := by simp [Proc.mode, h]

/-- The linear address of 32 bits (R31), from the number of its operand. -/
theorem low32_eq (la : LAddr) : low32 la = BitVec.ofNat 64 (la.toNat % 2 ^ 32) := by
  apply BitVec.eq_of_toNat_eq
  simp only [low32, BitVec.toNat_setWidth, BitVec.extractLsb'_toNat, BitVec.toNat_ofNat, Nat.shiftRight_zero]

/-- The physical address with paging off is the low 32 bits of the linear address (R155). -/
theorem unpagedAddress_toNat (la : LAddr) : (unpagedAddress (low32 la)).toNat = la.toNat % 2 ^ 32 := by
  simp only [unpagedAddress, low32, BitVec.toNat_setWidth, BitVec.extractLsb'_toNat, Nat.shiftRight_zero]
  omega

/-- With paging off a well-formed access operation moves its data at once (R155). -/
theorem exec_accessOp_pagingOff {kind : AccessKind} {la : LAddr} {n v : Nat} {s : State} {p : Proc}
    (hp : s.proc? = some p) (hpg : p.pg = false) (hw : wellFormed (accessOp kind la n v) = true) :
    ∃ v', (kind = .write → v' = v) ∧ exec (accessOp kind la n v) s =
      moveData (newAccess kind (low32 la) n v' p.cpl) (unpagedAddress (low32 la)) s := by
  have hm := Proc.mode_of_pagingOff hpg
  obtain ⟨v', hv, hexec⟩ := exec_accessOp_runs hp hw (by rw [hm]; rfl)
  exact ⟨v', hv, by rw [hexec, accessFuel, runAccess_pagingOff _ _ _ hp hm, hm]; rfl⟩

/-- With paging off a READ or FETCH of populated bytes completes with their value (R155). -/
theorem exec_load_pagingOff {kind : AccessKind} {la : LAddr} {n : Nat} {s : State} {p : Proc}
    (hp : s.proc? = some p) (hpg : p.pg = false) (hk : kind ≠ .write)
    (hw : wellFormed (accessOp kind la n 0) = true)
    (hr : reaches s.config (la.toNat % 2 ^ 32) n = true) :
    ∃ u, exec (accessOp kind la n 0) s = .next u ∧ u.trace.head? = some (.value s.current kind
      (BitVec.ofNat 64 (la.toNat % 2 ^ 32)) n (s.mem.readLE (la.toNat % 2 ^ 32) n)) := by
  obtain ⟨v', -, hexec⟩ := exec_accessOp_pagingOff hp hpg hw
  rw [← unpagedAddress_toNat] at hr
  refine ⟨_, hexec.trans (moveData_load hk hr), ?_⟩
  rw [readData_head _ _ _ rfl, unpagedAddress_toNat, ← low32_eq]
  rfl

/-- With paging off a WRITE that completes has stored its value in populated bytes (R155). -/
theorem exec_write_pagingOff {la : LAddr} {n v : Nat} {s t : State} {p : Proc} (hp : s.proc? = some p)
    (hpg : p.pg = false) (hw : wellFormed (.write la n v) = true) (ht : exec (.write la n v) s = .next t) :
    reaches s.config (la.toNat % 2 ^ 32) n = true ∧
      t = s.setMem (s.mem.writeLE (la.toNat % 2 ^ 32) n v) := by
  obtain ⟨v', hv, hexec⟩ := exec_accessOp_pagingOff (kind := .write) hp hpg hw
  obtain rfl := hv rfl
  have hmove := hexec.symm.trans ht
  have hr := moveData_reaches hmove
  rw [moveData_write rfl hr] at hmove
  cases hmove
  rw [← unpagedAddress_toNat]
  exact ⟨hr, rfl⟩

/-- Settles O22: the WRITE left its value in the bytes that a READ and a FETCH then read. -/
theorem readAndFetchSeeAnEarlierWrite : Obligations.ReadAndFetchSeeAnEarlierWrite := by
  unfold Obligations.ReadAndFetchSeeAnEarlierWrite
  intro s t p la n v hp hpg hwf hw ht
  obtain ⟨hr, rfl⟩ := exec_write_pagingOff hp hpg hw ht
  have stored : (s.mem.writeLE (la.toNat % 2 ^ 32) n v).readLE (la.toNat % 2 ^ 32) n = v := by
    rw [Memory.readLE_writeLE_same _ _ _ _ hwf, Nat.mod_eq_of_lt (lt_of_wellFormed_write hw)]
  have load : ∀ kind, kind ≠ .write → ∃ u,
      exec (accessOp kind la n 0) (s.setMem (s.mem.writeLE (la.toNat % 2 ^ 32) n v)) = .next u ∧
      u.trace.head? = some (.value s.current kind (BitVec.ofNat 64 (la.toNat % 2 ^ 32)) n v) := by
    intro kind hk
    obtain ⟨u, hu, htrace⟩ := exec_load_pagingOff
      (s := s.setMem (s.mem.writeLE (la.toNat % 2 ^ 32) n v)) hp hpg hk (wellFormed_load hw hk) hr
    exact ⟨u, hu, by rw [htrace, State.setMem_mem, stored]; rfl⟩
  obtain ⟨u, hu, hut⟩ := load .read nofun
  obtain ⟨w, hw, hwt⟩ := load .fetch nofun
  exact ⟨u, w, hu, hw, hut, hwt⟩

/-! ### What the operations leave of memory -/

/-- An operation that makes no access leaves memory as it is (R91). -/
theorem Runs.mem {s t : State} {p : Proc} {i : Instr} (h : Runs s p i t)
    (hi : ∀ kind la n v, i ≠ accessOp kind la n v) : t.mem = s.mem := by
  cases h with
  | access kind la n v => exact absurd rfl (hi kind la n v)
  | reports => rfl
  | movFromCrn => simp
  | invlpg => simp
  | movToCr3 => simp
  | movToCr4 => simp
  | movToCr0 => simp
  | hlt => rfl

/-- A READ or FETCH with paging off leaves memory as it is (R155). -/
theorem demandAccess_mem_pagingOff {kind : AccessKind} {la : LAddr} {n v : Nat} {s t : State} {p : Proc}
    (hp : s.proc? = some p) (hm : p.mode = none) (hk : kind ≠ .write)
    (h : demandAccess kind la n v s = .next t) : t.mem = s.mem := by
  rw [demandAccess, State.withProc_eq _ _ _ hp, hm] at h
  split at h
  · cases h
  · split at h
    · cases h
    · rw [accessFuel, runAccess_pagingOff _ _ _ hp hm] at h
      obtain ⟨-, -, -, -, hmem, -⟩ := moveData_next _ _ _ _ h
      exact hmem hk

/-- A READ or FETCH with paging on sets accessed bits of the entries that its walks use, and nothing else
(R78, R139). -/
theorem demandAccess_accessedBitsSet {kind : AccessKind} {la : LAddr} {n v : Nat} {s t : State} {p : Proc}
    {m : PMode} (hinv : Inv s) (hp : s.proc? = some p) (hm : p.mode = some m) (hk : kind ≠ .write)
    (h : demandAccess kind la n v s = .next t) :
    AccessedBitsSet s.config p m (operandAddress (some m) la) s.mem t.mem := by
  have hend := runAccess_marked (a0 := newAccess kind (operandAddress (some m) la) n v p.cpl)
    (.of_inv hinv hp) hp hm rfl accessFuel
  obtain ⟨mem, hown⟩ := hend.cachedOwn rfl (demandAccess_runs hp hm h)
  obtain ⟨hbits, hmem⟩ := hown.reads hk
  rwa [hmem]

/-- Settles O19: of the ways in which an operation runs only an access touches memory, and a READ or FETCH
sets accessed bits at most. -/
theorem onlyAccessesChangeMemory : Obligations.OnlyAccessesChangeMemory := by
  unfold Obligations.OnlyAccessesChangeMemory
  intro i s t p hinv hp ht hwrite
  by_cases hi : ∃ kind la n v, i = accessOp kind la n v
  · obtain ⟨kind, la, n, v, rfl⟩ := hi
    have hk : kind ≠ .write := fun hk => hwrite la n v (hk ▸ rfl)
    obtain ⟨v', -, hexec⟩ := exec_accessOp kind la n v s
    rw [hexec] at ht
    cases hm : p.mode with
    | none => exact .inl (demandAccess_mem_pagingOff hp hm hk ht)
    | some m =>
      refine .inr ⟨m, la, n, rfl, ?_, demandAccess_accessedBitsSet hinv hp hm hk ht⟩
      cases kind with
      | read => exact .inl rfl
      | fetch => exact .inr rfl
      | write => exact absurd rfl hk
  · obtain ⟨p', -, hruns⟩ := exec_next ht
    exact .inl (hruns.mem fun kind la n v he => hi ⟨kind, la, n, v, he⟩)

end Sys2Proof.Machine
end

section
/-! PROOFS. An access to whose address no stale entry applies ends as the walk of memory does: its ends, each
with what that walk says, and the ends that are no next state. -/

namespace Sys2Proof.Machine

/-- How an access ends where no stale entry applies and the walk of memory ends in W: it is refused or leaves
the populated range with the walk, fails where the walk denies it, and otherwise moves its data at the
address of the walk's leaf. -/
inductive AgreeingEnd (s0 : State) (p0 : Proc) (m : PMode) (a0 : Access) (W : WalkEnd) : Result → Prop
  | refused (h : W = .refused) : AgreeingEnd s0 p0 m a0 W (.refused .reservedBit)
  | outside (h : W = .outside) : AgreeingEnd s0 p0 m a0 W (.fault .outsideMemRange)
  | denied (a : Access) (s : State) (h : W = .notPresent ∨
      ∃ l, W = .leaf l ∧ allowed p0.wp a0.kind a0.cpl l.rw l.us l.xd = false) :
      AgreeingEnd s0 p0 m a0 W (failAccess a s)
  | moved (a : Access) (s : State) (l : Leaf) (h : W = .leaf l) (hg : Agreeing s0 p0 m a0 W a s)
      (hok : allowed p0.wp a0.kind a0.cpl l.rw l.us l.xd = true) :
      AgreeingEnd s0 p0 m a0 W (moveData a (leafAddress m l a0.la) s)

/-- A leaf that a step sees and that denies the access is one to which the walk of memory leads (R141). -/
theorem Agreeing.sees_denied {s0 p0 m a0 W a s q t d l} (hc : s0.config.wf = true)
    (h : Agreeing s0 p0 m a0 W a s) (hq : s.proc? = some q) (hph : a.phase = .walk t d)
    (hs : Sees a q m t s (.leaf l)) (hok : allowed q.wp a.kind a.cpl l.rw l.us l.xd = false) :
    ∃ l, W = .leaf l ∧ allowed p0.wp a0.kind a0.cpl l.rw l.us l.xd = false := by
  obtain ⟨q', hq', hsame, -, -⟩ := h.went.proc
  rw [hq] at hq'
  cases hq'
  obtain ⟨hkind, -, -, -, hcpl, -⟩ := h.went.fields
  rw [hsame.wp, hkind, hcpl] at hok
  exact ⟨l, h.sees hc hq hph hs, hok⟩

/-- Each way in which a step ends an access is what the walk of memory says. -/
theorem Agreeing.ends {s0 p0 m a0 W a s q r c} (hc : s0.config.wf = true)
    (hW : W = memoryWalk s0.config s0.mem p0 m a0.la) (hv : m = .pae → p0.pdptrValid = true)
    (hd : a0.demand = true) (h : Agreeing s0 p0 m a0 W a s) (hq : s.proc? = some q)
    (he : Ends a c q m s r) : AgreeingEnd s0 p0 m a0 W r := by
  obtain ⟨q', hq', hsame, -, -⟩ := h.went.proc
  rw [hq] at hq'
  cases hq'
  obtain ⟨hkind, hla, -, -, hcpl, hdemand⟩ := h.went.fields
  cases he with
  | notLoaded hph hm hvalid =>
    unfold SameButCaches at hsame
    rw [hsame, hv hm] at hvalid
    cases hvalid
  | noRoot hph ht => exact .denied _ _ (.inl (startPartial_none_agrees hsame hW (hla ▸ ht)))
  | deniedHit e hph hhit hok =>
    obtain ⟨l, hl, -, hrw, hus, hxd, -⟩ := (h.caches (.inr (by simp [hph])) q hq).hit (hla ▸ hhit)
    rw [hsame.wp, hkind, hcpl, hrw, hus, hxd] at hok
    exact .denied _ _ (.inr ⟨l, hl, hok⟩)
  | outside t d hph hr => exact .outside (h.outside hph hr)
  | notPresent t d hph hs => exact .denied _ _ (.inl (h.sees hc hq hph hs))
  | refused t d hph hs => exact .refused (h.sees hc hq hph hs)
  | deniedDry t d l hph hs hok => exact .denied _ _ (.inr (h.sees_denied hc hq hph hs hok))
  | abortDry t d l hph hs hd' => rw [hdemand, hd] at hd'; cases hd'
  | deniedLeaf t l hph hs hok => exact .denied _ _ (.inr (h.sees_denied hc hq hph hs hok))
  | data pa hph =>
    obtain ⟨l, hl, rfl, hok, -⟩ := h.there pa hph
    exact .moved a s l hl h (hkind ▸ hcpl ▸ hok)

/-- A processor in PAE mode has loaded its PDPTR registers (R331). -/
theorem Inv.pdptrValid {s : State} {p : Proc} (h : Inv s) (hp : s.proc? = some p)
    (hm : p.mode = some .pae) : p.pdptrValid = true := by
  obtain ⟨-, hpdptrs, -, -⟩ := (Proc.ok_iff _ _).mp (h.proc_ok hp)
  exact ((Proc.pdptrsLegal_iff _).mp hpdptrs).1 hm

/-- An access that has not begun takes no more steps than an operation gives it. -/
theorem stepsLeft_newAccess_le (kind : AccessKind) (la : LAddr) (n v : Nat) (cpl : Cpl) :
    stepsLeft (newAccess kind la n v cpl) ≤ accessFuel :=
  Nat.le_succ 11

/-- An uninterrupted access to whose address no stale entry applies ends as the walk of memory says (R41,
R230). -/
theorem exec_accessOp_agreeing {kind : AccessKind} {la : LAddr} {n v : Nat} {s : State} {p : Proc}
    {m : PMode} (hinv : Inv s) (hp : s.proc? = some p) (hm : p.mode = some m)
    (hw : wellFormed (accessOp kind la n v) = true) (hcan : m = .ia32e → canonical la = true)
    (hu : Uninterrupted s) (ha : AgreesWithMemory s.config s.mem p m (operandAddress (some m) la)) :
    ∃ v', (kind = .write → v' = v) ∧
      AgreeingEnd s p m (newAccess kind (operandAddress (some m) la) n v' p.cpl)
        (memoryWalk s.config s.mem p m (operandAddress (some m) la)) (exec (accessOp kind la n v) s) := by
  obtain ⟨v', hv', hexec⟩ := exec_accessOp_runs hp hw (hm ▸ refusesAddress_of_canonical hcan)
  refine ⟨v', hv', ?_⟩
  rw [hexec, hm]
  have hc := hinv.config_wf
  obtain ⟨-, -, hcaches, -⟩ := (Proc.ok_iff _ _).mp (hinv.proc_ok hp)
  obtain ⟨hlen, hpause⟩ := hu
  refine runAccess_completes (m := m)
    (Q := Agreeing s p m (newAccess kind (operandAddress (some m) la) n v' p.cpl)
      (memoryWalk s.config s.mem p m (operandAddress (some m) la)))
    ?_ ?_ (fun _ _ h => h.drawn) ?_ ?_ accessFuel _ s
    (.begin hp rfl (.of_agreesWithMemory hcaches ha)) (stepsLeft_newAccess_le ..) hlen hpause
  · intro a s' h
    obtain ⟨q, hq, hsame, -, -⟩ := h.went.proc
    exact ⟨q, hq, hsame.mode.trans hm⟩
  · intro a s' t d h hph
    exact (h.walk t d hph).2.2
  · intro a c s' q a' s'' h hq hg
    exact h.goesOn hc hinv.mem_wf rfl hq hg
  · intro a c s' q r h hq he
    exact h.ends hc rfl (fun hpae => hinv.pdptrValid hp (hpae ▸ hm)) rfl hq he

/-- Where the walk of memory is refused, so is the access (R82). -/
theorem AgreeingEnd.of_refused {s0 p0 m a0 r} (h : AgreeingEnd s0 p0 m a0 .refused r) :
    r = .refused .reservedBit := by
  cases h with
  | refused => rfl
  | outside hW => cases hW
  | denied a s hW => simp at hW
  | moved a s l hW => cases hW

/-- Where the walk of memory leaves the populated range, so does the access (R96). -/
theorem AgreeingEnd.of_outside {s0 p0 m a0 r} (h : AgreeingEnd s0 p0 m a0 .outside r) :
    r = .fault .outsideMemRange := by
  cases h with
  | refused hW => cases hW
  | outside => rfl
  | denied a s hW => simp at hW
  | moved a s l hW => cases hW

/-- Where the walk of memory allows the access, the data are moved at its leaf (R140). -/
theorem AgreeingEnd.of_allowed {s0 p0 m a0 l r} (h : AgreeingEnd s0 p0 m a0 (.leaf l) r)
    (hok : allowed p0.wp a0.kind a0.cpl l.rw l.us l.xd = true) :
    ∃ a s, Agreeing s0 p0 m a0 (.leaf l) a s ∧ r = moveData a (leafAddress m l a0.la) s := by
  cases h with
  | refused hW => cases hW
  | outside hW => cases hW
  | denied a s hW => simp [hok] at hW
  | moved a s l' hW hg => cases hW; exact ⟨a, s, hg, rfl⟩

/-- Settles O30: with paging on the access ends as the walk of memory does, and data outside the populated
range are not moved, with paging on or off. -/
theorem agreeingAccessStopsWhereMemoryStops : Obligations.AgreeingAccessStopsWhereMemoryStops := by
  unfold Obligations.AgreeingAccessStopsWhereMemoryStops
  constructor
  · intro s p m kind la n v hinv hp hm hw hcan hu la' ha
    obtain ⟨v', -, hend⟩ := exec_accessOp_agreeing hinv hp hm hw hcan hu ha
    refine ⟨fun hW => ?_, fun hW => ?_, fun l hW hok hr => ?_⟩ <;> rw [hW] at hend
    · exact hend.of_refused
    · exact hend.of_outside
    · obtain ⟨a, t, hg, hmove⟩ := hend.of_allowed hok
      obtain ⟨-, -, hn, -⟩ := hg.went.fields
      rw [hmove]
      exact moveData_outside (by rw [hg.went.config, hn]; exact hr)
  · intro s p kind la n v hp hpg hw hr
    obtain ⟨v', -, hexec⟩ := exec_accessOp_pagingOff hp hpg hw
    rw [hexec]
    exact moveData_outside (by rw [unpagedAddress_toNat]; exact hr)

end Sys2Proof.Machine
end

section
/-! PROOFS. Encoding (family 30): prefixes, the rows of the opcode table, and that the decoder and the encoder
read the table alike. -/

namespace Sys2Proof

/-! ### The fields of ModR/M -/

/-- The mod field of a ModR/M byte made from its fields (R112). -/
@[simp] theorem modField_modRm (md : BitVec 2) (reg rm : BitVec 3) : modField (modRm md reg rm) = md := by
  rw [modField, modRm, BitVec.extractLsb'_append_eq_of_le (by decide),
    BitVec.extractLsb'_append_eq_of_le (by decide), BitVec.extractLsb'_eq_self]

/-- Its reg field (R112). -/
@[simp] theorem regField_modRm (md : BitVec 2) (reg rm : BitVec 3) : regField (modRm md reg rm) = reg := by
  rw [regField, modRm, BitVec.extractLsb'_append_eq_of_le (by decide), BitVec.extractLsb'_append_eq_right]

/-- Its r/m field (R112). -/
@[simp] theorem rmField_modRm (md : BitVec 2) (reg rm : BitVec 3) : rmField (modRm md reg rm) = rm := by
  rw [rmField, modRm, BitVec.extractLsb'_append_eq_right]

/-- The three fields are the whole byte (R112). -/
theorem modRm_fields (b : Byte) : modRm (modField b) (regField b) (rmField b) = b := by
  rw [modRm, modField, regField, rmField,
    BitVec.extractLsb'_append_extractLsb'_eq_extractLsb' (start₂ := 6) (start₁ := 3) (len₁ := 3) rfl,
    BitVec.extractLsb'_append_extractLsb'_eq_extractLsb' (start₂ := 3) (start₁ := 0) (len₁ := 3) rfl]
  exact BitVec.extractLsb'_eq_self

/-! ### Prefixes -/

/-- The bytes with which an opcode begins: `0F` of the two-byte rows, and `F4` (R113). -/
def OpensOpcode (b : Byte) : Prop := b = 0x0F ∨ b = 0xF4

/-- Such a byte is none of the legacy prefixes (R112). -/
theorem OpensOpcode.not_legacy {b : Byte} (h : OpensOpcode b) : isLegacyPrefix b = false := by
  obtain rfl | rfl := h <;> decide

/-- Such a byte is no REX byte (R112). -/
theorem OpensOpcode.not_rex {b : Byte} (h : OpensOpcode b) : isRex b = false := by
  obtain rfl | rfl := h <;> decide

/-- What may stand between the legacy prefixes and the opcode: nothing, or one REX byte in 64-bit mode
(R112). -/
def OptionalRex (long : Bool) (d : List Byte) : Prop := d = [] ∨ ∃ x, d = [x] ∧ (long && isRex x) = true

/-- The prefixes of an instruction are legacy prefixes and what may follow them (R112). -/
theorem prefixesOk_iff {long : Bool} {ps : List Byte} :
    prefixesOk long ps = true ↔ OptionalRex long (ps.dropWhile isLegacyPrefix) := by
  unfold prefixesOk OptionalRex
  generalize ps.dropWhile isLegacyPrefix = d
  match d with
  | [] => simp
  | [b] => simp
  | _ :: _ :: _ => simp

section
variable {long : Bool} {b : Byte} {r : List Byte} (hb : OpensOpcode b)
include hb

/-- The legacy prefixes before an opcode end before it. -/
theorem takeWhile_append_opcode (ps : List Byte) :
    (ps ++ b :: r).takeWhile isLegacyPrefix = ps.takeWhile isLegacyPrefix := by
  induction ps with
  | nil => simp [hb.not_legacy]
  | cons p ps ih => simp [List.takeWhile_cons, ih]

/-- What stands behind the legacy prefixes of an instruction goes on with its opcode. -/
theorem dropWhile_append_opcode (ps : List Byte) :
    (ps ++ b :: r).dropWhile isLegacyPrefix = ps.dropWhile isLegacyPrefix ++ b :: r := by
  induction ps with
  | nil => simp [hb.not_legacy]
  | cons p ps ih => simp only [List.cons_append, List.dropWhile_cons, ih]; split <;> rfl

/-- An optional REX byte is skipped and the opcode is not (R112). -/
theorem skipRex_append_opcode {d : List Byte} (hd : OptionalRex long d) :
    skipRex long (d ++ b :: r) = b :: r := by
  obtain rfl | ⟨x, rfl, hx⟩ := hd
  · simp [skipRex, hb.not_rex]
  · exact if_pos hx

/-- The opcode does not extend the reg field, so the prefixes alone say whether it is extended (R112). -/
theorem extendsReg_append_opcode (d : List Byte) :
    extendsReg long (d ++ b :: r) = extendsReg long d := by
  cases d with
  | nil => simp [extendsReg, hb.not_rex]
  | cons x d => rfl

/-- Prefixes are read for what they select, and then the opcode (R112). -/
theorem decodeBytes_prefixes {ps : List Byte} (v : BitVec 64) (hps : prefixesOk long ps = true) :
    decodeBytes long (ps ++ b :: r) v =
      limited (ps ++ b :: r).length (extended (extendsReg long (ps.dropWhile isLegacyPrefix))
        (decodeOpcode (selects16 long (ps.takeWhile isLegacyPrefix)) (b :: r) v)) := by
  rw [decodeBytes, takeWhile_append_opcode hb, dropWhile_append_opcode hb, extendsReg_append_opcode hb,
    skipRex_append_opcode hb (prefixesOk_iff.mp hps)]

/-- Bytes in which the decoder finds an opcode are prefixes and that opcode (R112). -/
theorem exists_prefixes {bytes : List Byte}
    (h : skipRex long (bytes.dropWhile isLegacyPrefix) = b :: r) :
    ∃ ps, bytes = ps ++ b :: r ∧ prefixesOk long ps = true := by
  have hrex : ∃ d, bytes.dropWhile isLegacyPrefix = d ++ b :: r ∧ OptionalRex long d := by
    cases hd : bytes.dropWhile isLegacyPrefix with
    | nil => rw [hd] at h; cases h
    | cons x rest =>
      rw [hd, skipRex] at h
      split at h
      · next hx => exact ⟨[x], by rw [h]; rfl, .inr ⟨x, rfl, hx⟩⟩
      · exact ⟨[], h, .inl rfl⟩
  obtain ⟨d, hd, hd_ok⟩ := hrex
  have hbytes : bytes = (bytes.takeWhile isLegacyPrefix ++ d) ++ b :: r := by
    rw [List.append_assoc, ← hd, List.takeWhile_append_dropWhile]
  have hrest : (bytes.takeWhile isLegacyPrefix ++ d).dropWhile isLegacyPrefix = d :=
    List.append_cancel_right (by rw [← dropWhile_append_opcode hb, ← hbytes, hd])
  exact ⟨_, hbytes, prefixesOk_iff.mpr (hrest.symm ▸ hd_ok)⟩

end

/-! ### The rows of the opcode table -/

/-- The operations that the rows of the opcode table give with the operand value v, where prefixes do or do
not select 16-bit addressing (R112, R113). -/
inductive OpcodeRow (addr16 : Bool) (v : BitVec 64) : Instr → Prop
  | invlpg (md : BitVec 2) (rm : BitVec 3) (bs : List Byte) (hmd : md ≠ 3)
      (ht : tailFits md rm ⟨addr16, bs⟩ = true) : OpcodeRow addr16 v (.invlpg md rm ⟨addr16, bs⟩ v)
  | movToCr3 (md : BitVec 2) (rm : BitVec 3) : OpcodeRow addr16 v (.movToCr3 md rm v)
  | movToCr4 (md : BitVec 2) (rm : BitVec 3) : OpcodeRow addr16 v (.movToCr4 md rm v)
  | movToCr0 (md : BitVec 2) (rm : BitVec 3) : OpcodeRow addr16 v (.movToCr0 md rm v)
  | movFromCrn (md : BitVec 2) (cr : CrNum) (rm : BitVec 3) : OpcodeRow addr16 v (.movFromCrn md cr rm)
  | hlt : OpcodeRow addr16 v .hlt
  | cpuid : OpcodeRow addr16 v .cpuid

/-- A well-formed INVLPG has a memory operand and the bytes of its addressing form (R112, R113). -/
theorem of_wellFormed_invlpg {md : BitVec 2} {rm : BitVec 3} {tail : Tail} {la : LAddr}
    (h : wellFormed (.invlpg md rm tail la) = true) : md ≠ 3 ∧ tailFits md rm tail = true := by
  unfold wellFormed illFormed at h
  grind

/-- A well-formed operation that is encoded as bytes is of a row of the table. -/
theorem OpcodeRow.of_encode {addr16 : Bool} {v : BitVec 64} {i : Instr} {bytes : List Byte}
    (hw : wellFormed i = true) (he : encode i = .code bytes v)
    (ha : ∀ md rm tail la, i = .invlpg md rm tail la → tail.addr16 = addr16) : OpcodeRow addr16 v i := by
  cases i with
  | read | write | fetch => cases he
  | invlpg md rm tail la =>
    obtain ⟨hmd, ht⟩ := of_wellFormed_invlpg hw
    obtain rfl := ha md rm tail la rfl
    cases he
    exact .invlpg md rm tail.bytes hmd ht
  | movToCr3 | movToCr4 | movToCr0 | movFromCrn | hlt | cpuid => cases he; constructor

section
variable {addr16 : Bool} {v : BitVec 64} {i : Instr} (h : OpcodeRow addr16 v i)
include h

/-- The bytes of a row begin with an opcode. -/
theorem OpcodeRow.opens : ∃ b r, opcodeBytes i = b :: r ∧ OpensOpcode b := by
  cases h with
  | hlt => exact ⟨_, _, rfl, .inr rfl⟩
  | invlpg | movToCr3 | movToCr4 | movToCr0 | movFromCrn | cpuid => exact ⟨_, _, rfl, .inl rfl⟩

/-- The addressing form of a row is the one that is selected (R112). -/
theorem OpcodeRow.addr16_eq {md : BitVec 2} {rm : BitVec 3} {tail : Tail} {la : LAddr}
    (hi : i = .invlpg md rm tail la) : tail.addr16 = addr16 := by
  subst hi
  cases h
  rfl

/-- The slot of a row keeps the operand value where the row has one, and 0 elsewhere (R111, D1). -/
theorem OpcodeRow.encode_eq : ∃ used, encode i = .code used v ∨
    (encode i = .code used 0 ∧ (i = .hlt ∨ i = .cpuid ∨ ∃ md cr rm, i = .movFromCrn md cr rm)) := by
  refine ⟨instrBytes i, ?_⟩
  cases h with
  | invlpg | movToCr3 | movToCr4 | movToCr0 => exact .inl rfl
  | movFromCrn md cr rm => exact .inr ⟨rfl, .inr (.inr ⟨md, cr, rm, rfl⟩)⟩
  | hlt => exact .inr ⟨rfl, .inl rfl⟩
  | cpuid => exact .inr ⟨rfl, .inr (.inl rfl)⟩

end

/-- The decoder takes as many bytes after ModR/M as the addressing form has (R112). -/
theorem tailLength_of_tailFits {addr16 : Bool} {md : BitVec 2} {rm : BitVec 3} {bs rest : List Byte}
    (h : tailFits md rm ⟨addr16, bs⟩ = true) : tailLength addr16 md rm (bs ++ rest) = bs.length := by
  symm
  cases addr16 with
  | true => simpa [tailFits, tailLength] using h
  | false =>
    by_cases hrm : rm = 4
    · cases bs with
      | nil => simp [tailFits, hrm] at h
      | cons sib disp => simpa [tailFits, tailLength, hrm, Nat.add_comm 1] using h
    · simp only [tailFits, tailLength, hrm, if_false, Bool.false_eq_true] at h ⊢
      simpa using h

/-- INVLPG: its tail is taken, and what follows it is left (R112, R113). -/
theorem decodeInvlpg_modRm {addr16 : Bool} {md : BitVec 2} {rm : BitVec 3} {bs : List Byte}
    (rest : List Byte) (v : BitVec 64) (hmd : md ≠ 3) (ht : tailFits md rm ⟨addr16, bs⟩ = true) :
    decodeInvlpg addr16 (modRm md 7 rm) (bs ++ rest) v = .ok (.invlpg md rm ⟨addr16, bs⟩ v) rest := by
  simp only [decodeInvlpg, regField_modRm, modField_modRm, rmField_modRm, tailLength_of_tailFits ht, hmd]
  simp

/-- MOV from CRn: the reg field of the register is read as that register (R113). -/
theorem decodeMovFrom_modRm (md : BitVec 2) (cr : CrNum) (rm : BitVec 3) (rest : List Byte) :
    decodeMovFrom (modRm md (crField cr) rm) rest = .ok (.movFromCrn md cr rm) rest := by
  cases cr <;> simp [decodeMovFrom, crField]

/-- The bytes of a row of the table decode to it, whatever follows them (R113). -/
theorem OpcodeRow.decodeOpcode_eq {addr16 : Bool} {v : BitVec 64} {i : Instr} (h : OpcodeRow addr16 v i)
    (rest : List Byte) : decodeOpcode addr16 (opcodeBytes i ++ rest) v = .ok i rest := by
  cases h with
  | invlpg md rm bs hmd ht => exact decodeInvlpg_modRm rest v hmd ht
  | movToCr3 md rm => show decodeMovTo (modRm md 3 rm) rest v = _; simp [decodeMovTo]
  | movToCr4 md rm => show decodeMovTo (modRm md 4 rm) rest v = _; simp [decodeMovTo]
  | movToCr0 md rm => show decodeMovTo (modRm md 0 rm) rest v = _; simp [decodeMovTo]
  | movFromCrn md cr rm => exact decodeMovFrom_modRm md cr rm rest
  | hlt | cpuid => rfl

/-! ### From the bytes back to the row -/

/-- An answer of the decoder for these bytes is a row of the table, whose bytes they are, followed by the
bytes that are left over. -/
def Decoded.ReadsRow (addr16 : Bool) (bytes : List Byte) (v : BitVec 64) (d : Decoded) : Prop :=
  ∀ i rest, d = .ok i rest → OpcodeRow addr16 v i ∧ bytes = opcodeBytes i ++ rest

section
variable {addr16 : Bool} {bytes rest : List Byte} {v : BitVec 64} {i : Instr}

/-- An answer that is a row of the table. -/
theorem Decoded.ReadsRow.ok (h : OpcodeRow addr16 v i) (hb : bytes = opcodeBytes i ++ rest) :
    (Decoded.ok i rest).ReadsRow addr16 bytes v := by
  rintro _ _ ⟨⟩
  exact ⟨h, hb⟩

/-- An error is no row. -/
theorem Decoded.ReadsRow.bad (e : DecodeError) : (Decoded.bad e).ReadsRow addr16 bytes v := nofun

end

/-- A ModR/M byte is made of its fields, one of which is known. -/
theorem modRm_of_regField {b : Byte} {n : BitVec 3} (h : regField b = n) :
    b = modRm (modField b) n (rmField b) := by
  rw [← h, modRm_fields]

/-- So are the bytes of a two-byte row with that ModR/M byte. -/
theorem twoByte_of_regField {b : Byte} {n : BitVec 3} (h : regField b = n) (opcode : Byte)
    (rest : List Byte) :
    0x0F :: opcode :: b :: rest = 0x0F :: opcode :: modRm (modField b) n (rmField b) :: rest := by
  rw [← modRm_of_regField h]

/-- INVLPG: the bytes are ModR/M, the tail of its form and what is left over (R112, R113). -/
theorem decodeInvlpg_readsRow (addr16 : Bool) (modrm : Byte) (after : List Byte) (v : BitVec 64) :
    (decodeInvlpg addr16 modrm after v).ReadsRow addr16 (0x0F :: 0x01 :: modrm :: after) v := by
  unfold decodeInvlpg
  split
  · exact .bad _
  · next hreg =>
    split
    · exact .bad _
    · next hmd =>
      dsimp only
      split
      · exact .bad _
      · next hlen =>
        refine .ok (.invlpg _ _ _ hmd (tailFits_take (Nat.le_of_not_lt hlen))) ?_
        rw [opcodeBytes, ← modRm_of_regField (not_not.mp hreg)]
        simp only [List.cons_append, List.take_append_drop]

/-- MOV to CRn: ModR/M names the register (R113). -/
theorem decodeMovTo_readsRow (addr16 : Bool) (modrm : Byte) (rest : List Byte) (v : BitVec 64) :
    (decodeMovTo modrm rest v).ReadsRow addr16 (0x0F :: 0x22 :: modrm :: rest) v := by
  unfold decodeMovTo
  split
  · next hreg => exact .ok (.movToCr0 _ _) (twoByte_of_regField hreg _ rest)
  · split
    · next hreg => exact .ok (.movToCr3 _ _) (twoByte_of_regField hreg _ rest)
    · split
      · next hreg => exact .ok (.movToCr4 _ _) (twoByte_of_regField hreg _ rest)
      · exact .bad _

/-- MOV from CRn likewise (R113). -/
theorem decodeMovFrom_readsRow (addr16 : Bool) (modrm : Byte) (rest : List Byte) (v : BitVec 64) :
    (decodeMovFrom modrm rest).ReadsRow addr16 (0x0F :: 0x20 :: modrm :: rest) v := by
  unfold decodeMovFrom
  split
  · next hreg => exact .ok (.movFromCrn _ .cr0 _) (twoByte_of_regField hreg _ rest)
  · split
    · next hreg => exact .ok (.movFromCrn _ .cr3 _) (twoByte_of_regField hreg _ rest)
    · split
      · next hreg => exact .ok (.movFromCrn _ .cr4 _) (twoByte_of_regField hreg _ rest)
      · exact .bad _

/-- The two-byte rows (R113). -/
theorem decodeTwoByte_readsRow (addr16 : Bool) (opcode : Byte) (rest : List Byte) (v : BitVec 64) :
    (decodeTwoByte addr16 opcode rest v).ReadsRow addr16 (0x0F :: opcode :: rest) v := by
  unfold decodeTwoByte
  split
  · next hop => subst hop; exact .ok .cpuid rfl
  · cases rest with
    | nil => dsimp only; split <;> exact .bad _
    | cons modrm after =>
      dsimp only
      split
      · next hop => subst hop; exact decodeInvlpg_readsRow _ _ _ _
      · split
        · next hop => subst hop; exact decodeMovFrom_readsRow _ _ _ _
        · split
          · next hop => subst hop; exact decodeMovTo_readsRow _ _ _ _
          · exact .bad _

/-- Whatever the decoder finds from the opcode on is a row of the table and its bytes (R113). -/
theorem decodeOpcode_readsRow (addr16 : Bool) (bytes : List Byte) (v : BitVec 64) :
    (decodeOpcode addr16 bytes v).ReadsRow addr16 bytes v := by
  cases bytes with
  | nil => exact .bad _
  | cons b rest =>
    unfold decodeOpcode
    dsimp only
    split
    · next hb => subst hb; exact .ok .hlt rfl
    · split
      · next hb =>
        subst hb
        cases rest with
        | nil => exact .bad _
        | cons opcode rest => exact decodeTwoByte_readsRow _ _ _ _
      · exact .bad _

/-! ### Whole instructions -/

/-- What is not refused for its length has at most 15 bytes (R112). -/
theorem limited_ok_le {n : Nat} {d : Decoded} {i : Instr} {rest : List Byte}
    (h : limited n d = .ok i rest) : n - rest.length ≤ 15 := by
  obtain rfl := limited_ok h
  unfold limited at h
  dsimp only at h
  split at h
  · cases h
  · next hn => exact Nat.le_of_not_lt hn

/-- What is not refused for the extension of its register has none, or names no register (R112). -/
theorem extended_ok_not {ext : Bool} {d : Decoded} {i : Instr} {rest : List Byte}
    (h : extended ext d = .ok i rest) : (ext && namesControlRegister i) = false := by
  obtain rfl := extended_ok h
  unfold extended at h
  dsimp only at h
  split at h
  · cases h
  · next hn => exact Bool.eq_false_iff.mpr hn

/-- An instruction whose reg field is not extended, or names no register, is accepted (R112). -/
theorem extended_eq_ok {ext : Bool} {i : Instr} {rest : List Byte}
    (h : (ext && namesControlRegister i) = false) : extended ext (.ok i rest) = .ok i rest :=
  if_neg (Bool.eq_false_iff.mp h)

/-- An extended control register is refused (R112). -/
theorem extended_eq_bad {ext : Bool} {i : Instr} {rest : List Byte}
    (h : (ext && namesControlRegister i) = true) :
    extended ext (.ok i rest) = .bad .extendedControlRegister :=
  if_pos h

/-- Prefixes and the bytes of a row decode to the row, if neither its length nor the extension of its
register is against it (R112). -/
theorem OpcodeRow.decodeBytes_eq {long : Bool} {ps : List Byte} {v : BitVec 64} {i : Instr}
    (h : OpcodeRow (selects16 long (ps.takeWhile isLegacyPrefix)) v i) (hps : prefixesOk long ps = true)
    (rest : List Byte) :
    decodeBytes long (ps ++ opcodeBytes i ++ rest) v =
      limited (ps.length + (opcodeBytes i).length + rest.length)
        (extended (extendsReg long (ps.dropWhile isLegacyPrefix)) (.ok i rest)) := by
  obtain ⟨b, r, hbr, hb⟩ := h.opens
  have hlen : (ps ++ b :: (r ++ rest)).length = ps.length + (opcodeBytes i).length + rest.length := by
    simp only [hbr, List.length_append, List.length_cons]
    omega
  rw [← h.decodeOpcode_eq rest, ← hlen, hbr, List.append_assoc, List.cons_append,
    decodeBytes_prefixes hb v hps]

/-- Settles O2: the decoder reads prefixes and then a row of the table, and the answer differs only by the
length and by the extension of the register. -/
theorem decodeStopsAtInstructionEnd : Obligations.DecodeStopsAtInstructionEnd := by
  unfold Obligations.DecodeStopsAtInstructionEnd
  intro long i ps bytes rest v hw he hps ha ext
  have hrow : OpcodeRow (selects16 long (ps.takeWhile isLegacyPrefix)) v i := .of_encode hw he ha
  have hdecode : decode long (.code (ps ++ opcodeBytes i ++ rest) v) = _ := hrow.decodeBytes_eq hps rest
  rw [hdecode]
  refine ⟨fun hext hlen => ?_, fun hext hlen => ?_, fun hext => ?_⟩
  · rw [extended_eq_ok hext]
    simp [limited, maxInstrBytes, hlen]
  · rw [extended_eq_ok hext]
    simp [limited, maxInstrBytes, hlen]
  · rw [extended_eq_bad hext]
    rfl

/-- Settles O3: what the decoder finds is a row of the table, and the bytes before it are prefixes. -/
theorem decodedBytesAreItsEncoding : Obligations.DecodedBytesAreItsEncoding := by
  unfold Obligations.DecodedBytesAreItsEncoding
  intro long bytes rest v i h
  have hext := limited_ok h
  obtain ⟨hrow, hskip⟩ := decodeOpcode_readsRow _ _ _ i rest (extended_ok hext)
  obtain ⟨b, r, hbr, hb⟩ := hrow.opens
  rw [hbr, List.cons_append] at hskip
  obtain ⟨ps, rfl, hps⟩ := exists_prefixes hb hskip
  have hlen := limited_ok_le h
  have hnot := extended_ok_not hext
  rw [takeWhile_append_opcode hb] at hrow
  rw [dropWhile_append_opcode hb, extendsReg_append_opcode hb] at hnot
  simp only [List.length_append, List.length_cons] at hlen
  obtain ⟨used, hused⟩ := hrow.encode_eq
  refine ⟨ps, used, by simp [hbr], hps, by simp [hbr], ?_, fun _ _ _ _ => hrow.addr16_eq, fun hn => ?_, hused⟩
  · rw [hbr, List.length_cons]
    omega
  · simpa [hn] using hnot

/-! ### The encoder's own bytes -/

/-- The prefixes that an operation needs (R112). -/
def neededPrefixes (i : Instr) : List Byte := if usesAddr16 i then [addressSizePrefix] else []

/-- The encoder writes the prefixes that an operation needs and the bytes of its row. -/
theorem instrBytes_eq (i : Instr) : instrBytes i = neededPrefixes i ++ opcodeBytes i := by
  unfold instrBytes neededPrefixes
  split <;> rfl

/-- The prefixes that an operation needs are all legacy prefixes (R112). -/
theorem dropWhile_neededPrefixes (i : Instr) : (neededPrefixes i).dropWhile isLegacyPrefix = [] := by
  unfold neededPrefixes
  split <;> rfl

/-- In a mode that has its addressing form, they select it (R112). -/
theorem selects16_neededPrefixes {long : Bool} {i : Instr} (h : long = true → usesAddr16 i = false) :
    selects16 long ((neededPrefixes i).takeWhile isLegacyPrefix) = usesAddr16 i := by
  unfold neededPrefixes
  cases hi : usesAddr16 i with
  | false => simp [selects16]
  | true =>
    have hlong : long = false := by simpa [hi] using h
    subst hlong
    decide

/-- A well-formed instruction has at most 15 bytes (R112). -/
theorem length_instrBytes_le {i : Instr} (hw : wellFormed i = true) : (instrBytes i).length ≤ 15 := by
  cases i with
  | read | write | fetch => exact Nat.zero_le _
  | invlpg md rm tail la => exact (Laws.EncodeBounds.invlpg md rm tail la _ _ hw rfl).2
  | movToCr3 md rm v => exact (Laws.EncodeBounds.movToCr3 md rm v _ _ hw rfl).2
  | movToCr4 md rm v => exact (Laws.EncodeBounds.movToCr4 md rm v _ _ hw rfl).2
  | movToCr0 md rm v => exact (Laws.EncodeBounds.movToCr0 md rm v _ _ hw rfl).2
  | movFromCrn md cr rm => exact (Laws.EncodeBounds.movFromCrn md cr rm _ _ hw rfl).2
  | hlt => exact (Laws.EncodeBounds.hlt _ _ hw rfl).2
  | cpuid => exact (Laws.EncodeBounds.cpuid _ _ hw rfl).2

/-- The encoder's bytes decode to the operation: the prefixes it needs are prefixes, extend no register and
leave it at most 15 bytes (R112). -/
theorem decode_instrBytes {long : Bool} {i : Instr} {v : BitVec 64} (hw : wellFormed i = true)
    (ha : long = true → usesAddr16 i = false) (he : encode i = .code (instrBytes i) v) :
    decode long (.code (instrBytes i) v) = .ok i [] := by
  have hlen := length_instrBytes_le hw
  rw [instrBytes_eq, List.length_append] at hlen
  have hext : (extendsReg long ((neededPrefixes i).dropWhile isLegacyPrefix) && namesControlRegister i) =
      false := by
    rw [dropWhile_neededPrefixes]
    rfl
  have hps : prefixesOk long (neededPrefixes i) = true :=
    prefixesOk_iff.mpr (.inl (dropWhile_neededPrefixes i))
  have h16 : ∀ md rm tail la, i = .invlpg md rm tail la →
      tail.addr16 = selects16 long ((neededPrefixes i).takeWhile isLegacyPrefix) := by
    rintro md rm tail la rfl
    exact (selects16_neededPrefixes ha).symm
  obtain ⟨hok, -, -⟩ := decodeStopsAtInstructionEnd long i _ _ [] v hw he hps h16
  have hdecode := hok hext hlen
  rwa [List.append_nil, ← instrBytes_eq] at hdecode

/-- An operation that is well formed passes the check (R93). -/
theorem checked_of_wellFormed {i : Instr} (h : wellFormed i = true) (rest : List Byte) :
    checked i rest = .ok i rest := by
  rw [checked, Option.isNone_iff_eq_none.mp h]

/-- Settles O1: an access is held as itself, and the bytes of the other operations decode to them. -/
theorem decodeEncodeRoundTrip : Obligations.DecodeEncodeRoundTrip := by
  unfold Obligations.DecodeEncodeRoundTrip
  intro long i hw ha
  cases i with
  | read | write | fetch => exact checked_of_wellFormed hw []
  | invlpg | movToCr3 | movToCr4 | movToCr0 | movFromCrn | hlt | cpuid => exact decode_instrBytes hw ha rfl

/-- Settles O5: each word is evaluated. -/
theorem tableWordsDecode : Obligations.TableWordsDecode := by
  unfold Obligations.TableWordsDecode
  decide

/-! ### Encodings of no operation -/

/-- Bytes that begin with an opcode that the decoder rejects are rejected with that error (R115). -/
theorem decode_of_decodeOpcode_bad {long : Bool} {b : Byte} {r : List Byte} {v : BitVec 64}
    {e : DecodeError} (hb : OpensOpcode b) (h : decodeOpcode (selects16 long []) (b :: r) v = .bad e) :
    decode long (.code (b :: r) v) = .bad e := by
  have hdecode : decode long (.code (b :: r) v) = _ := decodeBytes_prefixes (ps := []) hb v rfl
  rw [hdecode, List.takeWhile_nil, h]
  rfl

/-- Settles O6: such a ModR/M byte is rejected behind its opcode, and no prefixes stand before it. -/
theorem otherEncodingsAreRejected : Obligations.OtherEncodingsAreRejected := by
  unfold Obligations.OtherEncodingsAreRejected
  refine ⟨fun long rm rest v => decode_of_decodeOpcode_bad (.inl rfl) ?_,
    fun long md n rm rest v h0 h3 h4 => ⟨decode_of_decodeOpcode_bad (.inl rfl) ?_,
      decode_of_decodeOpcode_bad (.inl rfl) ?_⟩⟩
  · show decodeInvlpg _ (modRm 3 7 rm) rest v = _
    simp [decodeInvlpg]
  · show decodeMovTo (modRm md n rm) rest v = _
    simp only [decodeMovTo, regField_modRm, h0, h3, h4, if_false]
  · show decodeMovFrom (modRm md n rm) rest = _
    simp only [decodeMovFrom, regField_modRm, h0, h3, h4, if_false]

end Sys2Proof
end

section
/-! PROOFS. The value that MOV from CRn reports: its width, and the bits of it that the spec describes. -/

namespace Sys2Proof.Machine

/-- A Boolean at a position is that bit, and no other. -/
@[simp] theorem getElem_bitAt (b : Bool) (j k : Nat) (hk : k < 64) :
    (bitAt b j)[k] = (b && decide (k = j)) := by
  cases b <;> simp [bitAt]

/-- The described bits of CR0 are those of the processor (R21). -/
theorem controlValue_cr0 (p : Proc) (free : BitVec 64) :
    (controlValue p .cr0 free).getLsbD 31 = p.pg ∧ (controlValue p .cr0 free).getLsbD 16 = p.wp := by
  simp [controlValue]

/-- CR3 is held whole (R232). -/
theorem controlValue_cr3 (p : Proc) (free : BitVec 64) : controlValue p .cr3 free = p.cr3 := rfl

/-- The described bits of CR4 are those of the processor (R23). -/
theorem controlValue_cr4 (p : Proc) (free : BitVec 64) :
    (controlValue p .cr4 free).getLsbD 4 = p.pse ∧ (controlValue p .cr4 free).getLsbD 5 = p.pae ∧
      (controlValue p .cr4 free).getLsbD 7 = p.pge := by
  simp [controlValue]

/-- A MOV in 64-bit mode moves all of the value (R113). -/
theorem crOperand_of_lma {p : Proc} (h : p.lma = true) (v : BitVec 64) : crOperand p v = v := if_pos h

/-- A MOV outside 64-bit mode moves the low 32 bits of the value (R113). -/
theorem crOperand_toNat {p : Proc} (h : p.lma = false) (v : BitVec 64) :
    (crOperand p v).toNat = v.toNat % 2 ^ 32 := by
  simp only [crOperand, h, Bool.false_eq_true, if_false, BitVec.toNat_setWidth, BitVec.extractLsb'_toNat,
    Nat.shiftRight_zero]
  omega

/-- The low 32 bits are moved at either operand size (R113). -/
theorem crOperand_getLsbD (p : Proc) (v : BitVec 64) {k : Nat} (hk : k < 32) :
    (crOperand p v).getLsbD k = v.getLsbD k := by
  unfold crOperand
  split
  · rfl
  · simp [hk]
    omega

/-- MOV from CRn reports the value read, at the operand size, and changes nothing else but the choices
(R113). -/
theorem exec_movFromCrn {s : State} {p : Proc} (hp : s.proc? = some p) (md : BitVec 2) (cr : CrNum)
    (rm : BitVec 3) : exec (.movFromCrn md cr rm) s = .next (s.drawn.report
      (.controlRegister s.current cr (crOperand p (controlValue p cr s.choice.bits)))) :=
  State.withProc_eq _ _ _ hp

/-- Settles O54: the described bits are those of the register at either operand size, and CR3 is held
whole. -/
theorem movFromCrnReadsTheRegister : Obligations.MovFromCrnReadsTheRegister := by
  unfold Obligations.MovFromCrnReadsTheRegister
  intro s p md cr rm hp
  refine ⟨_, _, exec_movFromCrn hp md cr rm, by rw [State.report_trace, State.drawn_trace],
    by simp, by simp, ?_, ?_, ?_, ?_, fun h => ?_⟩
  · rintro rfl
    rw [crOperand_getLsbD p _ (by decide), crOperand_getLsbD p _ (by decide)]
    exact controlValue_cr0 p _
  · rintro rfl h
    rw [crOperand_of_lma h, controlValue_cr3]
  · rintro rfl h
    rw [crOperand_toNat h, controlValue_cr3]
  · rintro rfl
    rw [crOperand_getLsbD p _ (by decide), crOperand_getLsbD p _ (by decide),
      crOperand_getLsbD p _ (by decide)]
    exact controlValue_cr4 p _
  · rw [crOperand_toNat h]
    exact Nat.mod_lt _ (by decide)

end Sys2Proof.Machine
end

section
/-! PROOFS. Address translation (family 40): the paging mode and the access check, the operations with paging
off, and those that stop before a walk: CPUID, a non-canonical address, a denying TLB entry. -/

namespace Sys2Proof.Machine

/-! ### Modes, rights, CPUID -/

/-- Settles O55: the mode is computed from the three bits of the table. -/
theorem pagingModeTable : Obligations.PagingModeTable := by
  unfold Obligations.PagingModeTable
  refine fun p => ⟨Proc.mode_of_pagingOff, fun hpg hlma hpae => ?_, fun hpg hlma hpae => ?_,
    fun hpg hlma _ => ?_⟩
  · simp [Proc.mode, hpg, hlma, hpae]
  · simp [Proc.mode, hpg, hlma, hpae]
  · simp [Proc.mode, hpg, hlma]

/-- The access check denies an access in four cases (R141). -/
theorem denied_iff (wp : Bool) (kind : AccessKind) (cpl : Cpl) (rw us xd : Bool) :
    denied wp kind cpl rw us xd = true ↔
      (cpl = 3 ∧ us = false) ∨ (kind = .write ∧ rw = false ∧ cpl = 3) ∨
      (kind = .write ∧ rw = false ∧ wp = true) ∨ (kind = .fetch ∧ xd = true) := by
  simp only [denied, Bool.or_eq_true, Bool.and_eq_true, beq_iff_eq, Bool.not_eq_true', or_assoc, and_assoc]

/-- Settles O56: an access is allowed where it is not denied. -/
theorem accessCheckDeniesTheFourCases : Obligations.AccessCheckDeniesTheFourCases := by
  unfold Obligations.AccessCheckDeniesTheFourCases
  intro wp kind cpl rw us xd
  rw [allowed, Bool.not_eq_true', ← Bool.not_eq_true, denied_iff]
  simp only [not_or]

/-- Settles O53: CPUID needs a processor and nothing else. -/
theorem cpuidReturnsTheParameters : Obligations.CpuidReturnsTheParameters := by
  unfold Obligations.CpuidReturnsTheParameters
  exact fun s p hp => State.withProc_eq s _ p hp

/-! ### Non-canonical addresses -/

/-- An address with a bit of 63:48 that differs from bit 47 is not canonical (R133). -/
theorem canonical_eq_false {la : LAddr} {i : Nat} (hi : 48 ≤ i) (hi' : i < 64)
    (hbit : la.getLsbD i ≠ la.getLsbD 47) : canonical la = false := by
  have field : ∀ j < 17, (la.extractLsb' 47 17).getLsbD j = la.getLsbD (47 + j) := fun j hj => by
    rw [BitVec.getLsbD_extractLsb', decide_eq_true hj, Bool.true_and]
  have hlow := field 0 (by omega)
  have hhigh := field (i - 47) (by omega)
  rw [show 47 + (i - 47) = i by omega] at hhigh
  rw [← hlow, ← hhigh] at hbit
  simp only [canonical, Bool.or_eq_false_iff, beq_eq_false_iff_ne]
  constructor <;> intro h <;> refine hbit ?_ <;> rw [h]
  · simp
  · simp only [BitVec.getLsbD_allOnes]
    exact (decide_eq_true (by omega)).trans (decide_eq_true (by omega)).symm

/-- Where the mode has no such address, an access operation is refused (R133). -/
theorem exec_accessOp_refused {kind : AccessKind} {la : LAddr} {n v : Nat} {s : State} {p : Proc}
    (hp : s.proc? = some p) (hw : wellFormed (accessOp kind la n v) = true)
    (hc : refusesAddress p.mode la = true) : exec (accessOp kind la n v) s = .refused .nonCanonical := by
  obtain ⟨v', -, hexec⟩ := exec_accessOp kind la n v s
  rw [hexec, demandAccess, State.withProc_eq _ _ _ hp, accessIllFormed_of_wellFormed hw]
  simp [hc]

/-- Where the mode has no such address, INVLPG at CPL 0 is refused (R133). -/
theorem exec_invlpg_refused {la : LAddr} {s : State} {p : Proc} (hp : s.proc? = some p) (hcpl : p.cpl = 0)
    (hc : refusesAddress p.mode la = true) (md : BitVec 2) (rm : BitVec 3) (tail : Tail) :
    exec (.invlpg md rm tail la) s = .refused .nonCanonical :=
  (State.privileged_eq _ _ _ hp hcpl).trans (if_pos hc)

/-- Settles O35: the mode refuses the address, and both operations ask the mode first. -/
theorem nonCanonicalAddressIsRefused : Obligations.NonCanonicalAddressIsRefused := by
  unfold Obligations.NonCanonicalAddressIsRefused
  rintro s p la hp hm ⟨i, hi, hi', hbit⟩
  have hc : refusesAddress p.mode la = true := by
    simp [refusesAddress, hm, canonical_eq_false hi hi' hbit]
  exact ⟨fun kind n v hw => exec_accessOp_refused hp hw hc,
    fun hcpl md rm tail => exec_invlpg_refused hp hcpl hc md rm tail⟩

/-! ### Paging off -/

/-- A demand read reports the side effects of its read and then its value, and changes nothing else (R151,
R153). -/
theorem readData_demand {a : Access} (pa : PAddr) (s : State) (hd : a.demand = true) :
    readData a pa s = { s with
      trace := .value s.current a.kind a.la a.n (s.mem.readLE pa.toNat a.n) ::
        if touchesSideEffect s.config pa.toNat a.n then .sideEffect s.current pa.toNat a.n :: s.trace
        else s.trace } := by
  cases hs : touchesSideEffect s.config pa.toNat a.n <;> simp [readData, hd, hs, State.report]

/-- With paging off a READ or FETCH of populated bytes is that read at the low 32 bits of its address
(R155). -/
theorem exec_load_pagingOff_eq {kind : AccessKind} {la : LAddr} {n : Nat} {s : State} {p : Proc}
    (hp : s.proc? = some p) (hpg : p.pg = false) (hk : kind ≠ .write)
    (hw : wellFormed (accessOp kind la n 0) = true)
    (hr : reaches s.config (la.toNat % 2 ^ 32) n = true) :
    exec (accessOp kind la n 0) s = .next { s with
      trace := .value s.current kind (BitVec.ofNat 64 (la.toNat % 2 ^ 32)) n
          (s.mem.readLE (la.toNat % 2 ^ 32) n) ::
        if touchesSideEffect s.config (la.toNat % 2 ^ 32) n then
          .sideEffect s.current (la.toNat % 2 ^ 32) n :: s.trace
        else s.trace } := by
  obtain ⟨v', -, hexec⟩ := exec_accessOp_pagingOff hp hpg hw
  rw [← unpagedAddress_toNat] at hr
  rw [hexec.trans (moveData_load hk hr), readData_demand _ _ rfl, unpagedAddress_toNat, ← low32_eq]
  rfl

/-- Settles O20: a READ and a FETCH are one case each of the load with paging off. -/
theorem pagingOffReadsPhysicalMemory : Obligations.PagingOffReadsPhysicalMemory := by
  unfold Obligations.PagingOffReadsPhysicalMemory
  intro s p la n hp hpg hw hr pa before
  exact ⟨exec_load_pagingOff_eq (kind := .read) hp hpg nofun hw hr,
    exec_load_pagingOff_eq (kind := .fetch) hp hpg nofun hw hr⟩

/-- Settles O21: the WRITE stores the bytes of its value at the low 32 bits of its address. -/
theorem pagingOffWritesPhysicalMemory : Obligations.PagingOffWritesPhysicalMemory := by
  unfold Obligations.PagingOffWritesPhysicalMemory
  intro s p la n v hp hpg hw hr hwf
  obtain ⟨v', hv, hexec⟩ := exec_accessOp_pagingOff (kind := .write) hp hpg hw
  obtain rfl := hv rfl
  rw [← unpagedAddress_toNat] at hr
  refine ⟨s.mem.writeLE (la.toNat % 2 ^ 32) n v', ?_, fun k hk => Memory.read_writeLE_at _ _ _ _ _ hwf hk,
    fun b hb => Memory.read_writeLE_other _ _ _ _ _ hb⟩
  rw [← unpagedAddress_toNat]
  exact hexec.trans (moveData_write rfl hr)

/-! ### The steps of an access, run with a choice that is known -/

/-- An access that its first step ends, with a choice that does not pause it (R137). -/
theorem runAccess_done {fuel : Nat} {a : Access} {s : State} {p : Proc} {m : PMode} {c : Choice}
    {cs : List Choice} {r : Result} (hp : s.proc? = some p) (hm : p.mode = some m)
    (hcs : s.choices = c :: cs) (hpause : c.pause = false)
    (hstep : accessStep a c p m { s with choices := cs } = .done r) : runAccess (fuel + 1) a s = r := by
  rw [runAccess, State.withProc_eq _ _ _ hp, hm, State.choice_of_cons _ _ _ hcs, hpause,
    State.drawn_of_cons _ _ _ hcs]
  simp only [Bool.and_false, Bool.false_eq_true, if_false, hstep]

/-- An access begins to translate, in PAE mode once the PDPTR registers are loaded (R150, R321). -/
theorem accessStep_begin {a : Access} {c : Choice} {p : Proc} {m : PMode} {s : State}
    (hph : a.phase = .begin) (hv : m = .pae → p.pdptrValid = true) :
    accessStep a c p m s = beginStep a c p m s := by
  have hloaded : ¬ (m == .pae && !p.pdptrValid) = true := by
    simp only [Bool.and_eq_true, beq_iff_eq, Bool.not_eq_true', not_and, Bool.not_eq_false]
    exact hv
  simp only [accessStep, hph, if_neg hloaded]

/-- A TLB entry that denies the access fails it before any walk (R150). -/
theorem accessStep_deniedHit {a : Access} {c : Choice} {p : Proc} {m : PMode} {s : State} {e : TlbEntry}
    (hph : a.phase = .begin) (hv : m = .pae → p.pdptrValid = true)
    (he : chosenHit p m a.la c.hit = some e) (hok : allowed p.wp a.kind a.cpl e.rw e.us e.xd = false) :
    accessStep a c p m s = .done (failAccess a s) := by
  rw [accessStep_begin hph hv]
  simp [beginStep, he, hok]

/-- A page fault always completes: it delivers its event, and the processor only loses entries, those keyed
for the address among them (R401, R237). -/
theorem takePageFault_next {a : Access} {s : State} {p : Proc} (hp : s.proc? = some p) :
    ∃ t q, takePageFault a s = .next t ∧ t.mem = s.mem ∧ t.current = s.current ∧
      t.trace = .pageFault s.current a.la a.kind a.cpl :: s.trace ∧ t.proc? = some q ∧
      SameButLost q p ∧ NoneKeyed q a.la :=
  ⟨_, _, takePageFault_eq a s p hp, by simp, by simp, by simp, State.invalidated_proc? _ _ _ _ hp,
    Proc.invalidate_sameButLost _ _ _, Proc.invalidate_pageFault _ _ _⟩

/-- Settles O26: the first step fails the access, and the page fault loses entries only. -/
theorem denyingTlbEntryFaults : Obligations.DenyingTlbEntryFaults := by
  unfold Obligations.DenyingTlbEntryFaults
  intro s p m kind la n v k e c0 cs hp hm hw hcan hv hcs hpause hhit hk hok
  obtain ⟨v', -, hexec⟩ := exec_accessOp_runs hp hw (hm ▸ refusesAddress_of_canonical hcan)
  have hstep := accessStep_deniedHit (s := { s with choices := cs })
    (a := newAccess kind (operandAddress (some m) la) n v' p.cpl) rfl hv (by rw [hhit]; exact hk) hok
  rw [hm, accessFuel, runAccess_done hp hm hcs hpause hstep] at hexec
  obtain ⟨t, q, ht, hmem, -, htrace, hq, hlost, hkeyed⟩ :=
    takePageFault_next (s := { s with choices := cs }) hp
  exact ⟨t, q, hexec.trans ht, hmem, htrace, hq, hlost, hkeyed⟩

end Sys2Proof.Machine
end

section
/-! PROOFS. The steps of an access that are known from what its walk sees, and the software move that goes on
with an access in progress (R137). -/

namespace Sys2Proof.Machine

/-! ### Steps of a walk -/

/-- Putting the processor that is there changes nothing. -/
theorem State.setProc_self {s : State} {p : Proc} (hp : s.proc? = some p) : s.setProc p = s := by
  obtain ⟨hlt, rfl⟩ := List.getElem?_eq_some_iff.mp hp
  simp [State.setProc]

/-- A committing step to a further structure sets the accessed bit and leaves the processor with what the
choice keeps (R139, R196 to R198). -/
theorem extendedState_eq {a : Access} {c : Choice} {p : Proc} {m : PMode} {pa : PAddr} {t' : Partial}
    {s : State} (hp : s.proc? = some p) : extendedState a c p m pa t' s =
      (s.setMem (setEntryBits s.mem m pa accessedMask)).setProc
        (if c.keep then p.keepPartial m a.la t' else p) := by
  unfold extendedState
  cases hk : c.keep with
  | true => rfl
  | false =>
    exact (State.setProc_self (s := s.setMem (setEntryBits s.mem m pa accessedMask)) (by simpa using hp)).symm

/-- A committing step at an allowed leaf sets the dirty bit of a write with the accessed bit, and leaves the
processor with what the choice keeps (R142, R173). -/
theorem leafState_eq {a : Access} {c : Choice} {p : Proc} {m : PMode} {pa : PAddr} {l : Leaf} {s : State}
    (hok : allowed p.wp a.kind a.cpl l.rw l.us l.xd = true) : leafState a c p m pa l s =
      (s.setMem (setEntryBits s.mem m pa
        (if a.kind = .write then accessedDirtyMask else accessedMask))).setProc
        (p.keepLeaf m a.la (leafAfter p a.kind a.cpl l) c.keep c.keepPiece) := by
  simp only [leafState, leafWrites, leafAfter, hok, Bool.and_true, beq_iff_eq]

section
variable {a : Access} {c : Choice} {p : Proc} {m : PMode} {s : State} {t : Partial}

/-- A committing step does what the entry it sees says (R136, R139). -/
theorem accessStep_commits {seen : Seen} (hph : a.phase = .walk t false)
    (hc : (c.commit || a.mustCommit) = true) (hs : WalkSees s.config s.mem p m a.la t seen) :
    accessStep a c p m s = commitStep a c p m (entryAddress m t a.la) seen s := by
  obtain ⟨hr, hview⟩ := hs
  simp only [accessStep, hph, walkStep, hr, if_true, hview, hc, Bool.not_true, Bool.or_false,
    Bool.false_eq_true, if_false]

/-- A committing step to a further structure goes on from there (R136). -/
theorem accessStep_extend {t' : Partial} (hph : a.phase = .walk t false)
    (hc : (c.commit || a.mustCommit) = true) (hp : s.proc? = some p)
    (hs : WalkSees s.config s.mem p m a.la t (.next t')) :
    accessStep a c p m s = .more { a with phase := .walk t' false }
      ((s.setMem (setEntryBits s.mem m (entryAddress m t a.la) accessedMask)).setProc
        (if c.keep then p.keepPartial m a.la t' else p)) := by
  rw [accessStep_commits hph hc hs, ← extendedState_eq hp]
  rfl

/-- A committing step at an allowed leaf translates the access (R140, R142). -/
theorem accessStep_leaf {l : Leaf} (hph : a.phase = .walk t false) (hc : (c.commit || a.mustCommit) = true)
    (hs : WalkSees s.config s.mem p m a.la t (.leaf l))
    (hok : allowed p.wp a.kind a.cpl l.rw l.us l.xd = true) :
    accessStep a c p m s = .more { a with phase := .translated (leafAddress m l a.la) }
      ((s.setMem (setEntryBits s.mem m (entryAddress m t a.la)
        (if a.kind = .write then accessedDirtyMask else accessedMask))).setProc
        (p.keepLeaf m a.la (leafAfter p a.kind a.cpl l) c.keep c.keepPiece)) := by
  rw [accessStep_commits hph hc hs, ← leafState_eq hok]
  simp only [commitStep, leafState, leafWrites, leafAddress, hok, if_true]

end

/-! ### An access that pauses -/

section
variable {fuel : Nat} {a a' : Access} {s s' : State} {p q : Proc} {m : PMode} {c c2 : Choice}
  {cs : List Choice} {mem : Memory}

/-- A step after which the access goes on, with a choice that does not pause it (R137). -/
theorem runAccess_more (hp : s.proc? = some p) (hm : p.mode = some m) (hcs : s.choices = c :: cs)
    (hpause : c.pause = false) (hstep : accessStep a c p m { s with choices := cs } = .more a' s') :
    runAccess (fuel + 1) a s = runAccess fuel a' s' := by
  rw [runAccess, State.withProc_eq _ _ _ hp, hm, State.choice_of_cons _ _ _ hcs, hpause,
    State.drawn_of_cons _ _ _ hcs]
  simp only [Bool.and_false, Bool.false_eq_true, if_false, hstep]

/-- A choice that pauses a demand access parks it as it is (R137). -/
theorem runAccess_paused (hp : s.proc? = some p) (hm : p.mode = some m) (hcs : s.choices = c :: cs)
    (hpause : c.pause = true) (hd : a.demand = true) :
    runAccess (fuel + 1) a s =
      .next (State.setProc { s with choices := cs } { p with busy := some a }) := by
  have hp' : State.proc? { s with choices := cs } = some p := hp
  rw [runAccess, State.withProc_eq _ _ _ hp, hm, State.choice_of_cons _ _ _ hcs, hpause, hd,
    State.drawn_of_cons _ _ _ hcs]
  simp only [Bool.and_self, if_true, waitAccess, hd, State.withProc_eq _ _ _ hp']

/-- One step that changes memory and the processor, and then a pause (R137). -/
theorem runAccess_more_paused (hp : s.proc? = some p) (hm : p.mode = some m)
    (hcs : s.choices = c :: c2 :: cs) (hpause : c.pause = false) (hpause2 : c2.pause = true)
    (hq : SameButCaches q p) (hd : a'.demand = true)
    (hstep : accessStep a c p m { s with choices := c2 :: cs } =
      .more a' ((State.setMem { s with choices := c2 :: cs } mem).setProc q)) :
    runAccess (fuel + 2) a s = .next { s with
      choices := cs, mem := mem, procs := s.procs.set s.current { q with busy := some a' } } := by
  have hp' : State.proc? (State.setProc (State.setMem { s with choices := c2 :: cs } mem) q) = some q :=
    State.setProc_proc? _ _ hp
  rw [runAccess_more hp hm hcs hpause hstep,
    runAccess_paused hp' (hq.mode.trans hm) (cs := cs) rfl hpause2 hd]
  simp [State.setProc, State.setMem]

end

/-! ### An access in progress -/

/-- The state in which processor k goes on with its access in progress: the move is taken, the processor is
selected, and the access is no longer parked. -/
def State.resumed (s : State) (k : Nat) (p : Proc) (es : List Event) : State :=
  { s with schedule := es, current := k, procs := s.procs.set k { p with busy := none } }

section
variable {s : State} {k : Nat} {p : Proc} {m : PMode} {a : Access} {es : List Event}

/-- Its current processor. -/
theorem State.resumed_proc? (hp : s.procs[k]? = some p) :
    (s.resumed k p es).proc? = some { p with busy := none } :=
  State.setProc_proc? { s with schedule := es, current := k } { p with busy := none } hp

/-- The software move of a processor with an access in progress goes on with it (R137). -/
theorem step_goesOn (hs : s.schedule = .software k :: es) (hp : s.procs[k]? = some p)
    (hh : p.halted = false) (hb : p.busy = some a) :
    step s = runAccess accessFuel a (s.resumed k p es) := by
  have hp' : State.proc? { s with schedule := es, current := k } = some p := hp
  have hfetch : fetchSoftware k { s with schedule := es } =
      .goOn a { s with schedule := es, current := k } := by simp [fetchSoftware, hp, hh, hb]
  rw [step, State.event_of_cons _ _ _ hs, State.scheduled_of_cons _ _ _ hs, move, hfetch]
  exact State.withProc_eq _ _ _ hp'

/-- What a step keeps does not depend on the access in progress. -/
theorem Proc.keepPartial_withBusy (p : Proc) (m : PMode) (la : LAddr) (t : Partial) (b b' : Option Access) :
    { Proc.keepPartial { p with busy := b } m la t with busy := b' } =
      { p.keepPartial m la t with busy := b' } := by
  unfold Proc.keepPartial
  split <;> rfl

/-- What a step keeps does not depend on the access in progress. -/
theorem Proc.keepLeaf_withBusy (p : Proc) (m : PMode) (la : LAddr) (l : Leaf) (k1 k2 : Bool)
    (b b' : Option Access) :
    { Proc.keepLeaf { p with busy := b } m la l k1 k2 with busy := b' } =
      { p.keepLeaf m la l k1 k2 with busy := b' } := by
  unfold Proc.keepLeaf
  cases k1 <;> cases (k2 && l.large) <;> rfl

/-- Going on by one step that changes memory and the processor, and then a pause (R137). -/
theorem step_goesOn_paused {c c2 : Choice} {cs : List Choice} {a' : Access} {q : Proc} {mem : Memory}
    (hs : s.schedule = .software k :: es) (hp : s.procs[k]? = some p) (hh : p.halted = false)
    (hb : p.busy = some a) (hm : p.mode = some m) (hcs : s.choices = c :: c2 :: cs)
    (hpause : c.pause = false) (hpause2 : c2.pause = true)
    (hstep : accessStep a c { p with busy := none } m { s.resumed k p es with choices := c2 :: cs } =
      .more a' ((State.setMem { s.resumed k p es with choices := c2 :: cs } mem).setProc q))
    (hq : SameButCaches q { p with busy := none }) (hd : a'.demand = true) :
    step s = .next { s with
      schedule := es, current := k, choices := cs, mem := mem
      procs := s.procs.set k { q with busy := some a' } } := by
  rw [step_goesOn hs hp hh hb, accessFuel,
    runAccess_more_paused (State.resumed_proc? hp) hm hcs hpause hpause2 hq hd hstep]
  simp [State.resumed]

end

/-- An access operation is its demand access, where READ and FETCH carry no value (R151 to R153). -/
theorem exec_accessOp_eq {kind : AccessKind} {la : LAddr} {n v : Nat} {s : State} {p : Proc}
    (hp : s.proc? = some p) (hw : wellFormed (accessOp kind la n v) = true)
    (hc : refusesAddress p.mode la = false) (hv : kind ≠ .write → v = 0) :
    exec (accessOp kind la n v) s =
      runAccess accessFuel (newAccess kind (operandAddress p.mode la) n v p.cpl) s := by
  have hexec : exec (accessOp kind la n v) s = demandAccess kind la n v s := by
    cases kind with
    | write => rfl
    | read => rw [hv nofun]; rfl
    | fetch => rw [hv nofun]; rfl
  rw [hexec, demandAccess, State.withProc_eq _ _ _ hp, accessIllFormed_of_wellFormed hw]
  simp [hc, newAccess]

/-- Settles O34: each clause runs one step of the access, or two of which the second pauses it. -/
theorem pausedAccessGoesOn : Obligations.PausedAccessGoesOn := by
  unfold Obligations.PausedAccessGoesOn
  intro s k p m a c cs es hs hp hh hm hcs hd idle
  have hidle : (s.resumed k p es).proc? = some idle := State.resumed_proc? hp
  refine ⟨fun kind la n v hk hpause hw hcan hv => ?_, fun hb hpause => ?_,
    fun kind la n v hb ha hv hw hcan => ?_, fun t c2 cs2 hb hph hpause hcommit hcs2 hpause2 => ?_,
    fun pa hb hph hpause hr => ?_⟩
  · subst hk
    rw [exec_accessOp_eq hp hw (hm ▸ refusesAddress_of_canonical hcan) hv, hm, accessFuel,
      runAccess_paused hp hm hcs hpause rfl]
    rfl
  · obtain ⟨hlt, hget⟩ := List.getElem?_eq_some_iff.mp hp
    have hparked : { idle with busy := some a } = p := by rw [← hb]
    rw [step_goesOn hs hp hh hb, accessFuel, runAccess_paused hidle hm hcs hpause hd, hparked]
    simp [State.setProc, State.resumed, ← hget]
  · rw [step_goesOn hs hp hh hb, ha, ← hm]
    exact (exec_accessOp_eq (p := idle) hidle hw (hm ▸ refusesAddress_of_canonical hcan) hv).symm
  · subst hcs2
    have hcommit' : (c.commit || a.mustCommit) = true := by rw [hcommit]; rfl
    refine ⟨fun t' hsees => ?_, fun l hsees hok => ?_, fun hsees => ?_⟩
    · have hstep := accessStep_extend (s := { s.resumed k p es with choices := c2 :: cs2 }) hph hcommit'
        hidle hsees
      have hq : SameButCaches (if c.keep then idle.keepPartial m a.la t' else idle) idle := by
        split
        · exact Proc.keepPartial_sameButCaches _ _ _ _
        · exact .refl _
      rw [step_goesOn_paused hs hp hh hb hm hcs hpause hpause2 hstep hq hd]
      cases c.keep with
      | true => simp only [if_true, idle, Proc.keepPartial_withBusy]; rfl
      | false => rfl
    · have hstep := accessStep_leaf (s := { s.resumed k p es with choices := c2 :: cs2 }) (p := idle)
        hph hcommit' hsees hok
      rw [step_goesOn_paused hs hp hh hb hm hcs hpause hpause2 hstep
        (Proc.keepLeaf_sameButCaches _ _ _ _ _ _) hd, Proc.keepLeaf_withBusy]
      rfl
    · have hstep := accessStep_commits (s := { s.resumed k p es with choices := c2 :: cs2 }) (p := idle)
        hph hcommit' hsees
      rw [commitStep, failAccess, hd, if_pos rfl] at hstep
      obtain ⟨u, q, hu, hmem, hcurrent, htrace, hq, hlost, hkeyed⟩ :=
        takePageFault_next (a := a) (s := { s.resumed k p es with choices := c2 :: cs2 }) hidle
      rw [step_goesOn hs hp hh hb, accessFuel, runAccess_done hidle hm hcs hpause hstep]
      exact ⟨u, q, hu, hmem, by rw [← hq, State.proc?, hcurrent]; rfl, hlost, hkeyed, htrace⟩
  · have hstep : accessStep a c idle m { s.resumed k p es with choices := cs } =
        .done (moveData a pa { s.resumed k p es with choices := cs }) := by simp only [accessStep, hph]
    rw [step_goesOn hs hp hh hb, accessFuel, runAccess_done hidle hm hcs hpause hstep]
    by_cases hk : a.kind = .write
    · exact ⟨_, moveData_write hk hr, rfl, fun _ => ⟨rfl, rfl⟩, fun h => absurd hk h⟩
    · refine ⟨_, moveData_load hk hr, ?_, fun h => absurd h hk, fun _ => ⟨?_, readData_head _ _ _ hd⟩⟩
      · rw [readData_demand _ _ hd]; rfl
      · rw [readData_demand _ _ hd]; rfl

end Sys2Proof.Machine
end

section
/-! PROOFS. An access to whose address no stale entry applies, with the entries it has used: where the walk of
memory allows it, it comes to its data at the address of that walk's leaf (R41, R230). -/

namespace Sys2Proof.Machine

/-! ### The leaf of a walk -/

/-- The leaf that a walk sees is the entry it reads (R136). -/
theorem WalkSees.leaf_entry {cfg mem p m la t l} (h : WalkSees cfg mem p m la t (.leaf l)) :
    l.entry = entryAddress m t la := by
  obtain ⟨-, hview⟩ := h
  unfold viewEntry at hview
  split at hview
  · cases hview
  · split at hview
    · cases hview
    · split at hview
      · cases hview; rfl
      · cases hview

/-- Where no stale entry applies, every walk comes to the leaf of the walk of memory. -/
theorem OnWalk.leaf_eq {cfg mem p m la u t l l'} (h : OnWalk cfg mem p m la u t)
    (hs : WalkSees cfg mem p m la t (.leaf l')) (ha : AgreesWithMemory cfg mem p m la)
    (hW : memoryWalk cfg mem p m la = .leaf l) : l' = l := by
  have hend := h.ends ha
  obtain ⟨hr, hview⟩ := hs
  rw [memoryWalkFrom_eq t hr, hview, hW] at hend
  cases hend
  rfl

/-! ### The run -/

/-- Where the walk of memory allows the access, no step ends it but the one that moves its data, at the
address of that walk's leaf (R140). -/
theorem Agreeing.ends_moved {s0 p0 m a0 l a s q r c} (hc : s0.config.wf = true)
    (hW : .leaf l = memoryWalk s0.config s0.mem p0 m a0.la) (hv : m = .pae → p0.pdptrValid = true)
    (hd : a0.demand = true) (hok0 : allowed p0.wp a0.kind a0.cpl l.rw l.us l.xd = true)
    (h : Agreeing s0 p0 m a0 (.leaf l) a s) (hq : s.proc? = some q) (he : Ends a c q m s r) :
    a.phase = .translated (leafAddress m l a0.la) ∧ r = moveData a (leafAddress m l a0.la) s := by
  obtain ⟨q', hq', hsame, -, -⟩ := h.went.proc
  rw [hq] at hq'
  cases hq'
  obtain ⟨hkind, hla, -, -, hcpl, hdemand⟩ := h.went.fields
  have denied : ∀ {t d l'}, a.phase = .walk t d → Sees a q m t s (.leaf l') →
      allowed q.wp a.kind a.cpl l'.rw l'.us l'.xd ≠ false := fun hph hs hok => by
    obtain ⟨l'', hl, hok'⟩ := h.sees_denied hc hq hph hs hok
    cases hl
    rw [hok0] at hok'
    cases hok'
  cases he with
  | notLoaded hph hm hvalid =>
    unfold SameButCaches at hsame
    rw [hsame, hv hm] at hvalid
    cases hvalid
  | noRoot hph ht => cases startPartial_none_agrees hsame hW (hla ▸ ht)
  | deniedHit e hph hhit hok =>
    obtain ⟨l', hl, -, hrw, hus, hxd, -⟩ := (h.caches (.inr (by simp [hph])) q hq).hit (hla ▸ hhit)
    cases hl
    rw [hsame.wp, hkind, hcpl, hrw, hus, hxd, hok0] at hok
    cases hok
  | outside t d hph hr => cases h.outside hph hr
  | notPresent t d hph hs => cases h.sees hc hq hph hs
  | refused t d hph hs => cases h.sees hc hq hph hs
  | deniedDry t d l' hph hs hok => exact absurd hok (denied hph hs)
  | abortDry t d l' hph hs hd' => rw [hdemand, hd] at hd'; cases hd'
  | deniedLeaf t l' hph hs hok => exact absurd hok (denied hph hs)
  | data pa hph =>
    obtain ⟨l', hl, rfl, -, -⟩ := h.there pa hph
    cases hl
    exact ⟨hph, rfl⟩

/-- An access about to move its data at the address of l, with where it has gone and what it has used. -/
structure ReadyAt (s0 : State) (p0 : Proc) (m : PMode) (a0 : Access) (l : Leaf) (a : Access) (s : State) :
    Prop where
  agreeing : Agreeing s0 p0 m a0 (.leaf l) a s
  walking : Walking s0 p0 m a0 a s
  phase : a.phase = .translated (leafAddress m l a0.la)

/-- An uninterrupted demand access to whose address no stale entry applies, and which the walk of memory
allows, comes to its data at the address of that walk's leaf. -/
theorem runAccess_ready {a0 : Access} {s : State} {p : Proc} {m : PMode} {l : Leaf} (hinv : Inv s)
    (hp : s.proc? = some p) (hm : p.mode = some m) (hph : a0.phase = .begin) (hd : a0.demand = true)
    (hsteps : stepsLeft a0 ≤ accessFuel) (hu : Uninterrupted s)
    (ha : AgreesWithMemory s.config s.mem p m a0.la)
    (hW : memoryWalk s.config s.mem p m a0.la = .leaf l)
    (hok : allowed p.wp a0.kind a0.cpl l.rw l.us l.xd = true) :
    ∃ a s', ReadyAt s p m a0 l a s' ∧
      runAccess accessFuel a0 s = moveData a (leafAddress m l a0.la) s' := by
  have hc := hinv.config_wf
  have hgood := GoodStart.of_inv hinv hp
  have hcaches := CachesAgree.of_agreesWithMemory hgood.caches ha
  rw [hW] at hcaches
  obtain ⟨hlen, hpause⟩ := hu
  refine runAccess_completes (m := m)
    (Q := fun a s' => Agreeing s p m a0 (.leaf l) a s' ∧ Walking s p m a0 a s')
    (R := fun r => ∃ a s', ReadyAt s p m a0 l a s' ∧ r = moveData a (leafAddress m l a0.la) s')
    ?_ ?_ (fun _ _ h => ⟨h.1.drawn, h.2.drawn⟩) ?_ ?_ accessFuel a0 s
    ⟨.begin hp hph hcaches, .begin hp hph⟩ hsteps hlen hpause
  · rintro a s' ⟨h, -⟩
    obtain ⟨q, hq, hsame, -, -⟩ := h.went.proc
    exact ⟨q, hq, hsame.mode.trans hm⟩
  · rintro a s' t d ⟨h, -⟩ hph
    exact (h.walk t d hph).2.2
  · rintro a c s' q a' s'' ⟨h, hwalk⟩ hq hg
    exact ⟨h.goesOn hc hinv.mem_wf hW.symm hq hg, hwalk.goesOn hgood hq hg⟩
  · rintro a c s' q r ⟨h, hwalk⟩ hq he
    obtain ⟨hph, hr⟩ :=
      h.ends_moved hc hW.symm (fun hpae => hinv.pdptrValid hp (hpae ▸ hm)) hd hok hq he
    exact ⟨a, s', ⟨h, hwalk, hph⟩, hr⟩

/-- The same for the operation of an access. -/
theorem exec_accessOp_ready {kind : AccessKind} {la : LAddr} {n v : Nat} {s : State} {p : Proc} {m : PMode}
    {l : Leaf} (hinv : Inv s) (hp : s.proc? = some p) (hm : p.mode = some m)
    (hw : wellFormed (accessOp kind la n v) = true) (hcan : m = .ia32e → canonical la = true)
    (hu : Uninterrupted s) (ha : AgreesWithMemory s.config s.mem p m (operandAddress (some m) la))
    (hW : memoryWalk s.config s.mem p m (operandAddress (some m) la) = .leaf l)
    (hok : allowed p.wp kind p.cpl l.rw l.us l.xd = true) :
    ∃ v' a s', (kind = .write → v' = v) ∧
      ReadyAt s p m (newAccess kind (operandAddress (some m) la) n v' p.cpl) l a s' ∧
      exec (accessOp kind la n v) s = moveData a (leafAddress m l (operandAddress (some m) la)) s' := by
  obtain ⟨v', hv', hexec⟩ := exec_accessOp_runs hp hw (hm ▸ refusesAddress_of_canonical hcan)
  rw [hm] at hexec
  obtain ⟨a, s', hready, hrun⟩ := runAccess_ready
    (a0 := newAccess kind (operandAddress (some m) la) n v' p.cpl) hinv hp hm rfl rfl
    (stepsLeft_newAccess_le ..) hu ha hW hok
  exact ⟨v', a, s', hv', hready, hexec.trans hrun⟩

/-- If no TLB entry applied, the access came to the leaf of the walk of memory by marked entries. -/
theorem ReadyAt.markedLeaf {s0 p0 m a0 l a s} (h : ReadyAt s0 p0 m a0 l a s)
    (ha : AgreesWithMemory s0.config s0.mem p0 m a0.la)
    (hW : memoryWalk s0.config s0.mem p0 m a0.la = .leaf l) (hno : tlbFor p0 m a0.la = []) :
    MarkedLeaf s0.config s0.mem s.mem p0 m a0.la l := by
  obtain ⟨-, hleaf⟩ := h.walking.there _ h.phase
  obtain ⟨l', hmarked, -⟩ := hleaf hno
  obtain ⟨t, ht, hsees, -⟩ := id hmarked
  rwa [ht.leaf_eq hsees ha hW] at hmarked

/-- Settles O27: the access comes to its data as `ReadyAt` says, and then reads them. -/
theorem agreeingReadGoesWhereMemorySays : Obligations.AgreeingReadGoesWhereMemorySays := by
  unfold Obligations.AgreeingReadGoesWhereMemorySays
  intro s p m kind la n l hinv hp hm hk hw hcan hu la' pa ha hW hok hr
  obtain ⟨v', a, s', -, hready, hexec⟩ := exec_accessOp_ready hinv hp hm hw hcan hu ha hW hok
  obtain ⟨hkind, hla, hn, -, -, hdemand⟩ := hready.walking.went.fields
  have hconfig := hready.walking.went.config
  obtain ⟨q, hq, hsame, hbusy, -⟩ := hready.walking.went.proc
  have hk' : a.kind ≠ .write := hkind ▸ hk
  have hbits := hready.walking.bits (.inl hk')
  have hnew := hready.walking.entries q hq
  have hgood := GoodStart.of_inv hinv hp
  have hreaches : reaches s'.config pa a.n = true := by rw [hconfig, hn]; exact hr
  rw [moveData_load hk' hreaches, readData_demand _ _ hdemand] at hexec
  refine ⟨_, q, hexec, hq, ?_, hbits, hready.markedLeaf ha hW, hsame, hbusy, hnew, ?_⟩
  · simp only [List.head?_cons, hready.walking.went.current, hkind, hla, hn]
    rfl
  · exact hconfig ▸ hnew.agrees hgood.config hgood.caches hk hsame hbits ha

/-- Settles O28: the access comes to its data as `ReadyAt` says, and then stores them; the bits that its walk
set outside them stay. -/
theorem agreeingWriteGoesWhereMemorySays : Obligations.AgreeingWriteGoesWhereMemorySays := by
  unfold Obligations.AgreeingWriteGoesWhereMemorySays
  intro s p m la n v l hinv hp hm hw hcan hu la' pa ha hW hok hr
  obtain ⟨v', a, s', hv', hready, hexec⟩ :=
    exec_accessOp_ready (kind := .write) hinv hp hm hw hcan hu ha hW hok
  obtain rfl := hv' rfl
  obtain ⟨hkind, hla, hn, hv, -, -⟩ := hready.walking.went.fields
  obtain ⟨q, hq, hsame, hbusy, -⟩ := hready.walking.went.proc
  have hwf := (hready.walking.went.mem hinv.mem_wf).1
  have hreaches : reaches s'.config pa a.n = true := by rw [hready.walking.went.config, hn]; exact hr
  rw [moveData_write hkind hreaches, show a.n = n from hn, show a.v = v' from hv] at hexec
  have outside : ∀ b, b < pa ∨ pa + n ≤ b → (s'.mem.writeLE pa n v').read b = s'.mem.read b :=
    fun b hb => Memory.read_writeLE_other _ _ _ _ _ hb
  refine ⟨_, q, hexec, hq, hready.walking.went.trace, hsame, hbusy,
    fun j hj => Memory.read_writeLE_at _ _ _ _ _ hwf hj, fun b hb hne => ?_,
    fun hb => ⟨?_, fun hno => ?_⟩⟩
  · rw [State.setMem_mem, outside b hb]
    rcases hready.walking.writeBits hkind b with h | h | ⟨-, t, l', ht, hsees, -, rfl⟩
    · exact .inl h
    · exact .inr h
    · rw [← hsees.leaf_entry, ht.leaf_eq hsees ha hW] at hne
      exact absurd rfl hne
  · obtain ⟨l', hl, -, -, hdirty⟩ := hready.agreeing.there _ hready.phase
    cases hl
    obtain ⟨-, hleaf⟩ := hdirty hkind
    rwa [State.setMem_mem, outside _ hb]
  · obtain ⟨t, ht, hsees, haccessed⟩ := hready.markedLeaf ha hW hno
    rw [← hsees.leaf_entry] at haccessed
    unfold Accessed at haccessed ⊢
    rwa [State.setMem_mem, outside _ hb]

end Sys2Proof.Machine
end

section
/-! PROOFS. What the translation hardware does on its own: speculative accesses (R156, R403) and fills (R196 to
R199). -/

namespace Sys2Proof.Machine

/-! ### What such a move leaves -/

/-- From s0 to t the current processor p0 has walked for an address and kept entries, and no more: accessed
bits of the entries its walks use are set, the entries it has gained are made from them and agree with memory
if no stale entry applied before, and nothing else of it or of another processor has changed. -/
structure Filled (s0 : State) (p0 : Proc) (m : PMode) (la : LAddr) (kind : AccessKind) (cpl : Cpl)
    (t : State) : Prop where
  others : ∀ j, j ≠ s0.current → t.procs[j]? = s0.procs[j]?
  bits : AccessedBitsSet s0.config p0 m la s0.mem t.mem
  proc : ∃ q, t.procs[s0.current]? = some q ∧ SameButCaches q p0 ∧ q.busy = p0.busy ∧ NoneLost p0 q ∧
    NewEntries s0.config s0.mem t.mem p0 m la kind cpl q ∧
    (AgreesWithMemory s0.config s0.mem p0 m la → AgreesWithMemory t.config t.mem q m la)

/-- Nothing was done. -/
theorem Filled.of_same {s0 t : State} {p0 : Proc} (hp : s0.proc? = some p0) (m : PMode) (la : LAddr)
    (kind : AccessKind) (cpl : Cpl) (hconfig : t.config = s0.config) (hmem : t.mem = s0.mem)
    (hprocs : t.procs = s0.procs) : Filled s0 p0 m la kind cpl t := by
  refine ⟨fun j _ => by rw [hprocs], by rw [hmem]; exact .refl _ _ _ _ _, p0, by rw [hprocs]; exact hp,
    .refl p0, rfl, .refl p0, .refl _ _ _ _ _ _ _ _, ?_⟩
  rw [hconfig, hmem]
  exact id

/-- An access other than a write has done no more than that when it ends without a fault. -/
theorem Marked.filled {s0 p0 m a0 a s t} (h : Marked s0 p0 m a0 a s) (hg : GoodStart s0 p0)
    (hk : a0.kind ≠ .write) (hconfig : t.config = s.config) (hmem : t.mem = s.mem)
    (hprocs : t.procs = s.procs) : Filled s0 p0 m a0.la a0.kind a0.cpl t := by
  obtain ⟨hkind, -⟩ := h.went.fields
  obtain ⟨q, hq, hsame, hbusy, -⟩ := h.went.proc
  have hbits := h.bits (.inl (hkind ▸ hk))
  have hnew := h.entries q hq
  rw [State.proc?, h.went.current, ← hprocs] at hq
  rw [← hmem] at hbits hnew
  refine ⟨fun j hj => hprocs ▸ h.went.others j hj, hbits, q, hq, hsame, hbusy, h.went.kept q ?_, hnew,
    fun ha => ?_⟩
  · rw [State.proc?, h.went.current, ← hprocs, hq]
  · rw [hconfig, h.went.config]
    exact hnew.agrees hg.config hg.caches hk hsame hbits ha

/-- The state in which processor k's hardware makes the next move (R7). -/
def State.selected (s : State) (k : Nat) (es : List Event) : State := { s with schedule := es, current := k }

/-- It is a good start for that processor. -/
theorem Inv.selected {s : State} {k : Nat} {p : Proc} (h : Inv s) (hp : s.procs[k]? = some p)
    (es : List Event) : GoodStart (s.selected k es) p :=
  .of_inv (Inv.select (s := { s with schedule := es }) (h.congr rfl rfl rfl rfl) hp) hp

/-! ### Speculative accesses -/

/-- The event that a speculative access can deliver: the side effect of its read, at an address to which the
processor may translate it (R156, R462). -/
def DeliversAtMostSideEffect (s0 : State) (p0 : Proc) (m : PMode) (la : LAddr) (kind : AccessKind)
    (cpl : Cpl) (n : Nat) (t : State) : Prop :=
  t.trace = s0.trace ∨ ∃ pa : PAddr, TranslatesTo s0.config s0.mem p0 m la kind cpl pa ∧
    touchesSideEffect s0.config pa.toNat n = true ∧
    t.trace = .sideEffect s0.current pa.toNat n :: s0.trace

/-- A speculative read discards its value; its side effect happens (R156, R462). -/
theorem readData_speculative {a : Access} (pa : PAddr) (s : State) (hd : a.demand = false) :
    readData a pa s = if touchesSideEffect s.config pa.toNat a.n then
      s.report (.sideEffect s.current pa.toNat a.n) else s := by
  simp [readData, hd]

/-- Every next state of a speculative access (R156, R403). -/
theorem MarkedEnd.speculated {s0 p0 m a0 r t} (h : MarkedEnd s0 p0 m a0 r) (hg : GoodStart s0 p0)
    (hk : a0.kind ≠ .write) (hd : a0.demand = false) (ht : r = .next t) :
    Filled s0 p0 m a0.la a0.kind a0.cpl t ∧
      DeliversAtMostSideEffect s0 p0 m a0.la a0.kind a0.cpl a0.n t := by
  have quiet : ∀ {a s}, Marked s0 p0 m a0 a s → t = s →
      Filled s0 p0 m a0.la a0.kind a0.cpl t ∧
      DeliversAtMostSideEffect s0 p0 m a0.la a0.kind a0.cpl a0.n t := by
    rintro a s hs rfl
    exact ⟨hs.filled hg hk rfl rfl rfl, .inl hs.went.trace⟩
  cases h with
  | stop _ h => exact absurd ht (h t)
  | failed a s h hph =>
    obtain ⟨-, -, -, -, -, hdemand⟩ := h.went.fields
    obtain ⟨p, hp, -⟩ := h.went.proc
    rcases failAccess_next _ _ _ _ hp ht with ⟨-, rfl⟩ | ⟨hd', -⟩
    · exact quiet h rfl
    · rw [hdemand, hd] at hd'; cases hd'
  | aborted a s h => cases ht; exact quiet h rfl
  | waits a s h =>
    obtain ⟨-, -, -, -, -, hdemand⟩ := h.went.fields
    obtain ⟨p, hp, -⟩ := h.went.proc
    rcases waitAccess_next _ _ _ _ hp ht with ⟨-, rfl⟩ | ⟨hd', -⟩
    · exact quiet h rfl
    · rw [hdemand, hd] at hd'; cases hd'
  | moved a s pa h hph =>
    obtain ⟨hkind, -, hn, -, -, hdemand⟩ := h.went.fields
    have hr := moveData_reaches ht
    rw [moveData_load (hkind ▸ hk) hr, readData_speculative _ _ (hdemand.trans hd)] at ht
    split at ht
    · rename_i hside
      cases ht
      refine ⟨h.toMarked.filled hg hk rfl rfl rfl, .inr ⟨pa, (h.there pa hph).1, ?_, ?_⟩⟩
      · rw [← h.went.config, ← hn]; exact hside
      · rw [State.report_trace, h.went.current, h.went.trace, hn]
    · cases ht
      exact quiet h.toMarked rfl

section
variable {s t : State} {k : Nat} {p : Proc} {la : LAddr} {es : List Event} {kind : AccessKind} {cpl : Cpl}
  {n : Nat}

/-- A processor that does not exist speculates nothing. -/
theorem step_speculate_none (hs : s.schedule = .speculate k la kind cpl n :: es)
    (hp : s.procs[k]? = none) : step s = .next { s with schedule := es } := by
  rw [step, State.event_of_cons _ _ _ hs, State.scheduled_of_cons _ _ _ hs]
  simp [move, speculativeAccess, hp]

/-- A speculative move is a read or fetch of its mode's address within a page, or is not taken (R156). -/
theorem step_speculate (hs : s.schedule = .speculate k la kind cpl n :: es) (hp : s.procs[k]? = some p) :
    step s = if p.mode == none || kind == .write || refusesAddress p.mode la ||
        accessIllFormed la n != none then .next { s with schedule := es }
      else runAccess accessFuel (speculation p la kind cpl n) (s.selected k es) := by
  rw [step, State.event_of_cons _ _ _ hs, State.scheduled_of_cons _ _ _ hs]
  simp only [move, speculativeAccess, hp]
  rfl

/-- What a speculative move leaves. -/
theorem step_speculated (hinv : Inv s) (hs : s.schedule = .speculate k la kind cpl n :: es)
    (hp : s.procs[k]? = some p) (ht : step s = .next t) :
    (p.mode = none → t = { s with schedule := es }) ∧ ∀ m, p.mode = some m →
      Filled (s.selected k es) p m (operandAddress (some m) la) kind cpl t ∧
      DeliversAtMostSideEffect (s.selected k es) p m (operandAddress (some m) la) kind cpl n t := by
  rw [step_speculate hs hp] at ht
  split at ht
  · cases ht
    exact ⟨fun _ => rfl, fun m _ => ⟨.of_same (s0 := s.selected k es) hp _ _ _ _ rfl rfl rfl, .inl rfl⟩⟩
  · rename_i hcond
    simp only [Bool.or_eq_true, not_or, beq_iff_eq] at hcond
    obtain ⟨⟨⟨hmode, hk⟩, -⟩, -⟩ := hcond
    refine ⟨fun hm => absurd hm hmode, fun m hm => ?_⟩
    have hgood := hinv.selected hp es
    have hend := runAccess_marked (a0 := speculation p la kind cpl n) hgood hp hm rfl accessFuel
    rw [← hm]
    exact hend.speculated hgood hk rfl ht

end

/-- Settles O36: a speculative move is not taken, or is an access that ends without a fault. -/
theorem speculationOnlySetsAccessedBits : Obligations.SpeculationOnlySetsAccessedBits := by
  unfold Obligations.SpeculationOnlySetsAccessedBits
  intro s t k la kind cpl n es hinv hs ht
  cases hp : s.procs[k]? with
  | none =>
    rw [step_speculate_none hs hp] at ht
    cases ht
    exact ⟨fun _ _ => rfl, fun _ => rfl, fun _ h => nomatch h⟩
  | some p =>
    obtain ⟨hoff, hon⟩ := step_speculated hinv hs hp ht
    refine ⟨fun j hj => ?_, by simp, ?_⟩
    · cases hm : p.mode with
      | none => rw [hoff hm]
      | some m => exact (hon m hm).1.others j hj
    · rintro p' ⟨⟩
      refine ⟨hoff, fun m hm => ?_⟩
      obtain ⟨hfilled, hevent⟩ := hon m hm
      exact ⟨hfilled.bits, hevent, hfilled.proc⟩

/-! ### Fills -/

section
variable {s t : State} {k : Nat} {p : Proc} {m : PMode} {la : LAddr} {es : List Event} {steps : Nat}

/-- A processor that does not exist fills nothing. -/
theorem step_fill_none (hs : s.schedule = .fill k la steps :: es) (hp : s.procs[k]? = none) :
    step s = .next { s with schedule := es } := by
  rw [step, State.event_of_cons _ _ _ hs, State.scheduled_of_cons _ _ _ hs]
  simp [move, fillCaches, hp]

/-- A fill is a walk for an address of its mode, or is not taken (R199). -/
theorem step_fill (hs : s.schedule = .fill k la steps :: es) (hp : s.procs[k]? = some p) :
    step s = if p.mode == none || refusesAddress p.mode la then .next { s with schedule := es }
      else fillWalk steps (fillAccess p la) (s.selected k es) := by
  rw [step, State.event_of_cons _ _ _ hs, State.scheduled_of_cons _ _ _ hs]
  simp only [move, fillCaches, hp]
  rfl

/-- What a fill leaves. -/
theorem step_filled (hinv : Inv s) (hs : s.schedule = .fill k la steps :: es) (hp : s.procs[k]? = some p)
    (ht : step s = .next t) : t.trace = s.trace ∧ (p.mode = none → t = { s with schedule := es }) ∧
      ∀ m, p.mode = some m → Filled (s.selected k es) p m (operandAddress (some m) la) .read 0 t := by
  rw [step_fill hs hp] at ht
  split at ht
  · cases ht
    exact ⟨rfl, fun _ => rfl, fun m _ => .of_same (s0 := s.selected k es) hp _ _ _ _ rfl rfl rfl⟩
  · rename_i hcond
    simp only [Bool.or_eq_true, not_or, beq_iff_eq] at hcond
    obtain ⟨m, hm⟩ := Option.ne_none_iff_exists'.mp hcond.1
    have hgood := hinv.selected hp es
    obtain ⟨a, hmarked⟩ := fillWalk_marked (a0 := fillAccess p la) hgood hp hm rfl rfl steps t ht
    refine ⟨hmarked.went.trace, fun hoff => absurd hoff hcond.1, fun m' hm' => ?_⟩
    rw [← hm']
    cases hm.symm.trans hm'
    exact hmarked.filled hgood nofun rfl rfl rfl

/-- Without a TLB entry chosen a fill starts its walk (R150). -/
theorem accessStep_starts {a : Access} {c : Choice} {s : State} {t : Partial} (hph : a.phase = .begin)
    (hv : m = .pae → p.pdptrValid = true) (hhit : c.hit = none)
    (ht : startPartial p m a.la c.start = some t) :
    accessStep a c p m s = .more { a with phase := .walk t false } s := by
  rw [accessStep_begin hph hv]
  simp [beginStep, hhit, chosenHit, ht]

/-- A step of a fill after which it has a further partial translation (R199). -/
theorem fillWalk_walks {a a' : Access} {s s' : State} {c : Choice} {cs : List Choice} {t : Partial}
    {d : Bool} (hp : s.proc? = some p) (hm : p.mode = some m) (hcs : s.choices = c :: cs)
    (hstep : accessStep a c p m { s with choices := cs } = .more a' s') (hph : a'.phase = .walk t d) :
    fillWalk (steps + 1) a s = fillWalk steps a' s' := by
  rw [fillWalk, State.withProc_eq _ _ _ hp, hm, State.choice_of_cons _ _ _ hcs,
    State.drawn_of_cons _ _ _ hcs]
  simp only [hstep, hph]

/-- A step of a fill after which it has a physical address (R199). -/
theorem fillWalk_translates {a a' : Access} {s s' : State} {c : Choice} {cs : List Choice} {pa : PAddr}
    (hp : s.proc? = some p) (hm : p.mode = some m) (hcs : s.choices = c :: cs)
    (hstep : accessStep a c p m { s with choices := cs } = .more a' s') (hph : a'.phase = .translated pa) :
    fillWalk (steps + 1) a s = .next s' := by
  rw [fillWalk, State.withProc_eq _ _ _ hp, hm, State.choice_of_cons _ _ _ hcs,
    State.drawn_of_cons _ _ _ hcs]
  simp only [hstep, hph]

/-- A read at CPL 0 is allowed whatever the rights (R141, R172). -/
theorem allowed_read_supervisor (wp rw us xd : Bool) : allowed wp .read 0 rw us xd = true := by
  simp [allowed, denied]

/-- An access other than a write leaves the leaf's dirty indication (R142). -/
theorem leafAfter_of_not_write {kind : AccessKind} (hk : kind ≠ .write) (p : Proc) (cpl : Cpl) (l : Leaf) :
    leafAfter p kind cpl l = l := by
  have hwrite : (kind == .write) = false := beq_eq_false_iff_ne.mpr hk
  simp only [leafAfter, hwrite, Bool.false_and, Bool.or_false]

/-- The last step of a fill, to a further structure (R196 to R199). -/
theorem fillWalk_extends {a : Access} {c : Choice} {cs : List Choice} {t t' : Partial}
    (hph : a.phase = .walk t false) (hcommit : a.mustCommit = true) (hp : s.proc? = some p)
    (hm : p.mode = some m) (hcs : s.choices = c :: cs)
    (hs : WalkSees s.config s.mem p m a.la t (.next t')) :
    fillWalk 1 a s = .next ((State.setMem { s with choices := cs }
      (setEntryBits s.mem m (entryAddress m t a.la) accessedMask)).setProc
        (if c.keep then p.keepPartial m a.la t' else p)) := by
  have hstep := accessStep_extend (s := { s with choices := cs }) (c := c) hph
    (by rw [hcommit, Bool.or_true]) hp hs
  exact fillWalk_walks hp hm hcs hstep rfl

/-- The last step of a fill, to a leaf (R173, R199). -/
theorem fillWalk_leaf {a : Access} {c : Choice} {cs : List Choice} {t : Partial} {l : Leaf}
    (hph : a.phase = .walk t false) (hcommit : a.mustCommit = true) (hkind : a.kind = .read)
    (hcpl : a.cpl = 0) (hp : s.proc? = some p) (hm : p.mode = some m) (hcs : s.choices = c :: cs)
    (hs : WalkSees s.config s.mem p m a.la t (.leaf l)) :
    fillWalk 1 a s = .next ((State.setMem { s with choices := cs }
      (setEntryBits s.mem m (entryAddress m t a.la) accessedMask)).setProc
        (p.keepLeaf m a.la l c.keep c.keepPiece)) := by
  have hok : allowed p.wp a.kind a.cpl l.rw l.us l.xd = true := by
    rw [hkind, hcpl]
    exact allowed_read_supervisor _ _ _ _
  have hnot : a.kind ≠ .write := by simp [hkind]
  have hstep := accessStep_leaf (s := { s with choices := cs }) (c := c) hph
    (by rw [hcommit, Bool.or_true]) hs hok
  rw [leafAfter_of_not_write hnot, if_neg hnot] at hstep
  exact fillWalk_translates hp hm hcs hstep rfl

/-- A fill of two steps starts its walk with the first (R199). -/
theorem step_fill_two {c0 : Choice} {cs : List Choice} {t : Partial} (hinv : Inv s)
    (hs : s.schedule = .fill k la 2 :: es) (hp : s.procs[k]? = some p) (hm : p.mode = some m)
    (hcan : m = .ia32e → canonical la = true) (hcs : s.choices = c0 :: cs) (hhit : c0.hit = none)
    (ht : startPartial p m (operandAddress (some m) la) c0.start = some t) :
    ∃ a, a.phase = .walk t false ∧ a.mustCommit = true ∧ a.kind = .read ∧ a.cpl = 0 ∧
      a.la = operandAddress (some m) la ∧
      step s = fillWalk 1 a { s.selected k es with choices := cs } := by
  have hc : (p.mode == none || refusesAddress p.mode la) = false := by
    rw [hm, refusesAddress_of_canonical hcan]
    rfl
  have hp' : (s.selected k es).proc? = some p := hp
  have hv : m = .pae → p.pdptrValid = true := fun hpae =>
    Inv.pdptrValid (s := s.selected k es)
      (Inv.select (s := { s with schedule := es }) (hinv.congr rfl rfl rfl rfl) hp) hp' (hpae ▸ hm)
  rw [← hm] at ht
  have hstart := accessStep_starts (a := fillAccess p la)
    (s := { s.selected k es with choices := cs }) rfl hv hhit ht
  refine ⟨{ fillAccess p la with phase := .walk t false }, rfl, rfl, rfl, rfl, by rw [← hm]; rfl, ?_⟩
  rw [step_fill hs hp, hc, if_neg Bool.false_ne_true, fillWalk_walks hp' hm hcs hstart rfl]

end

/-- Settles O37: a fill is not taken, or is a walk that ends without a fault; its one step sets the accessed
bit and keeps what the choice says. -/
theorem fillOnlySetsAccessedBits : Obligations.FillOnlySetsAccessedBits := by
  unfold Obligations.FillOnlySetsAccessedBits
  constructor
  · intro s t k la steps es hinv hs ht
    cases hp : s.procs[k]? with
    | none =>
      rw [step_fill_none hs hp] at ht
      cases ht
      exact ⟨rfl, fun _ _ => rfl, fun _ => rfl, fun _ h => nomatch h⟩
    | some p =>
      obtain ⟨htrace, hoff, hon⟩ := step_filled hinv hs hp ht
      refine ⟨htrace, fun j hj => ?_, by simp, ?_⟩
      · cases hm : p.mode with
        | none => rw [hoff hm]
        | some m => exact (hon m hm).others j hj
      · rintro p' ⟨⟩
        exact ⟨hoff, fun m hm => ⟨(hon m hm).bits, (hon m hm).proc⟩⟩
  · intro s k p m la t c0 c1 cs es hinv hs hp hm hcan hcs hhit la' a ht
    have hset := setEntryBits_accessed s.mem m a accessedMask hinv.mem_wf (.inl rfl)
    obtain ⟨walk, hph, hcommit, hkind, hcpl, hla, hstep⟩ :=
      step_fill_two hinv hs hp hm hcan hcs hhit ht
    replace hla : walk.la = la' := hla
    have hp' : State.proc? { s.selected k es with choices := c1 :: cs } = some p := hp
    refine ⟨fun t' hsees => ?_, fun l hsees => ?_⟩
    · have hrun := fillWalk_extends hph hcommit hp' hm rfl (hla.symm ▸ hsees)
      rw [hla] at hrun
      exact ⟨_, hstep.trans hrun, hset, rfl, rfl⟩
    · have hrun := fillWalk_leaf hph hcommit hkind hcpl hp' hm rfl (hla.symm ▸ hsees)
      rw [hla] at hrun
      exact ⟨_, hstep.trans hrun, hset, rfl, rfl⟩

end Sys2Proof.Machine
end

section
/-! PROOFS. Accesses translated by a TLB entry (family 41): an entry that may complete the access gives it its
physical address at its first step (R174), and one that may not complete a write leaves it to walk (R177). -/

namespace Sys2Proof.Machine

/-! ### The steps of an access with a TLB entry chosen -/

section
variable {a : Access} {c : Choice} {p : Proc} {m : PMode} {s : State} {e : TlbEntry}

/-- A TLB entry that allows the access translates it, a write only if its dirty indication is 1 (R150 path A,
R174, R177). -/
theorem accessStep_hit (hph : a.phase = .begin) (hv : m = .pae → p.pdptrValid = true)
    (he : chosenHit p m a.la c.hit = some e) (hok : allowed p.wp a.kind a.cpl e.rw e.us e.xd = true)
    (hd : a.kind = .write → e.dirty = true) :
    accessStep a c p m s =
      .more { a with phase := .translated (frameAddress m e.kind e.frame a.la) } s := by
  have completes : (a.kind == .write && !e.dirty) = false := by
    simpa only [Bool.and_eq_false_imp, beq_iff_eq, Bool.not_eq_false'] using hd
  rw [accessStep_begin hph hv]
  simp [beginStep, he, hok, completes]

/-- A translated access moves its data (R151 to R153). -/
theorem accessStep_translated {pa : PAddr} (hph : a.phase = .translated pa) :
    accessStep a c p m s = .done (moveData a pa s) := by
  simp only [accessStep, hph]

/-- A TLB entry that allows a write but whose dirty indication is 0 is as good as none (R177, D15). -/
theorem beginStep_cleanHit (hk : a.kind = .write) (he : chosenHit p m a.la c.hit = some e)
    (hok : allowed p.wp .write a.cpl e.rw e.us e.xd = true) (hd : e.dirty = false) :
    beginStep a c p m s = beginStep a { c with hit := none } p m s := by
  have noHit : chosenHit p m a.la none = none := rfl
  simp [beginStep, he, noHit, hok, hd, hk]

/-- The same for the step, PDPTR registers loaded or not. -/
theorem accessStep_cleanHit (hph : a.phase = .begin) (hk : a.kind = .write)
    (he : chosenHit p m a.la c.hit = some e) (hok : allowed p.wp .write a.cpl e.rw e.us e.xd = true)
    (hd : e.dirty = false) : accessStep a c p m s = accessStep a { c with hit := none } p m s := by
  simp only [accessStep, hph, beginStep_cleanHit hk he hok hd]

end

/-! ### The run -/

/-- An access that its first step translates moves its data with the second. -/
theorem runAccess_translated {fuel : Nat} {a : Access} {s : State} {p : Proc} {m : PMode} {c0 c1 : Choice}
    {cs : List Choice} {pa : PAddr} (hp : s.proc? = some p) (hm : p.mode = some m)
    (hcs : s.choices = c0 :: c1 :: cs) (hpause0 : c0.pause = false) (hpause1 : c1.pause = false)
    (hstep : accessStep a c0 p m { s with choices := c1 :: cs } =
      .more { a with phase := .translated pa } { s with choices := c1 :: cs }) :
    runAccess (fuel + 2) a s =
      moveData { a with phase := .translated pa } pa { s with choices := cs } := by
  have hp' : State.proc? { s with choices := c1 :: cs } = some p := hp
  rw [runAccess_more hp hm hcs hpause0 hstep,
    runAccess_done hp' hm rfl hpause1 (accessStep_translated rfl)]

section
variable {kind : AccessKind} {la : LAddr} {n v k : Nat} {s : State} {p : Proc} {m : PMode} {e : TlbEntry}
  {c0 c1 : Choice} {cs : List Choice}
  (hp : s.proc? = some p) (hm : p.mode = some m) (hcan : m = .ia32e → canonical la = true)
  (hv : m = .pae → p.pdptrValid = true) (hcs : s.choices = c0 :: c1 :: cs) (hpause0 : c0.pause = false)
  (hpause1 : c1.pause = false) (hhit : c0.hit = some k)
  (he : (tlbFor p m (operandAddress (some m) la))[k]? = some e)
  (hok : allowed p.wp kind p.cpl e.rw e.us e.xd = true)
include hp hm hcan hv hcs hpause0 hpause1 hhit he hok

/-- An access operation that a TLB entry may complete moves its data at the entry's frame, with two choices
drawn and nothing else done. -/
theorem exec_accessOp_hit (hw : wellFormed (accessOp kind la n v) = true)
    (hd : kind = .write → e.dirty = true) (hvalue : kind ≠ .write → v = 0) :
    exec (accessOp kind la n v) s =
      moveData { newAccess kind (operandAddress (some m) la) n v p.cpl with
          phase := .translated (frameAddress m e.kind e.frame (operandAddress (some m) la)) }
        (frameAddress m e.kind e.frame (operandAddress (some m) la)) { s with choices := cs } := by
  have hstep := accessStep_hit (s := { s with choices := c1 :: cs })
    (a := newAccess kind (operandAddress (some m) la) n v p.cpl) rfl hv (by rw [hhit]; exact he) hok hd
  rw [exec_accessOp_eq hp hw (hm ▸ refusesAddress_of_canonical hcan) hvalue, hm, accessFuel,
    runAccess_translated hp hm hcs hpause0 hpause1 hstep]
  rfl

/-- A READ or FETCH of populated bytes without read side effects that a TLB entry allows returns them. -/
theorem exec_load_hit (hk : kind ≠ .write) (hw : wellFormed (accessOp kind la n 0) = true)
    (hr : reaches s.config (frameAddress m e.kind e.frame (operandAddress (some m) la)).toNat n = true)
    (hside : touchesSideEffect s.config
      (frameAddress m e.kind e.frame (operandAddress (some m) la)).toNat n = false) :
    exec (accessOp kind la n 0) s = .next { s with
      choices := cs
      trace := .value s.current kind (operandAddress (some m) la) n
        (s.mem.readLE (frameAddress m e.kind e.frame (operandAddress (some m) la)).toNat n) :: s.trace } := by
  rw [exec_accessOp_hit hp hm hcan hv hcs hpause0 hpause1 hhit he hok hw (absurd · hk) (fun _ => rfl),
    moveData_load hk hr, readData_demand _ _ rfl]
  simp only [newAccess, hside, Bool.false_eq_true, if_false]

end

/-- Settles O23: a READ and a FETCH are one case each of the load that a TLB entry allows. -/
theorem tlbEntryTranslatesReads : Obligations.TlbEntryTranslatesReads := by
  unfold Obligations.TlbEntryTranslatesReads
  intro s p m la n k e c0 c1 cs hp hm hw hcan hv hcs hpause0 hpause1 hhit he la' pa hr hside
  have load (kind : AccessKind) (hok : allowed p.wp kind p.cpl e.rw e.us e.xd = true) :=
    exec_load_hit (n := n) hp hm hcan hv hcs hpause0 hpause1 hhit he hok
  exact ⟨fun hok => load .read hok nofun hw hr hside, fun hok => load .fetch hok nofun hw hr hside⟩

/-- Settles O24: the WRITE stores the bytes of its value at the entry's frame, and nowhere else. -/
theorem dirtyTlbEntryTranslatesWrites : Obligations.DirtyTlbEntryTranslatesWrites := by
  unfold Obligations.DirtyTlbEntryTranslatesWrites
  intro s p m la n v k e c0 c1 cs hp hm hw hcan hv hcs hpause0 hpause1 hhit he hd hwf hok pa hr
  refine ⟨s.mem.writeLE pa n v, ?_, fun j hj => Memory.read_writeLE_at _ _ _ _ _ hwf hj,
    fun b hb => Memory.read_writeLE_other _ _ _ _ _ hb⟩
  have hexec := exec_accessOp_hit (kind := .write) hp hm hcan hv hcs hpause0 hpause1 hhit he hok
    hw (fun _ => hd) (absurd rfl)
  exact hexec.trans (moveData_write rfl hr)

/-! ### A write that its entry cannot complete -/

/-- A first choice that pauses as another does and by which the access takes the same step leads to the same
run. -/
theorem runAccess_firstChoice {fuel : Nat} {a : Access} {s : State} {p : Proc} {m : PMode}
    {c c' : Choice} {cs : List Choice} (hp : s.proc? = some p) (hm : p.mode = some m)
    (hcs : s.choices = c :: cs) (hpause : c'.pause = c.pause)
    (hstep : accessStep a c p m { s with choices := cs } =
      accessStep a c' p m { s with choices := cs }) :
    runAccess (fuel + 1) a s = runAccess (fuel + 1) a { s with choices := c' :: cs } := by
  have hp' : State.proc? { s with choices := c' :: cs } = some p := hp
  rw [runAccess, runAccess, State.withProc_eq _ _ _ hp, State.withProc_eq _ _ _ hp',
    State.choice_of_cons _ _ _ hcs, State.drawn_of_cons _ _ _ hcs, State.choice_of_cons _ c' cs rfl,
    State.drawn_of_cons _ c' cs rfl, hpause, hm]
  simp only [hstep]

/-- Where the access runs alike from two states with the same current processor, so does its operation, also
where it is refused. -/
theorem demandAccess_congr {kind : AccessKind} {la : LAddr} {n v : Nat} {s s' : State} {p : Proc}
    (hp : s.proc? = some p) (hp' : s'.proc? = some p)
    (hrun : runAccess accessFuel (newAccess kind (operandAddress p.mode la) n v p.cpl) s =
      runAccess accessFuel (newAccess kind (operandAddress p.mode la) n v p.cpl) s') :
    demandAccess kind la n v s = demandAccess kind la n v s' := by
  unfold newAccess at hrun
  simp only [demandAccess, State.withProc_eq _ _ _ hp, State.withProc_eq _ _ _ hp', hrun]

/-- Settles O25: the entry matters to the first step only, and that step is the one with no entry chosen. -/
theorem cleanTlbEntryMakesWritesWalk : Obligations.CleanTlbEntryMakesWritesWalk := by
  unfold Obligations.CleanTlbEntryMakesWritesWalk
  intro s p m la n v k e c0 cs hp hm hcs hhit he hd hok
  refine demandAccess_congr hp hp (runAccess_firstChoice hp hm hcs rfl ?_)
  exact accessStep_cleanHit rfl rfl (by rw [hm, hhit]; exact he) hok hd

end Sys2Proof.Machine
end

section
/-! PROOFS. The keys of the TLBs and the paging-structure caches as bit ranges of the linear address
(family 42). -/

namespace Sys2Proof.Machine

/-- The bits of a linear address from bit i on, as a number. -/
theorem toNat_addressBits (la : LAddr) (i w : Nat) :
    (la.extractLsb' i w).toNat = la.toNat / 2 ^ i % 2 ^ w := by
  rw [BitVec.extractLsb'_toNat, Nat.shiftRight_eq_div_pow]

/-- The index of the PML4 cache: bits 47:39 (R208). -/
theorem pml4Key_toNat (la : LAddr) : (pml4Key la).toNat = la.toNat / 2 ^ 39 % 2 ^ 9 :=
  toNat_addressBits la 39 9

/-- The index of the PDP cache: bits 47:30 (R208). -/
theorem pdpKey_toNat (la : LAddr) : (pdpKey la).toNat = la.toNat / 2 ^ 30 % 2 ^ 18 :=
  toNat_addressBits la 30 18

/-- The index of the PDE cache: bits 47:21, in PAE mode 31:21, in 32-bit paging 31:22 (R208). The keys of the
last two are narrower than the field that holds them, so nothing of them is cut off. -/
theorem pdeKey_toNat (m : PMode) (la : LAddr) :
    (pdeKey m la).toNat = match m with
      | .ia32e => la.toNat / 2 ^ 21 % 2 ^ 27
      | .pae => la.toNat / 2 ^ 21 % 2 ^ 11
      | .legacy32 => la.toNat / 2 ^ 22 % 2 ^ 10 := by
  cases m with
  | ia32e => exact toNat_addressBits la 21 27
  | pae => rw [pdeKey, BitVec.toNat_setWidth_of_le (by omega), toNat_addressBits]
  | legacy32 => rw [pdeKey, BitVec.toNat_setWidth_of_le (by omega), toNat_addressBits]

/-- The index of a 4-KByte page in the TLB: bits 47:12, in the 32-bit modes 31:12 (R208). -/
theorem pageNumber_toNat (m : PMode) (la : LAddr) :
    (pageNumber m la).toNat = match m with
      | .ia32e => la.toNat / 2 ^ 12 % 2 ^ 36
      | .pae => la.toNat / 2 ^ 12 % 2 ^ 20
      | .legacy32 => la.toNat / 2 ^ 12 % 2 ^ 20 := by
  cases m with
  | ia32e => exact toNat_addressBits la 12 36
  | pae => exact toNat_key la 12 20 (by omega)
  | legacy32 => exact toNat_key la 12 20 (by omega)

/-- Settles O57: each index, mode by mode, is its bit range as a number. -/
theorem cacheIndexBits : Obligations.CacheIndexBits := by
  unfold Obligations.CacheIndexBits
  intro la
  exact ⟨pml4Key_toNat la, pdpKey_toNat la,
    pdeKey_toNat .ia32e la, pdeKey_toNat .pae la, pdeKey_toNat .legacy32 la,
    pageNumber_toNat .ia32e la, pageNumber_toNat .pae la, pageNumber_toNat .legacy32 la,
    pdptrIndex_toNat la⟩

end Sys2Proof.Machine
end

section
/-! PROOFS. Removals (family 43): which entries a choice removes besides the required ones, and what INVLPG
and the spontaneous invalidation leave. -/

namespace Sys2Proof.Machine

/-! ### The choice that removes given entries -/

/-- The mask by which the entries of a set that `more` names go besides the required ones (R234). -/
def removalMask {α : Type} (more : α → Bool) : List α → Nat
  | [] => 0
  | e :: rest => (more e).toNat + 2 * removalMask more rest

/-- By that mask exactly the required entries and those that `more` names go. -/
theorem removeWhere_removalMask {α : Type} (req more : α → Bool) (l : List α) :
    removeWhere req (removalMask more l) l = l.filter fun e => !(req e || more e) := by
  induction l with
  | nil => rfl
  | cons e rest ih =>
    have hbit : (removalMask more (e :: rest) % 2 == 1) = more e := by
      cases h : more e <;> simp [removalMask, h, Nat.add_mod]
    have hrest : removalMask more (e :: rest) / 2 = removalMask more rest := by
      cases h : more e <;> simp only [removalMask, h, Bool.toNat_true, Bool.toNat_false] <;> omega
    rw [removeWhere, hbit, hrest, ih, List.filter_cons]
    cases req e || more e <;> rfl

/-- The removal by which the entries of p that `more` names go besides the required ones. -/
def Proc.removal (p : Proc) (more : Req) : Removal :=
  ⟨removalMask more.tlb p.tlb, removalMask more.pml4c p.pml4c, removalMask more.pdpc p.pdpc,
    removalMask more.pdec p.pdec⟩

/-- By that removal an invalidation takes exactly the required entries and those that `more` names (R234). -/
theorem Proc.invalidate_removal (p : Proc) (req more : Req) :
    p.invalidate req (p.removal more) = p.without (req.or more) := by
  simp only [Proc.invalidate, Proc.removal, removeWhere_removalMask]
  rfl

/-- With nothing required and nothing more chosen, nothing goes (R235). -/
theorem Proc.invalidate_nothing (p : Proc) : p.invalidate Req.nothing ⟨0, 0, 0, 0⟩ = p := by
  simp [Proc.invalidate, Req.nothing, removeWhere_zero]

/-- A choice that is fixed in advance is the one an invalidation makes (R234). -/
theorem State.invalidated_of_cons {s : State} {c : Choice} {cs : List Choice} (h : s.choices = c :: cs)
    (p : Proc) (req : Req) : s.invalidated p req =
      { s with choices := cs, procs := s.procs.set s.current (p.invalidate req c.extra) } := by
  rw [State.invalidated, State.drawn_of_cons _ _ _ h, State.choice_of_cons _ _ _ h]
  rfl

/-! ### Spontaneous invalidation -/

/-- A spontaneous invalidation of processor k requires nothing and takes what the move says (R241). -/
theorem step_drop {s : State} {k : Nat} {p : Proc} {which : Removal} {es : List Event}
    (hs : s.schedule = .drop k which :: es) (hp : s.procs[k]? = some p) :
    step s = .next
      { s with schedule := es, procs := s.procs.set k (p.invalidate Req.nothing which) } := by
  rw [step, State.event_of_cons _ _ _ hs, State.scheduled_of_cons _ _ _ hs]
  simp [move, dropEntries, hp]

/-- Settles O38: the move is an invalidation, and an invalidation only loses entries. -/
theorem spontaneousInvalidationOnlyRemoves : Obligations.SpontaneousInvalidationOnlyRemoves := by
  unfold Obligations.SpontaneousInvalidationOnlyRemoves
  intro s k p which es hs hp
  exact ⟨_, step_drop hs hp, Proc.invalidate_sameButLost _ _ _⟩

/-! ### INVLPG -/

/-- An address that is canonical in IA-32e mode is refused in no mode, nor with paging off (R133). -/
theorem refusesAddress_eq_false {mode : Option PMode} {la : LAddr}
    (h : mode = some .ia32e → canonical la = true) : refusesAddress mode la = false := by
  cases mode with
  | none => rfl
  | some m => exact refusesAddress_of_canonical fun hm => h (hm ▸ rfl)

section
variable {s : State} {p : Proc} {la : LAddr} (hp : s.proc? = some p) (hcpl : p.cpl = 0)
include hp hcpl

/-- INVLPG at CPL 0 of an address of the mode completes: it is an invalidation and no more (R231, D39). -/
theorem exec_invlpg (hc : p.mode = some .ia32e → canonical la = true) (md : BitVec 2) (rm : BitVec 3)
    (tail : Tail) :
    exec (.invlpg md rm tail la) s = .next (s.invalidated p (invlpgReq s.config p la)) := by
  refine (State.privileged_eq _ _ _ hp hcpl).trans ?_
  simp [refusesAddress_eq_false hc]

/-- INVLPG at CPL 0 that answers a next state had an address of the mode (R133). -/
theorem exec_invlpg_next {t : State} {md : BitVec 2} {rm : BitVec 3} {tail : Tail}
    (ht : exec (.invlpg md rm tail la) s = .next t) :
    refusesAddress p.mode la = false ∧ t = s.invalidated p (invlpgReq s.config p la) := by
  rw [show exec (.invlpg md rm tail la) s = _ from State.privileged_eq _ _ _ hp hcpl] at ht
  split at ht
  · cases ht
  · rename_i hc
    cases ht
    exact ⟨by simpa using hc, rfl⟩

end

/-- Of the TLB both kinds of INVLPG require the entries for the page and the large page, whatever the mode
(R231, R392). -/
theorem invlpgReq_tlb (cfg : Config) (p : Proc) (la : LAddr) :
    (invlpgReq cfg p la).tlb = invlpgTlb (operandAddress p.mode la) := by
  unfold invlpgReq Req.invlpgSelective Req.invlpg
  split
  · split <;> rfl
  · rfl

/-- No TLB entry that INVLPG requires to go is left (R231). -/
theorem invlpgTlb_of_mem_invalidate {cfg : Config} {p : Proc} {la : LAddr} {extra : Removal} {e : TlbEntry}
    (he : e ∈ (p.invalidate (invlpgReq cfg p la) extra).tlb) :
    invlpgTlb (operandAddress p.mode la) e = false := by
  obtain ⟨-, hreq⟩ := removeWhere_mem _ _ _ _ he
  rwa [invlpgReq_tlb] at hreq

/-- An entry that INVLPG is not required to remove is none of its page, nor a piece of its large page
(R231, R288). -/
theorem invlpgTlb_eq_false_iff (la : LAddr) (e : TlbEntry) :
    invlpgTlb la e = false ↔ e.covers la = false ∧ e.pieceOfLargePage la = false :=
  Bool.or_eq_false_iff

/-- INVLPG that is not selective leaves nothing in the paging-structure caches (R231). -/
theorem Proc.invalidate_invlpgReq_caches {cfg : Config} (hs : cfg.invlpgSelective = false) (p : Proc)
    (la : LAddr) (extra : Removal) :
    (p.invalidate (invlpgReq cfg p la) extra).pml4c = [] ∧
      (p.invalidate (invlpgReq cfg p la) extra).pdpc = [] ∧
      (p.invalidate (invlpgReq cfg p la) extra).pdec = [] := by
  have hreq : invlpgReq cfg p la = Req.invlpg (operandAddress p.mode la) := by simp [invlpgReq, hs]
  rw [hreq]
  exact ⟨removeWhere_all _ _, removeWhere_all _ _, removeWhere_all _ _⟩

/-- Settles O39: each set has its mask, and INVLPG and the spontaneous invalidation take what a mask says. -/
theorem everySupersetCanBeRemoved : Obligations.EverySupersetCanBeRemoved := by
  unfold Obligations.EverySupersetCanBeRemoved
  refine ⟨fun p req more => ⟨p.removal more, p.invalidate_removal req more⟩,
    fun s p md rm tail la more cs hp hcpl hc => ?_, fun s k p more es hp => ?_⟩
  · let c : Choice := { (default : Choice) with extra := p.removal more }
    refine ⟨c, ?_⟩
    rw [exec_invlpg (s := { s with choices := c :: cs }) hp hcpl hc md rm tail,
      State.invalidated_of_cons (c := c) rfl, Proc.invalidate_removal]
  · refine ⟨p.removal more, ?_⟩
    rw [step_drop (s := { s with schedule := .drop k (p.removal more) :: es }) rfl hp,
      Proc.invalidate_removal]
    rfl

/-- Settles O40: INVLPG is an invalidation with what it requires of the two kinds of caches. -/
theorem invlpgRemovesItsAddress : Obligations.InvlpgRemovesItsAddress := by
  unfold Obligations.InvlpgRemovesItsAddress
  intro s p md rm tail la hp hcpl hc
  exact ⟨_, _, exec_invlpg hp hcpl hc md rm tail, State.invalidated_proc? _ _ _ _ hp,
    fun e he => (invlpgTlb_eq_false_iff _ _).mp (invlpgTlb_of_mem_invalidate he),
    fun hs => Proc.invalidate_invlpgReq_caches hs _ _ _, Proc.invalidate_sameButLost _ _ _,
    by simp, by simp, State.invalidated_sameElsewhere _ _ _⟩

/-! ### An access after INVLPG -/

/-- Where no TLB entry covers an address, none applies to it. -/
theorem tlbFor_eq_nil {p : Proc} {la : LAddr} (h : ∀ e ∈ p.tlb, e.covers la = false) (m : PMode) :
    tlbFor p m la = [] := by
  rw [tlbFor, List.filter_eq_nil_iff]
  intro e he
  simp [h e he]

/-- Where no entry applies, none is stale (R230). -/
theorem NoneApplies.agreesWithMemory {p : Proc} {m : PMode} {la : LAddr} (h : NoneApplies p m la)
    (cfg : Config) (mem : Memory) : AgreesWithMemory cfg mem p m la := by
  obtain ⟨htlb, hpml4c, hpdpc, hpdec⟩ := h
  simp [AgreesWithMemory, htlb, hpml4c, hpdpc, hpdec]

/-- After INVLPG that is not selective no entry applies to its address, on a processor of any CPL (R242). -/
theorem Proc.noneApplies_invlpg {cfg : Config} (hs : cfg.invlpgSelective = false) (p : Proc) (m : PMode)
    (la : LAddr) (extra : Removal) (cpl : Cpl) :
    NoneApplies { p.invalidate (invlpgReq cfg p la) extra with cpl := cpl } m (operandAddress p.mode la) := by
  obtain ⟨hpml4c, hpdpc, hpdec⟩ := Proc.invalidate_invlpgReq_caches hs p la extra
  refine ⟨tlbFor_eq_nil (fun e he => ?_) m, ?_, ?_, ?_⟩
  · exact ((invlpgTlb_eq_false_iff _ _).mp (invlpgTlb_of_mem_invalidate he)).1
  · rw [pml4cFor, hpml4c, List.filter_nil]
  · rw [pdpcFor, hpdpc, List.filter_nil]
  · rw [pdecFor, hpdec, List.filter_nil]

/-- What memory says does not depend on the CPL (R137). -/
theorem memoryWalk_withCpl (cfg : Config) (mem : Memory) (p : Proc) (cpl : Cpl) (m : PMode) (la : LAddr) :
    memoryWalk cfg mem { p with cpl := cpl } m la = memoryWalk cfg mem p m la := rfl

/-- The CPL is not what a good processor is about. -/
theorem Proc.ok_withCpl (cfg : Config) (p : Proc) (cpl : Cpl) :
    Proc.ok cfg { p with cpl := cpl } = p.ok cfg := rfl

/-- Settles O43: no entry applies after the INVLPG, so none is stale, and the read goes where memory says by
marked entries. -/
theorem readAfterInvlpgGoesWhereMemorySays : Obligations.ReadAfterInvlpgGoesWhereMemorySays := by
  unfold Obligations.ReadAfterInvlpgGoesWhereMemorySays
  intro s t p q m kind md rm tail la n c l hinv hp hcpl hm hs hk hw ht hq hu la' pa hW hok hr
  obtain ⟨hc, rfl⟩ := exec_invlpg_next hp hcpl ht
  have hcan : m = .ia32e → canonical la = true := by
    rintro rfl
    simpa [refusesAddress, hm] using hc
  have hq' : q = p.invalidate (invlpgReq s.config p la) s.choice.extra :=
    Option.some.inj (hq.symm.trans (State.invalidated_proc? _ _ _ _ hp))
  have hnone : NoneApplies { q with cpl := c } m la' := by
    have h := p.noneApplies_invlpg hs m la s.choice.extra c
    rwa [hm, ← hq'] at h
  have hgood : q.ok s.config = true := hq' ▸ Proc.invalidate_ok _ _ (hinv.proc_ok hp)
  have hinv' : Inv ((s.invalidated p (invlpgReq s.config p la)).setProc { q with cpl := c }) :=
    (hinv.invalidated (hq' ▸ hgood)).setProc (by rw [Proc.ok_withCpl]; simpa using hgood)
  have hm' : q.mode = some m := by rw [hq', Proc.invalidate_mode, hm]
  obtain ⟨u, -, hexec, -, htrace, hbits, hleaf, -⟩ :=
    agreeingReadGoesWhereMemorySays _ _ m kind la n l hinv' (State.setProc_proc? _ _ hq)
      hm' hk hw hcan hu (hnone.agreesWithMemory _ _) ((memoryWalk_withCpl ..).trans hW) hok hr
  simp only [State.setProc_config, State.setProc_mem, State.setProc_current, State.invalidated_config,
    State.invalidated_mem, State.invalidated_current] at htrace hbits hleaf
  obtain ⟨htlb, -⟩ := hnone
  exact ⟨u, hexec, htrace, State.invalidated_mem _ _ _, hbits, hleaf htlb⟩

end Sys2Proof.Machine
end

section
/-! PROOFS. Large pages and the pieces kept of them (R286 to R288): they translate alike, and INVLPG requires
both to go. -/

namespace Sys2Proof.Machine

/-! ### Page numbers and large-page numbers -/

/-- The large-page number as a number: bits 47:21, in PAE mode 31:21, in 32-bit paging 31:22 (R171). -/
theorem largePageNumber_toNat (m : PMode) (la : LAddr) :
    (largePageNumber m la).toNat = match m with
      | .ia32e => la.toNat / 2 ^ 21 % 2 ^ 27
      | .pae => la.toNat / 2 ^ 21 % 2 ^ 11
      | .legacy32 => la.toNat / 2 ^ 22 % 2 ^ 10 := by
  cases m with
  | ia32e => exact toNat_key la 21 27 (by omega)
  | pae => exact toNat_key la 21 11 (by omega)
  | legacy32 => exact toNat_key la 22 10 (by omega)

/-- The large-page number is the page number without the bits of the place in the page (R171, R231). -/
theorem pageNumber_shiftRight (m : PMode) (la : LAddr) :
    pageNumber m la >>> pieceBits m = largePageNumber m la := by
  apply BitVec.eq_of_toNat_eq
  rw [BitVec.toNat_ushiftRight, pageNumber_toNat, largePageNumber_toNat, Nat.shiftRight_eq_div_pow]
  cases m <;> simp only [pieceBits] <;> omega

/-- The place of a piece in its large page as a number (R286). -/
theorem pieceOffset_toNat (m : PMode) (la : LAddr) :
    (pieceOffset m la).toNat = la.toNat / 2 ^ 12 % 2 ^ pieceBits m * 2 ^ 12 := by
  cases m with
  | ia32e => exact toNat_field_shift la 12 9 12 (by omega)
  | pae => exact toNat_field_shift la 12 9 12 (by omega)
  | legacy32 => exact toNat_field_shift la 12 10 12 (by omega)

/-- The addresses of one page lie in one piece of a large page. -/
theorem pieceOffset_eq {m : PMode} {la la2 : LAddr} (h : pageNumber m la2 = pageNumber m la) :
    pieceOffset m la2 = pieceOffset m la := by
  apply BitVec.eq_of_toNat_eq
  replace h := congrArg BitVec.toNat h
  rw [pageNumber_toNat, pageNumber_toNat] at h
  rw [pieceOffset_toNat, pieceOffset_toNat]
  cases m <;> simp only [pieceBits] at h ⊢ <;> omega

/-- The large page that an operand names: outside IA-32e mode its upper half names nothing (R111, R171). -/
theorem largePageNumber_operandAddress (m : PMode) (la : LAddr) :
    largePageNumber m (operandAddress (some m) la) = largePageNumber m la := by
  have hlow : (low32 la).toNat = la.toNat % 2 ^ 32 := by rw [low32_eq, BitVec.toNat_ofNat]; omega
  apply BitVec.eq_of_toNat_eq
  cases m with
  | ia32e => rfl
  | pae => simp only [operandAddress, largePageNumber_toNat, hlow]; omega
  | legacy32 => simp only [operandAddress, largePageNumber_toNat, hlow]; omega

/-! ### The entries made from a large page -/

/-- A piece of a large page gives every address in it the physical address that the page gives (R286,
R287). -/
theorem frameAddress_piece {p : Proc} {m : PMode} {la la2 : LAddr} {l : Leaf}
    (h : pageNumber m la2 = pageNumber m la) :
    frameAddress m .ordFromLarge (pieceEntryOf p m la l).frame la2 =
      frameAddress m .large (tlbEntryOf p m la l).frame la2 := by
  have hframe : (pieceEntryOf p m la l).frame = (pieceEntryOf p m la2 l).frame := by
    simp only [pieceEntryOf, pieceOffset_eq h]
  rw [hframe]
  exact pieceEntryOf_translates p m la2 l

/-- INVLPG requires a piece to go exactly for the addresses of its large page, those of its own page among
them (R231, R288). -/
theorem invlpgTlb_pieceEntryOf (p : Proc) (m : PMode) (la la2 : LAddr) (l : Leaf) :
    invlpgTlb la2 (pieceEntryOf p m la l) = true ↔ largePageNumber m la2 = largePageNumber m la := by
  have hcovers : (pieceEntryOf p m la l).covers la2 = (pageNumber m la == pageNumber m la2) := rfl
  have hpiece : (pieceEntryOf p m la l).pieceOfLargePage la2 =
      (largePageNumber m la == largePageNumber m la2) := by
    simp [TlbEntry.pieceOfLargePage, pieceEntryOf, pageNumber_shiftRight]
  rw [invlpgTlb, hcovers, hpiece, Bool.or_eq_true, beq_iff_eq, beq_iff_eq, eq_comm (b := largePageNumber m la)]
  refine ⟨fun h => h.elim (fun hpage => ?_) id, .inr⟩
  rw [← pageNumber_shiftRight, hpage, pageNumber_shiftRight]

/-- INVLPG requires the translation of a large page to go exactly for the addresses in it (R231). -/
theorem invlpgTlb_tlbEntryOf {l : Leaf} (hl : l.large = true) (p : Proc) (m : PMode) (la la2 : LAddr) :
    invlpgTlb la2 (tlbEntryOf p m la l) = true ↔ largePageNumber m la2 = largePageNumber m la := by
  have hcovers : (tlbEntryOf p m la l).covers la2 = (largePageNumber m la == largePageNumber m la2) := by
    simp [TlbEntry.covers, tlbEntryOf, hl]
  have hpiece : (tlbEntryOf p m la l).pieceOfLargePage la2 = false := by
    simp [TlbEntry.pieceOfLargePage, tlbEntryOf, hl]
  rw [invlpgTlb, hcovers, hpiece, Bool.or_false, beq_iff_eq, eq_comm]

/-- A TLB entry that INVLPG is required to remove is not left. -/
theorem not_mem_invalidate_invlpgReq {cfg : Config} {p : Proc} {la : LAddr} {e : TlbEntry}
    (h : invlpgTlb (operandAddress p.mode la) e = true) (extra : Removal) :
    e ∉ (p.invalidate (invlpgReq cfg p la) extra).tlb := fun he => by
  rw [invlpgTlb_of_mem_invalidate he] at h
  cases h

/-- Settles O60: both entries go exactly for the addresses of the large page, and INVLPG, which completes,
leaves neither. -/
theorem pieceOfLargePageTranslatesAlike : Obligations.PieceOfLargePageTranslatesAlike := by
  unfold Obligations.PieceOfLargePageTranslatesAlike
  intro p m la la2 l hl
  refine ⟨frameAddress_piece, invlpgTlb_pieceEntryOf p m la la2 l, invlpgTlb_tlbEntryOf hl p m la la2,
    fun s o md rm tail ho hcpl hm hcan hpage => ?_⟩
  have hc : o.mode = some .ia32e → canonical la2 = true := fun h => by
    rw [hm] at h
    exact hcan (Option.some.inj h)
  rw [← largePageNumber_operandAddress, ← hm] at hpage
  exact ⟨_, _, exec_invlpg ho hcpl hc md rm tail, State.invalidated_proc? _ _ _ _ ho,
    not_mem_invalidate_invlpgReq ((invlpgTlb_pieceEntryOf ..).mpr hpage) _,
    not_mem_invalidate_invlpgReq ((invlpgTlb_tlbEntryOf hl ..).mpr hpage) _⟩

end Sys2Proof.Machine
end

section
/-! PROOFS. The MOVs to control registers where they complete: the load of the PDPTR registers (R330), the
new values, and what goes with them (R232, R233, R235). -/

namespace Sys2Proof.Machine

/-! ### The load of the PDPTR registers -/

/-- The base of the page-directory-pointer table as a number (R22, R330). -/
theorem pdptBase_toNat (c : BitVec 64) : (pdptBase c).toNat = c.toNat % 2 ^ 32 / 32 * 32 := by
  rw [pdptBase, toNat_field_shift c 5 27 5 (by omega)]
  omega

/-- The entries of the table that a load reads are those at that base (R330). -/
theorem pdptrInMemory_eq (mem : Memory) (c : BitVec 64) (i : Nat) :
    pdptrInMemory mem c i = pdptrAt mem c i := by
  rw [pdptrInMemory, pdptBase_toNat, pdptrAt]

/-- A PDPTR whose must-be-zero bits are 0 does not fault (R332). -/
theorem pdptrFaults_eq_false {q : BitVec 64} (h : q &&& 0x80000000000001E6 = 0) : pdptrFaults q = false := by
  have hmask : pdptrMustBeZero = 0x80000000000001E6 := by decide
  rw [pdptrFaults, hmask, h]
  rfl

/-- A PDPTR that is not present, or has no refused bit set, is not refused (R332, R82). -/
theorem pdptrRefuses_eq_false {cfg : Config} {q : BitVec 64}
    (h : q.getLsbD 0 = true → q &&& pdptrRefused cfg = 0) : pdptrRefuses cfg q = false := by
  unfold pdptrRefuses presentBit
  cases hp : q.getLsbD 0 with
  | false => rfl
  | true => simp [h hp]

/-- A loadable table is loaded (R330). -/
theorem readPdptrs_loadable {cfg : Config} {mem : Memory} {c : BitVec 64} (h : PdptrsLoadable cfg mem c) :
    readPdptrs cfg mem c = .loaded (pdptrsAt mem c) := by
  obtain ⟨hreaches, hall⟩ := h
  have faults : ∀ i < 4, pdptrFaults (pdptrAt mem c i) = false :=
    fun i hi => pdptrFaults_eq_false (hall i hi).1
  have refuses : ∀ i < 4, pdptrRefuses cfg (pdptrAt mem c i) = false :=
    fun i hi => pdptrRefuses_eq_false (hall i hi).2
  rw [← pdptBase_toNat] at hreaches
  simp [readPdptrs, hreaches, pdptrInMemory_eq, faults, refuses, pdptrsAt]

/-- Where a load is not needed, or the table can be loaded, the operation goes on with the registers loaded
if needed (R330). -/
theorem State.loadPdptrs_loadable {s : State} {needed : Bool} {c : BitVec 64}
    (h : needed = true → PdptrsLoadable s.config s.mem c) (p : Proc) (k : Proc → Result) :
    s.loadPdptrs p needed c k = k (p.withPdptrs needed s.mem c) := by
  cases needed with
  | false => rfl
  | true => simp only [State.loadPdptrs, if_true, readPdptrs_loadable (h rfl), Proc.withPdptrs]

/-- The low 32 bits of a value are moved at either operand size (R113). -/
theorem crOperand_low (p : Proc) (v : BitVec 64) : (crOperand p v).toNat % 2 ^ 32 = v.toNat % 2 ^ 32 := by
  cases h : p.lma with
  | true => rw [crOperand_of_lma h]
  | false => rw [crOperand_toNat h, Nat.mod_mod]

/-- The table that a value locates is the one that its operand locates: only the low 32 bits matter (R330,
R113). -/
theorem pdptrAt_crOperand (mem : Memory) (p : Proc) (v : BitVec 64) :
    pdptrAt mem (crOperand p v) = pdptrAt mem v := by
  funext i
  rw [pdptrAt, pdptrAt, crOperand_low]

theorem PdptrsLoadable.crOperand {cfg : Config} {mem : Memory} {v : BitVec 64}
    (h : PdptrsLoadable cfg mem v) (p : Proc) : PdptrsLoadable cfg mem (crOperand p v) := by
  unfold PdptrsLoadable at h ⊢
  rwa [crOperand_low, pdptrAt_crOperand]

theorem Proc.withPdptrs_crOperand (p q : Proc) (needed : Bool) (mem : Memory) (v : BitVec 64) :
    p.withPdptrs needed mem (crOperand q v) = p.withPdptrs needed mem v := by
  simp only [Proc.withPdptrs, pdptrsAt, pdptrAt_crOperand]

/-! ### The MOVs -/

section
variable {s : State} {p : Proc} (hp : s.proc? = some p) (hcpl : p.cpl = 0)
include hp hcpl

/-- MOV to CR3 at CPL 0 that does not fault on a load is the new value and an invalidation (R232, R330). -/
theorem exec_movToCr3 {v : BitVec 64} (hload : cr3LoadsPdptrs p = true → PdptrsLoadable s.config s.mem v)
    (md : BitVec 2) (rm : BitVec 3) :
    exec (.movToCr3 md rm v) s = .next (s.invalidated
      { p.withPdptrs (cr3LoadsPdptrs p) s.mem v with cr3 := crOperand p v } Req.nonGlobal) := by
  refine (State.privileged_eq _ _ _ hp hcpl).trans
    ((State.loadPdptrs_loadable (fun h => (hload h).crOperand p) _ _).trans ?_)
  rw [Proc.withPdptrs_crOperand, cr3LoadsPdptrs]

/-- MOV to CR4 at CPL 0 that neither clears PAE with LMA = 1 nor faults on a load is the new bits and an
invalidation, of everything if PGE is modified (R233, R330). -/
theorem exec_movToCr4 {v : BitVec 64} (hpae : p.lma = true → v.getLsbD 5 = true)
    (hload : cr4LoadsPdptrs p v = true → PdptrsLoadable s.config s.mem p.cr3) (md : BitVec 2)
    (rm : BitVec 3) :
    exec (.movToCr4 md rm v) s = .next (s.invalidated
      ((p.withPdptrs (cr4LoadsPdptrs p v) s.mem p.cr3).withCr4 v)
      (if p.pge != cr4Pge v then Req.everything else Req.nothing)) := by
  have hkeeps : ¬ (p.lma && !cr4Pae v) = true := by simpa [cr4Pae] using hpae
  exact (State.privileged_eq _ _ _ hp hcpl).trans
    ((if_neg hkeeps).trans (State.loadPdptrs_loadable hload _ _))

end

/-- What an invalidation with new registers leaves: the current processor with those registers and no more
entries than before, and nothing else changed (R234). -/
theorem State.invalidated_completes {s : State} {p : Proc} (hp : s.proc? = some p) (q : Proc) (req : Req) :
    (s.invalidated q req).proc? = some (q.invalidate req s.choice.extra) ∧
      SameButLost (q.invalidate req s.choice.extra) q ∧ (s.invalidated q req).mem = s.mem ∧
      (s.invalidated q req).trace = s.trace ∧ SameElsewhere (s.invalidated q req) s :=
  ⟨State.invalidated_proc? _ _ _ _ hp, Proc.invalidate_sameButLost _ _ _, State.invalidated_mem _ _ _,
    State.invalidated_trace _ _ _, State.invalidated_sameElsewhere _ _ _⟩

/-- Where every entry that is not global is required to go, the TLB entries left are global and the
paging-structure caches are empty (R232). -/
theorem Proc.invalidate_nonGlobal (p : Proc) (extra : Removal) :
    (∀ e ∈ (p.invalidate Req.nonGlobal extra).tlb, e.global = true) ∧
      (p.invalidate Req.nonGlobal extra).pml4c = [] ∧ (p.invalidate Req.nonGlobal extra).pdpc = [] ∧
      (p.invalidate Req.nonGlobal extra).pdec = [] := by
  refine ⟨fun e he => ?_, removeWhere_all _ _, removeWhere_all _ _, removeWhere_all _ _⟩
  simpa [Req.nonGlobal] using (removeWhere_mem _ _ _ _ he).2

/-- Settles O44: the load succeeds, and the invalidation requires all that is not global. -/
theorem movToCr3Completes : Obligations.MovToCr3Completes := by
  unfold Obligations.MovToCr3Completes
  intro s p md rm v hp hcpl hload
  obtain ⟨hq, hlost, hmem, htrace, helse⟩ := State.invalidated_completes hp
    { p.withPdptrs (cr3LoadsPdptrs p) s.mem v with cr3 := crOperand p v } Req.nonGlobal
  obtain ⟨htlb, hpml4c, hpdpc, hpdec⟩ := Proc.invalidate_nonGlobal
    { p.withPdptrs (cr3LoadsPdptrs p) s.mem v with cr3 := crOperand p v } s.choice.extra
  exact ⟨_, _, exec_movToCr3 hp hcpl hload md rm, hq, hlost, fun h => crOperand_of_lma h v,
    fun h => crOperand_toNat h v, htlb, hpml4c, hpdpc, hpdec, hmem, htrace, helse⟩

/-- Settles O46: the load succeeds, and if PGE is modified the invalidation requires everything. -/
theorem movToCr4Completes : Obligations.MovToCr4Completes := by
  unfold Obligations.MovToCr4Completes
  intro s p md rm v hp hcpl hpae hload
  obtain ⟨hq, hlost, hmem, htrace, helse⟩ := State.invalidated_completes hp
    ((p.withPdptrs (cr4LoadsPdptrs p v) s.mem p.cr3).withCr4 v)
    (if p.pge != cr4Pge v then Req.everything else Req.nothing)
  refine ⟨_, _, exec_movToCr4 hp hcpl hpae hload md rm, hq, hlost, fun hpge => ?_, hmem, htrace, helse⟩
  have hmodified : (p.pge != cr4Pge v) = true := bne_iff_ne.mpr hpge
  rw [if_pos hmodified]
  exact Proc.invalidate_everything _ _

/-! ### What need not go -/

/-- The four sets of q are those of p. -/
def SameCaches (q p : Proc) : Prop :=
  q.tlb = p.tlb ∧ q.pml4c = p.pml4c ∧ q.pdpc = p.pdpc ∧ q.pdec = p.pdec

/-- A load of the PDPTR registers is no change of the four sets (R38). -/
theorem PdptrsLoaded.sameCaches {needed : Bool} {p q : Proc} (h : PdptrsLoaded needed p q) :
    SameCaches q p := by
  rw [h.eq_with]
  exact ⟨rfl, rfl, rfl, rfl⟩

/-- With nothing required and nothing more chosen, the processor is the one given (R235). -/
theorem State.invalidated_nothing_proc? {s : State} {p : Proc} {c : Choice} {cs : List Choice}
    (hp : s.proc? = some p) (hcs : s.choices = c :: cs) (hc : c.extra = ⟨0, 0, 0, 0⟩) (q : Proc) :
    (s.invalidated q Req.nothing).proc? = some q := by
  rw [State.invalidated_proc? _ _ _ _ hp, State.choice_of_cons _ _ _ hcs, hc, Proc.invalidate_nothing]

/-- Settles O49: of the ways in which these MOVs run, one only reports and the others require nothing. -/
theorem otherMovsNeedRemoveNothing : Obligations.OtherMovsNeedRemoveNothing := by
  unfold Obligations.OtherMovsNeedRemoveNothing
  intro s t p q i c cs hp _ hcs hc hi ht hq
  have nothing : ∀ r, (s.invalidated r Req.nothing).proc? = some q → SameCaches r p → SameCaches q p :=
    fun r hr hs => by
      rw [State.invalidated_nothing_proc? hp hcs hc] at hr
      cases hr
      exact hs
  obtain ⟨p', hp', hruns⟩ := exec_next ht
  rw [hp] at hp'
  cases hp'
  cases hruns with
  | access kind la n v => cases kind <;> simp [accessOp] at hi
  | reports i r =>
    rw [State.report_proc?, hp] at hq
    cases hq
    exact ⟨rfl, rfl, rfl, rfl⟩
  | movToCr0 md rm v r hr => exact nothing _ hq hr.sameCaches
  | movToCr4 md rm v r hpae hr =>
    have hsame : v.getLsbD 7 = p.pge := by simpa using hi
    have hpge : ¬ (p.pge != cr4Pge v) = true := by rw [cr4Pge, hsame, bne_self_eq_false]; nofun
    rw [if_neg hpge] at hq
    exact nothing _ hq hr.sameCaches
  | movFromCrn => simp at hi
  | invlpg => simp at hi
  | movToCr3 => simp at hi
  | hlt => simp at hi

end Sys2Proof.Machine
end

section
/-! PROOFS. Page faults of demand accesses (R237, R238, R401): what they leave, and that none recurs which
memory does not cause. -/

namespace Sys2Proof.Machine

/-! ### What a page fault leaves -/

/-- From s0 to t the access a0 of the processor p0 has page-faulted: the event is delivered, accessed bits of
the entries its walks use are set, no entry keyed for its address is left, and the processor is otherwise as
before, but for entries it may have lost (R401, R237). -/
structure Faulted (s0 : State) (p0 : Proc) (m : PMode) (a0 : Access) (t : State) : Prop where
  trace : t.trace = .pageFault s0.current a0.la a0.kind a0.cpl :: s0.trace
  bits : AccessedBitsSet s0.config p0 m a0.la s0.mem t.mem
  proc : ∃ q, t.proc? = some q ∧ SameButLost q p0 ∧ NoneKeyed q a0.la

/-- A demand access whose translation fails page-faults (R150, R401). -/
theorem Marked.faulted {s0 p0 m a0 a s t} (h : Marked s0 p0 m a0 a s)
    (hph : ∀ pa, a.phase ≠ .translated pa) (hd : a0.demand = true) (ht : failAccess a s = .next t) :
    Faulted s0 p0 m a0 t := by
  obtain ⟨hkind, hla, -, -, hcpl, hdemand⟩ := h.went.fields
  obtain ⟨p, hp, hsame, hbusy, -⟩ := h.went.proc
  obtain ⟨hd', -⟩ | ⟨-, rfl⟩ := failAccess_next _ _ _ _ hp ht
  · rw [hdemand, hd] at hd'
    cases hd'
  · refine ⟨?_, ?_, _, State.invalidated_proc? _ _ _ _ hp, ?_, ?_⟩
    · rw [State.report_trace, State.invalidated_trace, h.went.trace, h.went.current, hla, hkind, hcpl]
    · rw [State.report_mem, State.invalidated_mem]
      exact h.bits (.inr hph)
    · rw [hla]
      exact (h.entries p hp).pageFault _ hsame hbusy
    · rw [← hla]
      exact Proc.invalidate_pageFault _ _ _

/-! ### What is no page fault -/

/-- Between s and t no page fault was the one event delivered. -/
def NoPageFault (s t : State) : Prop :=
  ∀ x la kind cpl, t.trace ≠ .pageFault x la kind cpl :: s.trace

theorem NoPageFault.of_trace_eq {s t : State} (h : t.trace = s.trace) : NoPageFault s t :=
  fun _ _ _ _ ht => List.ne_cons_self (h.symm.trans ht)

/-- An access that waits delivers no event (R137). -/
theorem waitAccess_trace {a : Access} {s t : State} {p : Proc} (hp : s.proc? = some p)
    (h : waitAccess a s = .next t) : t.trace = s.trace := by
  obtain ⟨-, rfl⟩ | ⟨-, rfl⟩ := waitAccess_next _ _ _ _ hp h <;> rfl

/-- An access that moves its data delivers their value and the side effect of a read at most (R151 to
R153). -/
theorem moveData_noPageFault {a : Access} {pa : PAddr} {s t : State} (h : moveData a pa s = .next t) :
    NoPageFault s t := by
  obtain ⟨-, -, -, -, -, hwrite, -, hread⟩ := moveData_next _ _ _ _ h
  by_cases hk : a.kind = .write
  · exact .of_trace_eq (hwrite hk).2
  · obtain ⟨pre, htrace, hpre⟩ := hread hk
    intro x la kind cpl ht
    rw [htrace] at ht
    obtain rfl | rfl := hpre <;> cases hd : a.demand <;> simp [hd] at ht

/-- A demand access after which a page fault is the one event delivered has page-faulted itself. -/
theorem MarkedEnd.faulted {s0 p0 m a0 r t} {x : Nat} {la : LAddr} {kind : AccessKind} {cpl : Cpl}
    (h : MarkedEnd s0 p0 m a0 r) (hd : a0.demand = true) (ht : r = .next t)
    (htrace : t.trace = .pageFault x la kind cpl :: s0.trace) : Faulted s0 p0 m a0 t := by
  cases h with
  | stop _ h => exact absurd ht (h t)
  | failed a s h hph => exact h.faulted hph hd ht
  | aborted a s h hd' => rw [hd] at hd'; cases hd'
  | waits a s h =>
    obtain ⟨p, hp, -⟩ := h.went.proc
    exact absurd htrace (NoPageFault.of_trace_eq ((waitAccess_trace hp ht).trans h.went.trace) _ _ _ _)
  | moved a s pa h hph =>
    rw [← h.went.trace] at htrace
    exact absurd htrace (moveData_noPageFault ht _ _ _ _)

section
variable {s t : State} {p : Proc} {m : PMode} {kind : AccessKind} {la la' : LAddr} {n v x : Nat} {c : Cpl}
  (hinv : Inv s) (hp : s.proc? = some p) (hm : p.mode = some m)
  (ht : exec (accessOp kind la n v) s = .next t) (htrace : t.trace = .pageFault x la' kind c :: s.trace)
include hinv hp hm ht htrace

/-- The same for the operation of an access. -/
theorem exec_accessOp_faulted :
    ∃ v', Faulted s p m (newAccess kind (operandAddress (some m) la) n v' p.cpl) t := by
  obtain ⟨v', -, hexec⟩ := exec_accessOp kind la n v s
  rw [hexec] at ht
  have hend := runAccess_marked (a0 := newAccess kind (operandAddress (some m) la) n v' p.cpl)
    (.of_inv hinv hp) hp hm rfl accessFuel
  exact ⟨v', hend.faulted rfl (demandAccess_runs hp hm ht) htrace⟩

/-- The event names the processor, the address and the CPL of the operation (R401). -/
theorem exec_accessOp_fault_names : x = s.current ∧ la' = operandAddress (some m) la ∧ c = p.cpl := by
  obtain ⟨v', hfault⟩ := exec_accessOp_faulted hinv hp hm ht htrace
  cases htrace.symm.trans hfault.trace
  exact ⟨rfl, rfl, rfl⟩

end

/-- Settles O31: an access with that event has failed to translate, and so has left what `Faulted` says. -/
theorem pageFaultInvalidatesItsAddress : Obligations.PageFaultInvalidatesItsAddress := by
  unfold Obligations.PageFaultInvalidatesItsAddress
  intro s t p m kind la la' n v x c hinv hp hm ht htrace
  obtain ⟨v', hfault⟩ := exec_accessOp_faulted hinv hp hm ht htrace
  obtain ⟨hx, rfl, hc⟩ := exec_accessOp_fault_names hinv hp hm ht htrace
  exact ⟨hx, rfl, hc, hfault.bits, hfault.proc⟩

/-! ### A page fault that memory does not cause -/

/-- An entry that applies to an address is keyed for it (R238). -/
theorem NoneKeyed.noneApplies {p : Proc} {la : LAddr} (h : NoneKeyed p la) (m : PMode) :
    NoneApplies p m la := by
  obtain ⟨htlb, hpml4c, hpdpc, hpdec⟩ := h
  refine ⟨tlbFor_eq_nil htlb m, ?_, ?_, ?_⟩
  · rw [pml4cFor, List.filter_eq_nil_iff]
    intro c hc
    simp [hpml4c c hc]
  · rw [pdpcFor, List.filter_eq_nil_iff]
    intro c hc
    simp [hpdpc c hc]
  · rw [pdecFor, List.filter_eq_nil_iff]
    rintro c hc happlies
    simp only [Bool.and_eq_true, beq_iff_eq] at happlies
    obtain ⟨rfl, hkey⟩ := happlies
    exact hpdec c hc hkey

/-- A processor that has only lost entries has its mode and its PDPTR registers still (R331). -/
theorem SameButLost.mode_and_pdptrValid {q p : Proc} (h : SameButLost q p) :
    q.mode = p.mode ∧ q.pdptrValid = p.pdptrValid := by
  obtain ⟨-, -, -, -, hregisters⟩ := h
  rw [hregisters]
  exact ⟨rfl, rfl⟩

/-- A demand access that the walk of memory allows, and to whose address no stale entry applies, does not
page-fault, whether it is interrupted or not (R238). -/
theorem runAccess_noPageFault {s u : State} {p : Proc} {m : PMode} {a0 : Access} {l : Leaf} {fuel : Nat}
    (hc : s.config.wf = true) (hwf : s.mem.wf) (hp : s.proc? = some p) (hm : p.mode = some m)
    (hv : m = .pae → p.pdptrValid = true) (hph : a0.phase = .begin) (hd : a0.demand = true)
    (hcaches : CachesAgree s.config s.mem p m a0.la (.leaf l) p)
    (hW : memoryWalk s.config s.mem p m a0.la = .leaf l)
    (hok : allowed p.wp a0.kind a0.cpl l.rw l.us l.xd = true) (hu : runAccess fuel a0 s = .next u) :
    NoPageFault s u := by
  have waits : ∀ {a s'}, Agreeing s p m a0 (.leaf l) a s' → ∀ u, waitAccess a s' = .next u →
      NoPageFault s u := fun h u hu => by
    obtain ⟨q, hq, -⟩ := h.went.proc
    exact .of_trace_eq ((waitAccess_trace hq hu).trans h.went.trace)
  refine runAccess_induction (Q := Agreeing s p m a0 (.leaf l))
    (R := fun r => ∀ u, r = .next u → NoPageFault s u) ?_ ?_ (fun a s' h => waits h)
    (fun a s' h _ _ => waits h.drawn) ?_ ?_ fuel a0 s (.begin hp hph hcaches) u hu
  · intro a s' q m' a' s'' h hq hm' hg
    cases h.went.mode hm hq hm'
    exact h.drawn.goesOn hc hwf hW.symm (by simpa using hq) hg
  · intro a s' q m' r h hq hm' he u hu
    cases h.went.mode hm hq hm'
    obtain ⟨-, hr⟩ := h.drawn.ends_moved hc hW.symm hv hd hok (by simpa using hq) he
    have hmoved := moveData_noPageFault (hr.symm.trans hu)
    unfold NoPageFault at hmoved ⊢
    rwa [State.drawn_trace, h.went.trace] at hmoved
  · intro a s' q h hq hoff
    obtain ⟨q', hq', hsame, -⟩ := h.went.proc
    rw [hq] at hq'
    cases hq'
    rw [hsame.mode, hm] at hoff
    cases hoff
  · rintro a s' h hno u ⟨⟩

/-- Settles O32: no entry applies after the fault, so the operation issued again goes as the walk of memory
does, and that allows it. -/
theorem spuriousPageFaultDoesNotRecur : Obligations.SpuriousPageFaultDoesNotRecur := by
  unfold Obligations.SpuriousPageFaultDoesNotRecur
  intro s t u p q m kind la la' n v x y c d l hinv hp hm ht htrace hq
  obtain ⟨-, rfl, -⟩ := exec_accessOp_fault_names hinv hp hm ht htrace
  obtain ⟨v', hfault⟩ := exec_accessOp_faulted hinv hp hm ht htrace
  obtain ⟨q', hq', hlost, hkeyed⟩ := hfault.proc
  rw [hq] at hq'
  cases hq'
  have hnone := hkeyed.noneApplies m
  refine ⟨hnone, fun hW hok hu => ?_⟩
  obtain ⟨hmode, hvalid⟩ := hlost.mode_and_pdptrValid
  rw [hm] at hmode
  have hv : m = .pae → q.pdptrValid = true := fun hpae =>
    hvalid.trans (hinv.pdptrValid hp (hpae ▸ hm))
  obtain ⟨v1, -, hexec⟩ := exec_accessOp kind la n v s
  have hafter := demandAccess_after _ _ _ _ _ _ _ hp (hexec.symm.trans ht)
  obtain ⟨v2, -, hexec'⟩ := exec_accessOp kind la n v t
  rw [hexec'] at hu
  exact runAccess_noPageFault (a0 := newAccess kind (operandAddress (some m) la) n v2 q.cpl)
    (hafter.config ▸ hinv.config_wf) (hafter.wf hinv.mem_wf) hq hmode hv rfl rfl
    (.of_noneApplies hnone) hW hok (demandAccess_runs hq hmode hu) _ _ _ _

end Sys2Proof.Machine
end

section
/-! PROOFS. Global TLB entries (family 45): that MOV to CR3 may leave them or take them (R302), and that while
CR4.PGE = 0 there are none (R303). -/

namespace Sys2Proof.Machine

/-! ### Global entries and MOV to CR3 -/

/-- The mask by which every entry of a set goes has a 1 for each of them. -/
theorem removalMask_all {α : Type} (l : List α) :
    removalMask (fun _ => true) l = 2 ^ l.length - 1 := by
  induction l with
  | nil => rfl
  | cons e rest ih =>
    have hpos : 0 < 2 ^ rest.length := Nat.two_pow_pos _
    simp only [removalMask, ih, Bool.toNat_true, List.length_cons, Nat.pow_succ]
    omega

/-- By that mask nothing is left, whatever is required (R234). -/
theorem removeWhere_fullMask {α : Type} (req : α → Bool) (l : List α) :
    removeWhere req (2 ^ l.length - 1) l = [] := by
  rw [← removalMask_all, removeWhere_removalMask]
  simp

/-- With nothing further chosen, an entry that is not required to go stays (R234). -/
theorem mem_removeWhere_zero {α : Type} {req : α → Bool} {l : List α} {x : α} (hx : x ∈ l)
    (hreq : req x = false) : x ∈ removeWhere req 0 l := by
  rw [removeWhere_zero]
  exact List.mem_filter.mpr ⟨hx, by rw [hreq]; rfl⟩

/-- Whether PDPTR registers are loaded is no matter to the TLB (R38). -/
theorem Proc.withPdptrs_tlb (p : Proc) (needed : Bool) (mem : Memory) (c : BitVec 64) :
    (p.withPdptrs needed mem c).tlb = p.tlb := by
  unfold Proc.withPdptrs
  split <;> rfl

/-- Settles O45: MOV to CR3 does not require a global entry to go, and its choice may take every entry. -/
theorem movToCr3MayOrMayNotRemoveGlobals : Obligations.MovToCr3MayOrMayNotRemoveGlobals := by
  unfold Obligations.MovToCr3MayOrMayNotRemoveGlobals
  intro s p md rm v c cs hp hcpl hload hcs
  refine ⟨_, _, exec_movToCr3 hp hcpl hload md rm, State.invalidated_proc? _ _ _ _ hp, ?_, ?_⟩
  all_goals rw [State.choice_of_cons _ _ _ hcs, Proc.invalidate_tlb, Proc.withPdptrs_tlb]
  · intro hc e he hglobal
    rw [hc]
    exact mem_removeWhere_zero he (by simp [Req.nonGlobal, hglobal])
  · intro hc
    rw [hc]
    exact removeWhere_fullMask _ _

/-! ### Global entries and CR4.PGE: one processor -/

/-- Only with CR4.PGE = 1 does the processor hold global TLB entries (R303). -/
def GlobalsNeedPge (p : Proc) : Prop := p.pge = false → ∀ e ∈ p.tlb, e.global = false

/-- Losing entries keeps it, with CR4.PGE unchanged. -/
theorem GlobalsNeedPge.onlyLost {p q : Proc} (h : GlobalsNeedPge p) (hpge : q.pge = p.pge)
    (htlb : OnlyLost q.tlb p.tlb) : GlobalsNeedPge q :=
  fun hoff e he => h (hpge.symm.trans hoff) e (htlb e he)

/-- An invalidation keeps it (R234). -/
theorem GlobalsNeedPge.invalidate {p : Proc} (h : GlobalsNeedPge p) (req : Req) (extra : Removal) :
    GlobalsNeedPge (p.invalidate req extra) :=
  h.onlyLost rfl (Proc.invalidate_sameButLost p req extra).1

/-- A load of the PDPTR registers keeps it (R38). -/
theorem GlobalsNeedPge.pdptrsLoaded {needed : Bool} {p q : Proc} (h : GlobalsNeedPge p)
    (hq : PdptrsLoaded needed p q) : GlobalsNeedPge q := by
  rw [hq.eq_with]
  exact h

/-- A MOV to CR4 leaves it so: if it modifies PGE no TLB entry is left, and otherwise it only loses
entries (R233). -/
theorem GlobalsNeedPge.movToCr4 {p : Proc} (h : GlobalsNeedPge p) (v : BitVec 64) (extra : Removal) :
    GlobalsNeedPge ((p.withCr4 v).invalidate
      (if p.pge != cr4Pge v then Req.everything else Req.nothing) extra) := by
  split
  · obtain ⟨hempty, -⟩ := Proc.invalidate_everything (p.withCr4 v) extra
    intro _ e he
    rw [hempty] at he
    cases he
  · rename_i hsame
    have hpge : (p.withCr4 v).pge = p.pge := (by simpa using hsame : p.pge = cr4Pge v).symm
    exact (h.onlyLost hpge fun _ he => he : GlobalsNeedPge (p.withCr4 v)).invalidate _ _

/-- An access keeps it: what it makes is global only with CR4.PGE = 1 (R300). -/
theorem After.globalsNeedPge {s t : State} {p : Proc} (h : After s p t) (hp : GlobalsNeedPge p) :
    ∃ q, t.proc? = some q ∧ GlobalsNeedPge q := by
  obtain ⟨q, hq, hsame, htlb⟩ := h.proc
  refine ⟨q, hq, fun hoff e he => ?_⟩
  obtain ⟨-, -, -, -, -, hpge, -⟩ := hsame.sameRegisters.1
  have hoff' : p.pge = false := hpge.symm.trans hoff
  obtain hold | hnew := htlb e he
  · exact hp hoff' e hold
  · cases hg : e.global with
    | false => rfl
    | true => cases hoff'.symm.trans (hnew hg)

/-- Every operation keeps it of the processor that runs it. -/
theorem Runs.globalsNeedPge {s t : State} {p : Proc} {i : Instr} (hp : s.proc? = some p)
    (h : Runs s p i t) (hg : GlobalsNeedPge p) : ∃ q, t.proc? = some q ∧ GlobalsNeedPge q := by
  cases h with
  | access kind la n v _ hd => exact (demandAccess_after _ _ _ _ _ _ _ hp hd).globalsNeedPge hg
  | reports i r => exact ⟨p, hp, hg⟩
  | movFromCrn md cr rm => exact ⟨p, by simpa using hp, hg⟩
  | invlpg => exact ⟨_, State.invalidated_proc? _ _ _ _ hp, hg.invalidate _ _⟩
  | movToCr3 md rm v q hq =>
    have hloaded := hg.pdptrsLoaded hq
    have hnew : GlobalsNeedPge { q with cr3 := crOperand p v } := hloaded
    exact ⟨_, State.invalidated_proc? _ _ _ _ hp, hnew.invalidate _ _⟩
  | movToCr4 md rm v q hpae hq =>
    have hpge : q.pge = p.pge := by rw [hq.eq_with]
    rw [← hpge]
    exact ⟨_, State.invalidated_proc? _ _ _ _ hp, (hg.pdptrsLoaded hq).movToCr4 v _⟩
  | movToCr0 md rm v q hq =>
    have hloaded := hg.pdptrsLoaded hq
    have hnew : GlobalsNeedPge { q with pg := cr0Pg v, wp := cr0Wp v } := hloaded
    exact ⟨_, State.invalidated_proc? _ _ _ _ hp, hnew.invalidate _ _⟩
  | hlt => exact ⟨_, State.setProc_proc? _ _ hp, hg⟩

/-! ### Global entries and CR4.PGE: all processors -/

/-- What holds of every processor holds still when one of them is replaced by a processor of which it
holds. -/
theorem forall_mem_set {P : Proc → Prop} {l : List Proc} {q : Proc} (h : ∀ p ∈ l, P p) (k : Nat)
    (hq : P q) : ∀ p ∈ l.set k q, P p := fun p hp => by
  obtain hp | rfl := List.mem_or_eq_of_mem_set hp
  · exact h p hp
  · exact hq

/-- What holds of every processor holds still when the current one alone has changed and it holds of that. -/
theorem SameElsewhere.forall_procs {P : Proc → Prop} {s t : State} {q : Proc} (h : SameElsewhere t s)
    (hs : ∀ p ∈ s.procs, P p) (hq : t.proc? = some q) (hP : P q) : ∀ p ∈ t.procs, P p := fun p hp => by
  obtain ⟨-, hcurrent, -, -, hothers⟩ := h
  obtain ⟨k, hk⟩ := List.mem_iff_getElem?.mp hp
  by_cases hc : k = s.current
  · rw [State.proc?, hcurrent, ← hc, hk] at hq
    cases hq
    exact hP
  · rw [hothers k hc] at hk
    exact hs p (List.mem_of_getElem? hk)

/-- An access of a processor of which it holds keeps it of every processor. -/
theorem After.forall_globalsNeedPge {s t : State} {p : Proc} (h : After s p t)
    (hs : ∀ p ∈ s.procs, GlobalsNeedPge p) (hp : GlobalsNeedPge p) : ∀ p ∈ t.procs, GlobalsNeedPge p := by
  obtain ⟨q, hq, hg⟩ := h.globalsNeedPge hp
  exact h.sameElsewhere.forall_procs hs hq hg

/-- Every operation keeps it of every processor. -/
theorem exec_globalsNeedPge {i : Instr} {s t : State} (h : exec i s = .next t)
    (hs : ∀ p ∈ s.procs, GlobalsNeedPge p) : ∀ p ∈ t.procs, GlobalsNeedPge p := by
  obtain ⟨p, hp, hruns⟩ := exec_next h
  obtain ⟨q, hq, hg⟩ := hruns.globalsNeedPge hp (hs p (List.mem_of_getElem? hp))
  exact (hruns.sameElsewhere hp).forall_procs hs hq hg

/-- Every move keeps it of every processor. -/
theorem Moves.globalsNeedPge {s t : State} (h : Moves s t) (hs : ∀ p ∈ s.procs, GlobalsNeedPge p) :
    ∀ p ∈ t.procs, GlobalsNeedPge p := by
  have one : ∀ {k p}, s.procs[k]? = some p → GlobalsNeedPge p := fun hp => hs _ (List.mem_of_getElem? hp)
  cases h with
  | idle => exact hs
  | goesOn k p a _ hp hb ht =>
    have hold := one hp
    have hidle : GlobalsNeedPge { p with busy := none } := hold
    exact (continueAccess_after (State.select_proc? hp) ht).forall_globalsNeedPge
      (forall_mem_set hs k hidle) hidle
  | issues k p op ops i _ hp hh hb ht =>
    have hold := one hp
    have hissued : GlobalsNeedPge { p with program := ops, cpl := op.cpl } := hold
    exact exec_globalsNeedPge ht (forall_mem_set hs k hissued)
  | speculates k p m la kind cpl n _ hp hm hk ht =>
    exact (runAccess_after (State.select_proc? hp) ht).forall_globalsNeedPge hs (one hp)
  | fills k p m la steps _ hp hm ht =>
    exact (fillWalk_after (State.select_proc? hp) hm ht).forall_globalsNeedPge hs (one hp)
  | drops k p which hp => exact forall_mem_set hs k ((one hp).invalidate _ _)
  | resumes k p hp =>
    have hold := one hp
    have hresumed : GlobalsNeedPge { p with halted := false } := hold
    exact forall_mem_set hs k hresumed

/-- Settles O15: every way in which a move leads to a next state keeps it, and taking the move from the
schedule is no change of a processor. -/
theorem noGlobalEntryWithoutPgeIsKept : Obligations.NoGlobalEntryWithoutPgeIsKept := by
  unfold Obligations.NoGlobalEntryWithoutPgeIsKept
  intro s t hs ht
  exact (step_next s t ht).globalsNeedPge (by rw [State.scheduled_procs]; exact hs)

end Sys2Proof.Machine
end

section
/-! PROOFS. PAE mode and its PDPTR registers (family 46): the three faults and stops of a load (R332, R405),
MOV to CR0 where it completes (R340), and that PAE mode has its registers loaded (R331). -/

namespace Sys2Proof.Machine

/-! ### Loads that do not succeed -/

/-- The PDPTRs that fault are those with a must-be-zero bit set (R332). -/
theorem pdptrFaults_iff (q : BitVec 64) : pdptrFaults q = true ↔ q &&& 0x80000000000001E6 ≠ 0 := by
  have hmask : pdptrMustBeZero = 0x80000000000001E6 := by decide
  rw [pdptrFaults, hmask, bne_iff_ne]

/-- The PDPTRs that are refused are the present ones with a refused bit set (R332, R82). -/
theorem pdptrRefuses_iff (cfg : Config) (q : BitVec 64) :
    pdptrRefuses cfg q = true ↔ q.getLsbD 0 = true ∧ q &&& pdptrRefused cfg ≠ 0 := by
  rw [pdptrRefuses, Bool.and_eq_true, bne_iff_ne, presentBit]

/-- A check of the four entries of a table finds one if there is one. -/
theorem any_four_of_exists {f : Nat → Bool} (h : ∃ i < 4, f i = true) :
    (f 0 || f 1 || f 2 || f 3) = true := by
  obtain ⟨i, hi, hf⟩ := h
  interval_cases i <;> simp [hf]

/-- The first check that a table does not pass decides what its load gives: that it is populated, that no
must-be-zero bit is set, that no refused bit is set in a present entry (R330, R332). -/
theorem readPdptrs_eq (cfg : Config) (mem : Memory) (c : BitVec 64) :
    readPdptrs cfg mem c =
      if reaches cfg (c.toNat % 2 ^ 32 / 32 * 32) 32 then
        if pdptrFaults (pdptrAt mem c 0) || pdptrFaults (pdptrAt mem c 1) ||
            pdptrFaults (pdptrAt mem c 2) || pdptrFaults (pdptrAt mem c 3) then .mustBeZero
        else if pdptrRefuses cfg (pdptrAt mem c 0) || pdptrRefuses cfg (pdptrAt mem c 1) ||
            pdptrRefuses cfg (pdptrAt mem c 2) || pdptrRefuses cfg (pdptrAt mem c 3) then .reserved
        else .loaded (pdptrsAt mem c)
      else .outside := by
  simp only [readPdptrs, pdptBase_toNat, pdptrInMemory_eq, pdptrsAt]

/-- A table with a must-be-zero bit set faults (R332). -/
theorem readPdptrs_faulty {cfg : Config} {mem : Memory} {c : BitVec 64} (h : PdptrsFaulty cfg mem c) :
    readPdptrs cfg mem c = .mustBeZero := by
  obtain ⟨hreaches, i, hi, hbit⟩ := h
  have hfaults := any_four_of_exists (f := fun i => pdptrFaults (pdptrAt mem c i))
    ⟨i, hi, (pdptrFaults_iff _).mpr hbit⟩
  rw [readPdptrs_eq, if_pos hreaches, if_pos hfaults]

/-- A table with no must-be-zero bit set and a refused bit in a present entry is refused (R332, R82). -/
theorem readPdptrs_reserved {cfg : Config} {mem : Memory} {c : BitVec 64} (h : PdptrsReserved cfg mem c) :
    readPdptrs cfg mem c = .reserved := by
  obtain ⟨hreaches, hzero, i, hi, hrefused⟩ := h
  have hpasses : ∀ j < 4, pdptrFaults (pdptrAt mem c j) = false :=
    fun j hj => pdptrFaults_eq_false (hzero j hj)
  have hrefuses := any_four_of_exists (f := fun i => pdptrRefuses cfg (pdptrAt mem c i))
    ⟨i, hi, (pdptrRefuses_iff _ _).mpr hrefused⟩
  rw [readPdptrs_eq, if_pos hreaches, if_neg (by simp [hpasses]), if_pos hrefuses]

/-- A table that leaves the populated range is outside (R96). -/
theorem readPdptrs_outside {cfg : Config} {c : BitVec 64} (h : PdptrsOutside cfg c) (mem : Memory) :
    readPdptrs cfg mem c = .outside := by
  rw [readPdptrs_eq, if_neg (Bool.eq_false_iff.mp h)]

/-- A load from the operand that a value gives is the load from the value: only its low 32 bits matter
(R330, R113). -/
theorem readPdptrs_crOperand (cfg : Config) (mem : Memory) (p : Proc) (v : BitVec 64) :
    readPdptrs cfg mem (crOperand p v) = readPdptrs cfg mem v := by
  simp only [readPdptrs_eq, crOperand_low, pdptrAt_crOperand, pdptrsAt]

/-- Tables that read alike are loaded alike. -/
theorem State.loadPdptrs_congr {s : State} {c c' : BitVec 64}
    (h : readPdptrs s.config s.mem c' = readPdptrs s.config s.mem c) (p : Proc) (needed : Bool)
    (k : Proc → Result) : s.loadPdptrs p needed c' k = s.loadPdptrs p needed c k := by
  unfold State.loadPdptrs
  rw [h]

/-- The processor p loads the PDPTR registers from the table of c when it runs i at CPL 0: a MOV to CR3, CR4
or CR0 under its condition of R330. -/
def LoadsFrom (p : Proc) (i : Instr) (c : BitVec 64) : Prop :=
  ∃ md rm v, i = .movToCr3 md rm v ∧ c = v ∧ cr3LoadsPdptrs p = true ∨
    i = .movToCr4 md rm v ∧ c = p.cr3 ∧ cr4LoadsPdptrs p v = true ∨
    i = .movToCr0 md rm v ∧ c = p.cr3 ∧ cr0LoadsPdptrs p v = true

/-- A MOV to CR4 that loads the PDPTR registers is made with LMA = 0 (R330). -/
theorem lma_of_cr4LoadsPdptrs {p : Proc} {v : BitVec 64} (h : cr4LoadsPdptrs p v = true) : p.lma = false := by
  simp only [cr4LoadsPdptrs, Bool.and_eq_true, Bool.not_eq_true'] at h
  obtain ⟨⟨⟨-, hlma⟩, -⟩, -⟩ := h
  exact hlma

/-- Such an operation begins with the load (R330). -/
theorem LoadsFrom.exec_eq {s : State} {p : Proc} {i : Instr} {c : BitVec 64} (h : LoadsFrom p i c)
    (hp : s.proc? = some p) (hcpl : p.cpl = 0) : ∃ k, exec i s = s.loadPdptrs p true c k := by
  obtain ⟨md, rm, v, ⟨rfl, rfl, hneeded⟩ | ⟨rfl, rfl, hneeded⟩ | ⟨rfl, rfl, hneeded⟩⟩ := h <;>
    rw [← hneeded]
  · exact ⟨_, (State.privileged_eq _ _ _ hp hcpl).trans
      (State.loadPdptrs_congr (readPdptrs_crOperand _ _ _ _) _ _ _)⟩
  · have hkeeps : ¬ (p.lma && !cr4Pae v) = true := by simp [lma_of_cr4LoadsPdptrs hneeded]
    exact ⟨_, (State.privileged_eq _ _ _ hp hcpl).trans (if_neg hkeeps)⟩
  · exact ⟨_, State.privileged_eq _ _ _ hp hcpl⟩

/-- Settles O50: each of the three MOVs begins with the load, and what the load reads decides. -/
theorem faultyPdptrFaultsAndChangesNothing : Obligations.FaultyPdptrFaultsAndChangesNothing := by
  unfold Obligations.FaultyPdptrFaultsAndChangesNothing
  intro s p md rm v c i hp hcpl hi
  have hloads : LoadsFrom p i c := ⟨md, rm, v, hi⟩
  obtain ⟨k, hk⟩ := hloads.exec_eq hp hcpl
  rw [hk, State.loadPdptrs, if_pos rfl]
  exact ⟨fun h => by rw [readPdptrs_faulty h]; rfl, fun h => by rw [readPdptrs_reserved h],
    fun h => by rw [readPdptrs_outside h]⟩

/-! ### MOV to CR0 -/

/-- MOV to CR0 at CPL 0 that does not fault on a load is the new bits and an invalidation that requires
nothing (R340, R330, R235). -/
theorem exec_movToCr0 {s : State} {p : Proc} (hp : s.proc? = some p) (hcpl : p.cpl = 0) {v : BitVec 64}
    (hload : cr0LoadsPdptrs p v = true → PdptrsLoadable s.config s.mem p.cr3) (md : BitVec 2)
    (rm : BitVec 3) :
    exec (.movToCr0 md rm v) s = .next (s.invalidated
      { p.withPdptrs (cr0LoadsPdptrs p v) s.mem p.cr3 with pg := v.getLsbD 31, wp := v.getLsbD 16 }
      Req.nothing) :=
  (State.privileged_eq _ _ _ hp hcpl).trans (State.loadPdptrs_loadable hload _ _)

/-- Settles O48: the load succeeds, and the invalidation leaves the new registers. -/
theorem movToCr0Completes : Obligations.MovToCr0Completes := by
  unfold Obligations.MovToCr0Completes
  intro s p md rm v hp hcpl hload
  exact ⟨_, _, exec_movToCr0 hp hcpl hload md rm, State.invalidated_completes hp _ _⟩

/-! ### PAE mode and its PDPTR registers: one processor -/

/-- In PAE mode the PDPTR registers of the processor have been loaded (R331). -/
def PaeModeLoaded (p : Proc) : Prop := p.mode = some .pae → p.pdptrValid = true

/-- A processor r that has the PDPTR registers of q, on which a load was made, has them loaded in PAE mode
if either the load was needed or p was in PAE mode already. -/
theorem PdptrsLoaded.paeModeLoaded {needed : Bool} {p q r : Proc} (h : PdptrsLoaded needed p q)
    (hp : PaeModeLoaded p) (hv : r.pdptrValid = q.pdptrValid)
    (hm : r.mode = some .pae → needed = true ∨ p.mode = some .pae) : PaeModeLoaded r :=
  fun hr => hv.trans (h.valid ((hm hr).imp_right hp))

/-- A MOV to CR3 keeps it: it changes no mode (R232). -/
theorem PdptrsLoaded.movToCr3_paeModeLoaded {needed : Bool} {p q : Proc} (h : PdptrsLoaded needed p q)
    (hp : PaeModeLoaded p) (v : BitVec 64) : PaeModeLoaded { q with cr3 := v } := by
  refine h.paeModeLoaded hp rfl fun hm => .inr ?_
  rw [h.eq_with] at hm
  exact hm

/-- A MOV to CR0 keeps it: if it enters PAE mode it modifies CR0.PG and loads (R340, R330). -/
theorem PdptrsLoaded.movToCr0_paeModeLoaded {p q : Proc} {pg : Bool}
    (h : PdptrsLoaded (pg != p.pg && !p.lma && p.pae) p q) (hp : PaeModeLoaded p) (wp : Bool) :
    PaeModeLoaded { q with pg := pg, wp := wp } := by
  refine h.paeModeLoaded hp rfl fun hm => ?_
  rw [h.eq_with, Proc.mode_eq_pae_iff] at hm
  obtain ⟨hpg, hlma, hpae⟩ : pg = true ∧ p.lma = false ∧ p.pae = true := hm
  rw [Proc.mode_eq_pae_iff]
  cases hold : p.pg <;> simp [hpg, hlma, hpae]

/-- A MOV to CR4 keeps it: if it enters PAE mode it modifies CR4.PAE with CR0.PG = 1 and loads (R233,
R330). -/
theorem PdptrsLoaded.movToCr4_paeModeLoaded {p q : Proc} {v : BitVec 64}
    (h : PdptrsLoaded (cr4Pae v && !p.lma && p.pg && cr4Changed p v) p q) (hp : PaeModeLoaded p) :
    PaeModeLoaded (q.withCr4 v) := by
  refine h.paeModeLoaded hp rfl fun hm => ?_
  rw [h.eq_with, Proc.mode_eq_pae_iff] at hm
  obtain ⟨hpg, hlma, hpae⟩ : p.pg = true ∧ p.lma = false ∧ cr4Pae v = true := hm
  rw [Proc.mode_eq_pae_iff]
  cases hold : p.pae <;> simp [cr4Changed, hpg, hlma, hpae, hold]

/-- An invalidation keeps it: the PDPTR registers are no part of it (R234, R38). -/
theorem PaeModeLoaded.invalidate {p : Proc} (h : PaeModeLoaded p) (req : Req) (extra : Removal) :
    PaeModeLoaded (p.invalidate req extra) := h

/-- An access keeps it: it changes no register. -/
theorem SameRegisters.paeModeLoaded {q p : Proc} (h : SameRegisters q p) (hp : PaeModeLoaded p) :
    PaeModeLoaded q := by
  obtain ⟨hpg, -, -, -, hpae, -, hlma, -, -, -, hvalid⟩ := h
  unfold PaeModeLoaded Proc.mode
  rw [hpg, hpae, hlma, hvalid]
  exact hp

/-- Every operation keeps it of the processor that runs it. -/
theorem Runs.paeModeLoaded {s t : State} {p : Proc} {i : Instr} (hp : s.proc? = some p)
    (h : Runs s p i t) (hold : PaeModeLoaded p) : ∃ q, t.proc? = some q ∧ PaeModeLoaded q := by
  cases h with
  | access kind la n v _ hd =>
    obtain ⟨q, hq, hsame, -⟩ := (demandAccess_after _ _ _ _ _ _ _ hp hd).proc
    obtain ⟨hregisters, -⟩ := hsame.sameRegisters
    exact ⟨q, hq, hregisters.paeModeLoaded hold⟩
  | reports i r => exact ⟨p, hp, hold⟩
  | movFromCrn md cr rm => exact ⟨p, by simpa using hp, hold⟩
  | invlpg => exact ⟨_, State.invalidated_proc? _ _ _ _ hp, hold.invalidate _ _⟩
  | movToCr3 md rm v q hq =>
    exact ⟨_, State.invalidated_proc? _ _ _ _ hp, (hq.movToCr3_paeModeLoaded hold _).invalidate _ _⟩
  | movToCr4 md rm v q hpae hq =>
    exact ⟨_, State.invalidated_proc? _ _ _ _ hp, (hq.movToCr4_paeModeLoaded hold).invalidate _ _⟩
  | movToCr0 md rm v q hq =>
    exact ⟨_, State.invalidated_proc? _ _ _ _ hp, (hq.movToCr0_paeModeLoaded hold _).invalidate _ _⟩
  | hlt => exact ⟨_, State.setProc_proc? _ _ hp, hold⟩

/-! ### All processors -/

/-- An access of a processor keeps of all of them what is kept where registers are. -/
theorem After.forall_procs {P : Proc → Prop} (hregs : ∀ {p q}, SameRegisters q p → P p → P q)
    {s t : State} {p : Proc} (h : After s p t) (hs : ∀ p ∈ s.procs, P p) (hp : P p) :
    ∀ p ∈ t.procs, P p := by
  obtain ⟨q, hq, hsame, -⟩ := h.proc
  obtain ⟨hregisters, -⟩ := hsame.sameRegisters
  exact h.sameElsewhere.forall_procs hs hq (hregs hregisters hp)

/-- What holds of every processor holds after any move, if it is kept where registers are, when the next
operation is taken from the program, and by every operation of the processor that runs it. -/
theorem Moves.forall_procs {P : Proc → Prop} (hregs : ∀ {p q}, SameRegisters q p → P p → P q)
    (hissue : ∀ {p} ops cpl, P p → P { p with program := ops, cpl := cpl })
    (hruns : ∀ {i s t p}, s.proc? = some p → Runs s p i t → P p → ∃ q, t.proc? = some q ∧ P q)
    {s t : State} (h : Moves s t) (hs : ∀ p ∈ s.procs, P p) : ∀ p ∈ t.procs, P p := by
  have one : ∀ {k p}, s.procs[k]? = some p → P p := fun hp => hs _ (List.mem_of_getElem? hp)
  cases h with
  | idle => exact hs
  | goesOn k p a _ hp hb ht =>
    have hidle : P { p with busy := none } := hregs (.refl p) (one hp)
    exact (continueAccess_after (State.select_proc? hp) ht).forall_procs hregs
      (forall_mem_set hs k hidle) hidle
  | issues k p op ops i _ hp hh hb ht =>
    have hissued := forall_mem_set hs k (hissue ops op.cpl (one hp))
    obtain ⟨p', hp', hr⟩ := exec_next ht
    obtain ⟨q, hq, hkept⟩ := hruns hp' hr (hissued p' (List.mem_of_getElem? hp'))
    exact (hr.sameElsewhere hp').forall_procs hissued hq hkept
  | speculates k p m la kind cpl n _ hp hm hk ht =>
    exact (runAccess_after (State.select_proc? hp) ht).forall_procs hregs hs (one hp)
  | fills k p m la steps _ hp hm ht =>
    exact (fillWalk_after (State.select_proc? hp) hm ht).forall_procs hregs hs (one hp)
  | drops k p which hp => exact forall_mem_set hs k (hregs (.refl p) (one hp))
  | resumes k p hp => exact forall_mem_set hs k (hregs (.refl p) (one hp))

/-- Settles O16: every operation keeps it, the ways into PAE mode being MOVs that load; the other moves
change no register of which it speaks. -/
theorem paeModeHasLoadedPdptrsIsKept : Obligations.PaeModeHasLoadedPdptrsIsKept := by
  unfold Obligations.PaeModeHasLoadedPdptrsIsKept
  intro s t hs ht
  exact (step_next s t ht).forall_procs (P := PaeModeLoaded) SameRegisters.paeModeLoaded
    (fun _ _ hp => hp) Runs.paeModeLoaded (by rw [State.scheduled_procs]; exact hs)

end Sys2Proof.Machine
end

section
/-! PROOFS. More than one logical processor (`47_multiprocessor.md`): an operation acts on its own processor
only (R370), and HLT and Resume are the two ends of a halt (R376). -/

namespace Sys2Proof.Machine

/-! ### Operations act on their own processor -/

/-- Settles O17: each way in which an operation runs leaves everything but its processor. -/
theorem operationsActOnTheirProcessorOnly : Obligations.OperationsActOnTheirProcessorOnly := by
  unfold Obligations.OperationsActOnTheirProcessorOnly
  intro i s t ht
  obtain ⟨p, hp, hruns⟩ := exec_next ht
  exact hruns.sameElsewhere hp

/-! ### HLT -/

/-- Settles O52: at CPL 0 the privilege check passes, and HLT sets the halted flag of the current
processor. -/
theorem hltHalts : Obligations.HltHalts := by
  unfold Obligations.HltHalts
  intro s p hp hcpl
  exact State.privileged_eq _ _ _ hp hcpl

/-! ### While a processor is halted -/

/-- A step whose move is fixed by the schedule is that move, made on the state without it (R43). -/
theorem step_scheduled {s : State} {e : Event} {es : List Event} (hs : s.schedule = e :: es) :
    step s = move e { s with schedule := es } := by
  rw [step, State.event_of_cons _ _ _ hs, State.scheduled_of_cons _ _ _ hs]

/-- The software of a halted processor has nothing to do, whatever its program and its access in progress
(R376). -/
theorem fetchSoftware_halted {s : State} {k : Nat} {p : Proc} (hp : s.procs[k]? = some p)
    (hh : p.halted = true) : fetchSoftware k s = .idle := by
  simp [fetchSoftware, hp, hh]

/-- Resume of processor k clears its halted flag (R376). -/
theorem resumeProc_eq {s : State} {k : Nat} {p : Proc} (hp : s.procs[k]? = some p) :
    resumeProc k s = .next { s with procs := s.procs.set k { p with halted := false } } := by
  simp [resumeProc, hp]

/-- Settles O8: the software of a halted processor is idle, so its move is no more than taken from the
schedule. -/
theorem haltedProcessorIssuesNothing : Obligations.HaltedProcessorIssuesNothing := by
  unfold Obligations.HaltedProcessorIssuesNothing
  intro s k p es hs hp hh
  have hidle := fetchSoftware_halted (s := { s with schedule := es }) hp hh
  rw [step_scheduled hs, move, hidle]

/-- Settles O9: the move is taken from the schedule and clears the flag. -/
theorem resumeOnlyClearsHalted : Obligations.ResumeOnlyClearsHalted := by
  unfold Obligations.ResumeOnlyClearsHalted
  intro s k p es hs hp
  rw [step_scheduled hs]
  exact resumeProc_eq hp

end Sys2Proof.Machine
end

section
/-! PROOFS. The selective INVLPG (`48_alternative_invlpg.md`): the rows of R392 say which entries of the
paging-structure caches it requires to go, and with no further removal chosen no others do. -/

namespace Sys2Proof.Machine

/-! ### The rows of R392 -/

section
variable {cfg : Config} {p : Proc} {m : PMode} (hs : cfg.invlpgSelective = true) (hm : p.mode = some m)
include hs hm

/-- With paging on the row is that of the current mode, for the address as the mode takes it. -/
theorem invlpgReq_selective (la : LAddr) :
    invlpgReq cfg p la = Req.invlpgSelective (some m) (operandAddress (some m) la) := by
  rw [invlpgReq, if_pos hs, hm]

/-- Of the PML4 cache only the entries for the address are required to go, and in IA-32e mode only. -/
theorem invlpgReq_pml4c_eq_false_iff (la : LAddr) (c : Pml4Entry) :
    (invlpgReq cfg p la).pml4c c = false ↔ m ≠ .ia32e ∨ c.key ≠ pml4Key la := by
  rw [invlpgReq_selective hs hm]
  cases m <;> simp [Req.invlpgSelective, operandAddress]

/-- Of the PDP cache only the entries for the address are required to go, and in IA-32e mode only. -/
theorem invlpgReq_pdpc_eq_false_iff (la : LAddr) (c : PdpEntry) :
    (invlpgReq cfg p la).pdpc c = false ↔ m ≠ .ia32e ∨ c.key ≠ pdpKey la := by
  rw [invlpgReq_selective hs hm]
  cases m <;> simp [Req.invlpgSelective, operandAddress]

/-- Of the PDE cache only the entries for the address that are tagged with the current mode are required to
go. -/
theorem invlpgReq_pdec_eq_false_iff (la : LAddr) (c : PdeEntry) :
    (invlpgReq cfg p la).pdec c = false ↔ c.mode ≠ m ∨ c.key ≠ pdeKey m (operandAddress (some m) la) := by
  rw [invlpgReq_selective hs hm]
  cases m <;> simp [Req.invlpgSelective, imp_iff_not_or]

end

/-- Settles O41: INVLPG is an invalidation, which leaves no entry that the row of the mode requires to go. -/
theorem selectiveInvlpgRemovesItsAddress : Obligations.SelectiveInvlpgRemovesItsAddress := by
  unfold Obligations.SelectiveInvlpgRemovesItsAddress
  intro s p m md rm tail la hp hcpl hm hc hs
  have hexec := exec_invlpg hp hcpl (by simpa [hm] using hc) md rm tail
  obtain ⟨hq, hlost, hmem, htrace, helse⟩ :=
    State.invalidated_completes hp p (invlpgReq s.config p la)
  refine ⟨_, _, hexec, hq, fun e he => ?_, fun hia c hx => ?_, fun hia c hx => ?_, fun c hx hmode => ?_,
    hlost, hmem, htrace, helse⟩
  · rw [← hm]
    exact (invlpgTlb_eq_false_iff _ _).mp (invlpgTlb_of_mem_invalidate he)
  · obtain ⟨-, hreq⟩ := removeWhere_mem _ _ _ _ hx
    exact ((invlpgReq_pml4c_eq_false_iff hs hm la c).mp hreq).resolve_left (not_not_intro hia)
  · obtain ⟨-, hreq⟩ := removeWhere_mem _ _ _ _ hx
    exact ((invlpgReq_pdpc_eq_false_iff hs hm la c).mp hreq).resolve_left (not_not_intro hia)
  · obtain ⟨-, hreq⟩ := removeWhere_mem _ _ _ _ hx
    exact ((invlpgReq_pdec_eq_false_iff hs hm la c).mp hreq).resolve_left (not_not_intro hmode)

/-! ### What need not go -/

/-- With nothing more chosen, the processor is less exactly what is required (R234). -/
theorem State.invalidated_minimal_proc? {s : State} {p : Proc} {c : Choice} {cs : List Choice}
    (hp : s.proc? = some p) (hcs : s.choices = c :: cs) (hc : c.extra = ⟨0, 0, 0, 0⟩) (q : Proc) (req : Req) :
    (s.invalidated q req).proc? = some (q.invalidate req ⟨0, 0, 0, 0⟩) := by
  rw [State.invalidated_proc? _ _ _ _ hp, State.choice_of_cons _ _ _ hcs, hc]

/-- Settles O42: with nothing more chosen every entry stays that is not required to go, in the TLB whatever
the kind of INVLPG, and in the paging-structure caches by the row of the mode. -/
theorem invlpgNeedRemoveNoMore : Obligations.InvlpgNeedRemoveNoMore := by
  unfold Obligations.InvlpgNeedRemoveNoMore
  intro s p m md rm tail la c cs hp hcpl hm hc hcs hextra
  have hexec := exec_invlpg hp hcpl (by simpa [hm] using hc) md rm tail
  refine ⟨_, _, hexec, State.invalidated_minimal_proc? hp hcs hextra _ _, fun e he hcovers hpiece => ?_,
    fun hs => ⟨fun x hx hkey => ?_, fun x hx hkey => ?_, fun x hx hkey => ?_⟩⟩
  · have hreq : (invlpgReq s.config p la).tlb e = false := by
      rw [invlpgReq_tlb, hm]
      exact (invlpgTlb_eq_false_iff _ _).mpr ⟨hcovers, hpiece⟩
    exact mem_removeWhere_zero he hreq
  · exact mem_removeWhere_zero hx ((invlpgReq_pml4c_eq_false_iff hs hm la x).mpr hkey)
  · exact mem_removeWhere_zero hx ((invlpgReq_pdpc_eq_false_iff hs hm la x).mpr hkey)
  · exact mem_removeWhere_zero hx ((invlpgReq_pdec_eq_false_iff hs hm la x).mpr hkey)

end Sys2Proof.Machine
end

section
/-! PROOFS. Exceptions (family 60): where no stale entry applies to the address, each way of ending an access
that the paging structures in memory do not allow is a page fault (R401, R402, R237); and general protection
(R406). -/

namespace Sys2Proof.Machine

/-! ### Accesses that memory denies -/

/-- Where the walk of memory ends in W, an access of p of a kind at a CPL is not allowed: an entry is not
present, or the leaf's rights deny it (R401). -/
def WalkEnd.Denies (p : Proc) (kind : AccessKind) (cpl : Cpl) (W : WalkEnd) : Prop :=
  W = .notPresent ∨ ∃ l, W = .leaf l ∧ allowed p.wp kind cpl l.rw l.us l.xd = false

/-- A leaf that denies an access does so by its rights (R141). -/
theorem WalkEnd.Denies.allowed_eq_false {p : Proc} {kind : AccessKind} {cpl : Cpl} {W : WalkEnd} {l : Leaf}
    (h : W.Denies p kind cpl) (hl : W = .leaf l) : allowed p.wp kind cpl l.rw l.us l.xd = false := by
  obtain h | ⟨l', h, hok⟩ := h <;> cases hl.symm.trans h
  exact hok

/-- A demand access whose translation fails always has a next state, that of the page fault (R150, R401). -/
theorem Marked.failAccess_faults {s0 p0 m a0 a s} (h : Marked s0 p0 m a0 a s)
    (hph : ∀ pa, a.phase ≠ .translated pa) (hd : a0.demand = true) :
    ∃ t, failAccess a s = .next t ∧ Faulted s0 p0 m a0 t := by
  obtain ⟨-, -, -, -, -, hdemand⟩ := h.went.fields
  obtain ⟨p, hp, -⟩ := h.went.proc
  have hfail : failAccess a s = takePageFault a s := if_pos (hdemand.trans hd)
  rw [takePageFault_eq a s p hp] at hfail
  exact ⟨_, hfail, h.faulted hph hd hfail⟩

/-- Where the walk of memory denies the access, each way in which a step ends it is a page fault: by a TLB
entry, by a dry step or by a committing one (R150, R143, R139). -/
theorem Agreeing.ends_faulted {s0 p0 m a0 W a s q r c} (hgood : GoodStart s0 p0)
    (hv : m = .pae → p0.pdptrValid = true) (hd : a0.demand = true) (hden : W.Denies p0 a0.kind a0.cpl)
    (h : Agreeing s0 p0 m a0 W a s) (hwalk : Walking s0 p0 m a0 a s) (hq : s.proc? = some q)
    (he : Ends a c q m s r) : ∃ t, r = .next t ∧ Faulted s0 p0 m a0 t := by
  obtain ⟨q', hq', hsame, -, -⟩ := h.went.proc
  rw [hq] at hq'
  cases hq'
  obtain ⟨hkind, -, -, -, hcpl, hdemand⟩ := h.went.fields
  cases he with
  | notLoaded hph hm hvalid =>
    unfold SameButCaches at hsame
    rw [hsame, hv hm] at hvalid
    cases hvalid
  | noRoot hph => exact hwalk.failAccess_faults (by simp [hph]) hd
  | deniedHit e hph => exact hwalk.failAccess_faults (by simp [hph]) hd
  | outside t d hph hr => simp [WalkEnd.Denies, h.outside hph hr] at hden
  | notPresent t d hph => exact hwalk.failAccess_faults (by simp [hph]) hd
  | refused t d hph hs => simp [WalkEnd.Denies, h.sees hgood.config hq hph hs] at hden
  | deniedDry t d l hph => exact hwalk.failAccess_faults (by simp [hph]) hd
  | abortDry t d l hph hs hd' => rw [hdemand, hd] at hd'; cases hd'
  | deniedLeaf t l hph hs hok =>
    obtain ⟨hmarked, -⟩ := hwalk.atLeaf hgood hq c hph hs a ⟨rfl, rfl, rfl, rfl, rfl, rfl⟩
      (by simp [leafWrites, hok])
    exact hmarked.failAccess_faults (by simp [hph]) hd
  | data pa hph =>
    obtain ⟨l, hl, -, hok, -⟩ := h.there pa hph
    rw [hkind, hcpl, hden.allowed_eq_false hl] at hok
    cases hok

/-- An uninterrupted demand access to whose address no stale entry applies, and which the walk of memory
denies, page-faults. -/
theorem runAccess_faults {a0 : Access} {s : State} {p : Proc} {m : PMode} (hinv : Inv s)
    (hp : s.proc? = some p) (hm : p.mode = some m) (hph : a0.phase = .begin) (hd : a0.demand = true)
    (hsteps : stepsLeft a0 ≤ accessFuel) (hu : Uninterrupted s)
    (ha : AgreesWithMemory s.config s.mem p m a0.la)
    (hden : (memoryWalk s.config s.mem p m a0.la).Denies p a0.kind a0.cpl) :
    ∃ t, runAccess accessFuel a0 s = .next t ∧ Faulted s p m a0 t := by
  have hgood := GoodStart.of_inv hinv hp
  have hcaches := CachesAgree.of_agreesWithMemory hgood.caches ha
  obtain ⟨hlen, hpause⟩ := hu
  refine runAccess_completes (m := m)
    (Q := fun a s' => Agreeing s p m a0 (memoryWalk s.config s.mem p m a0.la) a s' ∧ Walking s p m a0 a s')
    (R := fun r => ∃ t, r = .next t ∧ Faulted s p m a0 t)
    ?_ ?_ (fun _ _ h => ⟨h.1.drawn, h.2.drawn⟩) ?_ ?_ accessFuel a0 s
    ⟨.begin hp hph hcaches, .begin hp hph⟩ hsteps hlen hpause
  · rintro a s' ⟨h, -⟩
    obtain ⟨q, hq, hsame, -, -⟩ := h.went.proc
    exact ⟨q, hq, hsame.mode.trans hm⟩
  · rintro a s' t d ⟨h, -⟩ hph
    exact (h.walk t d hph).2.2
  · rintro a c s' q a' s'' ⟨h, hwalk⟩ hq hg
    exact ⟨h.goesOn hgood.config hgood.mem rfl hq hg, hwalk.goesOn hgood hq hg⟩
  · rintro a c s' q r ⟨h, hwalk⟩ hq he
    exact h.ends_faulted hgood (fun hpae => hinv.pdptrValid hp (hpae ▸ hm)) hd hden hwalk hq he

/-- Settles O29: the operation of the access runs it, and it page-faults as `Faulted` says. -/
theorem agreeingAccessFaultsWhereMemoryDenies : Obligations.AgreeingAccessFaultsWhereMemoryDenies := by
  unfold Obligations.AgreeingAccessFaultsWhereMemoryDenies
  intro s p m kind la n v hinv hp hm hw hcan hu la' ha hden
  obtain ⟨v', -, hexec⟩ := exec_accessOp_runs hp hw (hm ▸ refusesAddress_of_canonical hcan)
  rw [hm] at hexec
  obtain ⟨t, hrun, hfault⟩ := runAccess_faults (a0 := newAccess kind la' n v' p.cpl) hinv hp hm rfl rfl
    (stepsLeft_newAccess_le ..) hu ha hden
  obtain ⟨q, hq, hlost, hkeyed⟩ := hfault.proc
  exact ⟨t, q, hexec.trans hrun, hq, hfault.trace, hfault.bits, hlost, hkeyed⟩

/-! ### General protection -/

/-- Settles O51: each of these operations begins with the privilege check, which fails above CPL 0. -/
theorem privilegedOperationsFaultAboveCplZero : Obligations.PrivilegedOperationsFaultAboveCplZero := by
  unfold Obligations.PrivilegedOperationsFaultAboveCplZero
  intro s p i hp hcpl hi
  obtain ⟨md, rm, tail, la, rfl⟩ | ⟨md, rm, v, rfl⟩ | ⟨md, rm, v, rfl⟩ | ⟨md, rm, v, rfl⟩ | rfl := hi
  all_goals exact State.privileged_gp s _ p hp hcpl

end Sys2Proof.Machine
end

section
/-! PROOFS. Reset (family 70): the states in which a run may start (R441, R60): each meets the invariant of the
machine, and the machine after reset is one of them. -/

namespace Sys2Proof.Machine

/-- A state in which a run may start meets the invariant: empty caches do as those of R41 do, and no access
is in progress. -/
theorem StartState.inv {s : State} (h : StartState s) : Inv s := by
  refine ⟨h.parameters, h.memory, h.processors, h.current, fun p hp => ?_⟩
  refine Proc.ok_of_idle (h.idle p hp) ?_ (h.pdptrs p hp) ?_
  · have hpae : p.lma = true → p.pae = true := fun hlma =>
      (h.pae p hp).resolve_right (by simp [hlma])
    exact (Proc.modeLegal_iff _ _).mpr ⟨hpae, h.intel64 p hp⟩
  · exact (h.caches p hp).elim (·.cachesOk _) id

/-- There is a logical processor, the first, which takes the first step (R20). -/
theorem Config.nlp_pos_of_wf {cfg : Config} (h : cfg.wf = true) : 0 < cfg.nlp := by
  simp only [Config.wf, Bool.and_eq_true, decide_eq_true_eq] at h
  obtain ⟨⟨-, hnlp⟩, -⟩ := h
  exact hnlp

/-- A logical processor after reset has nothing cached (R60, D12). -/
theorem Proc.reset_nothingCached : Proc.reset.nothingCached := ⟨rfl, rfl, rfl, rfl⟩

/-- Every processor of the machine after reset is the one of R60. -/
theorem eq_reset_of_mem_resetWith {cfg : Config} {image : Memory} {p : Proc}
    (hp : p ∈ (State.resetWith cfg image).procs) : p = Proc.reset :=
  List.eq_of_mem_replicate hp

/-- A run may start in the machine after reset, with legal parameters and a canonical memory image (R440,
R441): LMA is 0, so PAE and `Intel64` are free (R25, R24), and paging is off, so no PDPTR register need be
loaded (R331). -/
theorem startState_resetWith {cfg : Config} {image : Memory} (hc : cfg.wf = true) (hm : image.wf) :
    StartState (State.resetWith cfg image) where
  parameters := hc
  memory := hm
  processors := List.length_replicate
  current := Config.nlp_pos_of_wf hc
  pae p hp := .inr (by rw [eq_reset_of_mem_resetWith hp]; rfl)
  intel64 p hp hlma := by rw [eq_reset_of_mem_resetWith hp] at hlma; cases hlma
  caches p hp := .inl (by rw [eq_reset_of_mem_resetWith hp]; exact Proc.reset_nothingCached)
  pdptrs p hp := by rw [eq_reset_of_mem_resetWith hp]; rfl
  idle p hp := by rw [eq_reset_of_mem_resetWith hp]; rfl

/-- Settles O11: start states meet the invariant, and the machine after reset is one, for `State.reset` with
no byte of memory listed. -/
theorem resetMeetsInvariant : Obligations.ResetMeetsInvariant := by
  unfold Obligations.ResetMeetsInvariant
  refine ⟨fun s => StartState.inv, fun cfg image hc hm => ⟨startState_resetWith hc hm, fun p hp => ?_⟩, ?_⟩
  · rw [eq_reset_of_mem_resetWith hp]
    exact Proc.reset_nothingCached
  · exact startState_resetWith (by decide) (by decide)

end Sys2Proof.Machine
end
